-- ==== Sys2Proof/Word.lean ====
section
/-! DEFINITION. The word types (00_scope R2, R3) and the sparse table that memories and register files are held in. -/
set_option Elab.async false
namespace Sys2Proof

/-- A 32-bit register, instruction word or memory word (R2). -/
abbrev Word := BitVec 32
/-- A byte, the smallest addressable unit (R2). -/
abbrev Byte := BitVec 8
/-- Lane mask, bit l for lane l (R61). -/
abbrev Mask := BitVec 32
/-- A table by number, sorted by key; what an unlisted key holds is said where it is read. -/
abbrev Kv (α : Type) := List (Nat × α)

/-- All 32 lanes. -/
abbrev allLanes : Mask := 0xFFFFFFFF

end Sys2Proof
end

