-- ==== Sys2Proof/Config.lean ====
section
/-! DEFINITION. What the spec leaves to the part (R6): free values, none of which has a body, and the fixed figures of R8. -/
set_option Elab.async false
namespace Sys2Proof.Config

/-- Which of the enabled steps comes next when the schedule names none (R6, R90, R102); log 2. -/
opaque choice : Nat → Nat
/-- Which of the values a plain SP load may return it returns, by tick and byte address (R193); log 6. -/
opaque viewPick : Nat → Nat → Nat
/-- What a lane of a register that enters the window unwritten holds, by tick and 32 · logical position + lane: zero, or a value that a
register of the group has held there, read as a choice (R69); log 7. -/
opaque entering : Nat → Nat → Nat
/-- Whether vsfu delivers the upper of the two bracketing values: function, half precision, rounding mode, input bits
(R382); log 8. A fixed function of its arguments, as R382 says. -/
opaque sfuUpper : Nat → Bool → Nat → BitVec 32 → Bool
/-- Whether a `mjmp` or `mloop` that lands on a header of another class is reported as ILLEGAL (R21, R26) or as TARGET (R342), by tick:
the rules differ; log 102. -/
opaque strayIllegal : Nat → Bool
/-- Which entry a full translation structure replaces (R176: timing only); log 10. -/
opaque victim : Nat → Nat
/-- The countdown the sampling generator draws, by tick (R278); log 22. -/
opaque sampleDraw : Nat → Nat
/-- The device identity key's Falcon-1024 signature of a report (R298); log 21. -/
opaque sign : List (BitVec 8) → List (BitVec 8)
/-- Whether an image's signature verifies against the root key (R297); log 21. -/
opaque verify : BitVec 512 → List (BitVec 8) → Bool
/-- The n-th firmware image the part is given: its bytes, its signature, security version, layouts native first (R297, R299);
log 21. -/
opaque image : Nat → List (BitVec 8)
opaque signature : Nat → List (BitVec 8)
opaque version : Nat → BitVec 32
opaque layouts : Nat → List Nat
/-- The ports that C7's peer table gives a peer at bring-up (R292); log 20. -/
opaque peerMask : Nat → BitVec 12
/-- Whether a peer's access table admits a claim, and what its hub answers: none refuses (R206, R216); log 20. -/
opaque peerAdmits : Nat → Bool
opaque peerClaim : Nat → Option (BitVec 32)
/-- Measured power in mW, by tick (R260, R302); log 22. -/
opaque measured : Nat → Nat
/-- Whether the junction is below 95 °C, by tick (R303); log 22. -/
opaque cool : Nat → Bool
/-- Energy in nJ that the cores of a ladder grid drew in the last microsecond, by tick and task (12 R240); log 22. -/
opaque drawn : Nat → Nat → Nat
/-- Latencies of a sample record, in array clocks, by tick and field (R279); log 22. -/
opaque latency : Nat → Nat → Nat

/-- Local HBM ends here (R14). -/
def hbmEnd : Nat := 0xC000000000
/-- Bytes of a scratchpad slice (R10). -/
def sliceBytes : Nat := 0x1800000
/-- Die offsets from here lie outside every window (R10). -/
def dieSpEnd : Nat := 0x6000000
/-- Bytes of a scale memory (R115). -/
def smBytes : Nat := 16384
/-- The space table's base, set by C2 at bring-up (R170); log 11. -/
def spaceBase : Nat := 0xBF00000000

end Sys2Proof.Config
end

