-- ==== Sys2Proof/Syntax.lean ====
section
/-! DEFINITION. The steps of the part, one constructor per row of the opcode table: 143 instruction words (03_opcode_map,
17 to 19), the clause header (02_clauses R20), and 100 events (95_what_each_step_holds). The switch marker S (R29) is
no part of an `Instr`: it stands in `Decoded`. -/
set_option Elab.async false
namespace Sys2Proof

/-- Engine classes, the CLASS field of a clause header (R20 Table 2-1). -/
inductive Cls | srr | sri | ctl | vec | mem | mtx | asy | sys
  deriving DecidableEq, Repr

/-- Element types, the T field (R45 Table 3-1). -/
inductive VT | f32 | f16x2 | bf16x2 | i32 | n32 | i16x2 | n16x2 | b32
  deriving DecidableEq, Repr

/-- Subgroup widths (R45). -/
inductive SubW | w32 | w16 | w8 | w4
  deriving DecidableEq, Repr

/-- `vcmp` conditions (R45). -/
inductive Cond | eq | ne | lt | le
  deriving DecidableEq, Repr

/-- Memory widths (R45). -/
inductive MemW | b8 | b16 | b32 | b64 | b128
  deriving DecidableEq, Repr

/-- Scopes (R45, R191). -/
inductive Scope | grp | team | clus | dev | sys
  deriving DecidableEq, Repr

/-- Scope-space codes of atomics, `ldacq` and `strel` (R45). -/
inductive SS | shGrp | shTeam | spGrp | spTeam | spClus | spDev | spSys
  deriving DecidableEq, Repr

/-- The five in-flight paths (R45, R151). -/
inductive Path | ld | st | cpy | gth | sfu
  deriving DecidableEq, Repr

/-- Rounding modes (R45, R128). -/
inductive RMode | rne | rz | rdn | rup
  deriving DecidableEq, Repr

/-- The IX field: which of va and vd take %ix (R31). -/
inductive Ix | none | va | vd | both
  deriving DecidableEq, Repr

/-- The vb operand: a vector register, or scalar s0 to s63 broadcast when BS is 1 (R31). -/
inductive VB
  | reg (v : BitVec 6)
  | sc (s : BitVec 6)
  deriving DecidableEq, Repr

/-- A prefix word (R35): MASK, Z, RND when RO is set, VC when VCE is set. -/
structure Pfx where
  mask : BitVec 3
  z : Bool
  rnd : Option RMode
  vc : Option (BitVec 6)
  deriving DecidableEq, Repr

/-- Vector-form address modes (R33 Table 2-6); the element width stands beside them. -/
inductive AM
  | imm (i : BitVec 5)
  | vec (v : BitVec 5)
  | ix
  | wrap (w : BitVec 3) (inc : BitVec 2)
  deriving DecidableEq, Repr

/-- `vred` and `vscan` operators (R52). -/
inductive VRedOp | add | min | max | and | or | xor
  deriving DecidableEq, Repr

/-- `vsfu` functions (R52). -/
inductive SfuFn | rcp | rsq | sqrt | ex2 | lg2 | sin | cos | tanh
  deriving DecidableEq, Repr

/-- `vvote` kinds (R50). -/
inductive VoteKind | any | all | uni | ballot
  deriving DecidableEq, Repr

/-- `vcvt` codes 0x00 to 0x0B (R53 Table 3-6). -/
inductive CvtCode
  | f32i32 | f32n32 | i32f32 | n32f32 | f32f16 | f16f32 | f32bf16 | bf16f32 | f32f8 | f8f32 | i32i8 | i8i32
  deriving DecidableEq, Repr

/-- Atomic operations (R55 Table 3-8). -/
inductive AtomOp
  | add | minI | maxI | minN | maxN | and | or | xor | exch | cas | fadd | fmin | fmax
  deriving DecidableEq, Repr

/-- `barexp` kinds (R48). -/
inductive BarKind | lanes | bytes | eng
  deriving DecidableEq, Repr

/-- Special registers (R49 Table 3-4). -/
inductive SReg
  | lane | grp | teamX | teamY | teamZ | nteam | clus | core | quad | gridX | gridY | gridZ | curd | vseq | codeva
  | fx | fxen | fpm | ix | wb | alloc | clk | clkhi | cpystat | tcause | tpc | mpc
  deriving DecidableEq, Repr

/-- `mmap` roles with the slot of `.acc` (R56). -/
inductive MRole
  | acc (slot : BitVec 3)
  | a
  | b
  deriving DecidableEq, Repr

/-- `mset` destinations (R56). -/
inductive MDst
  | k (n : BitVec 4)
  | pa
  | pb
  deriving DecidableEq, Repr

/-- Who makes an access of a host-visible register or of a table (16_host_trust Table 16-3, R300): a context by its
space, a host function, the management port, a peer, a firmware core. -/
inductive Master
  | ctx (sid : Nat)
  | host (f : Nat)
  | mgmt
  | peer (p : Nat)
  | fw (c : Nat)
  deriving DecidableEq, Repr

/-- What a peer asks of this device (R292): a read or a write of device-physical HBM, the 64-bit atomic of a SIGNAL packet
(R209), a queue claim, a doorbell (R206), a VPIN access (R248). -/
inductive PeerReq
  | read (addr len : Nat)
  | write (addr : Nat) (data : List Byte)
  | atomic (addr : Nat) (op : Nat) (v cmp : BitVec 64)
  | claim (q : Nat)
  | doorbell (q : Nat)
  | vpin (block off : Nat) (v : Word)
  | vpinRead (block off : Nat)
  deriving DecidableEq, Repr

/-- The components of the part that an uncorrectable error or a corrected one names (R302). -/
inductive ErrSource
  | sram (die core : Nat)
  | hbm (die addr : Nat)
  | fabric (die : Nat)
  | link (port : Nat)
  deriving DecidableEq, Repr

/-- What consumes the data of an uncorrectable error (R302): nothing; a group, by its own access or fetch; a bulk command; the hub, for
a command. -/
inductive Consumer
  | nobody
  | group (g : Nat)
  | bulk (b : Nat)
  | command (c : Nat)
  deriving DecidableEq, Repr

/-- The steps of the part, in the order of the opcode table. -/
inductive Instr
  /-- A clause header, taken whole: its fields are checked when it is taken (R20 to R22). -/
  | clauseHeader (h : Word)
  /-- SRR (R358). -/
  | sadd (d a b : BitVec 9)
  /-- SRR (R358). -/
  | ssub (d a b : BitVec 9)
  /-- SRR (R358). -/
  | smul (d a b : BitVec 9)
  /-- SRR (R358). -/
  | smulhiI (d a b : BitVec 9)
  /-- SRR (R358). -/
  | smulhiN (d a b : BitVec 9)
  /-- SRR (R358). -/
  | sand (d a b : BitVec 9)
  /-- SRR (R358). -/
  | sor (d a b : BitVec 9)
  /-- SRR (R358). -/
  | sxor (d a b : BitVec 9)
  /-- SRR (R358). -/
  | sshl (d a b : BitVec 9)
  /-- SRR (R358). -/
  | sshr (d a b : BitVec 9)
  /-- SRR (R358). -/
  | ssra (d a b : BitVec 9)
  /-- SRR (R358). -/
  | sminI (d a b : BitVec 9)
  /-- SRR (R358). -/
  | smaxI (d a b : BitVec 9)
  /-- SRR (R358). -/
  | seq (d a b : BitVec 9)
  /-- SRR (R358). -/
  | sltI (d a b : BitVec 9)
  /-- SRR (R358). -/
  | sltN (d a b : BitVec 9)
  /-- SRI, i is imm9 (R358). -/
  | saddi (d a i : BitVec 9)
  /-- SRI, i is imm9 (R358). -/
  | srsubi (d a i : BitVec 9)
  /-- SRI, i is imm9 (R358). -/
  | smuli (d a i : BitVec 9)
  /-- SRI, i is imm9 (R358). -/
  | sandi (d a i : BitVec 9)
  /-- SRI, i is imm9 (R358). -/
  | sori (d a i : BitVec 9)
  /-- SRI, i is imm9 (R358). -/
  | sxori (d a i : BitVec 9)
  /-- SRI, i is imm9 (R358). -/
  | sshli (d a i : BitVec 9)
  /-- SRI, i is imm9 (R358). -/
  | sshri (d a i : BitVec 9)
  /-- SRI, i is imm9 (R358). -/
  | ssrai (d a i : BitVec 9)
  /-- SRI, i is imm9 (R358). -/
  | seqi (d a i : BitVec 9)
  /-- SRI, i is imm9 (R358). -/
  | sltiI (d a i : BitVec 9)
  /-- SRI, i is imm9 (R358). -/
  | sltiN (d a i : BitVec 9)
  /-- SRI, i is imm9 (R358). -/
  | sminiI (d a i : BitVec 9)
  /-- SRI, i is imm9 (R358). -/
  | smaxiI (d a i : BitVec 9)
  /-- SRI; the field is len + 1 bits from bit pos (R47, R358). -/
  | sbfx (d a : BitVec 9) (pos : BitVec 5) (len : BitVec 4)
  /-- R349. -/
  | nop
  /-- R347. -/
  | movi (d : BitVec 9) (i : BitVec 16)
  /-- R347. -/
  | movhi (d : BitVec 9) (i : BitVec 16)
  /-- R347. -/
  | mov (d a : BitVec 9)
  /-- R353. -/
  | rds (d : BitVec 9) (r : SReg)
  /-- R390. -/
  | wrs (r : SReg) (a : BitVec 9)
  /-- R313. -/
  | br (o : BitVec 25)
  /-- R313. -/
  | bz (a : BitVec 9) (o : BitVec 16)
  /-- R313. -/
  | bnz (a : BitVec 9) (o : BitVec 16)
  /-- R314, R66. -/
  | call (k : BitVec 3) (o : BitVec 22)
  /-- R357, R66. -/
  | ret
  /-- R86, R365. -/
  | split (m : BitVec 3) (t r : BitVec 11)
  /-- R332. -/
  | join
  /-- R322. -/
  | exit
  /-- R389. -/
  | waitc (p : Path) (a : BitVec 9)
  /-- R93, R311. -/
  | barinit (n : BitVec 4)
  /-- R93, R311. -/
  | barexp (k : BarKind) (n : BitVec 4) (a : BitVec 9)
  /-- R93, R311. -/
  | barin (n : BitVec 4)
  /-- R93, R94, R311. -/
  | barwait (n : BitVec 4)
  /-- R93, R94, R311. -/
  | barsync (n : BitVec 4)
  /-- R96, R324. -/
  | fork
  /-- R97, R354. -/
  | rdzv
  /-- R226, R392. -/
  | yield
  /-- R71, R329. -/
  | grow (d : BitVec 9) (n : BitVec 4)
  /-- R73, R362. -/
  | shrink (n : BitVec 4)
  /-- R70, R361. -/
  | setix (a : BitVec 9) (i : BitVec 16)
  /-- R373. -/
  | vadd (p : Option Pfx) (t : VT) (x : Ix) (d a : BitVec 6) (b : VB)
  /-- R373. -/
  | vsub (p : Option Pfx) (t : VT) (x : Ix) (d a : BitVec 6) (b : VB)
  /-- R373. -/
  | vmul (p : Option Pfx) (t : VT) (x : Ix) (d a : BitVec 6) (b : VB)
  /-- R373. -/
  | vfma (p : Option Pfx) (t : VT) (x : Ix) (d a : BitVec 6) (b : VB)
  /-- R373. -/
  | vmin (p : Option Pfx) (t : VT) (x : Ix) (d a : BitVec 6) (b : VB)
  /-- R373. -/
  | vmax (p : Option Pfx) (t : VT) (x : Ix) (d a : BitVec 6) (b : VB)
  /-- R373. -/
  | vabs (p : Option Pfx) (t : VT) (x : Ix) (d a : BitVec 6)
  /-- R373. -/
  | vneg (p : Option Pfx) (t : VT) (x : Ix) (d a : BitVec 6)
  /-- R374. -/
  | vand (p : Option Pfx) (x : Ix) (d a : BitVec 6) (b : VB)
  /-- R374. -/
  | vor (p : Option Pfx) (x : Ix) (d a : BitVec 6) (b : VB)
  /-- R374. -/
  | vxor (p : Option Pfx) (x : Ix) (d a : BitVec 6) (b : VB)
  /-- R374. -/
  | vnot (p : Option Pfx) (x : Ix) (d a : BitVec 6)
  /-- R374. -/
  | vshl (p : Option Pfx) (t : VT) (x : Ix) (d a : BitVec 6) (b : VB)
  /-- R374. -/
  | vshr (p : Option Pfx) (t : VT) (x : Ix) (d a : BitVec 6) (b : VB)
  /-- R374. -/
  | vsra (p : Option Pfx) (t : VT) (x : Ix) (d a : BitVec 6) (b : VB)
  /-- R373. -/
  | vmulhi (p : Option Pfx) (t : VT) (x : Ix) (d a : BitVec 6) (b : VB)
  /-- R375. -/
  | vcmp (p : Option Pfx) (t : VT) (c : Cond) (m : BitVec 3) (a : BitVec 6) (b : VB)
  /-- R376. -/
  | vsel (p : Option Pfx) (m : BitVec 3) (x : Ix) (d a : BitVec 6) (b : VB)
  /-- R377. -/
  | vmov (p : Option Pfx) (x : Ix) (d : BitVec 6) (b : VB)
  /-- R377. -/
  | vbcast (p : Option Pfx) (w : SubW) (d a : BitVec 6) (lane : BitVec 5)
  /-- R377. -/
  | vidx (p : Option Pfx) (x : Ix) (d : BitVec 6)
  /-- R378; slot is the T field (R53). -/
  | vcvt (p : Option Pfx) (c : CvtCode) (nsat : Bool) (slot : BitVec 3) (x : Ix) (d a : BitVec 6)
  /-- R378. -/
  | vqcvt (p : Option Pfx) (slot : BitVec 3) (x : Ix) (d a : BitVec 6)
  /-- R381. -/
  | vsfu (p : Option Pfx) (f : SfuFn) (t : VT) (x : Ix) (d a : BitVec 6)
  /-- R383. -/
  | vshfl (p : Option Pfx) (w : SubW) (d a : BitVec 6) (b : VB)
  /-- R383. -/
  | vshflup (p : Option Pfx) (w : SubW) (d a : BitVec 6) (b : VB)
  /-- R383. -/
  | vshfldn (p : Option Pfx) (w : SubW) (d a : BitVec 6) (b : VB)
  /-- R383. -/
  | vshflx (p : Option Pfx) (w : SubW) (d a : BitVec 6) (b : VB)
  /-- R384. -/
  | vvote (p : Option Pfx) (k : VoteKind) (w : SubW) (d a : BitVec 6)
  /-- R385. -/
  | vred (p : Option Pfx) (op : VRedOp) (t : VT) (w : SubW) (d a : BitVec 6)
  /-- R385. -/
  | vscan (p : Option Pfx) (op : VRedOp) (ex : Bool) (t : VT) (w : SubW) (d a : BitVec 6)
  /-- R374. -/
  | vpopc (p : Option Pfx) (x : Ix) (d a : BitVec 6)
  /-- R374. -/
  | vclz (p : Option Pfx) (x : Ix) (d a : BitVec 6)
  /-- R380. -/
  | vdot4 (p : Option Pfx) (t : VT) (x : Ix) (d a : BitVec 6) (b : VB)
  /-- R377; d names s0 to s63. -/
  | vtos (p : Option Pfx) (x : Ix) (d a : BitVec 6) (lane : BitVec 5)
  /-- R377; a names s0 to s63. -/
  | vins (p : Option Pfx) (x : Ix) (d a : BitVec 6) (lane : BitVec 5)
  /-- R379. -/
  | vpack (p : Option Pfx) (t : VT) (x : Ix) (d a : BitVec 6) (b : VB)
  /-- R379. -/
  | vunpk (p : Option Pfx) (t : VT) (hi : Bool) (d a : BitVec 6)
  /-- R335, R336; SH. -/
  | lds (w : MemW) (d : BitVec 6) (b : BitVec 9) (m : AM)
  /-- R335, R336; SH. -/
  | sts (w : MemW) (d : BitVec 6) (b : BitVec 9) (m : AM)
  /-- R335, R336; SP. -/
  | ldp (w : MemW) (d : BitVec 6) (b : BitVec 9) (m : AM)
  /-- R335, R336; SP. -/
  | stp (w : MemW) (d : BitVec 6) (b : BitVec 9) (m : AM)
  /-- R363. -/
  | sld (sp : Bool) (w : MemW) (d b : BitVec 9) (i : BitVec 5)
  /-- R363. -/
  | sst (sp : Bool) (w : MemW) (d b : BitVec 9) (i : BitVec 5)
  /-- R306, R307. -/
  | atom (op : AtomOp) (ss : SS) (ret : Bool) (d : BitVec 6) (b : BitVec 9)
  /-- R306, R307. -/
  | atoms (op : AtomOp) (ss : SS) (ret : Bool) (d b : BitVec 9)
  /-- R333. -/
  | ldacq (ss : SS) (d b : BitVec 9) (i : BitVec 5)
  /-- R333. -/
  | strel (ss : SS) (d b : BitVec 9) (i : BitVec 5)
  /-- R343; steps is the field, one less than the count. -/
  | mma (base : BitVec 3) (n : BitVec 2) (a b : BitVec 6) (steps : BitVec 4) (f : BitVec 3)
  /-- R343. -/
  | mmas (base : BitVec 3) (n : BitVec 2) (a b : BitVec 6) (steps : BitVec 4) (f : BitVec 3)
  /-- R340. -/
  | mzero (base : BitVec 3) (n : BitVec 2)
  /-- R345. -/
  | mmap (r : MRole) (g : BitVec 6)
  /-- R339. -/
  | mbin (n : BitVec 4)
  /-- R339. -/
  | mbwait (n : BitVec 4)
  /-- R342. -/
  | mloop (k : BitVec 4) (o : BitVec 22)
  /-- R342. -/
  | mjmp (o : BitVec 22)
  /-- R341. -/
  | mend
  /-- R348. -/
  | mset (d : MDst) (i : BitVec 16)
  /-- R348. -/
  | mshare (v : BitVec 4)
  /-- R340. -/
  | mcpy (d s : BitVec 3)
  /-- R315, R317. -/
  | cpy (rel res : Bool) (d : BitVec 9) (bar : Option (BitVec 4))
  /-- R318. -/
  | cpymc (rel : Bool) (d x : BitVec 9) (bar : Option (BitVec 4))
  /-- R319. -/
  | cpyred (rel : Bool) (d x : BitVec 9) (bar : Option (BitVec 4))
  /-- R325, R326. -/
  | gathPark (d : BitVec 9) (bar : Option (BitVec 4))
  /-- R325, R326. -/
  | gathTol (d x : BitVec 9) (bar : Option (BitVec 4))
  /-- R359. -/
  | scat (rel : Bool) (d : BitVec 9) (bar : Option (BitVec 4))
  /-- R355. -/
  | resadd (d : BitVec 9)
  /-- R355. -/
  | resdel (d : BitVec 9)
  /-- R355. -/
  | resq (x d : BitVec 9)
  /-- R320. -/
  | enq (d : BitVec 9)
  /-- R351. -/
  | qpost (d : BitVec 9)
  /-- R346. -/
  | modeM
  /-- R346. -/
  | modeV (n : BitVec 4)
  /-- R360. -/
  | seal (last : Bool) (q d : BitVec 9)
  /-- R387. -/
  | vpin (d v : BitVec 9)
  /-- R387. -/
  | vunpin (v sl : BitVec 9)
  /-- R387. -/
  | vwait (q v : BitVec 9)
  /-- R350. -/
  | phacq (sc : Scope)
  /-- R350. -/
  | phrel (sc : Scope)
  /-- R323. -/
  | fence (sc : Scope)
  /-- R370. -/
  | trap (i : BitVec 8)
  /-- R271. -/
  | brk (i : BitVec 8)
  /-- R368. -/
  | tagset (d : BitVec 9)
  /-- R364. -/
  | snap
  /-- R328. -/
  | gbar
  /-- R331. -/
  | invrg (d x : BitVec 9)
  /-- Operation id of group g completes (R151). -/
  | loadComplete (g id : Nat)
  /-- R192. -/
  | storePerformed (g id : Nat)
  /-- Lane l of the atomic (R307). -/
  | atomicPerform (g id l : Nat)
  /-- R381. -/
  | vsfuResult (g id : Nat)
  /-- Piece k of bulk command b (R155). -/
  | copyDelivery (b k : Nat)
  /-- Piece k of b to core c (R160). -/
  | multicastDelivery (b k c : Nat)
  /-- R162. -/
  | reductionContribution (b : Nat)
  /-- R164. -/
  | gatherLaneDelivery (b l : Nat)
  /-- R166. -/
  | scatterRowWrite (b l : Nat)
  /-- The pending write of core c to SP byte a (R193). -/
  | pendingWritePublish (c a : Nat)
  /-- The oldest unwritten step of team t (R114). -/
  | matrixStepWrite (t : Nat)
  /-- R84. -/
  | sequencerRunawayStop (t : Nat)
  /-- Quadrant q of core c (R71). -/
  | growGrant (c q : Nat)
  /-- R225. -/
  | activeSetEntry (c q : Nat)
  /-- R76. -/
  | groupRelease (g : Nat)
  /-- R214. -/
  | taskRetire (t : Nat)
  /-- R211. -/
  | commandComplete (c : Nat)
  /-- R206. -/
  | qclaim (m : Master) (q : Nat)
  /-- R207. -/
  | qdoor (m : Master) (v : Word)
  /-- The packet at the head of queue q (R209). -/
  | launch (q : Nat)
  /-- R209. -/
  | copyPacket (q : Nat)
  /-- R209. -/
  | signal (q : Nat)
  /-- R209. -/
  | waitvalue (q : Nat)
  /-- R209. -/
  | waitvaluePoll (q : Nat)
  /-- R209. -/
  | inval (q : Nat)
  /-- R209. -/
  | configCreate (q : Nat)
  /-- R209. -/
  | configDestroy (q : Nat)
  /-- R209. -/
  | configSkip (q : Nat)
  /-- R220. -/
  | placementStep
  /-- R227. -/
  | preemption (cl : Nat)
  /-- R228. -/
  | saveAreaWrite (cl : Nat)
  /-- R238. -/
  | sealPoint (t : Nat)
  /-- R235. -/
  | curdSlotChoice (t : Nat)
  /-- R264. -/
  | staggerWave (t w : Nat)
  /-- R240. -/
  | timeLimitCut (t : Nat)
  /-- R240. -/
  | energyLimitCut (t : Nat)
  /-- R241. -/
  | cutVatEnd (t : Nat)
  /-- R248. -/
  | vpinRead (m : Master) (i : Nat)
  /-- R248. -/
  | vpinPin (m : Master) (i : Nat)
  /-- R248. -/
  | vpinUnpin (m : Master) (i : Nat)
  /-- R248. -/
  | vpinClear (m : Master) (i : Nat)
  /-- R178. -/
  | walkStart (d : Nat)
  /-- R179. -/
  | walkEnd (d k : Nat)
  /-- R183. -/
  | fltreplay (d : Nat) (v : Word)
  /-- R187. -/
  | invalidationPerform (n : Nat)
  /-- R188. -/
  | invalidationComplete (n : Nat)
  /-- R189. -/
  | invrange (m : Master) (v : Word)
  /-- R177. -/
  | rangeEntryWrite (d i : Nat) (img : List Word)
  /-- The measured power of the last window in mW (R260). -/
  | grantBudgetUpdate (mw : Nat)
  /-- R262, R260: the measured power in mW where no microsecond has been measured yet. -/
  | boostIntervalStart (mw : Nat)
  /-- R259. -/
  | clockStepRise (c : Nat)
  /-- R265. -/
  | ballastCheck
  /-- R265. -/
  | ballastRampEnd (c : Nat)
  /-- R266. -/
  | capMessage (seq : Word) (w : Nat)
  /-- R266. -/
  | capLeaseExpiry
  /-- R303. -/
  | thermalBoostHold (on : Bool)
  /-- R303. -/
  | thermalBudgetFloor (on : Bool)
  /-- R303. -/
  | thermalShutdown
  /-- R269. -/
  | stopComplete (k : Nat)
  /-- R275. -/
  | snaptrigArm (v : Word)
  /-- R275. -/
  | snaptrigFire (v : Word)
  /-- R278. -/
  | sampleTag (c q : Nat)
  /-- R279. -/
  | sampleRecordWrite (c q : Nat)
  /-- R286. -/
  | replayGateTimeout (c : Nat)
  /-- R293. -/
  | mboxSend (m : Master) (n : Nat)
  /-- R293. -/
  | mboxPop (m : Master) (n : Nat)
  /-- The oldest message of the mailbox its row names (R294). -/
  | spaceCreate
  /-- R294. -/
  | spaceDestroy
  /-- R294. -/
  | queue0Init
  /-- R294. -/
  | accessWrite
  /-- R294. -/
  | debugEnable
  /-- R294. -/
  | record
  /-- R294. -/
  | replay
  /-- R294. -/
  | stop
  /-- R294, R270. -/
  | resume
  /-- R294. -/
  | freeze
  /-- R294. -/
  | stateRead
  /-- R294. -/
  | stateWrite
  /-- R294. -/
  | watch
  /-- R294. -/
  | sample
  /-- R294. -/
  | assign
  /-- R296. -/
  | quicksetTakeover (failed : List Nat)
  /-- R297: whether the boot ends well. -/
  | coldReset (ok : Bool)
  /-- R303. -/
  | warmReset
  /-- R299. -/
  | firmwareUpdate
  /-- R299. -/
  | firmwareActivate
  /-- R299. -/
  | managementOverride
  /-- R298. -/
  | attestationRequest (nonce : List Byte)
  /-- R302. -/
  | pldmSensorRead
  /-- R302. -/
  | uncorrectableError (src : ErrSource) (who : Consumer) (addr : Nat)
  /-- R292. -/
  | portRetrainFail (p : Nat)
  /-- R292. -/
  | peerRequest (p : Nat) (r : PeerReq)
  /-- R300. -/
  | acctab (m : Master) (v : Word)
  /-- R223. -/
  | reswin (m : Master) (v : Word)
  /-- R5. -/
  | registerWrite (m : Master) (off : Nat) (v : Word)
  /-- R296. -/
  | deviceFailure (c : Nat)
  /-- R227. -/
  | preemptionAbandon (cl : Nat)
  /-- R302. -/
  | correctedSoftError (src : ErrSource)
  /-- R300. -/
  | hdmAccess (f : Nat) (wr : Bool) (addr : Nat) (data : List Byte)
  /-- R174. -/
  | peerRefusal (b : Nat)
  deriving DecidableEq, Repr

end Sys2Proof
end

