-- ==== Sys2Proof/WellFormed.lean ====
section
/-! DEFINITION. The static operand limits of R36 and R45 to R58: which terms of `Instr` some word encodes. The decoder
refuses, and a meaning traps ILLEGAL on, exactly what is not well-formed. -/
set_option Elab.async false
namespace Sys2Proof

/-- The static limits, by name; each is ILLEGAL (R43 step 1). -/
inductive WfErr
  /-- A T code outside the permitted set of the op (R50, R52). -/
  | typeNotPermitted
  /-- An IX code that adds %ix to a field the op does not use as a vector register (R51). -/
  | ixNotUsed
  /-- Z without a mask (R36). -/
  | zWithoutMask
  /-- VC on an op without a fourth operand (R36, R51). -/
  | noFourthOperand
  /-- RO on an op that performs no rounding (R36, R51). -/
  | noRounding
  /-- A shift immediate above 31 (R47). -/
  | shiftRange
  /-- An `sbfx` field that passes bit 31 (R47). -/
  | fieldRange
  /-- `grow` or `shrink` with n = 0 or 15 (R48). -/
  | granuleCount
  /-- An odd scalar register where a pair is named (R48, R54, R57, R58). -/
  | oddPair
  /-- A vector block not aligned to its width (R54). -/
  | blockAlign
  /-- An atomic's register block past the last register (R54, R306). -/
  | blockRange
  /-- A 128-bit scalar access, which has no code (R54). -/
  | scalarWidth
  /-- A tile count of 0, or tiles past a7 (R56, R343). -/
  | tileRange
  /-- An odd A or B base (R56). -/
  | oddBase
  /-- `mshare` of 0 (R56). -/
  | shareZero
  /-- A descriptor scalar that is not a multiple of 8 (R57). -/
  | descAlign
  /-- A descriptor or result block past s511 (R245, R331, R351, R355, R368). -/
  | descRange
  /-- `wrs` to a read-only register (R48). -/
  | readOnly
  /-- NSAT on a code other than 0x08, or a slot on a code that names none (R53). -/
  | convField
  deriving DecidableEq, Repr

/-- T codes F (R50). -/
def VT.isF : VT → Bool
  | .f32 | .f16x2 | .bf16x2 => true
  | _ => false
/-- T codes I (R50). -/
def VT.isI : VT → Bool
  | .i32 | .n32 | .i16x2 | .n16x2 => true
  | _ => false

/-- The first failing check of a list of named checks. -/
def firstErr : List (Bool × WfErr) → Option WfErr
  | [] => none
  | (b, e) :: r => if b then firstErr r else some e

/-- The prefix conditions of R36 that name the op: `rnds` when the op rounds, `four` when it takes a fourth operand. -/
def pfxOk (rnds four : Bool) : Option Pfx → List (Bool × WfErr)
  | none => []
  | some p => [(!p.z || p.mask != 0, .zWithoutMask), (p.rnd.isNone || rnds, .noRounding), (p.vc.isNone || four, .noFourthOperand)]

/-- Which conversion codes round (R51). -/
def CvtCode.rounds : CvtCode → Bool
  | .f32i32 | .f32n32 | .f32f16 | .f32bf16 | .f32f8 => true
  | _ => false
/-- Codes whose T field names a format slot (R53). -/
def CvtCode.slotted : CvtCode → Bool
  | .f32f8 | .f8f32 => true
  | _ => false

/-- Permitted T of an operator (R52). -/
def VRedOp.permits (op : VRedOp) (t : VT) : Bool :=
  match op with
  | .add | .min | .max => t.isF || t.isI
  | .and | .or | .xor => t == .b32

/-- sd is even. -/
def evenReg (r : BitVec 9) : Bool := !r.getLsbD 0
/-- An odd or too high descriptor scalar of a block that ends by s511. -/
def descOk (r : BitVec 9) (top : Nat) : List (Bool × WfErr) := [(evenReg r, .oddPair), (decide (r.toNat ≤ top), .descRange)]

/-- Alignment of a vector block of a width (R54). -/
def blockOk (w : MemW) (d : BitVec 6) : Bool :=
  match w with
  | .b64 => d.toNat % 2 == 0
  | .b128 => d.toNat % 4 == 0
  | _ => true

/-- Tile count and slot range of `mma`, `mmas` and `mzero` (R56). -/
def tilesOk (base : BitVec 3) (n : BitVec 2) : Bool := n != 0 && decide (base.toNat + n.toNat ≤ 8)

/-- Special registers that are 64 bits wide (R49). -/
def SReg.wide : SReg → Bool
  | .curd | .codeva => true
  | _ => false

/-- Special registers that may be written (R49, R390). -/
def SReg.writable : SReg → Bool
  | .fx | .fxen | .fpm | .ix | .cpystat => true
  | _ => false

/-- The static checks of one instruction, in the table's order; the clause header and the events have none. -/
def checks : Instr → List (Bool × WfErr)
  | .sshli _ _ i | .sshri _ _ i | .ssrai _ _ i => [(decide (i.toNat ≤ 31), .shiftRange)]
  | .sbfx _ _ pos len => [(decide (pos.toNat + len.toNat + 1 ≤ 32), .fieldRange)]
  | .rds d r => [(!r.wide || evenReg d, .oddPair)]
  | .wrs r _ => [(r.writable, .readOnly)]
  | .grow _ n | .shrink n => [(n != 0 && n != 15, .granuleCount)]
  | .vadd p t _ _ _ _ | .vsub p t _ _ _ _ | .vmul p t _ _ _ _ => (t.isF || t.isI, .typeNotPermitted) :: pfxOk t.isF false p
  | .vfma p t _ _ _ _ => (t.isF, .typeNotPermitted) :: pfxOk true true p
  | .vmin p t _ _ _ _ | .vmax p t _ _ _ _ => (t.isF || t.isI, .typeNotPermitted) :: pfxOk false false p
  | .vabs p t _ _ _ | .vneg p t _ _ _ => (t.isF || t == .i32 || t == .i16x2, .typeNotPermitted) :: pfxOk false false p
  | .vand p _ _ _ _ | .vor p _ _ _ _ | .vxor p _ _ _ _ => pfxOk false false p
  | .vnot p _ _ _ | .vpopc p _ _ _ | .vclz p _ _ _ => pfxOk false false p
  | .vshl p t _ _ _ _ | .vshr p t _ _ _ _ => (t.isI || t == .b32, .typeNotPermitted) :: pfxOk false false p
  | .vsra p t _ _ _ _ => (t == .i32 || t == .i16x2, .typeNotPermitted) :: pfxOk false false p
  | .vmulhi p t _ _ _ _ => (t.isI, .typeNotPermitted) :: pfxOk false false p
  | .vcmp p t _ _ _ _ => (t.isF || t.isI, .typeNotPermitted) :: pfxOk false false p
  | .vsel p _ _ _ _ _ => pfxOk false false p
  | .vmov p x _ _ | .vidx p x _ => (x == .none || x == .vd, .ixNotUsed) :: pfxOk false false p
  | .vbcast p _ _ _ _ => pfxOk false false p
  | .vcvt p c nsat slot _ _ _ =>
    (!nsat || c == .f32f8, .convField) :: (c.slotted || slot == 0, .convField) :: pfxOk c.rounds false p
  | .vqcvt p _ _ _ _ => pfxOk false false p
  | .vsfu p _ t _ _ _ => (t == .f32 || t == .f16x2, .typeNotPermitted) :: pfxOk true false p
  | .vshfl p _ _ _ _ | .vshflup p _ _ _ _ | .vshfldn p _ _ _ _ | .vshflx p _ _ _ _ | .vvote p _ _ _ _ => pfxOk false false p
  | .vred p op t _ _ _ | .vscan p op _ t _ _ _ => (op.permits t, .typeNotPermitted) :: pfxOk t.isF false p
  | .vdot4 p t _ _ _ _ => (t == .i32 || t == .n32, .typeNotPermitted) :: pfxOk false false p
  | .vtos p x _ _ _ => (x == .none || x == .va, .ixNotUsed) :: pfxOk false false p
  | .vins p x _ _ _ => (x == .none || x == .vd, .ixNotUsed) :: pfxOk false false p
  | .vpack p t _ _ _ _ =>
    (t == .f16x2 || t == .bf16x2 || t == .i16x2 || t == .n16x2, .typeNotPermitted) :: pfxOk t.isF false p
  | .vunpk p t _ _ _ => (t == .f16x2 || t == .bf16x2 || t == .i16x2 || t == .n16x2, .typeNotPermitted) :: pfxOk false false p
  | .lds w d _ _ | .sts w d _ _ | .ldp w d _ _ | .stp w d _ _ => [(blockOk w d, .blockAlign)]
  | .sld _ w d _ _ | .sst _ w d _ _ => [(w != .b128, .scalarWidth), (w != .b64 || evenReg d, .oddPair)]
  | .atom op _ _ d _ => [(decide (d.toNat + (if op = .cas then 2 else 1) ≤ 63), .blockRange)]
  | .atoms op _ _ d _ => [(op != .cas || decide (d.toNat + 1 ≤ 511), .blockRange)]
  | .mma base n a b _ _ | .mmas base n a b _ _ => [(tilesOk base n, .tileRange), (!a.getLsbD 0 && !b.getLsbD 0, .oddBase)]
  | .mzero base n => [(tilesOk base n, .tileRange)]
  | .mshare v => [(v != 0, .shareZero)]
  | .cpy _ _ d _ | .cpyred _ d _ _ | .gathPark d _ | .gathTol d _ _ | .scat _ d _ => [(d.toNat % 8 == 0, .descAlign)]
  | .cpymc _ d x _ => [(d.toNat % 8 == 0, .descAlign), (evenReg x, .oddPair)]
  | .resadd d | .resdel d | .resq _ d => descOk d 508
  | .enq d => [(evenReg d, .oddPair)]
  | .qpost d => descOk d 508
  | .seal _ _ d => [(evenReg d, .oddPair)]
  | .vpin d v => [(decide (d.toNat ≤ 508), .descRange), (evenReg v, .oddPair)]
  | .vunpin v _ => [(evenReg v, .oddPair)]
  | .vwait _ v => [(evenReg v, .oddPair)]
  | .tagset d => descOk d 508
  | .invrg d _ => descOk d 506
  | _ => []

/-- The static limit an instruction breaks, if any. -/
def wfErr (i : Instr) : Option WfErr := firstErr (checks i)

/-- Some word of its class encodes it. -/
abbrev Instr.WellFormed (i : Instr) : Prop := wfErr i = none

end Sys2Proof
end

