-- ==== Sys2Proof/Decode.lean ====
section
/-! DEFINITION. The decoder of clause words (02_clauses R20 to R36, 03_opcode_map R42 to R60), total on any words, and after it
the encoder, written from the same tables. -/
set_option Elab.async false
namespace Sys2Proof

/-- Why a word is refused; each is ILLEGAL but `short`, which no fetch meets. -/
inductive DecErr
  /-- The opcode is not assigned in its class (R44). -/
  | unassigned
  /-- A bit the layout leaves unnamed is set (R48, R56 to R58, R305). -/
  | reservedBit
  /-- A field holds a code marked illegal (R45). -/
  | illegalCode
  /-- BS is 1 where vb names no register (R51). -/
  | broadcast
  /-- A static operand limit (R36, R45 to R58). -/
  | limit (e : WfErr)
  /-- S is set in a prefix word, [9:0] is not zero, or a field is set whose enable is not (R36). -/
  | prefixField
  /-- A prefix as the last word of its clause (R36). -/
  | prefixLast
  /-- A prefix before a prefix (R36). -/
  | prefixTwice
  /-- A word taken as a header without the signature 1011b (R23, R26). -/
  | noSignature
  /-- COUNT is 0 (R21). -/
  | countZero
  /-- ORD without STOP (R21). -/
  | ordWithoutStop
  /-- WBID without WBE (R21). -/
  | wbidWithoutWbe
  /-- Fewer bytes than a word. -/
  | short
  deriving DecidableEq, Repr

/-- Bits [lo + n - 1 : lo] of a word. -/
abbrev fld (w : Word) (lo n : Nat) : BitVec n := w.extractLsb' lo n
/-- One bit of a word. -/
abbrev bitOf (w : Word) (i : Nat) : Bool := w.getLsbD i

/-- Go on if `b`, else refuse. -/
def need {α : Type} (b : Bool) (e : DecErr) (r : Except DecErr α) : Except DecErr α := if b then r else .error e

/-- Sub-field codes (R45 Table 3-1, R50, R52, R53, R55, R58). -/
def VT.ofCode (c : BitVec 3) : VT :=
  match c.toNat with
  | 0 => .f32 | 1 => .f16x2 | 2 => .bf16x2 | 3 => .i32 | 4 => .n32 | 5 => .i16x2 | 6 => .n16x2 | _ => .b32
def VT.code : VT → BitVec 3
  | .f32 => 0 | .f16x2 => 1 | .bf16x2 => 2 | .i32 => 3 | .n32 => 4 | .i16x2 => 5 | .n16x2 => 6 | .b32 => 7
def SubW.ofCode (c : BitVec 2) : SubW :=
  match c.toNat with
  | 0 => .w32 | 1 => .w16 | 2 => .w8 | _ => .w4
def SubW.code : SubW → BitVec 2
  | .w32 => 0 | .w16 => 1 | .w8 => 2 | .w4 => 3
def Cond.ofCode (c : BitVec 2) : Cond :=
  match c.toNat with
  | 0 => .eq | 1 => .ne | 2 => .lt | _ => .le
def Cond.code : Cond → BitVec 2
  | .eq => 0 | .ne => 1 | .lt => 2 | .le => 3
def Ix.ofCode (c : BitVec 2) : Ix :=
  match c.toNat with
  | 0 => .none | 1 => .va | 2 => .vd | _ => .both
def Ix.code : Ix → BitVec 2
  | .none => 0 | .va => 1 | .vd => 2 | .both => 3
def RMode.ofCode (c : BitVec 2) : RMode :=
  match c.toNat with
  | 0 => .rne | 1 => .rz | 2 => .rdn | _ => .rup
def RMode.code : RMode → BitVec 2
  | .rne => 0 | .rz => 1 | .rdn => 2 | .rup => 3
def VoteKind.ofCode (c : BitVec 2) : VoteKind :=
  match c.toNat with
  | 0 => .any | 1 => .all | 2 => .uni | _ => .ballot
def VoteKind.code : VoteKind → BitVec 2
  | .any => 0 | .all => 1 | .uni => 2 | .ballot => 3
def MemW.ofCode (c : BitVec 3) : Option MemW :=
  match c.toNat with
  | 0 => some .b8 | 1 => some .b16 | 2 => some .b32 | 3 => some .b64 | 4 => some .b128 | _ => none
def MemW.code : MemW → BitVec 3
  | .b8 => 0 | .b16 => 1 | .b32 => 2 | .b64 => 3 | .b128 => 4
def Scope.ofCode (c : BitVec 3) : Option Scope :=
  match c.toNat with
  | 0 => some .grp | 1 => some .team | 2 => some .clus | 3 => some .dev | 4 => some .sys | _ => none
def Scope.code : Scope → BitVec 3
  | .grp => 0 | .team => 1 | .clus => 2 | .dev => 3 | .sys => 4
def SS.ofCode (c : BitVec 3) : Option SS :=
  match c.toNat with
  | 0 => some .shGrp | 1 => some .shTeam | 2 => some .spGrp | 3 => some .spTeam | 4 => some .spClus | 5 => some .spDev
  | 6 => some .spSys | _ => none
def SS.code : SS → BitVec 3
  | .shGrp => 0 | .shTeam => 1 | .spGrp => 2 | .spTeam => 3 | .spClus => 4 | .spDev => 5 | .spSys => 6
def Path.ofCode (c : BitVec 3) : Option Path :=
  match c.toNat with
  | 0 => some .ld | 1 => some .st | 2 => some .cpy | 3 => some .gth | 4 => some .sfu | _ => none
def Path.code : Path → BitVec 3
  | .ld => 0 | .st => 1 | .cpy => 2 | .gth => 3 | .sfu => 4
def SfuFn.ofCode (c : BitVec 3) : SfuFn :=
  match c.toNat with
  | 0 => .rcp | 1 => .rsq | 2 => .sqrt | 3 => .ex2 | 4 => .lg2 | 5 => .sin | 6 => .cos | _ => .tanh
def SfuFn.code : SfuFn → BitVec 3
  | .rcp => 0 | .rsq => 1 | .sqrt => 2 | .ex2 => 3 | .lg2 => 4 | .sin => 5 | .cos => 6 | .tanh => 7
def VRedOp.ofCode (c : BitVec 3) : Option VRedOp :=
  match c.toNat with
  | 0 => some .add | 1 => some .min | 2 => some .max | 3 => some .and | 4 => some .or | 5 => some .xor | _ => none
def VRedOp.code : VRedOp → BitVec 3
  | .add => 0 | .min => 1 | .max => 2 | .and => 3 | .or => 4 | .xor => 5
def CvtCode.ofCode (c : BitVec 5) : Option CvtCode :=
  match c.toNat with
  | 0 => some .f32i32 | 1 => some .f32n32 | 2 => some .i32f32 | 3 => some .n32f32 | 4 => some .f32f16 | 5 => some .f16f32
  | 6 => some .f32bf16 | 7 => some .bf16f32 | 8 => some .f32f8 | 9 => some .f8f32 | 10 => some .i32i8 | 11 => some .i8i32
  | _ => none
def CvtCode.code : CvtCode → BitVec 5
  | .f32i32 => 0 | .f32n32 => 1 | .i32f32 => 2 | .n32f32 => 3 | .f32f16 => 4 | .f16f32 => 5
  | .f32bf16 => 6 | .bf16f32 => 7 | .f32f8 => 8 | .f8f32 => 9 | .i32i8 => 10 | .i8i32 => 11
def AtomOp.ofCode (c : BitVec 4) : Option AtomOp :=
  match c.toNat with
  | 0 => some .add | 1 => some .minI | 2 => some .maxI | 3 => some .minN | 4 => some .maxN | 5 => some .and | 6 => some .or
  | 7 => some .xor | 8 => some .exch | 9 => some .cas | 10 => some .fadd | 11 => some .fmin | 12 => some .fmax | _ => none
def AtomOp.code : AtomOp → BitVec 4
  | .add => 0 | .minI => 1 | .maxI => 2 | .minN => 3 | .maxN => 4 | .and => 5 | .or => 6
  | .xor => 7 | .exch => 8 | .cas => 9 | .fadd => 10 | .fmin => 11 | .fmax => 12
def BarKind.ofCode (c : BitVec 2) : Option BarKind :=
  match c.toNat with
  | 0 => some .lanes | 1 => some .bytes | 2 => some .eng | _ => none
def BarKind.code : BarKind → BitVec 2
  | .lanes => 0 | .bytes => 1 | .eng => 2
def Cls.ofCode (c : BitVec 3) : Cls :=
  match c.toNat with
  | 0 => .srr | 1 => .sri | 2 => .ctl | 3 => .vec | 4 => .mem | 5 => .mtx | 6 => .asy | _ => .sys
def Cls.code : Cls → BitVec 3
  | .srr => 0 | .sri => 1 | .ctl => 2 | .vec => 3 | .mem => 4 | .mtx => 5 | .asy => 6 | .sys => 7
/-- Numbers of the special registers (R49 Table 3-4). -/
def SReg.ofCode (c : BitVec 10) : Option SReg :=
  match c.toNat with
  | 0x000 => some .lane | 0x001 => some .grp | 0x002 => some .teamX | 0x003 => some .teamY | 0x004 => some .teamZ
  | 0x005 => some .nteam | 0x006 => some .clus | 0x007 => some .core | 0x008 => some .quad
  | 0x009 => some .gridX | 0x00A => some .gridY | 0x00B => some .gridZ
  | 0x010 => some .curd | 0x011 => some .vseq | 0x012 => some .codeva
  | 0x018 => some .fx | 0x019 => some .fxen | 0x01A => some .fpm
  | 0x020 => some .ix | 0x021 => some .wb | 0x022 => some .alloc | 0x028 => some .clk | 0x029 => some .clkhi
  | 0x030 => some .cpystat | 0x038 => some .tcause | 0x039 => some .tpc | 0x03A => some .mpc | _ => none
def SReg.code : SReg → BitVec 10
  | .lane => 0x000 | .grp => 0x001 | .teamX => 0x002 | .teamY => 0x003 | .teamZ => 0x004
  | .nteam => 0x005 | .clus => 0x006 | .core => 0x007 | .quad => 0x008
  | .gridX => 0x009 | .gridY => 0x00A | .gridZ => 0x00B
  | .curd => 0x010 | .vseq => 0x011 | .codeva => 0x012
  | .fx => 0x018 | .fxen => 0x019 | .fpm => 0x01A
  | .ix => 0x020 | .wb => 0x021 | .alloc => 0x022 | .clk => 0x028 | .clkhi => 0x029
  | .cpystat => 0x030 | .tcause => 0x038 | .tpc => 0x039 | .mpc => 0x03A

/-- Use a code that has a meaning, refuse one marked illegal (R45). -/
def code {α β : Type} (o : Option α) (k : α → Except DecErr β) : Except DecErr β :=
  match o with
  | some a => k a
  | none => .error .illegalCode

/-- SRR words (R30, R46): every field names a register. -/
def decSrr (w : Word) : Except DecErr Instr :=
  let d := fld w 18 9; let a := fld w 9 9; let b := fld w 0 9
  .ok (match (fld w 27 4).toNat with
    | 0 => .sadd d a b | 1 => .ssub d a b | 2 => .smul d a b | 3 => .smulhiI d a b | 4 => .smulhiN d a b | 5 => .sand d a b
    | 6 => .sor d a b | 7 => .sxor d a b | 8 => .sshl d a b | 9 => .sshr d a b | 10 => .ssra d a b | 11 => .sminI d a b
    | 12 => .smaxI d a b | 13 => .seq d a b | 14 => .sltI d a b | _ => .sltN d a b)

/-- SRI words (R30, R47). -/
def decSri (w : Word) : Except DecErr Instr :=
  let d := fld w 18 9; let a := fld w 9 9; let i := fld w 0 9
  match (fld w 27 4).toNat with
  | 0 => .ok (.saddi d a i) | 1 => .ok (.srsubi d a i) | 2 => .ok (.smuli d a i) | 3 => .ok (.sandi d a i)
  | 4 => .ok (.sori d a i) | 5 => .ok (.sxori d a i) | 6 => .ok (.sshli d a i) | 7 => .ok (.sshri d a i)
  | 8 => .ok (.ssrai d a i) | 9 => .ok (.seqi d a i) | 10 => .ok (.sltiI d a i) | 11 => .ok (.sltiN d a i)
  | 12 => .ok (.sminiI d a i) | 13 => .ok (.smaxiI d a i) | 14 => .ok (.sbfx d a (fld w 4 5) (fld w 0 4))
  | _ => .error .unassigned

/-- CTL words (R30 Table 2-4, R48 Table 3-3). -/
def decCtl (w : Word) : Except DecErr Instr :=
  let d := fld w 16 9; let i := fld w 0 16
  let bare (x : Instr) := need (fld w 0 25 == 0) .reservedBit (.ok x)
  let bar (x : BitVec 4 → Instr) := need (fld w 4 21 == 0) .reservedBit (.ok (x (fld w 0 4)))
  match (fld w 25 6).toNat with
  | 0 => bare .nop | 1 => .ok (.movi d i) | 2 => .ok (.movhi d i)
  | 3 => need (fld w 9 7 == 0) .reservedBit (.ok (.mov d (fld w 0 9)))
  | 4 => need (fld w 10 6 == 0) .reservedBit (code (SReg.ofCode (fld w 0 10)) fun r => .ok (.rds d r))
  | 5 => need (fld w 10 6 == 0) .reservedBit (code (SReg.ofCode (fld w 0 10)) fun r => .ok (.wrs r d))
  | 6 => .ok (.br (fld w 0 25)) | 7 => .ok (.bz d i) | 8 => .ok (.bnz d i)
  | 9 => .ok (.call (fld w 22 3) (fld w 0 22)) | 10 => bare .ret
  | 11 => .ok (.split (fld w 22 3) (fld w 11 11) (fld w 0 11)) | 12 => bare .join | 13 => bare .exit
  | 14 => need (fld w 3 13 == 0) .reservedBit (code (Path.ofCode (fld w 0 3)) fun p => .ok (.waitc p d))
  | 15 => bar .barinit
  | 16 => need (fld w 6 10 == 0) .reservedBit (code (BarKind.ofCode (fld w 4 2)) fun k => .ok (.barexp k (fld w 0 4) d))
  | 17 => bar .barin | 18 => bar .barwait | 19 => bar .barsync | 20 => bare .fork | 21 => bare .rdzv | 22 => bare .yield
  | 23 => need (fld w 4 12 == 0) .reservedBit (.ok (.grow d (fld w 0 4)))
  | 24 => bar .shrink | 25 => .ok (.setix d i)
  | _ => .error .unassigned

/-- The vb operand of a VEC word (R31). -/
def decVB (w : Word) : VB := if bitOf w 5 then .sc (fld w 6 6) else .reg (fld w 6 6)

/-- VEC words (R31, R50 Table 3-5, R51 to R53), after the prefix if there is one. -/
def decVec (p : Option Pfx) (w : Word) : Except DecErr Instr :=
  let d := fld w 18 6; let a := fld w 12 6; let b := decVB w; let t := VT.ofCode (fld w 2 3); let x := Ix.ofCode (fld w 0 2)
  let sw := SubW.ofCode (fld w 0 2)
  -- ops that use no register vb: BS 0 and the rest of vb as given
  let noB (hi : Bool) (r : Except DecErr Instr) := need (!bitOf w 5) .broadcast (need hi .reservedBit r)
  let onT (u : VT) (r : Except DecErr Instr) := need (t == u) (.limit .typeNotPermitted) r
  let vb := fld w 6 6
  match (fld w 24 7).toNat with
  | 0x00 => .ok (.vadd p t x d a b) | 0x01 => .ok (.vsub p t x d a b) | 0x02 => .ok (.vmul p t x d a b)
  | 0x03 => .ok (.vfma p t x d a b) | 0x04 => .ok (.vmin p t x d a b) | 0x05 => .ok (.vmax p t x d a b)
  | 0x06 => noB (vb == 0) (.ok (.vabs p t x d a)) | 0x07 => noB (vb == 0) (.ok (.vneg p t x d a))
  | 0x08 => onT .b32 (.ok (.vand p x d a b)) | 0x09 => onT .b32 (.ok (.vor p x d a b)) | 0x0A => onT .b32 (.ok (.vxor p x d a b))
  | 0x0B => onT .b32 (noB (vb == 0) (.ok (.vnot p x d a)))
  | 0x0C => .ok (.vshl p t x d a b) | 0x0D => .ok (.vshr p t x d a b) | 0x0E => .ok (.vsra p t x d a b)
  | 0x0F => .ok (.vmulhi p t x d a b)
  | 0x10 => need (fld w 21 3 == 0) .reservedBit (.ok (.vcmp p t (Cond.ofCode (fld w 0 2)) (fld w 18 3) a b))
  | 0x11 => .ok (.vsel p (fld w 2 3) x d a b)
  | 0x12 => onT .b32 (need (a == 0) .reservedBit (.ok (.vmov p x d b)))
  | 0x13 => onT .b32 (noB (fld w 11 1 == 0) (.ok (.vbcast p sw d a (fld w 6 5))))
  | 0x14 => onT .i32 (noB (vb == 0 && a == 0) (.ok (.vidx p x d)))
  | 0x15 => noB true (code (CvtCode.ofCode (fld w 6 5)) fun c => .ok (.vcvt p c (bitOf w 11) (fld w 2 3) x d a))
  | 0x16 => noB (vb == 0) (.ok (.vqcvt p (fld w 2 3) x d a))
  | 0x17 => noB (fld w 9 3 == 0) (.ok (.vsfu p (SfuFn.ofCode (fld w 6 3)) t x d a))
  | 0x18 => onT .b32 (.ok (.vshfl p sw d a b)) | 0x19 => onT .b32 (.ok (.vshflup p sw d a b))
  | 0x1A => onT .b32 (.ok (.vshfldn p sw d a b)) | 0x1B => onT .b32 (.ok (.vshflx p sw d a b))
  | 0x1C => onT .b32 (noB (fld w 8 4 == 0) (.ok (.vvote p (VoteKind.ofCode (fld w 0 2)) (SubW.ofCode (fld w 6 2)) d a)))
  | 0x1D => noB (fld w 9 3 == 0) (code (VRedOp.ofCode (fld w 6 3)) fun op => .ok (.vred p op t sw d a))
  | 0x1E => noB (fld w 10 2 == 0) (code (VRedOp.ofCode (fld w 6 3)) fun op => .ok (.vscan p op (bitOf w 9) t sw d a))
  | 0x1F => onT .b32 (noB (vb == 0) (.ok (.vpopc p x d a))) | 0x20 => onT .b32 (noB (vb == 0) (.ok (.vclz p x d a)))
  | 0x21 => .ok (.vdot4 p t x d a b)
  | 0x22 => onT .b32 (noB (fld w 11 1 == 0) (.ok (.vtos p x d a (fld w 6 5))))
  | 0x23 => onT .b32 (noB (fld w 11 1 == 0) (.ok (.vins p x d a (fld w 6 5))))
  | 0x24 => .ok (.vpack p t x d a b)
  | 0x25 => noB (vb == 0) (need (fld w 1 1 == 0) .illegalCode (.ok (.vunpk p t (bitOf w 0) d a)))
  | _ => .error .unassigned

/-- The address mode of a vector-form MEM word (R33 Table 2-6). -/
def decAM (w : Word) : Except DecErr AM :=
  match (fld w 8 3).toNat with
  | 0 => .ok (.imm (fld w 0 5)) | 1 => .ok (.vec (fld w 0 5))
  | 2 => need (fld w 0 5 == 0) .reservedBit (.ok .ix)
  | 3 => .ok (.wrap (fld w 2 3) (fld w 0 2))
  | _ => .error .illegalCode

/-- MEM words (R33, R54 Table 3-7, R55). -/
def decMem (w : Word) : Except DecErr Instr :=
  let d := fld w 20 6; let b := fld w 11 9
  let vform (k : MemW → BitVec 6 → BitVec 9 → AM → Instr) : Except DecErr Instr :=
    match decAM w with
    | .error e => .error e
    | .ok m => code (MemW.ofCode (fld w 5 3)) fun mw => .ok (k mw d b m)
  let sd := fld w 17 9; let sb := fld w 8 9
  -- disp[6:5]: b8, b16, b32, b64
  let sw := MemW.ofCode (0#1 ++ fld w 5 2)
  match (fld w 26 5).toNat with
  | 0 => vform .lds | 1 => vform .sts | 2 => vform .ldp | 3 => vform .stp
  | 4 => code sw fun mw => .ok (.sld (bitOf w 7) mw sd sb (fld w 0 5))
  | 5 => code sw fun mw => .ok (.sst (bitOf w 7) mw sd sb (fld w 0 5))
  | 6 => need (fld w 0 3 == 0) .reservedBit
      (code (AtomOp.ofCode (fld w 4 4)) fun op => code (SS.ofCode (fld w 8 3)) fun ss => .ok (.atom op ss (bitOf w 3) d b))
  | 7 => code (AtomOp.ofCode (fld w 4 4)) fun op => code (SS.ofCode (fld w 1 3)) fun ss => .ok (.atoms op ss (bitOf w 0) sd sb)
  | 8 => code (SS.ofCode (fld w 5 3)) fun ss => .ok (.ldacq ss sd sb (fld w 0 5))
  | 9 => code (SS.ofCode (fld w 5 3)) fun ss => .ok (.strel ss sd sb (fld w 0 5))
  | _ => .error .unassigned

/-- MTX words (R34, R56 Table 3-9). -/
def decMtx (w : Word) : Except DecErr Instr :=
  let base := fld w 23 3; let n := fld w 21 2
  let step (k : BitVec 3 → BitVec 2 → BitVec 6 → BitVec 6 → BitVec 4 → BitVec 3 → Instr) :=
    need (fld w 0 2 == 0) .reservedBit (.ok (k base n (fld w 15 6) (fld w 9 6) (fld w 5 4) (fld w 2 3)))
  let top := fld w 22 4
  match (fld w 26 5).toNat with
  | 0 => step .mma | 1 => step .mmas
  | 2 => need (fld w 0 21 == 0) .reservedBit (.ok (.mzero base n))
  | 3 => need (fld w 0 15 == 0) .reservedBit
      (match (fld w 24 2).toNat with
        | 0 => .ok (.mmap (.acc (fld w 21 3)) (fld w 15 6))
        | 1 => need (fld w 21 3 == 0) .reservedBit (.ok (.mmap .a (fld w 15 6)))
        | 2 => need (fld w 21 3 == 0) .reservedBit (.ok (.mmap .b (fld w 15 6)))
        | _ => .error .illegalCode)
  | 4 => need (fld w 0 22 == 0) .reservedBit (.ok (.mbin top))
  | 5 => need (fld w 0 22 == 0) .reservedBit (.ok (.mbwait top))
  | 6 => .ok (.mloop top (fld w 0 22))
  | 7 => need (top == 0) .reservedBit (.ok (.mjmp (fld w 0 22)))
  | 8 => need (fld w 0 26 == 0) .reservedBit (.ok .mend)
  | 9 => need (fld w 16 4 == 0) .reservedBit
      (match (fld w 20 2).toNat with
        | 0 => .ok (.mset (.k top) (fld w 0 16))
        | 1 => need (top == 0) .reservedBit (.ok (.mset .pa (fld w 0 16)))
        | 2 => need (top == 0) .reservedBit (.ok (.mset .pb (fld w 0 16)))
        | _ => .error .illegalCode)
  | 10 => need (fld w 0 22 == 0) .reservedBit (.ok (.mshare top))
  | 11 => need (fld w 0 20 == 0) .reservedBit (.ok (.mcpy base (fld w 20 3)))
  | _ => .error .unassigned

/-- ASY words (R34, R57 Table 3-10). -/
def decAsy (w : Word) : Except DecErr Instr :=
  let d := fld w 17 9; let x := fld w 1 9; let b16 := bitOf w 16
  let bar : Option (BitVec 4) := if bitOf w 10 then some (fld w 11 4) else none
  -- the five bulk ops: bit 0 zero, BID zero without BE
  let bulk (r : Except DecErr Instr) := need (!bitOf w 0 && (bitOf w 10 || fld w 11 4 == 0)) .reservedBit r
  let flat (k : BitVec 9 → Instr) := need (fld w 0 17 == 0) .reservedBit (.ok (k d))
  match (fld w 26 5).toNat with
  | 0 => bulk (need (x == 0) .reservedBit (.ok (.cpy b16 (bitOf w 15) d bar)))
  | 1 => bulk (need (!bitOf w 15) .reservedBit (.ok (.cpymc b16 d x bar)))
  | 2 => bulk (need (!bitOf w 15) .reservedBit (.ok (.cpyred b16 d x bar)))
  | 3 => bulk (need (!bitOf w 15) .reservedBit
      (if b16 then need (x == 0) .reservedBit (.ok (.gathPark d bar)) else .ok (.gathTol d x bar)))
  | 4 => bulk (need (!bitOf w 15 && x == 0) .reservedBit (.ok (.scat b16 d bar)))
  | 5 => flat .resadd | 6 => flat .resdel
  | 7 => need (fld w 10 7 == 0 && !bitOf w 0) .reservedBit (.ok (.resq x d))
  | 8 => flat .enq | 9 => flat .qpost
  | _ => .error .unassigned

/-- SYS words (R34, R58 Table 3-11). -/
def decSys (w : Word) : Except DecErr Instr :=
  let d := fld w 17 9; let x := fld w 8 9
  let bare (r : Instr) := need (fld w 0 26 == 0) .reservedBit (.ok r)
  let pair (r : Instr) := need (fld w 0 8 == 0) .reservedBit (.ok r)
  let scope (k : Scope → Instr) := need (fld w 3 23 == 0) .reservedBit (code (Scope.ofCode (fld w 0 3)) fun sc => .ok (k sc))
  let imm8 (k : BitVec 8 → Instr) := need (fld w 8 18 == 0) .reservedBit (.ok (k (fld w 0 8)))
  match (fld w 26 5).toNat with
  | 0 => bare .modeM
  | 1 => need (fld w 8 18 == 0 && fld w 0 4 == 0) .reservedBit (.ok (.modeV (fld w 4 4)))
  | 2 => need (fld w 4 4 == 0 && fld w 0 3 == 0) .reservedBit (.ok (.seal (bitOf w 3) d x))
  | 3 => pair (.vpin d x) | 4 => pair (.vunpin d x) | 5 => pair (.vwait d x)
  | 6 => scope .phacq | 7 => scope .phrel | 8 => scope .fence
  | 9 => imm8 .trap | 10 => imm8 .brk
  | 11 => need (fld w 0 17 == 0) .reservedBit (.ok (.tagset d))
  | 12 => bare .snap | 13 => bare .gbar | 14 => pair (.invrg d x)
  | _ => .error .unassigned

/-- A word in its class (R42), before the static limits. -/
def decClass (c : Cls) (p : Option Pfx) (w : Word) : Except DecErr Instr :=
  match c with
  | .srr => decSrr w | .sri => decSri w | .ctl => decCtl w | .vec => decVec p w
  | .mem => decMem w | .mtx => decMtx w | .asy => decAsy w | .sys => decSys w

/-- The static limits of R36 and R45 to R58. -/
def limits (r : Except DecErr Instr) : Except DecErr Instr :=
  match r with
  | .error e => .error e
  | .ok i =>
    match wfErr i with
    | none => .ok i
    | some e => .error (.limit e)

/-- A decoded word: what it does, its switch marker (R29), how many words it takes (two with a prefix). -/
structure Decoded where
  instr : Instr
  s : Bool
  words : Nat
  deriving DecidableEq, Repr

/-- op7 = 0x7F (R35). -/
def isPrefix (w : Word) : Bool := fld w 24 7 == 0x7F

/-- The prefix word's own fields (R35 Table 2-7, R36). -/
def decPfx (w : Word) : Except DecErr Pfx :=
  let ro := bitOf w 17; let vce := bitOf w 10
  need (!bitOf w 31 && fld w 0 10 == 0 && (ro || fld w 18 2 == 0) && (vce || fld w 11 6 == 0)) .prefixField
    (.ok { mask := fld w 21 3, z := bitOf w 20,
           rnd := if ro then some (RMode.ofCode (fld w 18 2)) else none,
           vc := if vce then some (fld w 11 6) else none })

/-- Decode the word `w` of a clause of class `c` in which `left` words remain, `w` among them; `w2` is the word after it,
which only a prefix uses (R35, R36, R42). -/
def decodeWords (c : Cls) (left : Nat) (w w2 : Word) : Except DecErr Decoded :=
  if c = .vec ∧ isPrefix w = true then
    match decPfx w with
    | .error e => .error e
    | .ok p =>
      if left < 2 then .error .prefixLast
      else if isPrefix w2 then .error .prefixTwice
      else
        match limits (decVec (some p) w2) with
        | .error e => .error e
        | .ok i => .ok ⟨i, bitOf w2 31, 2⟩
  else
    match limits (decClass c none w) with
    | .error e => .error e
    | .ok i => .ok ⟨i, bitOf w 31, 1⟩

/-- The fields of a clause header (R20 Table 2-1). -/
structure Header where
  count : BitVec 4
  cls : Cls
  waitp : BitVec 5
  wb : Option (BitVec 4)
  stop : Bool
  ord : BitVec 10
  deriving DecidableEq, Repr

/-- SIG = 1011b (R20). -/
def isHeader (w : Word) : Bool := fld w 28 4 == 0xB

/-- A header's own checks (R21); those that name the stream are made when it is taken. -/
def decodeHeader (w : Word) : Except DecErr Header :=
  need (isHeader w) .noSignature (need (fld w 24 4 != 0) .countZero
    (need (bitOf w 10 || fld w 0 10 == 0) .ordWithoutStop (need (bitOf w 15 || fld w 11 4 == 0) .wbidWithoutWbe
      (.ok { count := fld w 24 4, cls := Cls.ofCode (fld w 21 3), waitp := fld w 16 5,
             wb := if bitOf w 15 then some (fld w 11 4) else none, stop := bitOf w 10, ord := fld w 0 10 }))))

/-- A little-endian word of four bytes (R2). -/
def wordOf (b0 b1 b2 b3 : Byte) : Word := b3 ++ b2 ++ b1 ++ b0
/-- The bytes of a word (R2). -/
def bytesOf (w : Word) : List Byte := [fld w 0 8, fld w 8 8, fld w 16 8, fld w 24 8]

/-- Decode from bytes: the instruction and what follows it. A last word has no word after it, which matters to a prefix
only, and a prefix is then refused. -/
def decodeBytes (c : Cls) (left : Nat) : List Byte → Except DecErr (Decoded × List Byte)
  | b0 :: b1 :: b2 :: b3 :: r =>
    let w := wordOf b0 b1 b2 b3
    match r with
    | c0 :: c1 :: c2 :: c3 :: r2 =>
      (match decodeWords c left w (wordOf c0 c1 c2 c3) with
        | .error e => .error e
        | .ok x => .ok (x, if x.words = 2 then r2 else r))
    | _ =>
      (match decodeWords c (min left 1) w 0 with
        | .error e => .error e
        | .ok x => .ok (x, r))
  | _ => .error .short

/-- A word names no class (R42), so the classes are tried in this order, those with most reserved bits first (log 12). -/
def classOrder : List Cls := [.sys, .ctl, .asy, .mtx, .vec, .mem, .sri, .srr]

/-- The first class of a list in which the bytes decode. -/
def decodeFirst (bs : List Byte) : List Cls → Option (Cls × Decoded)
  | [] => none
  | c :: r =>
    match decodeBytes c 15 bs with
    | .ok (x, _) => some (c, x)
    | .error _ => decodeFirst bs r

/-- The bytes of a table word: the first word at the lowest address, little-endian, bits above `nbits` zero. -/
def tableBytes (nbits w : Nat) : List Byte :=
  let v := w % 2 ^ nbits
  bytesOf (BitVec.ofNat 32 v) ++ bytesOf (BitVec.ofNat 32 (v / 2 ^ 32))

/-- The instruction the decoder reads from a table word, in the class that `classOrder` gives it. -/
def decodeTableWord (nbits w : Nat) : Option Instr := (decodeFirst (tableBytes nbits w) classOrder).map (·.2.instr)

/-! The encoder. -/

/-- The five low-level pieces of VEC words. -/
def encVB : VB → BitVec 7
  | .reg v => v ++ 0#1
  | .sc s => s ++ 1#1

/-- op7, vd, va, vb and BS, T, sub (R31). -/
def vecWord (op : BitVec 7) (d a : BitVec 6) (b : BitVec 7) (t : BitVec 3) (x : BitVec 2) : BitVec 31 := op ++ d ++ a ++ b ++ t ++ x

/-- AM and operand around the width (R33). -/
def memWord (op : BitVec 5) (w : MemW) (d : BitVec 6) (b : BitVec 9) : AM → BitVec 31
  | .imm i => op ++ d ++ b ++ 0#3 ++ w.code ++ i
  | .vec v => op ++ d ++ b ++ 1#3 ++ w.code ++ v
  | .ix => op ++ d ++ b ++ 2#3 ++ w.code ++ 0#5
  | .wrap k inc => op ++ d ++ b ++ 3#3 ++ w.code ++ (k ++ inc)

/-- BID and BE (R57). -/
def encBar : Option (BitVec 4) → BitVec 5
  | some b => b ++ 1#1
  | none => 0
def bit1 (b : Bool) : BitVec 1 := BitVec.ofBool b

/-- op5, sD, [16], [15], BID and BE, sX, [0] (R57). -/
def asyWord (op : BitVec 5) (d : BitVec 9) (b16 b15 : BitVec 1) (bar : Option (BitVec 4)) (x : BitVec 9) : BitVec 31 :=
  op ++ d ++ b16 ++ b15 ++ encBar bar ++ x ++ 0#1

/-- Class and word, S left out, of an instruction word; the header and the events have none. -/
def encBody : Instr → Option (Cls × BitVec 31)
  | .sadd d a b => some (.srr, 0#4 ++ d ++ a ++ b) | .ssub d a b => some (.srr, 1#4 ++ d ++ a ++ b)
  | .smul d a b => some (.srr, 2#4 ++ d ++ a ++ b) | .smulhiI d a b => some (.srr, 3#4 ++ d ++ a ++ b)
  | .smulhiN d a b => some (.srr, 4#4 ++ d ++ a ++ b) | .sand d a b => some (.srr, 5#4 ++ d ++ a ++ b)
  | .sor d a b => some (.srr, 6#4 ++ d ++ a ++ b) | .sxor d a b => some (.srr, 7#4 ++ d ++ a ++ b)
  | .sshl d a b => some (.srr, 8#4 ++ d ++ a ++ b) | .sshr d a b => some (.srr, 9#4 ++ d ++ a ++ b)
  | .ssra d a b => some (.srr, 10#4 ++ d ++ a ++ b) | .sminI d a b => some (.srr, 11#4 ++ d ++ a ++ b)
  | .smaxI d a b => some (.srr, 12#4 ++ d ++ a ++ b) | .seq d a b => some (.srr, 13#4 ++ d ++ a ++ b)
  | .sltI d a b => some (.srr, 14#4 ++ d ++ a ++ b) | .sltN d a b => some (.srr, 15#4 ++ d ++ a ++ b)
  | .saddi d a i => some (.sri, 0#4 ++ d ++ a ++ i) | .srsubi d a i => some (.sri, 1#4 ++ d ++ a ++ i)
  | .smuli d a i => some (.sri, 2#4 ++ d ++ a ++ i) | .sandi d a i => some (.sri, 3#4 ++ d ++ a ++ i)
  | .sori d a i => some (.sri, 4#4 ++ d ++ a ++ i) | .sxori d a i => some (.sri, 5#4 ++ d ++ a ++ i)
  | .sshli d a i => some (.sri, 6#4 ++ d ++ a ++ i) | .sshri d a i => some (.sri, 7#4 ++ d ++ a ++ i)
  | .ssrai d a i => some (.sri, 8#4 ++ d ++ a ++ i) | .seqi d a i => some (.sri, 9#4 ++ d ++ a ++ i)
  | .sltiI d a i => some (.sri, 10#4 ++ d ++ a ++ i) | .sltiN d a i => some (.sri, 11#4 ++ d ++ a ++ i)
  | .sminiI d a i => some (.sri, 12#4 ++ d ++ a ++ i) | .smaxiI d a i => some (.sri, 13#4 ++ d ++ a ++ i)
  | .sbfx d a pos len => some (.sri, 14#4 ++ d ++ a ++ (pos ++ len))
  | .nop => some (.ctl, 0#6 ++ 0#25) | .movi d i => some (.ctl, 1#6 ++ d ++ i) | .movhi d i => some (.ctl, 2#6 ++ d ++ i)
  | .mov d a => some (.ctl, 3#6 ++ d ++ 0#7 ++ a) | .rds d r => some (.ctl, 4#6 ++ d ++ 0#6 ++ r.code)
  | .wrs r a => some (.ctl, 5#6 ++ a ++ 0#6 ++ r.code) | .br o => some (.ctl, 6#6 ++ o)
  | .bz a o => some (.ctl, 7#6 ++ a ++ o) | .bnz a o => some (.ctl, 8#6 ++ a ++ o)
  | .call k o => some (.ctl, 9#6 ++ k ++ o) | .ret => some (.ctl, 10#6 ++ 0#25)
  | .split m t r => some (.ctl, 11#6 ++ m ++ t ++ r) | .join => some (.ctl, 12#6 ++ 0#25) | .exit => some (.ctl, 13#6 ++ 0#25)
  | .waitc p a => some (.ctl, 14#6 ++ a ++ 0#13 ++ p.code) | .barinit n => some (.ctl, 15#6 ++ 0#21 ++ n)
  | .barexp k n a => some (.ctl, 16#6 ++ a ++ 0#10 ++ k.code ++ n) | .barin n => some (.ctl, 17#6 ++ 0#21 ++ n)
  | .barwait n => some (.ctl, 18#6 ++ 0#21 ++ n) | .barsync n => some (.ctl, 19#6 ++ 0#21 ++ n)
  | .fork => some (.ctl, 20#6 ++ 0#25) | .rdzv => some (.ctl, 21#6 ++ 0#25) | .yield => some (.ctl, 22#6 ++ 0#25)
  | .grow d n => some (.ctl, 23#6 ++ d ++ 0#12 ++ n) | .shrink n => some (.ctl, 24#6 ++ 0#21 ++ n)
  | .setix a i => some (.ctl, 25#6 ++ a ++ i)
  | .vadd _ t x d a b => some (.vec, vecWord 0x00 d a (encVB b) t.code x.code)
  | .vsub _ t x d a b => some (.vec, vecWord 0x01 d a (encVB b) t.code x.code)
  | .vmul _ t x d a b => some (.vec, vecWord 0x02 d a (encVB b) t.code x.code)
  | .vfma _ t x d a b => some (.vec, vecWord 0x03 d a (encVB b) t.code x.code)
  | .vmin _ t x d a b => some (.vec, vecWord 0x04 d a (encVB b) t.code x.code)
  | .vmax _ t x d a b => some (.vec, vecWord 0x05 d a (encVB b) t.code x.code)
  | .vabs _ t x d a => some (.vec, vecWord 0x06 d a 0 t.code x.code)
  | .vneg _ t x d a => some (.vec, vecWord 0x07 d a 0 t.code x.code)
  | .vand _ x d a b => some (.vec, vecWord 0x08 d a (encVB b) 7 x.code)
  | .vor _ x d a b => some (.vec, vecWord 0x09 d a (encVB b) 7 x.code)
  | .vxor _ x d a b => some (.vec, vecWord 0x0A d a (encVB b) 7 x.code)
  | .vnot _ x d a => some (.vec, vecWord 0x0B d a 0 7 x.code)
  | .vshl _ t x d a b => some (.vec, vecWord 0x0C d a (encVB b) t.code x.code)
  | .vshr _ t x d a b => some (.vec, vecWord 0x0D d a (encVB b) t.code x.code)
  | .vsra _ t x d a b => some (.vec, vecWord 0x0E d a (encVB b) t.code x.code)
  | .vmulhi _ t x d a b => some (.vec, vecWord 0x0F d a (encVB b) t.code x.code)
  | .vcmp _ t c m a b => some (.vec, vecWord 0x10 (0#3 ++ m) a (encVB b) t.code c.code)
  | .vsel _ m x d a b => some (.vec, vecWord 0x11 d a (encVB b) m x.code)
  | .vmov _ x d b => some (.vec, vecWord 0x12 d 0 (encVB b) 7 x.code)
  | .vbcast _ w d a lane => some (.vec, vecWord 0x13 d a (0#1 ++ lane ++ 0#1) 7 w.code)
  | .vidx _ x d => some (.vec, vecWord 0x14 d 0 0 3 x.code)
  | .vcvt _ c ns slot x d a => some (.vec, vecWord 0x15 d a (bit1 ns ++ c.code ++ 0#1) slot x.code)
  | .vqcvt _ slot x d a => some (.vec, vecWord 0x16 d a 0 slot x.code)
  | .vsfu _ f t x d a => some (.vec, vecWord 0x17 d a (0#3 ++ f.code ++ 0#1) t.code x.code)
  | .vshfl _ w d a b => some (.vec, vecWord 0x18 d a (encVB b) 7 w.code)
  | .vshflup _ w d a b => some (.vec, vecWord 0x19 d a (encVB b) 7 w.code)
  | .vshfldn _ w d a b => some (.vec, vecWord 0x1A d a (encVB b) 7 w.code)
  | .vshflx _ w d a b => some (.vec, vecWord 0x1B d a (encVB b) 7 w.code)
  | .vvote _ k w d a => some (.vec, vecWord 0x1C d a (0#4 ++ w.code ++ 0#1) 7 k.code)
  | .vred _ op t w d a => some (.vec, vecWord 0x1D d a (0#3 ++ op.code ++ 0#1) t.code w.code)
  | .vscan _ op ex t w d a => some (.vec, vecWord 0x1E d a (0#2 ++ bit1 ex ++ op.code ++ 0#1) t.code w.code)
  | .vpopc _ x d a => some (.vec, vecWord 0x1F d a 0 7 x.code) | .vclz _ x d a => some (.vec, vecWord 0x20 d a 0 7 x.code)
  | .vdot4 _ t x d a b => some (.vec, vecWord 0x21 d a (encVB b) t.code x.code)
  | .vtos _ x d a lane => some (.vec, vecWord 0x22 d a (0#1 ++ lane ++ 0#1) 7 x.code)
  | .vins _ x d a lane => some (.vec, vecWord 0x23 d a (0#1 ++ lane ++ 0#1) 7 x.code)
  | .vpack _ t x d a b => some (.vec, vecWord 0x24 d a (encVB b) t.code x.code)
  | .vunpk _ t hi d a => some (.vec, vecWord 0x25 d a 0 t.code (0#1 ++ bit1 hi))
  | .lds w d b m => some (.mem, memWord 0 w d b m) | .sts w d b m => some (.mem, memWord 1 w d b m)
  | .ldp w d b m => some (.mem, memWord 2 w d b m) | .stp w d b m => some (.mem, memWord 3 w d b m)
  | .sld sp w d b i => some (.mem, 4#5 ++ d ++ b ++ bit1 sp ++ w.code.setWidth 2 ++ i)
  | .sst sp w d b i => some (.mem, 5#5 ++ d ++ b ++ bit1 sp ++ w.code.setWidth 2 ++ i)
  | .atom op ss ret d b => some (.mem, 6#5 ++ d ++ b ++ ss.code ++ op.code ++ bit1 ret ++ 0#3)
  | .atoms op ss ret d b => some (.mem, 7#5 ++ d ++ b ++ op.code ++ ss.code ++ bit1 ret)
  | .ldacq ss d b i => some (.mem, 8#5 ++ d ++ b ++ ss.code ++ i) | .strel ss d b i => some (.mem, 9#5 ++ d ++ b ++ ss.code ++ i)
  | .mma base n a b st f => some (.mtx, 0#5 ++ base ++ n ++ a ++ b ++ st ++ f ++ 0#2)
  | .mmas base n a b st f => some (.mtx, 1#5 ++ base ++ n ++ a ++ b ++ st ++ f ++ 0#2)
  | .mzero base n => some (.mtx, 2#5 ++ base ++ n ++ 0#21)
  | .mmap (.acc sl) g => some (.mtx, 3#5 ++ 0#2 ++ sl ++ g ++ 0#15)
  | .mmap .a g => some (.mtx, 3#5 ++ 1#2 ++ 0#3 ++ g ++ 0#15) | .mmap .b g => some (.mtx, 3#5 ++ 2#2 ++ 0#3 ++ g ++ 0#15)
  | .mbin n => some (.mtx, 4#5 ++ n ++ 0#22) | .mbwait n => some (.mtx, 5#5 ++ n ++ 0#22)
  | .mloop k o => some (.mtx, 6#5 ++ k ++ o) | .mjmp o => some (.mtx, 7#5 ++ 0#4 ++ o) | .mend => some (.mtx, 8#5 ++ 0#26)
  | .mset (.k n) i => some (.mtx, 9#5 ++ n ++ 0#2 ++ 0#4 ++ i)
  | .mset .pa i => some (.mtx, 9#5 ++ 0#4 ++ 1#2 ++ 0#4 ++ i) | .mset .pb i => some (.mtx, 9#5 ++ 0#4 ++ 2#2 ++ 0#4 ++ i)
  | .mshare v => some (.mtx, 10#5 ++ v ++ 0#22) | .mcpy d s => some (.mtx, 11#5 ++ d ++ s ++ 0#20)
  | .cpy rel res d bar => some (.asy, asyWord 0 d (bit1 rel) (bit1 res) bar 0)
  | .cpymc rel d x bar => some (.asy, asyWord 1 d (bit1 rel) 0 bar x)
  | .cpyred rel d x bar => some (.asy, asyWord 2 d (bit1 rel) 0 bar x)
  | .gathPark d bar => some (.asy, asyWord 3 d 1 0 bar 0) | .gathTol d x bar => some (.asy, asyWord 3 d 0 0 bar x)
  | .scat rel d bar => some (.asy, asyWord 4 d (bit1 rel) 0 bar 0)
  | .resadd d => some (.asy, 5#5 ++ d ++ 0#17) | .resdel d => some (.asy, 6#5 ++ d ++ 0#17)
  | .resq x d => some (.asy, 7#5 ++ d ++ 0#7 ++ x ++ 0#1) | .enq d => some (.asy, 8#5 ++ d ++ 0#17)
  | .qpost d => some (.asy, 9#5 ++ d ++ 0#17)
  | .modeM => some (.sys, 0#5 ++ 0#26) | .modeV n => some (.sys, 1#5 ++ 0#18 ++ n ++ 0#4)
  | .seal last q d => some (.sys, 2#5 ++ q ++ d ++ 0#4 ++ bit1 last ++ 0#3)
  | .vpin d v => some (.sys, 3#5 ++ d ++ v ++ 0#8) | .vunpin v sl => some (.sys, 4#5 ++ v ++ sl ++ 0#8)
  | .vwait q v => some (.sys, 5#5 ++ q ++ v ++ 0#8)
  | .phacq sc => some (.sys, 6#5 ++ 0#23 ++ sc.code) | .phrel sc => some (.sys, 7#5 ++ 0#23 ++ sc.code)
  | .fence sc => some (.sys, 8#5 ++ 0#23 ++ sc.code)
  | .trap i => some (.sys, 9#5 ++ 0#18 ++ i) | .brk i => some (.sys, 10#5 ++ 0#18 ++ i)
  | .tagset d => some (.sys, 11#5 ++ d ++ 0#17) | .snap => some (.sys, 12#5 ++ 0#26) | .gbar => some (.sys, 13#5 ++ 0#26)
  | .invrg d x => some (.sys, 14#5 ++ d ++ x ++ 0#8)
  | _ => none

/-- The prefix a VEC instruction carries. -/
def pfxOf : Instr → Option Pfx
  | .vadd p .. | .vsub p .. | .vmul p .. | .vfma p .. | .vmin p .. | .vmax p .. | .vabs p .. | .vneg p ..
  | .vand p .. | .vor p .. | .vxor p .. | .vnot p .. | .vshl p .. | .vshr p .. | .vsra p .. | .vmulhi p ..
  | .vcmp p .. | .vsel p .. | .vmov p .. | .vbcast p .. | .vidx p .. | .vcvt p .. | .vqcvt p .. | .vsfu p ..
  | .vshfl p .. | .vshflup p .. | .vshfldn p .. | .vshflx p .. | .vvote p .. | .vred p .. | .vscan p ..
  | .vpopc p .. | .vclz p .. | .vdot4 p .. | .vtos p .. | .vins p .. | .vpack p .. | .vunpk p .. => p
  | _ => none

/-- The prefix word (R35 Table 2-7). -/
def encPfx (p : Pfx) : Word :=
  let (ro, rnd) : BitVec 1 × BitVec 2 := match p.rnd with
    | some r => (1, r.code)
    | none => (0, 0)
  let (vce, vc) : BitVec 1 × BitVec 6 := match p.vc with
    | some v => (1, v)
    | none => (0, 0)
  0#1 ++ 0x7F#7 ++ p.mask ++ bit1 p.z ++ rnd ++ ro ++ vc ++ vce ++ 0#10

/-- The words of an instruction with switch marker `s`: the prefix first. -/
def encode (s : Bool) (i : Instr) : List Word :=
  match encBody i with
  | none => []
  | some (_, b) =>
    match pfxOf i with
    | some p => [encPfx p, bit1 s ++ b]
    | none => [bit1 s ++ b]

/-- The class of an instruction word. -/
def clsOf (i : Instr) : Option Cls := (encBody i).map (·.1)

/-- Decode a list of words of one clause: the next instruction. -/
def decodeList (c : Cls) : List Word → Except DecErr Decoded
  | [] => .error .short
  | [w] => decodeWords c 1 w 0
  | w :: w2 :: r => decodeWords c (r.length + 2) w w2

/-- A header's word (R20). -/
def encodeHeader (h : Header) : Word :=
  let (wbe, wbid) : BitVec 1 × BitVec 4 := match h.wb with
    | some b => (1, b)
    | none => (0, 0)
  0xB#4 ++ h.count ++ h.cls.code ++ h.waitp ++ wbe ++ wbid ++ bit1 h.stop ++ h.ord

end Sys2Proof
end

