-- ==== Sys2Proof/Machine/State.lean ====
section
/-! DEFINITION. The state of the part: everything the spec names that a step reads or writes, as plain data, and the state
after a cold reset. Tables are sorted lists by number; what an unlisted number holds is the reset value of its row. -/
set_option Elab.async false
namespace Sys2Proof.Machine

/-- Why a run stops. Raised by a word's meaning only when no stream issues it (`State.issue`), which no step does. Safe. -/
inductive Fault
  | noIssuer
  deriving DecidableEq, Repr

/-- Raised by an arm of `exec` that has no meaning yet; none is left. Safe. -/
inductive Refusal
  | notModelled (mnemonic : String)
  deriving DecidableEq, Repr

/-- Trap causes (04 R78 Table 4-5, CAUSE). -/
inductive Cause
  | illegal | target | regidx | mode | spill | bounds | async | writeset | tag | fpx | perm | align | priv | brk | trap
  deriving DecidableEq, Repr

/-- The kinds of a translated access (09 R184). -/
inductive AKind | read | write | fetch
  deriving DecidableEq, Repr

/-- Where a byte stands (00 R8, 01 R10, R11, R14, 06 R115, 09 R174). -/
inductive Loc
  /-- Local HBM, device-physical. -/
  | hbm (a : Nat)
  /-- Scratchpad, absolute. -/
  | sp (a : Nat)
  /-- SH of a core: offset in its 2 MiB. -/
  | sh (core off : Nat)
  /-- Scale memory of a quadrant. -/
  | sm (core quad off : Nat)
  /-- Host or CXL memory. -/
  | host (a : Nat)
  /-- A peer's HBM. -/
  | peer (p a : Nat)
  deriving DecidableEq, Repr

/-- How a word waits for counters before it issues: alone; holding the group's later words back (10 R194); the same at a
delivery point, where a sequencer fault releases it (05 R104). -/
inductive DrainKind | plain | hold | point
  deriving DecidableEq, Repr

/-- What follows the acquire at the end of a wait: of a `barwait`, `barsync` or `gbar`, the next word; of a header, its waits for
these counters; of `mode.v`, its own end, its completion having run with EXPE non-zero or not; of a `seal`, the next word. -/
inductive AcqEnd
  | point
  | header (ps : List Path)
  | mode (eng : Bool)
  | seal
  deriving DecidableEq, Repr

/-- What a fragment waits for before it can issue again. -/
inductive Park
  /-- It is not parked. -/
  | run
  /-- Its word is not yet issued: it waits for these counters to be zero, and the word then issues (10 R194, 12 R237). -/
  | drain (ps : List Path) (k : DrainKind)
  /-- It stopped at a header: at a safe point for a stop, at any for a pre-emption (15 R269, 11 R227). -/
  | safe
  /-- Its word is not yet issued: this counter stands at 63 (08 R151). -/
  | counterFull (p : Path)
  /-- Its word is not yet issued: the core's copy engine holds 64 commands (08 R155). -/
  | engineFull
  /-- Its word is not yet issued: 16 invalidations are outstanding (09 R186). -/
  | invFull
  /-- Its word is not yet issued: the spawn-tree counter stands at 2^24 - 1 (11 R211). -/
  | spawnFull
  /-- Its word is not yet issued: the vat table is full (12 R247). -/
  | vatFull
  /-- `waitc`: the counter is above the threshold (R389). -/
  | count (p : Path) (t : Nat)
  /-- A header's waits: counters still to reach zero, barrier still to complete (02 R22). -/
  | hdr (ps : List Path) (bar : Option Nat)
  /-- `barwait` or `barsync` (05 R94). -/
  | bar (n : Nat)
  /-- `mode.v` before its completion (06 R108). -/
  | modeV (n : Nat)
  /-- `mode.v` after its completion, which ran with EXPE non-zero or not. -/
  | modeRel (eng : Bool)
  | rdzv
  /-- `gbar`, not released (05 R101). -/
  | gbar
  /-- `seal` with its destination pair, not released (12 R237). -/
  | seal (d : Nat)
  /-- `vwait` for a quality on the vat of a key, whose head was named by this VA or SP address (12 R247). -/
  | vwait (q : Word) (key : Nat) (head : Nat)
  /-- Its wait has ended, and the acquire that follows it waits for the ld counter (10 R194, R197): the barrier whose bytes are
  refreshed, the scope, and what comes after it. -/
  | acq (bar : Option Nat) (sc : Scope) (k : AcqEnd)
  deriving DecidableEq, Repr

/-- A fragment (05 R85): lanes that share one program counter. Fragments of a group have no lane in common, so its lowest lane
names it. -/
structure Frag where
  lanes : Mask
  /-- Code address of its next word or header. -/
  pc : Word
  /-- The clause under way: its class and the words left; none at a header. -/
  cl : Option (Cls × Nat)
  /-- It came to its header by a transfer (02 R26). -/
  landed : Bool
  park : Park
  /-- Ordinal and header address of the last safe point passed (15 R279). -/
  safe : Option (Nat × Word)
  /-- Watchpoints its next word is not checked against again (15 R272). -/
  passed : List Nat
  /-- It counts as stopped where it stands (15 R269, 11 R227). -/
  halted : Bool
  deriving DecidableEq, Repr

/-- An open split entry or hold record (05 R86, R87); `safe` is the safe point passed before the split. -/
inductive SplitRec
  | entry (parent arrived : Mask) (rejoin : Word) (safe : Option (Nat × Word))
  /-- `res` is the clause the held lanes resume in; `resumed` once they run. -/
  | hold (lanes taken arrived : Mask) (rejoin : Word) (pc : Word) (res : Option (Cls × Nat)) (resumed : Bool)
      (safe : Option (Nat × Word))
  deriving DecidableEq, Repr

/-- What an operation in flight does when its event comes (08 R151, Table 2-2). -/
inductive FOp
  /-- Vector load: space, width of a part (at most a word), first logical position; the parts not written yet, by 32 · position
  from the first + lane, with their addresses. -/
  | vload (sp : Bool) (w : MemW) (pos : Nat) (parts : List (Nat × Nat))
  /-- Scalar load: the same, by register. -/
  | sload (sp : Bool) (w : MemW) (parts : List (Nat × Nat))
  /-- Acquire load (10 R195). -/
  | acq (ss : SS) (d : Nat) (a : Nat)
  /-- Bytes to store, lanes ascending (R336, R337), and the words of the digest (15 R285). -/
  | store (sp : Bool) (bytes : List (Nat × Byte))
  /-- Release store (10 R195). -/
  | rel (ss : SS) (a : Nat) (v : Word)
  /-- Atomic (R307): lane, address, operand, compare value of the lanes not performed; what each performed lane returned and
  has not written yet; the words they wrote, with their lanes ascending (15 R285). The destination is a vector position or a scalar. -/
  | atomic (op : AtomOp) (ss : SS) (ret : Bool) (vec : Bool) (d : Nat) (lanes : List (Nat × Nat × Word × Word))
      (olds : List (Nat × Word)) (wrote : List (Nat × Word × Word)) (flags : BitVec 5)
  /-- Special function (R381): results not written yet by lane, flags. -/
  | sfu (pos : Nat) (res : List (Nat × Word)) (flags : BitVec 5)
  /-- `resq` (08 R167). -/
  | resq (d : Nat) (va len : Nat)
  /-- `vpin` (12 R245). -/
  | pin (d : Nat) (head : BitVec 64) (key : Nat)
  /-- A bulk command. -/
  | bulk (b : Nat)
  /-- `tagset` (15 R281): first granule's VA, count, lock; the HBM address of each page translated so far. -/
  | locks (va n : Nat) (lock : BitVec 4) (pages : List (Nat × Nat))
  deriving DecidableEq, Repr

/-- An operation in flight. A path's counter is the number of its operations from the oldest not yet done (08 R151). -/
structure Flight where
  id : Nat
  path : Path
  op : FOp
  done : Bool
  /-- Values that parts of a load which came early read, by address: the parts still to come at the address take the same (R336). -/
  reads : List (Nat × Nat) := []
  deriving DecidableEq, Repr

/-- What parks a whole group (04 R71, 08 R164); a switch marker stands in `Group.marked`. -/
inductive GPark
  | none
  /-- `grow` of a fragment, with its destination and granules, queued at the quadrant. -/
  | grow (d n fid : Nat)
  /-- `gath.park`: until this operation is done. -/
  | gath (id : Nat)
  deriving DecidableEq, Repr

/-- SP bytes that a group's bulk operation delivered: its path and number, first address, count, publication (08 R152). -/
structure Dlv where
  path : Path
  id : Nat
  a : Nat
  n : Nat
  pub : Nat
  deriving DecidableEq, Repr

/-- The vector registers of a group: what they hold, by 32 · logical position + lane; values other than 0 that they have held since the
group was placed, by lane, each once (04 R64, R69). -/
structure VFile where
  now : Kv Word
  past : List (Nat × Word)
  deriving DecidableEq, Repr
/-- A group's state (04 R61 Table 4-1, 05, 11 R225). Its key in `State.groups` is its global group ID (01 R13). -/
structure Group where
  team : Nat
  /-- Index in the team, %grp. -/
  idx : Nat
  /-- Placement order in the device (04 R72, 11 R225). -/
  order : Nat
  s : Kv Word
  v : VFile
  alloc : Nat
  wb : Nat
  lo : Nat
  link : List (Word × Nat)
  /-- Offsets from the spill base of the top of the register area and the bottom of the link area (04 R68). -/
  regTop : Nat
  linkBot : Nat
  spillBase : Nat
  spillSize : Nat
  m : Kv Mask
  ix : Word
  fx : BitVec 5
  fxen : BitVec 5
  fpm : BitVec 2
  tcause : Word
  tpc : Word
  mpc : Word
  cpystat : BitVec 3
  /-- The mode bit (06 R106). -/
  matrix : Bool
  frags : List Frag
  splits : List SplitRec
  /-- Retired lanes (05 R85). -/
  dead : Mask
  flight : List Flight
  ap : BitVec 16
  apv : BitVec 16
  park : GPark
  /-- Parked by a switch marker until all counters are zero (02 R29). -/
  marked : Bool
  /-- The address of the word with that marker, or of the `gath.park` that parked the group (15 R269). -/
  parkPc : Word
  /-- An operation whose register result holds back MEM, ASY and SYS words, and the scope of the acquire that follows it
  (10 R195, R307, 12 R245). -/
  gate : Option (Nat × Scope)
  active : Bool
  /-- Groups a `yield` waits for before re-entry (11 R226). -/
  yielded : List Nat
  /-- SP bytes whose newest value this group must see, as ranges: first address, count, publication (08 R150, R152). -/
  own : List (Nat × Nat × Nat)
  /-- SP bytes its own bulk operations delivered, until a wait covers them. -/
  dlv : List Dlv
  exiting : Bool
  sealed : Mask
  gbarred : Mask
  /-- Store digest, event ordinal, lanes arrived per barrier since its last event (15 R285). -/
  digest : Word
  /-- Words written that the digest does not count yet, in order; an operation stands for the words of an atomic not performed. -/
  digq : List (Option Nat × List (Word × Word))
  evOrd : Nat
  arrived : Kv Mask
  /-- Fragment that issued last (05 R90). -/
  rot : Nat
  /-- It waits for its first curd slot or the gang (05 R82, 12 R234). -/
  held : Bool
  deriving DecidableEq, Repr

/-- A barrier (05 R91 Table 5-5). -/
structure Bar where
  expl : Nat
  arrl : Nat
  phase : Bool
  expb : Nat
  arrb : Nat
  expe : Nat
  arre : Nat
  deriving DecidableEq, Repr

/-- What the sequencer waits for. -/
inductive SPark
  | run
  /-- `mbin`, `mend`: earlier steps still to write. -/
  | writes
  /-- `mbwait` or a header's wait (02 R22, 06 R118). -/
  | bar (n : Nat) (hdr : Bool)
  deriving DecidableEq, Repr

/-- A write a step or slot word has not made yet (06 R114): group, logical position, lane, value; and the step's flags. -/
structure SeqWrite where
  cells : List (Nat × Nat × Nat × Word)
  flags : BitVec 5
  deriving DecidableEq, Repr

/-- A pending sequencer fault (05 R104). -/
structure SeqFault where
  cause : Cause
  step : Nat
  pc : Word
  deriving DecidableEq, Repr

/-- A team's sequencer (06 R113 Table 6-2). -/
structure Seq where
  busy : Bool
  pc : Word
  cl : Option (Cls × Nat)
  landed : Bool
  /-- That transfer was a `mjmp` or `mloop` (R342). -/
  jumped : Bool
  k : Kv (BitVec 16)
  pa : Nat
  pb : Nat
  share : Nat
  /-- AccMap[q][N] by 8q + N; AHold, BHold by q: group indexes in the team. -/
  acc : Kv Nat
  ahold : Kv Nat
  bhold : Kv Nat
  sap : BitVec 16
  flags : BitVec 5
  park : SPark
  /-- Next step of the `mma` or `mmas`, or next slot of the `mzero`, under way. -/
  stepIdx : Nat
  writes : List SeqWrite
  /-- Words executed since the team's last group became exiting (05 R84). -/
  run : Option Nat
  deriving DecidableEq, Repr

/-- A team (05 R80, R81, R91). -/
structure Team where
  cluster : Nat
  /-- Index within the cluster, linear index in the grid, coordinates (11 R219). -/
  idx : Nat
  lin : Nat
  x : Nat
  y : Nat
  z : Nat
  /-- The cores it spans, ascending; its home core first (01 R19). -/
  cores : List Nat
  groups : List Nat
  /-- Group 0's global group ID, kept after it has released (05 R104). -/
  lead : Nat
  /-- SH bytes of the team, and the 4 KiB pages of each of its cores that hold its share. -/
  sh : Nat
  shPages : List (List Nat)
  bars : Kv Bar
  seq : Option Seq
  /-- The sequencer fault not yet delivered (R104); a later one is discarded while it is pending (R324). -/
  fault : Option SeqFault
  /-- SP bytes counted toward barriers: barrier, first address, count, and whether a completion covers them (10 R197). -/
  got : List (Nat × Nat × Nat × Bool)
  /-- Publication count at placement (10 R193). -/
  placedAt : Nat
  retired : Bool
  deriving DecidableEq, Repr

/-- The stops C6 and C1 ask of a cluster (15 R269, 11 R227). -/
inductive StopReq
  | none
  /-- A stop under way: tag and sender of the request, and whether it names the whole grid (15 R269). -/
  | asked (tag : Word) (sender : Nat) (grid : Bool)
  | stopped
  deriving DecidableEq, Repr

/-- A pre-emption's progress (11 R227). -/
inductive Preempt
  | none
  | asked
  /-- Saved at this address of the save pool. -/
  | saved (addr bytes : Nat)
  deriving DecidableEq, Repr

/-- A cluster (05 R82, 14 R259). -/
structure Cluster where
  task : Nat
  idx : Nat
  anchor : Nat
  cores : List Nat
  teams : List Nat
  cls : Nat
  /-- Boost step this interval, and whether it is held by grant (14 R262). -/
  step : Nat
  byGrant : Bool
  placedNs : Nat
  frozen : Bool
  stop : StopReq
  pre : Preempt
  /-- Groups and teams of a saved unit, to be placed again; what its save area holds is read back from there (11 R228, R229). -/
  savedGroups : List (Nat × Group)
  savedTeams : List (Nat × Team)
  /-- State images of the cluster to apply at resumption, in the order they were written (15 R270). -/
  images : List (List Byte)
  deriving DecidableEq, Repr

/-- A ladder task's progress in its vat (12 R234 to R241). -/
structure Ladder where
  /-- The 32 words of the vat descriptor (Table 12-1). -/
  desc : List Word
  key : Nat
  pass : Nat
  q : Word
  l : Bool
  someSeal : Bool
  counter : Word
  curd : Option Nat
  /-- A curd-slot choice waits for a slot (12 R235). -/
  choosing : Bool
  /-- Its last seal point is made, or it was cut. -/
  ended : Bool
  energy : Nat
  /-- A cut's writes are not settled yet; true for a fault (12 R241, R242). -/
  cutting : Option Bool
  /-- A release is due in waves (12 R238). -/
  releasing : Bool
  /-- It is held for want of a vat-table entry (12 R231). -/
  wants : Bool
  deriving DecidableEq, Repr

/-- A stagger in progress (14 R264): completion time, W and T as read there, waves already resumed. -/
structure Stagger where
  start : Nat
  w : Nat
  t : Nat
  bySeal : Bool
  done : List Nat
  deriving DecidableEq, Repr

/-- A task (11 R211 to R214). -/
structure Task where
  cmd : Nat
  /-- The record's address and, once read and checked, its 128 words (11 R217). -/
  lraddr : Nat
  lr : List Word
  args : List Word
  tcb : Option (BitVec 64)
  prio : Nat
  /-- It waits in its FIFO; order of entry (11 R220). -/
  queued : Bool
  order : Nat
  nextCl : Nat
  pass : Nat
  urgent : Bool
  placedNs : Nat
  /-- Clusters retired. -/
  gone : Nat
  dead : Bool
  ladder : Option Ladder
  stagger : Option Stagger
  deriving DecidableEq, Repr

/-- One stream of a recording, with its partial chunk (15 R283, R284). -/
structure LogStream where
  kind : Nat
  core : Nat
  bank : Nat
  cseq : Nat
  entries : List Word
  deriving DecidableEq, Repr

/-- A recording of a command (15 R283): its area, the bytes used of it, which of the request's commands it is. -/
structure Recording where
  base : Nat
  bytes : Nat
  used : Nat
  nth : Nat
  streams : List LogStream
  incomplete : Bool
  deriving DecidableEq, Repr

/-- A log being replayed (15 R286): entries left per bank, placements, digests. -/
structure Replaying where
  banks : Kv (List Word)
  places : List Word
  digests : List (Word × Word)
  /-- Requests held at a gate: group, operation, bank, and the clock of the bank's core since which. -/
  gates : List (Nat × Nat × Nat × Nat)
  diverged : Option (Nat × Nat × Word × Word)
  deriving DecidableEq, Repr

/-- The completion status of a command that does not end OK. -/
structure EndInfo where
  status : Nat
  cause : Nat
  tpc : Word
  ggid : Nat
  /-- The ladder task whose grid faulted, of several in one command: the record takes its version (12 R242). -/
  task : Option Nat := none
  deriving DecidableEq, Repr

/-- A command (11 R211) or an open packet of another type. -/
structure Command where
  queue : Nat
  seq : Word
  cr : Nat
  sid : Nat
  priv : Bool
  /-- A LAUNCH has a spawn-tree counter; the others complete by their own events. -/
  launch : Bool
  spawn : Nat
  tasks : Nat
  ending : Option EndInfo
  vseq : Word
  vqual : Word
  recd : Option Recording
  repl : Option Replaying
  /-- An INVAL packet's number (11 R209). -/
  inval : Option Word
  /-- Its record waits to be written (11 R210). -/
  closing : Bool
  /-- Cores that ran its grids (10 R199). -/
  ran : List Nat
  deriving DecidableEq, Repr

/-- A WAITVALUE under way (11 R209): packet's command, its words, time of the next read. -/
structure WaitVal where
  cmd : Nat
  words : List Word
  next : Nat
  deriving DecidableEq, Repr

/-- A log area: its base and bytes, bytes written so far, commands started under the request (log 26). -/
structure LogArea where
  base : Nat
  bytes : Nat
  used : Nat
  next : Nat
  replay : Bool
  deriving DecidableEq, Repr

/-- A queue (11 R205). -/
structure Queue where
  ring : Nat
  logn : Nat
  prio : Nat
  sid : Nat
  priv : Bool
  saveVA : Nat
  saveBytes : Nat
  widx : Word
  ridx : Word
  /-- A doorbell not yet served to the end (11 R207). -/
  door : Bool
  /-- The packet copied out that has not started. -/
  held : Option (List Word)
  /-- Open packets, oldest first: commands. -/
  opened : List Nat
  wait : Option WaitVal
  /-- A destroy waits for the running commands: the CONFIG packet's command. -/
  destroying : Option Nat
  /-- Recording or replay asked for its next commands (16 Table 16-9). -/
  log : Option LogArea
  deriving DecidableEq, Repr

/-- The bulk commands (08 R153 to R166, 11 R209). -/
inductive BulkKind | cpy | cpymc | cpyred | gath | scat | hub
  deriving DecidableEq, Repr

/-- A gather or scatter lane: VA with its key, and for a gather's lane that hit at issue where each byte of its row stands (08 R165,
17 R327). -/
structure LaneMove where
  lane : Nat
  va : BitVec 64
  tr : Option (List Loc)
  deriving DecidableEq, Repr

/-- A bulk command in its engine. -/
structure Bulk where
  kind : BulkKind
  /-- Issuing group and its operation; for the hub, the packet's command. -/
  gid : Nat
  fl : Nat
  cmd : Nat
  core : Nat
  team : Nat
  sid : Nat
  rel : Bool
  res : Bool
  bar : Option Nat
  /-- The eight descriptor words as read at issue. -/
  desc : List Word
  /-- Scale case (08 Table 8-5): the record's words. -/
  scale : List Word
  /-- `cpymc` core mask; `cpyred` second scalar. -/
  x : BitVec 64
  /-- Pieces not delivered, as intervals of piece numbers; by core for `cpymc`, else 0. The piece of a lane is its number. -/
  todo : List (Nat × Nat × Nat)
  /-- Bytes of pieces a multicast has read (R318). -/
  fetched : Kv (List Byte)
  lanes : List LaneMove
  /-- Writes that `.rel` waits for: flights of the group older than it. -/
  after : List Nat
  late : Bool
  /-- Its pages passed the permission and tag checks at issue (08 R159). -/
  checked : Bool
  deriving DecidableEq, Repr

/-- An open reduction (08 R161), keyed by space and RID. -/
structure Red where
  dst : List Word
  count : Nat
  /-- Source core, order of arrival, bytes. -/
  got : List (Nat × Nat × List Byte)
  bar : Option Nat
  core : Nat
  /-- Cluster of the first contributor, whose team on the destination core has the barrier (R161). -/
  cluster : Nat
  cmd : Nat
  /-- The grid whose contribution opened it (12 R241). -/
  task : Nat
  /-- Base dies whose switch holds a combining entry of it, and whether it holds an entry of its core's reduction buffer (R162). -/
  switches : List Nat
  buffered : Bool
  deriving DecidableEq, Repr

/-- Who asked for a translation (09 R176, R179). -/
inductive Who
  /-- A page of a bulk command: of a gather's or scatter's lane, or of a copy (part 0). -/
  | bulk (b part : Nat)
  /-- A group: code fetch, or a word that reads main memory at issue. -/
  | grp (g : Nat)
  /-- A sequencer's fetch. -/
  | seq (t : Nat)
  /-- A lane of `gath.tol`, which parks nothing. -/
  | tol (g : Nat)
  /-- A lane of a `gath.tol` of a task, whose group has released its slot. -/
  | left (t : Nat)
  /-- Lock writes of a `tagset`. -/
  | locks (g fl : Nat)
  /-- The hub for a queue's ring, a task's record or descriptor, a task's control blocks, a command's record (R176). -/
  | ring (q : Nat)
  | task (t : Nat)
  | succ (t : Nat)
  | record (c : Nat)
  | host (i : Nat)
  /-- The word of a WAITVALUE of a queue. -/
  | poll (q : Nat)
  /-- A save area (11 R227). -/
  | save (cl : Nat)
  deriving DecidableEq, Repr

/-- A request for a page: space, VA[54:16], kind, asker, ENG, group (Table 9-5), code address of the word it is made for, and
for the record of a scale copy the key, address and bytes whose tags its walk checks (08 R154). -/
structure Req where
  sid : Nat
  page : Nat
  kind : AKind
  who : Who
  eng : Nat
  gid : Nat
  core : Nat
  pc : Word
  tag : Option (Nat × Nat × Nat) := none
  deriving DecidableEq, Repr

/-- A translation (09 R171, R174): first page it covers, pages covered, leaf bits. -/
structure Tlb where
  sid : Nat
  page : Nat
  pages : Nat
  pte : BitVec 64
  deriving DecidableEq, Repr

/-- A non-leaf entry in the walk cache: level it was read at (4 to 2) and the next table (09 R175). -/
structure WalkEnt where
  sid : Nat
  level : Nat
  page : Nat
  pages : Nat
  table : Nat
  deriving DecidableEq, Repr

/-- An outstanding miss (09 R178). -/
structure Miss where
  sid : Nat
  page : Nat
  reqs : List Req
  count : Nat
  /-- Group and ENG of the request that allocated it, the kinds seen so far (R180). -/
  gid : Nat
  eng : Nat
  kind : BitVec 3
  walking : Bool
  /-- The walk ended in a fault and the replay list had no room (R182). -/
  stuck : Bool
  deriving DecidableEq, Repr

/-- A fault record (09 Table 9-5). -/
structure FltRec where
  page : Nat
  sid : Nat
  kind : BitVec 3
  closed : Bool
  count : Nat
  first : Nat
  eng : Nat
  level : Nat
  seq : Word
  deriving DecidableEq, Repr

/-- A die's translation unit (09 R175, R178 to R183). -/
structure Die where
  l2 : List Tlb
  range : Kv (List Word)
  walkc : List WalkEnt
  miss : List Miss
  port : List Req
  flt : Kv FltRec
  dropped : Bool
  replayFull : Bool
  replay : List Req
  /-- Requests that joined an open record and found no place in the replay list (log 10). -/
  unplaced : List Req
  faultSeq : Word
  deriving DecidableEq, Repr

/-- A queued invalidation (09 R187); `waits` lists the bulk lanes and `ops` the groups' operations translated before it was
performed. -/
structure Inval where
  n : Word
  sid : Nat
  start : Nat
  stop : Nat
  performed : Bool
  waits : List (Nat × Nat)
  ops : List (Nat × Nat)
  deriving DecidableEq, Repr

/-- A residency entry (11 R223 Table 11-10). -/
structure Res where
  sid : Nat
  va : Nat
  len : Nat
  sp : Nat
  deriving DecidableEq, Repr

/-- Tagged sampling of a quadrant (15 R278): log2 of PERIOD, 0 when off; countdown, 0 while a word is tagged. -/
structure Sampler where
  period : Nat
  count : Nat
  /-- The word at which the countdown reached zero: its record so far, its group, its operation. -/
  hit : Option (List Word × Nat × Option Nat)
  /-- The tagged word's record until it is written, and the operation it waits for. -/
  sample : Option (List Word)
  fl : Option (Nat × Nat)
  deriving DecidableEq, Repr

/-- A pending SP write (10 R193): its value, the groups whose stores it covers, whether a load has returned it. -/
structure Pend where
  val : Byte
  writers : List Nat
  loaded : Bool
  /-- The grid whose store it is: its end publishes it. -/
  task : Nat
  deriving DecidableEq, Repr

/-- A ballast ramp (14 R265): its start, its first rate, DUR as it stood at the start, its clocks counted so far. -/
structure Ramp where
  start : Nat
  rate : Nat
  dur : Nat
  counted : Nat
  deriving DecidableEq, Repr

/-- A core (01 R17, 08 R167, 09 R175, 10 R193, 14, 15). -/
structure Core where
  clk : Nat
  /-- Thousandths of an array clock since the last one. -/
  sub : Nat
  /-- Array clock step in force; a granted rise not yet switched, and the time by which it is (14 R259). -/
  step : Nat
  rise : Option (Nat × Nat)
  /-- Pending SP writes by address (10 R193). -/
  pend : Kv Pend
  /-- Publication count at the last refresh of each home's bytes; of ranges (first address, count, publication count); and the newest value loaded (R193, R197). -/
  view : Kv Nat
  viewByte : List (Nat × Nat × Nat)
  seen : Kv Nat
  /-- Grant budgets of the four quadrants (14 R260). -/
  budget : Kv Nat
  l1 : List Tlb
  res : Kv Res
  /-- What RESWIN last committed with V = 0 at an index that holds no entry: reads show it (11 R223, 00 R5). -/
  resOff : Kv Res
  evc : Kv Nat
  /-- A word or step was issued this microsecond, and in the last one (14 R265). -/
  issued : Nat
  issuedPrev : Nat
  ramp : Option Ramp
  samp : Kv Sampler
  /-- Waiting `grow` requests by quadrant, oldest first (04 R71). -/
  growQ : Kv (List Nat)
  /-- The skid buffer: replies and deliveries that arrived while the core was frozen, by their events, oldest first (15 R273). -/
  skid : List Instr
  deriving DecidableEq, Repr

/-- A vat-table entry, by the key of the head's first byte (12 R244): pins by slot, the running task. -/
structure Vat where
  pins : Kv Nat
  running : Option Nat
  deriving DecidableEq, Repr

/-- A VPIN instance (12 Table 12-6). -/
structure Vpin where
  head : BitVec 64
  op : Nat
  slot : Nat
  seq : Word
  qual : Word
  rslot : Nat
  flags : BitVec 3
  done : Bool
  err : Bool
  deriving DecidableEq, Repr

/-- An access entry (16 R300 Table 16-5). -/
structure Acc where
  base : Nat
  limit : Nat
  mtype : Nat
  mid : Nat
  tkind : Nat
  r : Bool
  w : Bool
  x : Bool
  valid : Bool
  deriving DecidableEq, Repr

/-- A mailbox (16 R293 Table 16-3). -/
structure Mbox where
  send : Kv Word
  msgs : List (List Word)
  full : Bool
  deriving DecidableEq, Repr

/-- SNAPTRIG (15 Table 15-3). -/
structure SnapTrig where
  arm : Bool
  latched : Bool
  missed : Bool
  eninsn : Bool
  endebug : Bool
  enerr : Bool
  enhost : Bool
  ggid : Nat
  src : Nat
  /-- The control clock of the last firing (R276). -/
  firedNs : Nat
  deriving DecidableEq, Repr

/-- A watchpoint (15 Table 15-2). -/
structure Watch where
  base : BitVec 64
  len : Nat
  rd : Bool
  wr : Bool
  deriving DecidableEq, Repr

/-- What C6 keeps of one space (15 R268, R272, R282). -/
structure Debug where
  enabled : Bool
  watch : Kv Watch
  hist : List (Nat × Nat × BitVec 4 × Nat)
  tagRec : Option (List Word)
  deriving DecidableEq, Repr

/-- Power controller (14). -/
structure Power where
  /-- BOOSTCFG as read (Table 14-1). -/
  boostcfg : Word
  permits : Nat
  limit : Nat
  half : Bool
  rp : Nat
  stagW : Nat
  stagT : Nat
  ballEn : Bool
  ballDur : Nat
  ballDrop : Nat
  ballCount : Nat
  cap : Nat
  leased : Bool
  fallen : Bool
  fallback : Nat
  capSeq : Word
  capSeen : Bool
  leaseEnd : Nat
  /-- Time of the next 1 us update and ballast check, of the next interval; none before the first placement (R261). -/
  nextUs : Nat
  nextBal : Nat
  nextInt : Option Nat
  /-- Interval 1 has begun. -/
  begun : Bool
  /-- Some core ran above nominal in the interval under way (R263). -/
  above : Bool
  /-- Highest step any core held at the interval's start: the rail's point (R259). -/
  rail : Nat
  /-- Measured power of the last four 1 us intervals, in mW (R262). -/
  meas : List Nat
  hold : Bool
  floor : Bool
  shutdown : Bool
  deriving DecidableEq, Repr

/-- What a snapshot copies (15 R275). -/
structure Snapshot where
  clocks : List (Nat × Nat)
  evc : List (Nat × Kv Nat)
  bars : List (Nat × Kv Bar)
  groups : List (Nat × List Nat × Bool × List SplitRec)
  fltstat : List (Nat × Word)
  misses : List (Nat × List Miss)
  queues : List (Nat × Word × Word)
  vats : Kv Vat
  power : Power
  /-- Sequencers by team (06 R113). -/
  seqs : List (Nat × Option Seq)
  /-- Some core ran ballast. -/
  ballast : Bool
  /-- The control-clock count of the translation units, the hub and the power controller. -/
  ctl : Nat
  deriving DecidableEq, Repr

/-- Firmware, boot and trust (16 R293 to R303). -/
structure Trust where
  booted : Bool
  halted : Bool
  mr0 : BitVec 512
  mr1 : BitVec 512
  pendmr : BitVec 512
  pending : Bool
  handover : Bool
  actver : Word
  pendver : Word
  fusedMin : Word
  /-- Layouts the active and the pending bundle take: native first, then those converted. -/
  layouts : List Nat
  pendLayouts : List Nat
  /-- C0 or C1 failed and Quickset took over (R296). -/
  standbyUsed : Bool
  failed : List Nat
  deviceFailed : Bool
  queue0 : Bool
  /-- Receivers of mailboxes 9 to 15, and the one that gets error notices (Table 16-9). -/
  assign : Kv Nat
  errBox : Option Nat
  /-- Replies that wait for room: mailbox, message (R295). -/
  waiting : List (Nat × List Word)
  /-- Owner of each space: 16 to 31 host functions, 32 the management port (R294). -/
  owner : Kv Nat
  /-- HDM windows of the host functions are the device's one window: base and size (R289). -/
  hdm : Nat
  peers : Kv (BitVec 12)
  removed : BitVec 12
  /-- Corrected errors by die and cause (R302). -/
  soft : Kv Nat
  errRing : List (List Word)
  errSeq : Word
  /-- The journal of C0 and C1 (R296), newest first: core, and what its entry holds. -/
  journal : List (Nat × Nat × Nat × Nat)
  /-- SPACE DESTROY requests whose invalidation is not complete: its number, sender, tag, space (R294). -/
  destroys : List (Word × Nat × Word × Nat)
  deriving DecidableEq, Repr

/-- A value returned to a party outside: a register read, a report, a reply of a peer request. -/
structure Reply where
  dest : Master
  words : List Word
  deriving DecidableEq, Repr

/-- What C6 reads for a debugger: the event counters of a core, which it may clear (15 R277), the ring of sample records, which
it drains (R278), the tag fault record of a space (R282), the latched snapshot (R275). -/
inductive C6Read
  | counters (core : Nat) (clear : Bool)
  | samples
  | tagRecord (sid : Nat)
  | snapshot
  deriving DecidableEq, Repr

/-- What a step does: issue a word of a group, one of a team's sequencer, an event, one pass of a queue's parser loop, the
result of one lane of an operation (02 R28), a read of a host-visible register (16 R291), a read by C6, a reply or delivery that a
frozen core's skid buffer takes (15 R273), one nanosecond; or whatever of these may happen now (log 2). -/
inductive Act
  | grp (g : Nat)
  | seq (t : Nat)
  | ev (i : Instr)
  | parse (q : Nat)
  | lane (g id l : Nat)
  | barRead (m : Master) (off : Nat)
  | c6 (r : C6Read)
  | arrive (c : Nat) (i : Instr)
  | tick
  | free
  deriving DecidableEq, Repr

/-- Who issues the word being executed: nobody; a fragment, with the switch marker and the word count; a sequencer. -/
inductive Issuer
  | none
  | frag (g fid : Nat) (sw : Bool) (words : Nat)
  | seq (t : Nat) (sw : Bool)
  deriving DecidableEq, Repr

/-- The state of the part. The fields `agenda`, `tick`, `issue`, `nextId`, `pubs`, `spHist` and `out` are the model's own
(log 2, 6, 13); every other is the spec's. -/
structure State where
  agenda : List Act
  tick : Nat
  issue : Issuer
  nextId : Nat
  pubs : Nat
  spHist : List (Nat × Byte × Nat)
  out : List Reply
  ns : Nat
  mem : List Host.Cell
  locks : Kv (BitVec 4)
  cores : Kv Core
  dies : Kv Die
  groups : Kv Group
  teams : Kv Team
  clusters : Kv Cluster
  tasks : Kv Task
  cmds : Kv Command
  queues : Kv Queue
  bulks : Kv Bulk
  reds : Kv Red
  vats : Kv Vat
  vpins : Kv Vpin
  spaceBase : Nat
  invSeq : Word
  invDone : Word
  invs : List Inval
  invrange : Kv Word
  invrangeSeq : Word
  invrangeErr : BitVec 2
  acc : Kv Acc
  acctab : Kv Word
  reswin : Kv Word
  mbox : Kv Mbox
  snap : SnapTrig
  snapshot : Option Snapshot
  debug : Kv Debug
  samples : List (List Word)
  /-- Whose each log chunk is, by its address: what C6 wrote, and which of its request's commands it belongs to (15 R283, log 26). -/
  logOwners : Kv (List Word × Nat)
  lastPlace : Option Nat
  power : Power
  trust : Trust
  deriving DecidableEq, Repr

/-- A core after a cold reset. -/
def Core.reset : Core :=
  { clk := 0, sub := 0, step := 0, rise := none, pend := [], view := [], viewByte := [], seen := [], budget := [], l1 := [],
    res := [], resOff := [], evc := [], issued := 0, issuedPrev := 0, ramp := none, samp := [], growQ := [], skid := [] }

/-- A die's translation unit after a cold reset. -/
def Die.reset : Die :=
  { l2 := [], range := [], walkc := [], miss := [], port := [], flt := [], dropped := false, replayFull := false, replay := [],
    unplaced := [], faultSeq := 0 }

/-- The power controller after a cold reset (Tables 14-1 to 14-6). -/
def Power.reset : Power :=
  { boostcfg := 0x0C0801A4, permits := 64, limit := 64, half := false, rp := 63, stagW := 4, stagT := 200,
    ballEn := true, ballDur := 40, ballDrop := 16, ballCount := 0,
    cap := 2900, leased := false, fallen := false, fallback := 1800, capSeq := 0, capSeen := false, leaseEnd := 0,
    nextUs := 1000, nextBal := 1000, nextInt := none, begun := false, above := false, rail := 0, meas := [],
    hold := false, floor := false, shutdown := false }

/-- Firmware and trust after a cold reset; what the spec gives no value for is in log 11. -/
def Trust.reset : Trust :=
  { booted := false, halted := false, mr0 := 0, mr1 := 0, pendmr := 0, pending := false, handover := false, actver := 0,
    pendver := 0, fusedMin := 0, layouts := [1], pendLayouts := [], standbyUsed := false, failed := [], deviceFailed := false,
    queue0 := false, assign := [], errBox := none, waiting := [], owner := [], hdm := 0xC000000000, peers := [], removed := 0,
    soft := [], errRing := [], errSeq := 0, journal := [], destroys := [] }

/-- SNAPTRIG after a cold reset (Table 15-3). -/
def SnapTrig.reset : SnapTrig :=
  { arm := false, latched := false, missed := false, eninsn := false, endebug := false, enerr := false, enhost := false,
    ggid := 0, src := 0, firedNs := 0 }

/-- The part right after a cold reset: no work placed, every table empty, memory with nothing listed. -/
def State.reset : State :=
  { agenda := [], tick := 0, issue := .none, nextId := 0, pubs := 0, spHist := [], out := [], ns := 0, mem := [], locks := [],
    cores := [], dies := [], groups := [], teams := [], clusters := [], tasks := [], cmds := [], queues := [], bulks := [],
    reds := [], vats := [], vpins := [], spaceBase := Config.spaceBase, invSeq := 0, invDone := 0, invs := [], invrange := [],
    invrangeSeq := 0, invrangeErr := 0, acc := [], acctab := [], reswin := [], mbox := [], snap := SnapTrig.reset,
    snapshot := none, debug := [], samples := [], logOwners := [], lastPlace := none, power := Power.reset, trust := Trust.reset }

end Sys2Proof.Machine
end

