-- ==== Sys2Proof/Machine/Kv.lean ====
section
/-! DEFINITION. Tables by number, sorted by key; memory; the scratchpad model of 10 R193. -/
set_option Elab.async false
namespace Sys2Proof.Machine

/-- A bit field of a number. -/
def bitsOf (v lo n : Nat) : Nat := v / 2 ^ lo % 2 ^ n

/-- The entry of a key. -/
def kvFind {α : Type} : Kv α → Nat → Option α
  | [], _ => none
  | (a, x) :: r, k => if k = a then some x else kvFind r k
/-- Set the entry of a key. -/
def kvPut {α : Type} : Kv α → Nat → α → Kv α
  | [], k, v => [(k, v)]
  | (a, x) :: r, k, v => if k < a then (k, v) :: (a, x) :: r else if k = a then (k, v) :: r else (a, x) :: kvPut r k v
/-- Remove the entry of a key. -/
def kvDel {α : Type} : Kv α → Nat → Kv α
  | [], _ => []
  | (a, x) :: r, k => if k = a then kvDel r k else (a, x) :: kvDel r k
/-- What a key holds when an unlisted key holds `d`. -/
def kvGet {α : Type} (d : α) (m : Kv α) (k : Nat) : α :=
  match kvFind m k with
  | some v => v
  | none => d
/-- Set what a key holds; a key that holds `d` is not listed, so equal tables are equal lists. -/
def kvSet {α : Type} [DecidableEq α] (d : α) (m : Kv α) (k : Nat) (v : α) : Kv α := if v = d then kvDel m k else kvPut m k v

/-- Keys rise strictly. -/
def kvSorted {α : Type} : Kv α → Bool
  | [] => true
  | [_] => true
  | (a, _) :: (b, y) :: r => decide (a < b) && kvSorted ((b, y) :: r)

/-- The key a location's byte has in `State.mem`; locations in range have different keys. -/
def locKey : Loc → Nat
  | .hbm a => a
  | .sp a => 2 ^ 44 + a
  | .sh c o => 2 ^ 45 + c * 2 ^ 21 + o
  | .sm c q o => 2 ^ 46 + (c * 4 + q) * 2 ^ 14 + o
  | .host a => 2 ^ 57 + a
  | .peer p a => 2 ^ 58 + p * 2 ^ 52 + a

/-- What a byte nothing has written reads as (log 1). -/
def memDefault : Byte := 0

/-- The canonical form of memory: addresses strictly rising, no entry equal to what an unlisted address reads as. -/
abbrev memWf (m : List Host.Cell) : Prop := kvSorted m = true ∧ ∀ c ∈ m, c.2 ≠ memDefault

/-- One byte. -/
def readByte (s : State) (l : Loc) : Byte := kvGet memDefault s.mem (locKey l)
def writeByte (s : State) (l : Loc) (b : Byte) : State := { s with mem := kvSet memDefault s.mem (locKey l) b }

/-- `n` bytes one after another, `f i` the location of byte i. -/
def readBytes (s : State) (f : Nat → Loc) (n : Nat) : List Byte := (List.range n).map fun i => readByte s (f i)
def writeBytesFrom (f : Nat → Loc) : Nat → List Byte → State → State
  | _, [], s => s
  | i, b :: r, s => writeBytesFrom f (i + 1) r (writeByte s (f i) b)
def writeBytes (s : State) (f : Nat → Loc) (bs : List Byte) : State := writeBytesFrom f 0 bs s

/-- Little-endian values (R2). -/
def leNat : List Byte → Nat
  | [] => 0
  | b :: r => b.toNat + 256 * leNat r
def leBytes : Nat → Nat → List Byte
  | 0, _ => []
  | n + 1, v => BitVec.ofNat 8 v :: leBytes n (v / 256)
/-- Words of a byte list (R2). -/
def wordsOf : List Byte → List Word
  | a :: b :: c :: d :: r => wordOf a b c d :: wordsOf r
  | _ => []
def bytesOfWords (ws : List Word) : List Byte := ws.flatMap bytesOf

/-! Tables of the state. -/

def coreOf (s : State) (c : Nat) : Core := kvGet Core.reset s.cores c
def setCore (s : State) (c : Nat) (x : Core) : State := { s with cores := kvSet Core.reset s.cores c x }
def dieOf (s : State) (d : Nat) : Die := kvGet Die.reset s.dies d
def setDie (s : State) (d : Nat) (x : Die) : State := { s with dies := kvSet Die.reset s.dies d x }
def modGroup (s : State) (g : Nat) (f : Group → Group) : State :=
  match kvFind s.groups g with
  | some x => { s with groups := kvPut s.groups g (f x) }
  | none => s
def modTeam (s : State) (t : Nat) (f : Team → Team) : State :=
  match kvFind s.teams t with
  | some x => { s with teams := kvPut s.teams t (f x) }
  | none => s
def modCluster (s : State) (c : Nat) (f : Cluster → Cluster) : State :=
  match kvFind s.clusters c with
  | some x => { s with clusters := kvPut s.clusters c (f x) }
  | none => s
def modTask (s : State) (t : Nat) (f : Task → Task) : State :=
  match kvFind s.tasks t with
  | some x => { s with tasks := kvPut s.tasks t (f x) }
  | none => s
def modCmd (s : State) (c : Nat) (f : Command → Command) : State :=
  match kvFind s.cmds c with
  | some x => { s with cmds := kvPut s.cmds c (f x) }
  | none => s
def modQueue (s : State) (q : Nat) (f : Queue → Queue) : State :=
  match kvFind s.queues q with
  | some x => { s with queues := kvPut s.queues q (f x) }
  | none => s
def modBulk (s : State) (b : Nat) (f : Bulk → Bulk) : State :=
  match kvFind s.bulks b with
  | some x => { s with bulks := kvPut s.bulks b (f x) }
  | none => s
def modCore (s : State) (c : Nat) (f : Core → Core) : State := setCore s c (f (coreOf s c))
def modDie (s : State) (d : Nat) (f : Die → Die) : State := setDie s d (f (dieOf s d))
/-- A name for a new object. -/
def fresh (s : State) : Nat × State := (s.nextId, { s with nextId := s.nextId + 1 })
/-- Add to an event counter of a core, modulo 2^48 (15 R277). -/
def count (s : State) (c n k : Nat) : State :=
  modCore s c fun x => { x with evc := kvSet 0 x.evc n ((kvGet 0 x.evc n + k) % 2 ^ 48) }

/-! Cores, dies and scratchpad homes (00 R8, 01 R10). -/

/-- The die of a core (R8). -/
def dieOfCore (c : Nat) : Nat := 4 * (c / 8 / 2) + c % 8 / 2
/-- A core's slice on its die, and the core of a die's slice (R10). -/
def sliceOfCore (c : Nat) : Nat := 2 * (c / 8 % 2) + c % 8 % 2
def coreOfSlice (d i : Nat) : Nat := 8 * (2 * (d / 4) + i / 2) + (2 * (d % 4) + i % 2)
/-- First SP address of a core's slice (R10). -/
def sliceBase (c : Nat) : Nat := dieOfCore c * 0x8000000 + sliceOfCore c * Config.sliceBytes
/-- An SP address that exists (R10, R146). -/
def spExists (a : Nat) : Bool := decide (a < 2 ^ 31) && decide (a % 0x8000000 < Config.dieSpEnd)
/-- The home core of an SP byte (R10, R191). -/
def homeOf (a : Nat) : Nat := coreOfSlice (a / 0x8000000) (a % 0x8000000 / Config.sliceBytes)

/-! Scratchpad (10 R193): published values are in `mem`; `spHist` keeps what each byte held before and until when. -/

/-- Publish a byte: P(b) takes the value, and any pending write of the publishing core is its caller's to drop. -/
def publish (s : State) (a : Nat) (b : Byte) : State :=
  let old := readByte s (.sp a)
  if old = b then s
  else writeByte { s with pubs := s.pubs + 1, spHist := (a, old, s.pubs + 1) :: s.spHist } (.sp a) b
def publishBytes (a : Nat) : List Byte → State → State
  | [], s => s
  | b :: r, s => publishBytes (a + 1) r (publish s a b)
/-- A group must see what is now published of n bytes (08 R150, R152). -/
def mustSee (a n : Nat) (s : State) (gid : Nat) : State := modGroup s gid fun g => { g with own := (a, n, s.pubs) :: g.own }
/-- Publish bytes at one moment: they have one publication, so that no reader finds some of them changed and others not (12 R238). -/
def publishAtOnce (l : List (Nat × Byte)) (s : State) : State :=
  let new := l.filter fun e => readByte s (.sp e.1) != e.2
  if new.isEmpty then s
  else
    new.foldl (fun x e => writeByte x (.sp e.1) e.2)
      { s with pubs := s.pubs + 1, spHist := (new.map fun e => (e.1, readByte s (.sp e.1), s.pubs + 1)) ++ s.spHist }
/-- Bytes that a publication up to the m-th published together with a byte, and its number. -/
def together (s : State) (a m : Nat) : List (Nat × Nat) :=
  let mine := (s.spHist.filter fun e => e.1 == a && decide (e.2.2 ≤ m)).map (·.2.2)
  (s.spHist.filter fun e => e.1 != a && mine.contains e.2.2).map fun e => (e.1, e.2.2)
/-- A core has found a byte as it is after its m-th publication: its later loads go behind neither that nor what was published together
with it. -/
def coreFinds (s : State) (c a m : Nat) : State :=
  modCore s c fun x => { x with seen := ((a, m) :: together s a m).foldl (fun t e => kvSet 0 t e.1 (max e.2 (kvGet 0 t e.1))) x.seen }
/-- A core's loads must see what is now published of a byte (R193). -/
def coreSees (s : State) (c a : Nat) : State := coreFinds s c a s.pubs
/-- Publish a byte of a core in place of its pending write, if it has one: the groups it covers must see it, and the core must if
a load has returned it. -/
def publishAt (s : State) (c a : Nat) (b : Byte) : State :=
  match kvFind (coreOf s c).pend a with
  | none => publish s a b
  | some e =>
    let s1 := publish (modCore s c fun x => { x with pend := kvDel x.pend a }) a b
    e.writers.foldl (mustSee a 1) (if e.loaded then coreSees s1 c a else s1)
def publishAtAll (c a : Nat) : List Byte → State → State
  | [], s => s
  | b :: r, s => publishAtAll c (a + 1) r (publishAt s c a b)
/-- Publish bytes that a group writes at once: its own later loads see them (08 R150). -/
def publishOwn (s : State) (gid a : Nat) (bs : List Byte) : State := mustSee a bs.length (publishAtAll (gid / 64) a bs s) gid
/-- The grid of a group. -/
def gridOf (s : State) (gid : Nat) : Nat :=
  (((kvFind s.groups gid).bind fun g => (kvFind s.teams g.team).bind fun t => kvFind s.clusters t.cluster).map (·.task)).getD 0
/-- Make a plain store's byte of a group the core's pending write, in place of an earlier one. -/
def pend (s : State) (c gid a : Nat) (b : Byte) : State :=
  modCore s c fun x =>
    let old := (kvFind x.pend a).getD { val := b, writers := [], loaded := false, task := 0 }
    let new : Pend := { val := b, writers := gid :: old.writers.filter (· != gid), loaded := old.loaded, task := gridOf s gid }
    { x with pend := kvPut x.pend a new }
/-- Publish a core's pending write to a byte, if it has one. -/
def publishPend (s : State) (c a : Nat) : State :=
  match kvFind (coreOf s c).pend a with
  | some e => publishAt s c a e.val
  | none => s
/-- A load returns a core's pending write. -/
def noteLoaded (s : State) (c a : Nat) : State :=
  match kvFind (coreOf s c).pend a with
  | some e => if e.loaded then s else modCore s c fun x => { x with pend := kvPut x.pend a { e with loaded := true } }
  | none => s
/-- A group that leaves its slot is no pending write's any more. -/
def leaveWriters (s : State) (gid : Nat) : State :=
  modCore s (gid / 64) fun x => { x with pend := x.pend.map fun e => (e.1, { e.2 with writers := e.2.writers.filter (· != gid) }) }
/-- Publish the pending writes whose homes are covered, in address order. -/
def publishList (c : Nat) : List (Nat × Pend) → State → State
  | [], s => s
  | (a, _) :: r, s => publishList c r (publishPend s c a)
/-- Publish the pending writes of a grid, on every core (R193). -/
def publishGrid (s : State) (tk : Nat) : State :=
  s.cores.foldl (fun x c => publishList c.1 (c.2.pend.filter fun p => p.2.task == tk) x) s
def publishHomes (s : State) (c : Nat) (covers : Nat → Bool) : State :=
  publishList c ((coreOf s c).pend.filter fun p => covers (homeOf p.1)) s
/-- Every pending write is published. -/
def publishAll (s : State) : State := s.cores.foldl (fun x c => publishHomes x c.1 fun _ => true) s

/-- The newest publication a list of ranges asks for of a byte. -/
def rangeFloor (l : List (Nat × Nat × Nat)) (a : Nat) : Nat :=
  l.foldl (fun m e => if e.1 ≤ a ∧ a < e.1 + e.2.1 then max m e.2.2 else m) 0
/-- From which publication on a load on core c must see a byte: the core's last refresh of it, the team's placement, the newest
value loaded, and what the group's own ranges ask. -/
def viewFloor (s : State) (c placed : Nat) (own : List (Nat × Nat × Nat)) (a : Nat) : Nat :=
  let x := coreOf s c
  max (max (max placed (kvGet 0 x.view (homeOf a))) (max (rangeFloor x.viewByte a) (kvGet 0 x.seen a))) (rangeFloor own a)
/-- The values a plain load may return, the present one first; with each, the publication that ended it. -/
def viewChoices (s : State) (c placed : Nat) (own : List (Nat × Nat × Nat)) (a : Nat) : List (Byte × Option Nat) :=
  (readByte s (.sp a), none) ::
    (s.spHist.filter fun e => e.1 = a ∧ viewFloor s c placed own a < e.2.2).map fun e => (e.2.1, some e.2.2)
/-- A plain load of one SP byte (R193): the core's pending write, else one of the allowed values (log 6). -/
def loadSp (s : State) (c placed : Nat) (own : List (Nat × Nat × Nat)) (a : Nat) : Byte × State :=
  match kvFind (coreOf s c).pend a with
  | some e => (e.val, noteLoaded s c a)
  | none =>
    match viewChoices s c placed own a with
    | [] => (readByte s (.sp a), s)
    | [(b, _)] => (b, coreSees s c a)
    | x :: y :: r =>
      let n := Config.viewPick s.tick a % (r.length + 2)
      let e := (x :: y :: r).getD n x
      let mark := match e.2 with
        | some u => u - 1
        | none => s.pubs
      (e.1, coreFinds s c a mark)
/-- What bulk reads and acquire loads see: the issuing core's pending write over the published value (R195, R198). -/
def peekSp (s : State) (c a : Nat) : Byte :=
  match kvFind (coreOf s c).pend a with
  | some e => e.val
  | none => readByte s (.sp a)
/-- Refresh a core's view of the bytes of some homes, or of a range of bytes (R193, R197). -/
def refreshHomes (s : State) (c : Nat) (homes : List Nat) : State :=
  modCore s c fun x => { x with view := homes.foldl (fun m h => kvSet 0 m h s.pubs) x.view }
def refreshRange (s : State) (c a n : Nat) : State :=
  modCore s c fun x => { x with viewByte := (a, n, s.pubs) :: x.viewByte }

end Sys2Proof.Machine
end

