-- ==== Sys2Proof/Machine/Ops.lean ====
section
/-! DEFINITION. The shared operations of words and events: lanes and registers, counters, fragments, barriers, faults of a
command, taking a trap, and what every word does after its own effect. -/
set_option Elab.async false
namespace Sys2Proof.Machine

/-! Lanes and registers. -/

/-- The lanes of a mask, ascending. -/
def lanesOf (m : Mask) : List Nat := (List.range 32).filter fun l => m.getLsbD l
/-- How many lanes. -/
def laneCount (m : Mask) : Nat := (lanesOf m).length
/-- The bit of a lane. -/
def laneBit (l : Nat) : Mask := BitVec.twoPow 32 l
/-- The mask of a lane list. -/
def maskOf (ls : List Nat) : Mask := ls.foldl (fun m l => m ||| laneBit l) 0
/-- The lowest lane, which names a fragment. -/
def fidOf (m : Mask) : Nat :=
  match lanesOf m with
  | [] => 32
  | l :: _ => l

/-- s(r) (R61). -/
def getS (g : Group) (r : Nat) : Word := kvGet 0 g.s r
def setS (g : Group) (r : Nat) (v : Word) : Group := { g with s := kvSet 0 g.s r v }
/-- The 64-bit value of an even/odd pair (R2). -/
def getPair (g : Group) (r : Nat) : BitVec 64 := getS g (r + 1) ++ getS g r
def setPair (g : Group) (r : Nat) (v : BitVec 64) : Group := setS (setS g r (v.setWidth 32)) (r + 1) (v.extractLsb' 32 32)
/-- A lane of a logical vector position (R64). -/
def getPos (g : Group) (p l : Nat) : Word := kvGet 0 g.v.now (32 * p + l)
/-- The values other than 0 that a lane's registers have held, each once (R69). -/
def keepPast (l : Nat) (v : Word) (ps : List (Nat × Word)) : List (Nat × Word) := if v = 0 ∨ (l, v) ∈ ps then ps else (l, v) :: ps
def setPos (g : Group) (p l : Nat) (v : Word) : Group := { g with v := { now := kvSet 0 g.v.now (32 * p + l) v, past := keepPast l v g.v.past } }
/-- A lane of vj, %ix already added (R64). -/
def getV (g : Group) (j l : Nat) : Word := getPos g (g.wb + j) l
def setV (g : Group) (j l : Nat) (v : Word) : Group := setPos g (g.wb + j) l v
/-- The window size W (R64). -/
def window (g : Group) : Nat := min 64 g.alloc
/-- A mask register; m0 reads as all ones (R63). -/
def getM (g : Group) (n : Nat) : Mask := if n = 0 then allLanes else kvGet 0 g.m n
def setM (g : Group) (n : Nat) (v : Mask) : Group := if n = 0 then g else { g with m := kvSet 0 g.m n v }
/-- Lanes that have not retired. -/
def liveOf (g : Group) : Mask := ~~~g.dead
/-- Core, quadrant and slot of a global group ID (01 R13). -/
def coreOfGid (g : Nat) : Nat := g / 64
def quadOfGid (g : Nat) : Nat := g % 64 / 16

/-! What an object that does not exist reads as; no reachable step reads one. -/

def noBar : Bar := { expl := 0, arrl := 0, phase := false, expb := 0, arrb := 0, expe := 0, arre := 0 }
def noTeam : Team :=
  { cluster := 0, idx := 0, lin := 0, x := 0, y := 0, z := 0, cores := [], groups := [], lead := 0, sh := 0, shPages := [], bars := [],
    seq := none, fault := none, got := [], placedAt := 0, retired := false }
def noCluster : Cluster :=
  { task := 0, idx := 0, anchor := 0, cores := [], teams := [], cls := 0, step := 0, byGrant := false,
    placedNs := 0, frozen := false, stop := .none, pre := .none, savedGroups := [], savedTeams := [], images := [] }
def noTask : Task :=
  { cmd := 0, lraddr := 0, lr := [], args := [], tcb := none, prio := 0, queued := false, order := 0, nextCl := 0, pass := 0,
    urgent := false, placedNs := 0, gone := 0, dead := false, ladder := none, stagger := none }
def noCmd : Command :=
  { queue := 0, seq := 0, cr := 0, sid := 0, priv := false, launch := false, spawn := 0, tasks := 0, ending := none, vseq := 0,
    vqual := 0, recd := none, repl := none, inval := none, closing := false, ran := [] }

def teamOf (s : State) (g : Group) : Team := (kvFind s.teams g.team).getD noTeam
def clusterOf (s : State) (g : Group) : Cluster := (kvFind s.clusters (teamOf s g).cluster).getD noCluster
def taskOf (s : State) (g : Group) : Task := (kvFind s.tasks (clusterOf s g).task).getD noTask
def cmdOf (s : State) (g : Group) : Command := (kvFind s.cmds (taskOf s g).cmd).getD noCmd
def taskOfTeam (s : State) (t : Team) : Task := (kvFind s.tasks ((kvFind s.clusters t.cluster).getD noCluster).task).getD noTask
/-- The context's space (09 R169). -/
def sidOf (s : State) (g : Group) : Nat := (cmdOf s g).sid
/-- A word of a launch record (11 Table 11-9). -/
def lrWord (k : Task) (i : Nat) : Word := k.lr.getD i 0
/-- CODEVA and CODELEN. -/
def codeVa (k : Task) : Nat := (lrWord k 0).toNat + (lrWord k 1).toNat * 2 ^ 32
def codeLen (k : Task) : Nat := (lrWord k 13).toNat
/-- The trap handler's entry, if one is installed. -/
def handlerOf (k : Task) : Option Word := if lrWord k 10 = 0xFFFFFFFF then none else some (lrWord k 10)
/-- The clusters of a task, the groups of a task and of a command. -/
def clustersOf (s : State) (t : Nat) : List (Nat × Cluster) := s.clusters.filter fun c => c.2.task = t
def groupsOfTask (s : State) (t : Nat) : List (Nat × Group) :=
  s.groups.filter fun g => (clusterOf s g.2).task = t
def tasksOfCmd (s : State) (c : Nat) : List (Nat × Task) := s.tasks.filter fun t => t.2.cmd = c
def groupsOfCmd (s : State) (c : Nat) : List (Nat × Group) := s.groups.filter fun g => (taskOf s g.2).cmd = c

/-! Shapes of grids (05 R81, 11 R219). -/

def gridX (k : Task) : Nat := (lrWord k 4).toNat % 2 ^ 16
def gridY (k : Task) : Nat := (lrWord k 4).toNat / 2 ^ 16
def gridZ (k : Task) : Nat := (lrWord k 5).toNat % 2 ^ 16
def clW (k : Task) : Nat := bitsOf (lrWord k 5).toNat 16 4
def clH (k : Task) : Nat := bitsOf (lrWord k 5).toNat 20 4
/-- Cores a team spans: 1, 2 or 4. -/
def spanCount (k : Task) : Nat := 2 ^ bitsOf (lrWord k 5).toNat 24 2
/-- The block of cores of a team. -/
def blockW (k : Task) : Nat := if spanCount k = 1 then 1 else if spanCount k = 4 then 2 else if clW k % 2 = 0 then 2 else 1
def blockH (k : Task) : Nat := if spanCount k = 1 then 1 else if spanCount k = 4 then 2 else if clW k % 2 = 0 then 1 else 2
/-- The block of teams of a cluster. -/
def teamsW (k : Task) : Nat := clW k / blockW k
def teamsH (k : Task) : Nat := clH k / blockH k
def clustersX (k : Task) : Nat := gridX k / teamsW k
def clustersY (k : Task) : Nat := gridY k / teamsH k
def clusterCount (k : Task) : Nat := clustersX k * clustersY k * gridZ k

/-! Scopes (10 R191, R194). -/

/-- Whether a scope covers a home, for a core and its team, cluster (R191). -/
def scopeCovers (t : Team) (cl : Cluster) (sc : Scope) (home : Nat) : Bool :=
  match sc with
  | .grp => false
  | .team => t.cores.contains home
  | .clus => cl.cores.contains home
  | _ => true
/-- The publication of a `phrel` (R194). -/
def publishScope (s : State) (g : Group) (gid : Nat) (sc : Scope) : State :=
  publishHomes s (coreOfGid gid) (scopeCovers (teamOf s g) (clusterOf s g) sc)
/-- The refresh of a `phacq` (R194). -/
def refreshScope (s : State) (g : Group) (gid : Nat) (sc : Scope) : State :=
  refreshHomes s (coreOfGid gid) ((List.range 64).filter (scopeCovers (teamOf s g) (clusterOf s g) sc))

/-! In-flight counters (08 R151). -/

/-- Operations of a path from the oldest not done. -/
def pathOps (g : Group) (p : Path) : List Flight := (g.flight.filter fun f => f.path = p).dropWhile fun f => f.done
/-- The counter of a path. -/
def counter (g : Group) (p : Path) : Nat := (pathOps g p).length
def allPaths : List Path := [.ld, .st, .cpy, .gth, .sfu]
/-- All five counters are zero. -/
def drained (g : Group) : Bool := allPaths.all fun p => counter g p == 0
/-- Operations that count no more are forgotten. -/
def sweep (g : Group) : Group :=
  { g with flight := g.flight.filter fun f => (pathOps g f.path).any fun x => x.id = f.id }
/-- Raise a counter: a new operation. -/
def launchOp (s : State) (gid : Nat) (p : Path) (op : FOp) : Nat × State :=
  let (id, s1) := fresh s
  (id, modGroup s1 gid fun g => { g with flight := g.flight ++ [{ id := id, path := p, op := op, done := false }] })
/-- What the group's own bulk operations of some paths delivered to SP and no counter counts any more must be seen (R152). -/
def absorb (ps : List Path) (g : Group) : Group :=
  let due (d : Dlv) : Bool := ps.contains d.path && !(pathOps g d.path).any fun f => f.id == d.id
  { g with own := ((g.dlv.filter due).map fun d => (d.a, d.n, d.pub)) ++ g.own, dlv := g.dlv.filter fun d => !due d }
/-- The waits of one fragment for counters, as they stand now: a header's (02 R22), before or after its barrier's completion; a
`waitc`'s (R389). -/
def settleWait (g : Group) (f : Frag) : Frag :=
  match f.park with
  | .hdr ps b => { f with park := .hdr (ps.filter fun p => counter g p != 0) b }
  | .acq b sc (.header ps) => { f with park := .acq b sc (.header (ps.filter fun p => counter g p != 0)) }
  | .count p t => if counter g p ≤ t then { f with park := .run } else f
  | _ => f
/-- The paths whose waits end so. -/
def endedPaths (g : Group) (f : Frag) : List Path :=
  match f.park with
  | .hdr ps _ => ps.filter fun p => counter g p == 0
  | .acq _ _ (.header ps) => ps.filter fun p => counter g p == 0
  | .count p t => if counter g p ≤ t then [p] else []
  | _ => []
/-- After counters fell: a switch marker's park (02 R29) and the fragments' waits. -/
def settleWaits (g : Group) : Group :=
  absorb (if g.marked && drained g then allPaths else g.frags.flatMap (endedPaths g))
    { g with marked := g.marked && !drained g, frags := g.frags.map (settleWait g) }
/-- The result that holds back later words is written: at scope grp that is all; otherwise the acquire follows once the ld
counter is zero (10 R194, R195). -/
def settleGate (s : State) (gid id : Nat) : State :=
  match kvFind s.groups gid with
  | none => s
  | some g =>
    match g.gate with
    | some (i, .grp) => if i = id then modGroup s gid fun g => { g with gate := none } else s
    | some (i, sc) =>
      if g.flight.any fun f => f.id == i then s
      else refreshScope (modGroup s gid fun g => { g with gate := none }) g gid sc
    | none => s

/-! Acquires at the ends of waits (10 R194, R197). -/

/-- The acquire of a wait's end: a scope, and the bytes counted toward a barrier by its last completion. -/
def acquireNow (s : State) (gid : Nat) (bar : Option Nat) (sc : Scope) : State :=
  match kvFind s.groups gid with
  | none => s
  | some g =>
    let s1 := refreshScope s g gid sc
    match bar with
    | some n => ((teamOf s g).got.filter fun e => e.1 = n ∧ e.2.2.2 = true).foldl
        (fun x e => refreshRange x (coreOfGid gid) e.2.1 e.2.2.1) s1
    | none => s1
/-- The acquire a fragment waits to make. -/
def acqOf (f : Frag) : Option (Option Nat × Scope) :=
  match f.park with
  | .acq b sc _ => some (b, sc)
  | _ => none
/-- What a fragment waits for after its acquire. -/
def afterAcq (g : Group) (f : Frag) : Frag :=
  match f.park with
  | .acq _ _ (.mode e) => { f with park := .modeRel e }
  | .acq _ _ (.header ps) =>
    let qs := ps.filter fun p => counter g p != 0
    { f with park := if qs.isEmpty then .run else .hdr qs none }
  | .acq _ _ _ => { f with park := .run }
  | _ => f
/-- With the ld counter at zero, the acquires that waited for it are made. -/
def settleAcq (s : State) (gid : Nat) : State :=
  match kvFind s.groups gid with
  | none => s
  | some g =>
    let es := g.frags.filterMap acqOf
    if es.isEmpty || counter g .ld != 0 then s
    else modGroup (es.foldl (fun x e => acquireNow x gid e.1 e.2) s) gid fun y => { y with frags := y.frags.map (afterAcq y) }
/-- An operation completes. -/
def opDone (s : State) (gid id : Nat) : State :=
  settleAcq (settleGate (modGroup s gid fun g => settleWaits (sweep { g with
    flight := g.flight.map fun f => if f.id = id then { f with done := true } else f
    park := if g.park = .gath id then .none else g.park })) gid id) gid

/-! Error records, notices, reports (16 R302, R293). -/

/-- What C6 reports to the party that asks it (log 25). -/
def report (s : State) (ws : List Word) : State := { s with out := s.out ++ [{ dest := .fw 6, words := ws }] }

/-- Put a message in a mailbox; a firmware sender waits when it is full (R293, R295). -/
def postMsg (s : State) (n : Nat) (m : List Word) : State :=
  let b := kvGet { send := [], msgs := [], full := false } s.mbox n
  if b.msgs.length < 8 then { s with mbox := kvPut s.mbox n { b with msgs := b.msgs ++ [m] } }
  else { s with trust := { s.trust with waiting := s.trust.waiting ++ [(n, m)] } }
/-- The mailbox that C7 assigned to a requester, the lowest of several. -/
def boxOf (s : State) (sender : Nat) : Option Nat := (s.trust.assign.find? fun e => e.2 == sender).map (·.1)
/-- A reply of a firmware core: the request's TYPE with bit 7 set, the core as SENDER, status and results (16 Tables 16-3, 16-8). A
requester without a mailbox receives none. -/
def answerFrom (s : State) (core sender type : Nat) (tag : Word) (status : Nat) (res : List Word) : State :=
  match boxOf s sender with
  | none => s
  | some b =>
    postMsg s b (([BitVec.ofNat 32 (type % 2 ^ 7 + 2 ^ 7 + core * 2 ^ 8), tag, BitVec.ofNat 32 status] ++ res ++
      List.replicate 5 0).take 8)
/-- The core that serves a known TYPE (Table 16-9). -/
def coreOfType (type : Nat) : Nat := if type ≤ 2 then 2 else if type = 3 then 0 else if type = 4 then 5 else if type ≤ 14 then 6 else 7
def answer (s : State) (sender type : Nat) (tag : Word) (status : Nat) (res : List Word) : State :=
  answerFrom s (coreOfType type) sender type tag status res

/-- A notice: its content is not stated, so it carries its sender alone (log 25). -/
def noticeMsg (sender : Nat) : List Word := [BitVec.ofNat 32 (sender * 256), 0, 0, 0, 0, 0, 0, 0]
/-- An error record (Table 16-6) in C3's ring, and a notice to the mailbox that C7 assigned for errors. -/
def errorRecord (s : State) (ecause die sid ggid addr queue status : Nat) (pseq : Word) : State :=
  let t := s.trust
  let full := decide (64 ≤ t.errRing.length)
  let n := t.errSeq + 1
  let r : List Word := [BitVec.ofNat 32 (ecause + die * 2 ^ 8 + (if full then 2 ^ 12 else 0) + sid * 2 ^ 16),
    BitVec.ofNat 32 ggid, BitVec.ofNat 32 addr, BitVec.ofNat 32 (addr / 2 ^ 32), n, BitVec.ofNat 32 (queue + status * 2 ^ 16),
    pseq, 0]
  let s1 := { s with trust := { t with errRing := (if full then t.errRing.drop 1 else t.errRing) ++ [r], errSeq := n } }
  match t.errBox with
  | some b => postMsg s1 b (noticeMsg 3)
  | none => s1

/-! Ballast ramps (14 R265). -/

/-- Ballast clocks of a ramp from its start to a time: the rate, in clocks of a microsecond, falls linearly to zero over DUR
microseconds. A ramp keeps the DUR of its start (DEDUCED, log 100). -/
def rampTotal (now : Nat) (r : Ramp) : Nat :=
  let d := 1000 * max 1 r.dur
  let t := min d (now - r.start)
  r.rate * t * (2 * d - t) / (2 * d * 1000)
/-- The clocks of a core's ramp are counted up to now. -/
def countRamp (s : State) (c : Nat) : State :=
  match (coreOf s c).ramp with
  | some r =>
    let n := rampTotal s.ns r
    modCore (count s c 11 (n - r.counted)) c fun x => { x with ramp := some { r with counted := n } }
  | none => s

/-! Snapshots (15 R275, R276). -/

/-- FLTSTAT as read (09 Table 9-6). -/
def fltstat (d : Die) : Word :=
  BitVec.ofNat 32 (d.flt.length + (if d.dropped then 2 ^ 8 else 0) + (if d.replayFull then 2 ^ 9 else 0) + d.replay.length * 2 ^ 16)
/-- BOOSTPOOL as read (14 Table 14-2). -/
def boostpool (p : Power) : Word :=
  BitVec.ofNat 32 (p.permits + p.limit * 2 ^ 8 + (if p.half then 2 ^ 15 else 0) + p.rp * 2 ^ 16)
/-- What every block latches, each with the count of its own clock; ballast is counted up to this moment. -/
def snapshotOf (s : State) : Snapshot :=
  { clocks := s.cores.map fun c => (c.1, c.2.clk), evc := s.cores.map fun c => (c.1, (coreOf (countRamp s c.1) c.1).evc),
    bars := s.teams.map fun t => (t.1, t.2.bars),
    groups := s.groups.map fun g => (g.1, allPaths.map (counter g.2), g.2.active, g.2.splits),
    fltstat := s.dies.map fun d => (d.1, fltstat d.2), misses := s.dies.map fun d => (d.1, d.2.miss),
    queues := s.queues.map fun q => (q.1, q.2.widx, q.2.ridx), vats := s.vats, power := s.power,
    seqs := s.teams.map fun t => (t.1, t.2.seq), ballast := s.cores.any fun c => c.2.ramp.isSome, ctl := s.ns }
/-- The order of the sources of triggers: error, debug, host, `snap` (R276). -/
def trigRank (src : Nat) : Nat := if src = 3 then 0 else if src = 2 then 1 else if src = 4 then 2 else 3
/-- The GGID that a trigger records: 0 for an error or the host. -/
def trigGid (src gid : Nat) : Nat := if src = 3 ∨ src = 4 then 0 else gid
/-- A trigger comes in the control clock of the one that has fired, and is chosen before it. -/
def outranks (s : State) (src gid : Nat) : Bool :=
  s.snap.firedNs == s.ns && (decide (trigRank src < trigRank s.snap.src) || (src == s.snap.src && decide (trigGid src gid < s.snap.ggid)))
/-- A trigger fires. -/
def fire (s : State) (src gid : Nat) (missed : Bool) : State :=
  { s with snap := { s.snap with latched := true, arm := false, missed := missed, src := src, ggid := trigGid src gid, firedNs := s.ns },
           snapshot := some (snapshotOf s) }
/-- A trigger of a source (1 `snap`, 2 debug, 3 error, 4 host) reaches SNAPTRIG. Of several in one control clock the first by
rank fires, and each other sets MISSED. -/
def trigger (s : State) (src gid : Nat) : State :=
  let t := s.snap
  let on := match src with
    | 1 => t.eninsn
    | 2 => t.endebug
    | 3 => t.enerr
    | _ => t.enhost
  if on = false then s
  else if t.latched then (if outranks s src gid then fire s src gid true else { s with snap := { t with missed := true } })
  else if t.arm then fire s src gid t.missed
  else s
/-- Groups that stopped being ready, or entered the active set, are waited for no more (11 R226). -/
def unYield (s : State) (gs : List Nat) : State :=
  { s with groups := s.groups.map fun g =>
      if g.2.yielded.isEmpty then g else (g.1, { g.2 with yielded := g.2.yielded.filter fun y => !gs.contains y }) }
/-- A cluster freezes (15 R273); the trigger names the group behind it, 0 for a request of C6. -/
def freezeCluster (s : State) (cl gid : Nat) : State :=
  let s1 := modCluster s cl fun c => { c with frozen := true }
  let gs := (s1.groups.filter fun g => ((kvFind s1.teams g.2.team).getD noTeam).cluster = cl).map (·.1)
  trigger (unYield s1 gs) 2 gid

/-- A core's clocks are gated (15 R273). -/
def coreFrozen (s : State) (c : Nat) : Bool := s.clusters.any fun k => k.2.frozen && k.2.cores.contains c
/-- The clocks of a sequencer's core are gated: its team has one core (R81). -/
def teamGated (s : State) (t : Team) : Bool := t.cores.any (coreFrozen s)
/-- The core of a group of a team, by its index (R80). -/
def coreOfIdx (t : Team) (i : Nat) : Nat := t.cores.getD (i / 4 % t.cores.length) 0
/-- The clocks of a group's own core are gated; other cores of its team count for nothing. -/
def groupFrozen (s : State) (g : Group) : Bool := !(teamOf s g).cores.isEmpty && coreFrozen s (coreOfIdx (teamOf s g) g.idx)

/-! Fragments (05 R85 to R89). -/

def findFrag (g : Group) (fid : Nat) : Option Frag := g.frags.find? fun f => fidOf f.lanes == fid
def modFrag (g : Group) (fid : Nat) (k : Frag → Frag) : Group :=
  { g with frags := g.frags.map fun f => if fidOf f.lanes = fid then k f else f }
/-- A fragment that starts at an address, in the middle of a clause or at a header. -/
def newFrag (lanes : Mask) (pc : Word) (cl : Option (Cls × Nat)) (landed : Bool) (safe : Option (Nat × Word)) : Frag :=
  { lanes := lanes, pc := pc, cl := cl, landed := landed, park := .run, safe := safe, passed := [], halted := false }

/-- One open record of a group as far as it can go: what becomes of it, and the fragment it lets run. -/
def settleRec : SplitRec → Option SplitRec × Option Frag
  | .entry p a r z => if a = p then (none, if p = 0 then none else some (newFrag p r none true z)) else (some (.entry p a r z), none)
  | .hold l t a r pc res false z =>
    if a = t then
      (if l = 0 then (none, if t = 0 then none else some (newFrag t r none true z))
       else (some (.hold l t a r pc res true z), some (newFrag l pc res false z)))
    else (some (.hold l t a r pc res false z), none)
  | .hold l t a r pc res true z =>
    if a = t ||| l then (none, if t ||| l = 0 then none else some (newFrag (t ||| l) r none true z))
    else (some (.hold l t a r pc res true z), none)

/-- Whether a record holds a fragment's lanes. -/
def holds (r : SplitRec) (m : Mask) : Bool :=
  match r with
  | .entry p _ _ _ => p &&& m != 0
  | .hold l t _ _ _ _ resumed _ => (t &&& m != 0) || (resumed && (l &&& m != 0))
/-- The rejoin address of a record. -/
def rejoinOf : SplitRec → Word
  | .entry _ _ r _ => r
  | .hold _ _ _ r _ _ _ _ => r
/-- Lanes arrive at a record's rejoin and wait. -/
def arrive (r : SplitRec) (m : Mask) : SplitRec :=
  match r with
  | .entry p a j z => .entry p (a ||| m) j z
  | .hold l t a j pc res resumed z => .hold l t (a ||| m) j pc res resumed z

/-- The innermost record that holds the lanes, newest first: the records before it, it, those after. -/
def innermost (m : Mask) : List SplitRec → Option (List SplitRec × SplitRec × List SplitRec)
  | [] => none
  | r :: t =>
    if holds r m then some ([], r, t)
    else
      match innermost m t with
      | some (a, x, b) => some (r :: a, x, b)
      | none => none

/-- A fragment's next header is at its pc (R87): it waits at the rejoin of its innermost record, or goes on. The fuel bounds
the records that can close one after another. -/
def reach : Nat → Frag → Group → Group
  | 0, f, g => { g with frags := g.frags ++ [f] }
  | n + 1, f, g =>
    match innermost f.lanes g.splits with
    | none => { g with frags := g.frags ++ [f] }
    | some (a, r, b) =>
      if rejoinOf r = f.pc then
        match settleRec (arrive r f.lanes) with
        | (some r2, none) => { g with splits := a ++ r2 :: b }
        | (some r2, some f2) => { g with splits := a ++ r2 :: b, frags := g.frags ++ [f2] }
        | (none, none) => { g with splits := a ++ b }
        | (none, some f2) => reach n { f2 with safe := f.safe } { g with splits := a ++ b }
      else { g with frags := g.frags ++ [f] }

/-- A fragment ends its clause at `pc`: it is taken out and reaches the address. -/
def arriveAt (g : Group) (fid : Nat) (pc : Word) (landed : Bool) : Group :=
  match findFrag g fid with
  | none => g
  | some f =>
    reach 64 { f with pc := pc, cl := none, landed := landed, park := .run, passed := [] }
      { g with frags := g.frags.filter fun x => fidOf x.lanes ≠ fid }

/-- The fragment steps over its word: in its clause, or to the header after it (02 R23). -/
def advance (g : Group) (fid words : Nat) : Group :=
  match findFrag g fid with
  | none => g
  | some f =>
    let pc := f.pc + BitVec.ofNat 32 (4 * words)
    match f.cl with
    | some (c, left) =>
      if words < left then modFrag g fid fun f => { f with pc := pc, cl := some (c, left - words), park := .run, passed := [] }
      else arriveAt g fid pc false
    | none => modFrag g fid fun f => { f with pc := pc, park := .run, passed := [] }
/-- Retired lanes leave one record (R89). -/
def dropLanes (m : Mask) : SplitRec → SplitRec
  | .entry p a r z => .entry (p &&& ~~~m) (a &&& ~~~m) r z
  | .hold l t a r pc res resumed z => .hold (l &&& ~~~m) (t &&& ~~~m) (a &&& ~~~m) r pc res resumed z
/-- Records that are complete after lanes retired close, newest first; what they let run reaches its address (R87, R89). -/
def settleAll : Nat → Group → Group
  | 0, g => g
  | n + 1, g =>
    match g.splits.findIdx? fun r => match settleRec r with
        | (some r2, none) => r2 != r
        | _ => true with
    | none => g
    | some i =>
      match g.splits[i]? with
      | none => g
      | some r =>
        let a := g.splits.take i
        let b := g.splits.drop (i + 1)
        match settleRec r with
        | (none, none) => settleAll n { g with splits := a ++ b }
        | (none, some f) => settleAll n (reach 64 f { g with splits := a ++ b })
        | (some r2, some f) => settleAll n { g with splits := a ++ r2 :: b, frags := g.frags ++ [f] }
        | (some r2, none) => settleAll n { g with splits := a ++ r2 :: b }

/-! Barriers (05 R91 to R95, 10 R197). -/

/-- Completions of one check of R92: how many, and the barrier after them. -/
def barCheck (b : Bar) : Nat × Bar :=
  if b.expl = 0 ∧ b.expb = 0 ∧ b.expe = 0 then (1, { b with phase := !b.phase })
  else
    let q (a e : Nat) : Nat := if e = 0 then 2 ^ 26 else a / e
    let n := min (q b.arrl b.expl) (min (q b.arrb b.expb) (q b.arre b.expe))
    (n, { b with arrl := b.arrl - n * b.expl, arrb := b.arrb - n * b.expb, arre := b.arre - n * b.expe,
                 phase := b.phase ^^ decide (n % 2 = 1) })

/-- A fragment that waits on barrier n is released, and its acquire at team scope follows (R94, R197); `eng` when the completion
ran with EXPE non-zero. -/
def releaseFrag (n : Nat) (eng : Bool) (f : Frag) : Frag :=
  match f.park with
  | .bar m => if m = n then { f with park := .acq (some n) .team .point } else f
  | .hdr ps (some m) => if m = n then { f with park := .acq (some n) .team (.header ps) } else f
  | .modeV m => if m = n then { f with park := .acq (some n) .team (.mode eng) } else f
  | _ => f
def waitsOn (n : Nat) (f : Frag) : Bool :=
  match f.park with
  | .bar m => m == n
  | .hdr _ (some m) => m == n
  | .modeV m => m == n
  | _ => false
def releaseGroups (tid : Nat) (t : Team) (n : Nat) (eng : Bool) : List Nat → State → State
  | [], s => s
  | gid :: r, s =>
    match kvFind s.groups gid with
    | none => releaseGroups tid t n eng r s
    | some g =>
      if g.team = tid ∧ g.frags.any (waitsOn n) = true then
        releaseGroups tid t n eng r (settleAcq
          (modGroup s gid fun g => { g with frags := g.frags.map (releaseFrag n eng), apv := g.apv &&& ~~~(BitVec.twoPow 16 n) }) gid)
      else releaseGroups tid t n eng r s

/-- Set or clear a bit. -/
def putBit {n : Nat} (v : BitVec n) (i : Nat) (b : Bool) : BitVec n :=
  if b then v ||| BitVec.twoPow n i else v &&& ~~~(BitVec.twoPow n i)

/-- The waiting sequencer goes on (06 R118). -/
def releaseSeq (n : Nat) (phase : Bool) (q : Seq) : Seq :=
  match q.park with
  | .bar m _ => if m = n then { q with park := .run, sap := putBit q.sap n phase } else q
  | _ => q

/-- One event of a barrier, then the check of R92. -/
def barEvent (s : State) (tid n : Nat) (k : Bar → Bar) : State :=
  match kvFind s.teams tid with
  | none => s
  | some t =>
    let (m, b) := barCheck (k (kvGet noBar t.bars n))
    let t1 := { t with bars := kvPut t.bars n b }
    if m = 0 then { s with teams := kvPut s.teams tid t1 }
    else
      let t2 := { t1 with
        got := t1.got.map fun e => if e.1 = n then (e.1, e.2.1, e.2.2.1, true) else e
        seq := t1.seq.map (releaseSeq n b.phase) }
      releaseGroups tid t2 n (b.expe != 0) t2.groups
        (count { s with teams := kvPut s.teams tid t2 } (t2.cores.headD 0) 12 m)

/-- An arrival of lanes (R93), of bytes, of an engine; counts saturate (Table 5-5). -/
def arriveLanes (s : State) (tid n k : Nat) : State := barEvent s tid n fun b => { b with arrl := min 4095 (b.arrl + k) }
def arriveBytes (s : State) (tid n k : Nat) : State := barEvent s tid n fun b => { b with arrb := min (2 ^ 25 - 1) (b.arrb + k) }
def arriveEngine (s : State) (tid n : Nat) : State := barEvent s tid n fun b => { b with arre := min 15 (b.arre + 1) }
/-- The sixteen barriers of a team. -/
def lowerAll (tid k : Nat) : Nat → State → State
  | 0, s => s
  | n + 1, s => barEvent (lowerAll tid k n s) tid n fun b => { b with expl := b.expl - k }

/-! The grid barrier (05 R101, 14 R264). -/

/-- A group has arrived at `gbar`, or is exiting. -/
def gbarHere (g : Group) : Bool := g.exiting || (liveOf g &&& ~~~g.gbarred == 0)
/-- A fragment's wait ends. -/
def resumeParked (k : Park → Bool) (f : Frag) : Frag := if k f.park then { f with park := .run } else f
/-- A fragment's wait ends with an acquire at a scope, and what follows it. -/
def acquireParked (k : Park → Bool) (sc : Scope) (e : AcqEnd) (f : Frag) : Frag := if k f.park then { f with park := .acq none sc e } else f
def isGbar : Park → Bool
  | .gbar => true
  | _ => false
/-- The groups of the task whose cluster lies in wave w of W resume from `gbar`, each with an acquire at dev scope (R197). -/
def resumeGbar (w W : Nat) : List (Nat × Group) → State → State
  | [], s => s
  | (gid, g) :: r, s =>
    if (W = 0 ∨ (clusterOf s g).idx / W = w) ∧ g.frags.any (fun f => isGbar f.park) = true then
      resumeGbar w W r (settleAcq (modGroup s gid fun g => { g with frags := g.frags.map (acquireParked isGbar .dev .point) }) gid)
    else resumeGbar w W r s
/-- The stagger of a release of a grid: none where one wave takes every cluster (14 R264). -/
def staggerOf (s : State) (k : Task) (bySeal : Bool) : Option Stagger :=
  if s.power.stagW = 0 ∨ clusterCount k ≤ s.power.stagW then none
  else some { start := s.ns, w := s.power.stagW, t := s.power.stagT, bySeal := bySeal, done := [0] }
/-- After an arrival or a retirement: every group of the grid has arrived or is exiting, and one waits (R101). The first wave
resumes at once, the others in their time (R264); no group of an earlier completion waits any more. -/
def checkGbar (s : State) (tk : Nat) : State :=
  let gs := groupsOfTask s tk
  if gs.all (fun g => gbarHere g.2) ∧ gs.any (fun g => g.2.gbarred != 0) then
    let s1 := gs.foldl (fun x g => modGroup x g.1 fun y => { y with gbarred := 0 }) s
    resumeGbar 0 s.power.stagW gs (modTask s1 tk fun t => { t with stagger := staggerOf s t false })
  else s

/-! Register granules of a quadrant (04 R71, R72); a quadrant is named by its first global group ID over 16. -/

/-- The resident groups of a quadrant. -/
def residents (s : State) (quad : Nat) : List (Nat × Group) := s.groups.filter fun g => g.1 / 16 == quad
/-- Granules that no group holds. -/
def freeGran (s : State) (quad : Nat) : Nat := 128 - ((residents s quad).map fun g => g.2.alloc / 16).sum
/-- Groups whose `grow` waits, oldest first. -/
def growQueue (s : State) (quad : Nat) : List Nat := kvGet [] (coreOf s (quad / 4)).growQ (quad % 4)
def setGrowQueue (s : State) (quad : Nat) (l : List Nat) : State :=
  modCore s (quad / 4) fun x => { x with growQ := kvSet [] x.growQ (quad % 4) l }
/-- A group's request leaves the queue. -/
def leaveGrow (s : State) (gid : Nat) : State := setGrowQueue s (gid / 16) ((growQueue s (gid / 16)).filter fun g => g != gid)
/-- Destination, granules and fragment of a group's waiting `grow`. -/
def growOf (g : Group) : Option (Nat × Nat × Nat) :=
  match g.park with
  | .grow d n fid => some (d, n, fid)
  | _ => none
/-- The oldest request can be granted. -/
def growGrantable (s : State) (quad : Nat) : Bool :=
  match growQueue s quad with
  | gid :: _ => (((kvFind s.groups gid).bind growOf).map fun x => decide (x.2.1 ≤ freeGran s quad)).getD false
  | [] => false
/-- Granules that the requests at the head of the queue take as they are granted: those whose sum is free (R71). -/
def grantable (s : State) : Nat → List Nat → Nat
  | _, [] => 0
  | free, gid :: r =>
    let n := ((((kvFind s.groups gid).bind growOf).map fun x => x.2.1)).getD 0
    if n ≤ free then n + grantable s (free - n) r else 0
/-- Granules that a placement may take: requests that can be granted come first. -/
def openGran (s : State) (quad : Nat) : Nat := freeGran s quad - grantable s (freeGran s quad) (growQueue s quad)
/-- A `grow` ends with a value in its destination. -/
def endGrow (s : State) (gid d fid : Nat) (v : Word) : State :=
  modGroup (leaveGrow s gid) gid fun g => advance (setS { g with park := .none } d v) fid 1
/-- Every resident group waits in `grow` or is exiting; one whose counters are zero holds its granules no more (R76), so that the
check comes after its release. -/
def growStuck (s : State) (quad : Nat) : Bool :=
  (residents s quad).all fun g => (g.2.exiting && !drained g.2) || (growOf g.2).isSome
/-- The latest placed of the groups that wait in `grow`. -/
def youngest (s : State) (quad : Nat) : Option (Nat × Group) :=
  ((residents s quad).filter fun g => (growOf g.2).isSome && !g.2.exiting).foldl (fun b g => match b with
    | some x => if x.2.order < g.2.order then some g else b
    | none => some g) none
/-- The check of R72, as often as it denies: a quadrant holds sixteen groups. -/
def denyGrow : Nat → Nat → State → State
  | 0, _, s => s
  | n + 1, quad, s =>
    if growGrantable s quad || !growStuck s quad then s
    else
      match youngest s quad with
      | none => s
      | some (gid, g) =>
        match growOf g with
        | some (d, _, fid) => denyGrow n quad (endGrow s gid d fid 0)
        | none => s
def checkGrow (s : State) (quad : Nat) : State := denyGrow 16 quad s

/-! Retirement of teams and clusters (05 R83). -/

/-- A group of a team that has not released; its slot may be another's by now. -/
def teamGroup (s : State) (tid gid : Nat) : Option Group := (kvFind s.groups gid).filter fun g => g.team == tid
/-- All groups have released and the sequencer is idle, with nothing left to write. -/
def teamDone (s : State) (tid : Nat) (t : Team) : Bool :=
  !t.retired && t.groups.all (fun g => (teamGroup s tid g).isNone) &&
    ((t.seq.map fun q => !q.busy && q.writes.isEmpty).getD true)
/-- A cluster goes with its last team, unless a stop of it has still to be reported. -/
def retireCluster (s : State) (cl : Nat) : State :=
  match kvFind s.clusters cl with
  | none => s
  | some c =>
    if c.teams.all (fun t => ((kvFind s.teams t).map (·.retired)).getD true) && (match c.stop with
        | .asked _ _ _ => false
        | _ => true) && (match c.pre with
        | .saved _ _ => false
        | _ => true) then
      modTask { s with teams := c.teams.foldl kvDel s.teams, clusters := kvDel s.clusters cl } c.task
        fun k => { k with gone := k.gone + 1 }
    else s
/-- A team that is done retires. -/
def retireTeam (s : State) (tid : Nat) : State :=
  match kvFind s.teams tid with
  | none => s
  | some t =>
    if teamDone s tid t then retireCluster (modTeam s tid fun x => { x with retired := true }) t.cluster else s

/-! A command faults (11 R215, 12 R242). -/

/-- Whether a request is of one of the groups, bulk commands or teams named. -/
def reqOf (gs bs ts : List Nat) (r : Req) : Bool :=
  match r.who with
  | .bulk b _ => bs.contains b
  | .grp g => gs.contains g
  | .tol g => gs.contains g
  | .locks g _ => gs.contains g
  | .seq t => ts.contains t
  | _ => false
/-- Requests that stayed in their entry enter the replay list as places free, the entry going with its last one (09 R182). -/
def feedList (l : List Req) : List Miss → List Req × List Miss
  | [] => (l, [])
  | m :: ms =>
    if m.stuck then
      let n := 4096 - l.length
      let (l1, r) := feedList (l ++ m.reqs.take n) ms
      let rest := m.reqs.drop n
      (l1, if rest.isEmpty then r else { m with reqs := rest } :: r)
    else
      let (l1, r) := feedList l ms
      (l1, m :: r)
/-- Places of the replay list that are free go to the requests that wait for one. -/
def feedDie (d : Die) : Die :=
  let (l, ms) := feedList d.replay d.miss
  let n := 4096 - l.length
  { d with replay := l ++ d.unplaced.take n, unplaced := d.unplaced.drop n, miss := ms }
/-- Take requests out of the replay list and of what waits for room there (R215). -/
def unparkBy (mine : Req → Bool) (d : Die) : Die :=
  feedDie { d with
    replay := d.replay.filter fun r => !mine r, unplaced := d.unplaced.filter fun r => !mine r
    miss := d.miss.map fun m => if m.stuck then { m with reqs := m.reqs.filter fun r => !mine r } else m }
def unpark (gs bs ts : List Nat) (d : Die) : Die := unparkBy (reqOf gs bs ts) d
/-- Take them out of every list, those still to be walked for too. -/
def dropBy (mine : Req → Bool) (d : Die) : Die :=
  feedDie { d with
    replay := d.replay.filter fun r => !mine r, unplaced := d.unplaced.filter fun r => !mine r, port := d.port.filter fun r => !mine r
    miss := d.miss.map fun m => { m with reqs := m.reqs.filter fun r => !mine r } }
/-- The requests parked at a die. -/
def parkedReqs (d : Die) : List Req := d.replay ++ d.unplaced ++ (d.miss.filter (·.stuck)).flatMap (·.reqs)
/-- Bulk commands and lock writes of the requests. -/
def parkedOps (gs bs ts : List Nat) (s : State) : List Req :=
  s.dies.flatMap fun d => (parkedReqs d.2).filter (reqOf gs bs ts)
/-- The record of an abandoned word (15 Table 15-5): the later latencies are 0. -/
def abandonedRecord (ws : List Word) : List Word := ws.take 7 ++ [3]
/-- A tagged word whose operation is abandoned. -/
def abandonSample (s : State) (gid id : Nat) : State :=
  let q := quadOfGid gid
  match kvFind (coreOf s (coreOfGid gid)).samp q with
  | none => s
  | some y =>
    if y.fl = some (gid, id) then
      modCore s (coreOfGid gid) fun x => { x with samp := kvPut x.samp q { y with fl := none, sample := y.sample.map abandonedRecord } }
    else s
/-- The counters that parked requests held count their operations complete (R215). -/
def completeParked : List Req → State → State
  | [], s => s
  | r :: t, s =>
    match r.who with
    | .bulk b _ =>
      (match kvFind s.bulks b with
        | some x => completeParked t (opDone (abandonSample { s with bulks := kvDel s.bulks b } x.gid x.fl) x.gid x.fl)
        | none => completeParked t s)
    | .locks g fl => completeParked t (opDone (abandonSample s g fl) g fl)
    | _ => completeParked t s
/-- A group stops at once: no word of it issues again; it releases when its counters have drained (R215, R241). -/
def stopGroup (g : Group) : Group :=
  { g with frags := [], splits := [], dead := allLanes, exiting := true, active := false, park := .none, marked := false }
def stopGroups : List Nat → State → State
  | [], s => s
  | gid :: r, s => stopGroups r (checkGrow (modGroup (leaveGrow s gid) gid stopGroup) (gid / 16))
def stopTeams : List Nat → State → State
  | [], s => s
  | t :: r, s => stopTeams r (modTeam s t fun x => { x with seq := x.seq.map fun q => { q with busy := false, park := .run } })
def teamsOfCmd (s : State) (c : Nat) : List Nat :=
  (s.teams.filter fun t => (taskOfTeam s t.2).cmd = c).map (·.1)
/-- The clusters of teams are thawed, so that a cut or a fault can be carried out (15 R274). -/
def thawTeams (s : State) (ts : List Nat) : State :=
  { s with clusters := s.clusters.map fun c =>
      if c.2.teams.any ts.contains then (c.1, { c.2 with frozen := false }) else c }
/-- Groups, sequencers and parked requests of some groups and teams stop. -/
def stopWork (s : State) (gs ts : List Nat) : State :=
  let bs := (s.bulks.filter fun b => gs.contains b.2.gid && b.2.kind != .hub).map (·.1)
  let ops := parkedOps gs bs ts s
  let s1 := { s with dies := s.dies.map fun d => (d.1, unpark gs bs ts d.2) }
  ts.foldl retireTeam (stopTeams ts (stopGroups gs (completeParked ops (thawTeams s1 ts))))
/-- Tasks of a command are dropped: unstarted ones, and saved units. -/
def dropTasks (s : State) (c : Nat) : State :=
  let ks := (tasksOfCmd s c).map (·.1)
  { s with
    tasks := s.tasks.map fun t => if t.2.cmd = c then (t.1, { t.2 with queued := false, dead := true, stagger := none }) else t
    clusters := s.clusters.filter fun x => !(ks.contains x.2.task && match x.2.pre with
      | .saved _ _ => true
      | _ => false) }
/-- Requests of the hub for a command's tasks and for the save areas of its clusters. -/
def hubReqOf (ks cls : List Nat) (r : Req) : Bool :=
  match r.who with
  | .task t => ks.contains t
  | .succ t => ks.contains t
  | .save c => cls.contains c
  | _ => false
/-- They leave every list (R215). -/
def unparkHub (s : State) (c : Nat) : State :=
  let ks := (tasksOfCmd s c).map (·.1)
  let cls := (s.clusters.filter fun x => ks.contains x.2.task).map (·.1)
  { s with dies := s.dies.map fun d => (d.1, dropBy (hubReqOf ks cls) d.2) }
/-- Open reductions of a command are discarded and their RIDs freed (08 R161, R319). -/
def dropReds (s : State) (c : Nat) : State := { s with reds := s.reds.filter fun r => r.2.cmd != c }
/-- Every group of the command's tasks stops, unstarted tasks and saved units are dropped, parked requests leave the replay
lists. -/
def stopCmd (s : State) (c : Nat) : State :=
  dropTasks (unparkHub (stopWork s ((groupsOfCmd s c).map (·.1)) (teamsOfCmd s c)) c) c
/-- A command faults: the first fault's status, cause, TPC and GGID stand (R215, R242). The fault triggers a snapshot (15 Table 15-3); a
rejection, status 4, is no fault of the context (R217). -/
def faultCmd (s : State) (c : Nat) (e : EndInfo) : State :=
  match kvFind s.cmds c with
  | none => s
  | some x =>
    match x.ending with
    | some _ => s
    | none =>
      let s1 := dropReds (stopCmd (modCmd s c fun y => { y with ending := some e }) c) c
      let s2 := { s1 with tasks := s1.tasks.map fun t =>
        if t.2.cmd = c then (t.1, { t.2 with ladder := t.2.ladder.map fun l => { l with cutting := some true } }) else t }
      if e.status = 4 then s2 else trigger s2 3 0
/-- CAUSE codes (04 Table 4-5). -/
def causeCode : Cause → Nat
  | .illegal => 1 | .target => 2 | .regidx => 3 | .mode => 4 | .spill => 5 | .bounds => 6 | .async => 7 | .writeset => 8
  | .tag => 9 | .fpx => 10 | .perm => 11 | .align => 12 | .priv => 13 | .brk => 14 | .trap => 15
/-- A stream of a task faults: STATUS FAULTED when it is a ladder task, else ERROR (R215, R242). -/
def faultTask (s : State) (tk cause : Nat) (tpc : Word) (gid : Nat) : State :=
  let k := (kvFind s.tasks tk).getD noTask
  faultCmd s k.cmd
    { status := if k.ladder.isSome then 3 else 6, cause := cause, tpc := tpc, ggid := gid, task := if k.ladder.isSome then some tk else none }
/-- The context of a group faults. -/
def faultGroup (s : State) (gid : Nat) (cause : Nat) (tpc : Word) : State :=
  match kvFind s.groups gid with
  | none => s
  | some g => faultTask s (clusterOf s g).task cause tpc gid

/-! Sequencer faults and retirement (05 R83, R84, R89, R95, R104). -/

/-- Fragments parked in `rdzv` go on: the sequencer is idle (R97). -/
def isRdzv : Park → Bool
  | .rdzv => true
  | _ => false
def releaseRdzv (tid : Nat) : List Nat → State → State
  | [], s => s
  | gid :: r, s =>
    match teamGroup s tid gid with
    | some _ => releaseRdzv tid r (modGroup s gid fun g => { g with frags := g.frags.map (resumeParked isRdzv) })
    | none => releaseRdzv tid r s
/-- The sequencer becomes idle. -/
def seqIdle (s : State) (tid : Nat) : State :=
  match kvFind s.teams tid with
  | none => s
  | some t =>
    releaseRdzv tid t.groups (modTeam s tid fun x => { x with
      seq := x.seq.map fun q => { q with busy := false, park := .run, run := none, cl := none, stepIdx := 0 } })
/-- Where a parked fragment takes a sequencer fault: the word after a waiting `rdzv` or delivery point other than `seal`, whose wait
lasts until its acquire is made. -/
def seqTrapPc (f : Frag) : Option Word :=
  match f.park with
  | .drain _ .point => some (f.pc + 4)
  | .bar _ => some f.pc
  | .modeV _ => some f.pc
  | .modeRel _ => some f.pc
  | .acq _ _ .point => some f.pc
  | .acq _ _ (.mode _) => some f.pc
  | .rdzv => some f.pc
  | .gbar => some f.pc
  | _ => none
/-- A fault of a team's sequencer that finds group 0 exiting or released faults the context (R84, R104). -/
def faultTeam (s : State) (tid : Nat) (cause : Cause) (pc : Word) : State :=
  match kvFind s.teams tid with
  | none => s
  | some t => faultTask s ((kvFind s.clusters t.cluster).getD noCluster).task (causeCode cause) pc t.lead
/-- A group of the team still runs. -/
def teamLive (s : State) (tid : Nat) (t : Team) : Bool :=
  t.groups.any fun g => ((teamGroup s tid g).map fun x => !x.exiting).getD false
/-- The last group of a team has become exiting: a sequencer under way runs on, or faults where it waits on a barrier, at the
word just before its program counter (R84). -/
def teamExiting (s : State) (tid : Nat) : State :=
  match kvFind s.teams tid with
  | none => s
  | some t =>
    match t.seq with
    | none => s
    | some q =>
      if teamLive s tid t || !q.busy then s
      else
        match q.park with
        | .bar _ _ => faultTeam (seqIdle s tid) tid .mode (q.pc - 4)
        | _ => modTeam s tid fun x => { x with seq := some { q with run := some 0 } }
/-- Retire lanes of a group (R89), lower the barriers' EXPL (R95), and see what that completes. -/
def retire (s : State) (gid : Nat) (m : Mask) : State :=
  match kvFind s.groups gid with
  | none => s
  | some g =>
    let m := m &&& liveOf g
    let g1 := settleAll 64 { g with
      dead := g.dead ||| m, splits := g.splits.map (dropLanes m)
      frags := g.frags.filter fun f => f.lanes &&& m = 0 }
    let out := decide (liveOf g1 = 0)
    let g2 := if out then { g1 with exiting := true, active := false } else g1
    let s1 := lowerAll g.team (laneCount m) 16 { s with groups := kvPut s.groups gid g2 }
    let s2 := if out then checkGrow (teamExiting s1 g.team) (gid / 16) else s1
    checkGbar s2 (clusterOf s g).task

/-! Taking a trap (05 R105, 04 R78). -/

/-- Trap entry of a fragment: the trap registers are written, every other lane of the group retires, the split state is
cleared, and the fragment goes on at the handler with the rest unchanged; without a handler the context faults. WRITESET
reaches no handler (12 R236). Where no other lane is live none retires, which is no event of a barrier (R92, R95). -/
def trapEntry (s : State) (gid fid : Nat) (cause : Cause) (tc : Word) (tpc mpc : Word) : State :=
  match kvFind s.groups gid with
  | none => s
  | some g =>
    match findFrag g fid, (if cause = .writeset then none else handlerOf (taskOf s g)) with
    | some f, some h =>
      let s1 := modGroup s gid fun g => { g with
        tcause := tc, tpc := tpc, mpc := mpc, splits := []
        frags := [newFrag f.lanes h none true f.safe] }
      let others := liveOf g &&& ~~~f.lanes
      if others = 0 then s1 else retire s1 gid others
    | _, _ => faultGroup s gid (causeCode cause) tpc
/-- A trap of a word: %tcause holds the cause and the code of `trap` and `brk`, %mpc is 0 (R78). -/
def takeTrap (s : State) (gid fid : Nat) (cause : Cause) (code : Nat) (tpc : Word) : State :=
  trapEntry s gid fid cause (BitVec.ofNat 32 (causeCode cause + code * 2 ^ 8)) tpc 0
/-- A sequencer fault is delivered to a fragment of group 0: SEQF and STEP, and %mpc (R78, R104). -/
def takeSeqFault (s : State) (gid fid : Nat) (x : SeqFault) (tpc : Word) : State :=
  trapEntry s gid fid x.cause (BitVec.ofNat 32 (causeCode x.cause + 2 ^ 16 + x.step * 2 ^ 17)) tpc x.pc

/-- A sequencer stops before a word or step and becomes idle; the trap goes to group 0: at once where it is parked at a
point that takes it, at its next such point otherwise, and to nobody where it is exiting or has released (R104). An earlier fault that
is still pending is the one taken, and the later is discarded (R324). Of several fragments of group 0 that are parked at such points,
the first in the group's list takes it (DESIGN CHOICE, log 86). -/
def seqStop (s : State) (tid : Nat) (cause : Cause) (step : Nat) (pc : Word) : State :=
  let s1 := seqIdle s tid
  match kvFind s.teams tid with
  | none => s
  | some t =>
    let x : SeqFault := t.fault.getD { cause := cause, step := step, pc := pc }
    let gid := t.lead
    -- the parks are looked at as they stood when the fault occurred
    match teamGroup s tid gid with
    | none => faultTeam s1 tid cause pc
    | some g =>
      if g.exiting then faultTeam s1 tid cause pc
      else
        match g.frags.find? fun f => (seqTrapPc f).isSome with
        | some f => takeSeqFault (modTeam s1 tid fun y => { y with fault := none }) gid (fidOf f.lanes) x ((seqTrapPc f).getD f.pc)
        | none => modTeam s1 tid fun y => { y with fault := some x }
/-- The same, after which the team may retire (R83). -/
def seqFault (s : State) (tid : Nat) (cause : Cause) (step : Nat) (pc : Word) : State :=
  retireTeam (seqStop s tid cause step pc) tid

/-! Words. -/

/-- Who issues the word: group and fragment, the marker, how many words it takes. -/
structure Ctx where
  gid : Nat
  fid : Nat
  sw : Bool
  words : Nat
  g : Group
  f : Frag

/-- What a word does. -/
inductive Eff
  /-- Its effect; the fragment goes on with the next word. -/
  | ok (s : State)
  /-- Its effect; the fragment goes on at a code address (02 R23, R26). -/
  | jump (s : State) (pc : Word)
  /-- Its effect; the fragment then waits. -/
  | park (s : State) (p : Park)
  /-- Not yet issued: it waits and issues later. -/
  | wait (s : State) (p : Park)
  /-- A trap, precise at the word (02 R24). -/
  | trap (s : State) (c : Cause) (code : Nat)
  /-- A pending sequencer fault is taken in place of the word (05 R104). -/
  | seqFault (s : State) (x : SeqFault)
  /-- Its effect, after which its fragment is gone. -/
  | gone (s : State)
  /-- No effect and no issue: the fragment stands at the word (15 R271, R272, R286). -/
  | stand (s : State)

/-- The issuing fragment. -/
def issueOf (s : State) : Option Ctx :=
  match s.issue with
  | .frag gid fid sw words =>
    match kvFind s.groups gid with
    | none => none
    | some g =>
      match findFrag g fid with
      | none => none
      | some f => some { gid := gid, fid := fid, sw := sw, words := words, g := g, f := f }
  | _ => none

/-- Stops and pre-emptions find a parked fragment where it stands (15 R269, 11 R227). -/
def asked (s : State) (g : Group) : Bool :=
  let c := clusterOf s g
  c.stop != .none || c.pre != .none
/-- A fragment parks. -/
def setPark (s : State) (gid fid : Nat) (p : Park) : State :=
  modGroup s gid fun g => modFrag g fid fun f => { f with park := p, halted := asked s g && p != .run }
/-- A real issue on a core: it counts for the microsecond, and ends ballast there. -/
def coreIssues (s : State) (c : Nat) : State := modCore (countRamp s c) c fun x => { x with issued := x.issued + 1, ramp := none }
/-- The switch marker of a word at `pc` parks its group, or finds its counters zero (02 R29). -/
def atMarker (sw : Bool) (pc : Word) (g : Group) : Group :=
  if sw then (if drained g then absorb allPaths g else { g with marked := true, parkPc := pc }) else g
/-- Count an issued word, turn the rotation, park at a switch marker (02 R29, 05 R90, 15 R277). -/
def issued (s : State) (c : Ctx) : State :=
  let s1 := modGroup s c.gid fun g => atMarker c.sw c.f.pc { g with rot := c.fid }
  { coreIssues (count s1 (coreOfGid c.gid) 1 1) (coreOfGid c.gid) with issue := .none }

/-- What every word does after its own effect. -/
def finish (c : Ctx) : Eff → State
  | .ok s => issued (modGroup s c.gid fun g => advance g c.fid c.words) c
  | .jump s pc => issued (modGroup s c.gid fun g => arriveAt g c.fid pc true) c
  | .park s p =>
    -- the wait is met at the address after the word, before that address is reached
    issued (setPark (modGroup s c.gid fun g => modFrag g c.fid fun f => { f with
      pc := f.pc + BitVec.ofNat 32 (4 * c.words), passed := []
      cl := match f.cl with
        | some (k, left) => some (k, left - c.words)
        | none => none }) c.gid c.fid p) c
  | .wait s p => { setPark s c.gid c.fid p with issue := .none }
  | .trap s k code => { takeTrap s c.gid c.fid k code c.f.pc with issue := .none }
  | .seqFault s x => { takeSeqFault s c.gid c.fid x c.f.pc with issue := .none }
  | .gone s => issued s c
  | .stand s => { s with issue := .none }

/-- The word issues. -/
def issues : Eff → Bool
  | .ok _ => true
  | .jump _ _ => true
  | .park _ _ => true
  | .gone _ => true
  | _ => false

/-! Tagged sampling (15 R278, R279). -/

/-- Class code and op field of a word. -/
def opField (i : Instr) : Nat × Nat :=
  match encBody i with
  | some (c, b) =>
    let n := match c with
      | .srr => 4
      | .sri => 4
      | .ctl => 6
      | .vec => 7
      | _ => 5
    (c.code.toNat, b.toNat / 2 ^ (31 - n))
  | none => (0, 0)
/-- Active lanes of a word (05 R85): the lanes of its fragment that its prefix mask enables. -/
def activeCountOf (i : Instr) (c : Ctx) : Nat :=
  laneCount (match pfxOf i with
    | some p => c.f.lanes &&& getM c.g p.mask.toNat
    | none => c.f.lanes)
/-- Ordinal, NOSAFE, FAR and WOFF of a word. -/
def safeWords (c : Ctx) : Nat × Nat × Nat × Nat :=
  match c.f.safe with
  | none => (0, 1, 0, 0)
  | some (ord, a) =>
    let d : Int := ((c.f.pc - a).toInt) / 4
    if -32768 ≤ d ∧ d < 32768 then (ord, 0, 0, (d % 65536).toNat) else (ord, 0, 1, 0)
/-- Space code and address of a 64-bit address (Table 8-1). -/
def codeOf (v : Nat) : Nat := v / 2 ^ 58 % 4
def vaOf (v : Nat) : Nat := v % 2 ^ 55
/-- LEVEL of one byte of a direct access. -/
def byteLevel (gid : Nat) (sp : Bool) (a : Nat) : Nat :=
  if !sp then 1
  else if homeOf a = coreOfGid gid then 2
  else if dieOfCore (homeOf a) = dieOfCore (coreOfGid gid) then 3 else 4
/-- LEVELs of bytes of a range of a space: main memory with a hit or after a walk, SP by its slice, SH. -/
def rangeLevels (gid : Nat) (hit : Bool) (code a n : Nat) : List Nat :=
  match code with
  | 0 => [if hit then 5 else 6]
  | 1 => [byteLevel gid true a, byteLevel gid true (a + n - 1)]
  | 2 => [1]
  | _ => []
/-- LEVELs of a range at an address with its space code. -/
def addrLevels (gid v n : Nat) : List Nat := rangeLevels gid true (codeOf v) (vaOf v) n
/-- LEVELs of a word that reaches memory at its issue and leaves no operation: a control block, the image of a packet, the head that a
`vwait` names, the spill stack where it moved. A page that was walked for it is found when the word issues again (DESIGN CHOICE, log 22). -/
def issueLevels (i : Instr) (c : Ctx) (after : Group) : List Nat :=
  match i with
  | .enq d => addrLevels c.gid (getPair c.g d.toNat).toNat 128
  | .qpost d => rangeLevels c.gid true 1 (getS c.g (d.toNat + 2)).toNat 64
  | .vwait _ v => addrLevels c.gid (getPair c.g v.toNat).toNat 64
  | _ => if after.regTop ≠ c.g.regTop ∨ after.linkBot ≠ c.g.linkBot then [byteLevel c.gid true c.g.spillBase] else []
/-- The LEVEL of a record: the spec says it of one access; of several it is one of the levels met (log 22). -/
def pickLevel (s : State) (ls : List Nat) : Nat :=
  let l := ls.eraseDups
  l.getD (Config.latency s.tick 8 % max 1 l.length) 0
/-- What a record holds of its word at issue, with its LEVEL; that of an operation and the latencies come later. -/
def sampleDraft (i : Instr) (c : Ctx) (clk level : Nat) : List Word :=
  let x := safeWords c
  let y := opField i
  [BitVec.ofNat 32 (c.gid + x.1 * 2 ^ 12 + x.2.1 * 2 ^ 22 + x.2.2.1 * 2 ^ 23 + y.1 * 2 ^ 24),
    BitVec.ofNat 32 (x.2.2.2 + y.2 * 2 ^ 16 + activeCountOf i c * 2 ^ 23), 0, 0, BitVec.ofNat 32 (level * 2 ^ 16),
    BitVec.ofNat 32 clk, BitVec.ofNat 32 (clk / 2 ^ 32), 1]
/-- An issued word lowers its quadrant's countdown; at zero it is tagged next. -/
def sampled (i : Instr) (c : Ctx) (s : State) : State :=
  let core := coreOfGid c.gid
  let q := quadOfGid c.gid
  match kvFind (coreOf s core).samp q with
  | none => s
  | some y =>
    if y.count = 0 then s
    else if y.count = 1 then
      let op := ((kvFind s.groups c.gid).bind fun g => g.flight.find? fun f => !(c.g.flight.any fun x => x.id == f.id)).map (·.id)
      let level := pickLevel s (issueLevels i c ((kvFind s.groups c.gid).getD c.g))
      let d := sampleDraft i c (coreOf s core).clk level
      { modCore s core (fun x => { x with samp := kvPut x.samp q { y with count := 0, hit := some (d, c.gid, op) } }) with
        agenda := .ev (.sampleTag core q) :: s.agenda }
    else modCore s core fun x => { x with samp := kvPut x.samp q { y with count := y.count - 1 } }

/-- A word after its own effect, with its tagging. -/
def endWord (i : Instr) (c : Ctx) (e : Eff) : State := if issues e then sampled i c (finish c e) else finish c e

/-- A group word: its static limits (R43 step 1), its own meaning, what follows. -/
def word (i : Instr) (s : State) (k : Ctx → Eff) : Host.Outcome State Fault Refusal :=
  match issueOf s with
  | none => .fault .noIssuer
  | some c => .next (endWord i c (if wfErr i = none then k c else .trap s .illegal 0))

/-- A word that only changes its group: registers written at once (02 R27). -/
def onGroup (s : State) (c : Ctx) (k : Group → Group) : Eff := .ok (modGroup s c.gid k)

end Sys2Proof.Machine
end

