-- ==== Sys2Proof/Machine/Access.lean ====
section
/-! DEFINITION. Where addresses lead and what may be accessed: SH and SP, access entries, a ladder's write set, the checks of
a direct access (08 R145, R146, 12 R236, 16 R300). -/
set_option Elab.async false
namespace Sys2Proof.Machine

/-- Bytes of a memory width (R45). -/
def widthBytes : MemW → Nat
  | .b8 => 1
  | .b16 => 2
  | .b32 => 4
  | .b64 => 8
  | .b128 => 16

/-- Where byte `a` of a team's SH stands (R145). -/
def shLoc (t : Team) (a : Nat) : Loc :=
  let c := t.cores.length
  .sh (t.cores.getD (a / 4096 % c) 0) ((t.shPages.getD (a / 4096 % c) []).getD (a / (4096 * c)) 0 * 4096 + a % 4096)
/-- All of [a, a + n) lies below the team's allocation. -/
def inSh (t : Team) (a n : Nat) : Bool := decide (a + n ≤ t.sh)

/-- All of [a, a + n) lies in the union of the intervals. The fuel is their number and one. -/
def coveredIn : Nat → List (Nat × Nat) → Nat → Nat → Bool
  | 0, _, a, stop => decide (stop ≤ a)
  | k + 1, l, a, stop =>
    if stop ≤ a then true
    else
      match l.find? fun i => decide (i.1 ≤ a ∧ a < i.2) with
      | some i => coveredIn k (l.filter fun j => j != i) i.2 stop
      | none => false
def covered (l : List (Nat × Nat)) (a n : Nat) : Bool := coveredIn (l.length + 1) l a (a + n)

/-- MTYPE and MID of a master (Table 16-5). -/
def masterKey : Master → Nat × Nat
  | .ctx s => (0, s)
  | .host f => (1, f)
  | .mgmt => (2, 0)
  | .peer p => (3, p)
  | .fw c => (4, c)
/-- The valid entries that name a master and a target kind. -/
def entriesOf (s : State) (m : Master) (tkind : Nat) : List Acc :=
  (s.acc.map (·.2)).filter fun e =>
    e.valid && e.mtype == (masterKey m).1 && e.mid == (masterKey m).2 && e.tkind == tkind
/-- Whether an entry grants an access kind. -/
def grants (e : Acc) : AKind → Bool
  | .read => e.r
  | .write => e.w
  | .fetch => e.x
/-- An access is admitted: some entry covers every byte of it and grants its kind (R300). -/
def admitted (s : State) (m : Master) (tkind a n : Nat) (k : AKind) : Bool :=
  (entriesOf s m tkind).any fun e => decide (e.base ≤ a ∧ a + n ≤ e.limit) && grants e k

/-- Every byte of [a, a + n) is an SP address that exists (R10, R146). -/
def spRange (a n : Nat) : Bool :=
  decide (a + n ≤ 2 ^ 31) && (n == 0 || decide (a % 0x8000000 + n ≤ Config.dieSpEnd))
/-- Intervals an entry list spans. -/
def spans (es : List Acc) : List (Nat × Nat) := es.map fun e => (e.base, e.limit)
/-- Every byte of [a, a + n) lies in the context's SP window (R145). -/
def inWindow (s : State) (sid a n : Nat) : Bool := spRange a n && covered (spans (entriesOf s (.ctx sid) 0)) a n
/-- A row or a span of SP bytes is one access, which one entry has to admit (R154, R300); an empty one needs none (log 34). -/
def spGrants (s : State) (sid a n : Nat) (k : AKind) : Bool := n == 0 || admitted s (.ctx sid) 0 a n k

/-! The write set of a ladder task (12 R236), as intervals; SH and scale memories always lie in it. -/

/-- A 64-bit value of two words. -/
def pairNat (l : List Word) (i : Nat) : Nat := (l.getD i 0).toNat + (l.getD (i + 1) 0).toNat * 2 ^ 32
/-- First address and bytes of slot i of a vat (Table 12-1). -/
def slotBase (d : List Word) (i : Nat) : Nat := vaOf (pairNat d 2) + i * (d.getD 4 0).toNat
/-- The scratch ranges of a vat descriptor: code, first address, bytes. -/
def scratchOf (d : List Word) : List (Nat × Nat × Nat) :=
  (List.range 4).map fun j => (codeOf (pairNat d (10 + 4 * j)), vaOf (pairNat d (10 + 4 * j)), (d.getD (12 + 4 * j) 0).toNat)
/-- The curd slot and the scratch ranges in a space: 0 main memory, 1 SP. -/
def ladderRanges (l : Ladder) (code : Nat) : List (Nat × Nat) :=
  let slots := match l.curd with
    | some i => if codeOf (pairNat l.desc 2) = code then [(slotBase l.desc i, slotBase l.desc i + (l.desc.getD 4 0).toNat)] else []
    | none => []
  slots ++ ((scratchOf l.desc).filter fun e => e.1 == code && e.2.2 != 0).map fun e => (e.2.1, e.2.1 + e.2.2)
/-- The write set in SP: with the spill stacks. -/
def writeSetSp (s : State) (tk : Nat) (l : Ladder) : List (Nat × Nat) :=
  ladderRanges l 1 ++ (groupsOfTask s tk).map fun g => (g.2.spillBase, g.2.spillBase + g.2.spillSize)
/-- Whether a write of a group to SP, or to main memory, lies in its write set; true of a task that has none. -/
def mayWriteSp (s : State) (g : Group) (a n : Nat) : Bool :=
  match (taskOf s g).ladder with
  | some l => covered (writeSetSp s (clusterOf s g).task l) a n
  | none => true
def mayWriteVa (s : State) (g : Group) (a n : Nat) : Bool :=
  match (taskOf s g).ladder with
  | some l => covered (ladderRanges l 0) a n
  | none => true

/-! Direct accesses (R146). -/

/-- The space of a direct access. -/
inductive DSpace | sh | sp
  deriving DecidableEq, Repr

/-- Where a byte of a direct access stands. -/
def dLoc (t : Team) : DSpace → Nat → Loc
  | .sh, a => shLoc t a
  | .sp, a => .sp a
/-- The checks of all lanes: each lane's bytes [a, a + n), aligned to `al`; the kinds are those the access needs. -/
def directCheck (s : State) (g : Group) (dsp : DSpace) (kinds : List AKind) (al n : Nat) (as : List Nat) : Option Cause :=
  if as.any fun a => a % al != 0 then some .align
  else
    match dsp with
    | .sh => if as.any fun a => !inSh (teamOf s g) a n then some .bounds else none
    | .sp =>
      if as.any fun a => !inWindow s (sidOf s g) a n then some .bounds
      else if as.any fun a => kinds.any fun k => !admitted s (.ctx (sidOf s g)) 0 a n k then some .perm
      else if kinds.contains .write && as.any fun a => !mayWriteSp s g a n then some .writeset
      else none

end Sys2Proof.Machine
end

