-- ==== Sys2Proof/Machine/Num.lean ====
section
/-! DEFINITION. Numbers to the last bit (07_numbers): formats, exact values, one rounding, arithmetic, conversions, special
functions (19 R381, R382), quantisation (R141) and step sums (R142, R143). An exact finite value is n · 2^e. -/
set_option Elab.async false
namespace Sys2Proof.Machine

/-! Flags (Table 7-4). -/

def flNV : BitVec 5 := 1
def flDZ : BitVec 5 := 2
def flOF : BitVec 5 := 4
def flUF : BitVec 5 := 8
def flNX : BitVec 5 := 16

/-- A binary format (Table 7-1): exponent bits, mantissa bits, bias, code of the largest finite magnitude. -/
structure Fmt where
  ebits : Nat
  mbits : Nat
  bias : Nat
  maxCode : Nat
  deriving DecidableEq, Repr

def fp32 : Fmt := { ebits := 8, mbits := 23, bias := 127, maxCode := 0x7F7FFFFF }
def bf16 : Fmt := { ebits := 8, mbits := 7, bias := 127, maxCode := 0x7F7F }
def fp16 : Fmt := { ebits := 5, mbits := 10, bias := 15, maxCode := 0x7BFF }
def e5m2 : Fmt := { ebits := 5, mbits := 2, bias := 15, maxCode := 0x7B }
def e4m3 : Fmt := { ebits := 4, mbits := 3, bias := 7, maxCode := 0x7E }
def e2m1 : Fmt := { ebits := 2, mbits := 1, bias := 1, maxCode := 7 }

/-- The sign bit's weight. -/
def Fmt.signW (f : Fmt) : Nat := 2 ^ (f.ebits + f.mbits)
/-- Exponent of the format's quantum: the smallest subnormal is 2^qmin. -/
def Fmt.qmin (f : Fmt) : Int := 1 - (f.bias : Int) - (f.mbits : Int)
/-- Exponent of the smallest normal. -/
def Fmt.emin (f : Fmt) : Int := 1 - (f.bias : Int)
/-- Code of infinity's magnitude; E4M3 and E2M1 have none. -/
def Fmt.infCode (f : Fmt) : Nat := (2 ^ f.ebits - 1) * 2 ^ f.mbits
/-- The canonical NaN (R126). -/
def Fmt.nanCode (f : Fmt) : Nat := if f = e4m3 then 0x7F else if f = e5m2 then 0x7E else f.infCode + 2 ^ (f.mbits - 1)

/-- A decoded operand: NaN and whether it is signalling, an infinity, an exact value with its sign. -/
inductive FVal
  | nan (sig : Bool)
  | inf (neg : Bool)
  | fin (neg : Bool) (m : Nat) (e : Int)
  deriving DecidableEq, Repr

/-- The value of a code (R122, R123, R126). -/
def decodeF (f : Fmt) (x : Nat) : FVal :=
  let neg := decide (x / f.signW % 2 = 1)
  let a := x % f.signW
  let ex := a / 2 ^ f.mbits
  let m := a % 2 ^ f.mbits
  if f = e2m1 then
    (if a = 0 then .fin false 0 0
     else if ex = 0 then .fin neg m f.qmin else .fin neg (m + 2 ^ f.mbits) (f.qmin + (ex : Int) - 1))
  else if f = e4m3 ∧ a = 0x7F then .nan false
  else if f ≠ e4m3 ∧ ex = 2 ^ f.ebits - 1 then
    (if m = 0 then .inf neg else .nan (decide (m < 2 ^ (f.mbits - 1))))
  else if ex = 0 then .fin neg m f.qmin
  else .fin neg (m + 2 ^ f.mbits) (f.qmin + (ex : Int) - 1)

/-! Rounding (R128). -/

/-- How a discarded part is rounded: by a mode, or always to the smaller or the larger magnitude. -/
inductive Rnd
  | mode (m : RMode)
  | down
  | up
  deriving DecidableEq, Repr

/-- Whether the magnitude is raised: the kept part odd, the discarded part against one half, the sign. -/
def raise (r : Rnd) (neg odd above tie exact : Bool) : Bool :=
  match r with
  | .down => false
  | .up => !exact
  | .mode .rne => above || (tie && odd)
  | .mode .rz => false
  | .mode .rdn => neg && !exact
  | .mode .rup => !neg && !exact

/-- Round m · 2^e, with more below m when `st`, to a multiple of 2^q: the multiple, and whether it is inexact. -/
def roundAt (r : Rnd) (neg : Bool) (m : Nat) (e : Int) (st : Bool) (q : Int) : Nat × Bool :=
  if q ≤ e then (m * 2 ^ (e - q).toNat, st)
  else
    let k := (q - e).toNat
    let w := m / 2 ^ k
    let rem := m % 2 ^ k
    let h := 2 ^ (k - 1)
    let exact := rem == 0 && !st
    (if raise r neg (w % 2 == 1) (decide (h < rem) || (rem == h && st)) (rem == h && !st) exact then w + 1 else w, !exact)

/-- The quantum of a value with p mantissa bits and no lower limit. -/
def freeQuantum (p m : Nat) (e : Int) : Int := (Nat.log2 m : Int) + e - (p : Int)

/-- Round to a format (R128, R129): the code without sign, inexact, tiny after rounding. -/
def roundMag (f : Fmt) (r : Rnd) (neg : Bool) (m : Nat) (e : Int) (st : Bool) : Nat × Bool × Bool :=
  if m = 0 ∧ st = false then (0, false, false)
  else
    let q0 := freeQuantum f.mbits m e
    let q := max q0 f.qmin
    let (w, x) := roundAt r neg m e st q
    let (w0, _) := roundAt r neg m e st q0
    -- tiny: what an unlimited exponent would give lies below the smallest normal
    let tiny := decide (Nat.log2 w0 + q0 < f.emin) || w0 == 0
    ((q - f.qmin).toNat * 2 ^ f.mbits + w, x, tiny)

/-- What an overflow delivers (R128). -/
def overflowCode (f : Fmt) (m : RMode) (neg : Bool) : Nat :=
  match m, neg with
  | .rne, _ => f.infCode
  | .rz, _ => f.maxCode
  | .rdn, false => f.maxCode
  | .rdn, true => f.infCode
  | .rup, false => f.infCode
  | .rup, true => f.maxCode

/-- Sign and magnitude as a code. -/
def signed (f : Fmt) (neg : Bool) (a : Nat) : Nat := (if neg then f.signW else 0) + a

/-- Round an exact value to a format: code and flags (R128, R129, Table 7-6). `r` says how; `m` what an overflow gives. -/
def roundBy (f : Fmt) (r : Rnd) (mode : RMode) (neg : Bool) (m : Nat) (e : Int) (st : Bool) : Nat × BitVec 5 :=
  let (c, x, tiny) := roundMag f r neg m e st
  if f.maxCode < c then (signed f neg (overflowCode f mode neg), flOF ||| flNX)
  else (signed f neg c, if x then (if tiny then flUF ||| flNX else flNX) else 0)
def roundF (f : Fmt) (mode : RMode) (neg : Bool) (m : Nat) (e : Int) (st : Bool := false) : Nat × BitVec 5 :=
  roundBy f (.mode mode) mode neg m e st

/-- Raise NV when a NaN operand is signalling (Table 7-3). -/
def sigFlag (vs : List FVal) : BitVec 5 := if vs.any fun v => v == .nan true then flNV else 0
def isNan : FVal → Bool
  | .nan _ => true
  | _ => false
def isInf : FVal → Bool
  | .inf _ => true
  | _ => false
def isZero : FVal → Bool
  | .fin _ m _ => m == 0
  | _ => false
def negOf : FVal → Bool
  | .nan _ => false
  | .inf n => n
  | .fin n _ _ => n
/-- A value negated. -/
def negF : FVal → FVal
  | .nan b => .nan b
  | .inf n => .inf !n
  | .fin n m e => .fin (!n) m e

/-! Exact sums: integers scaled by a power of two. -/

/-- n · 2^e. -/
structure Dy where
  n : Int
  e : Int
  deriving DecidableEq, Repr
def dyOf : FVal → Dy
  | .fin neg m e => { n := if neg then -(m : Int) else m, e := e }
  | _ => { n := 0, e := 0 }
def dyAdd (a b : Dy) : Dy :=
  let e := min a.e b.e
  { n := a.n * 2 ^ (a.e - e).toNat + b.n * 2 ^ (b.e - e).toNat, e := e }
def dySum (l : List Dy) : Dy :=
  match l with
  | [] => { n := 0, e := 0 }
  | x :: r => r.foldl dyAdd x
/-- Compare: a < b, and |a| < |b|, and equal. -/
def dySub (a b : Dy) : Dy := dyAdd a { b with n := -b.n }
def dyLt (a b : Dy) : Bool := decide ((dySub a b).n < 0)
def dyAbs (a : Dy) : Dy := { a with n := a.n.natAbs }
def dyEq (a b : Dy) : Bool := decide ((dySub a b).n = 0)
/-- Round it; a zero takes the sign given. -/
def roundDy (f : Fmt) (mode : RMode) (zneg : Bool) (d : Dy) : Nat × BitVec 5 :=
  if d.n = 0 then (signed f zneg 0, 0) else roundF f mode (decide (d.n < 0)) d.n.natAbs d.e

/-- The sum of a set of values, rounded once (R127, R128, R386): any NaN, infinities of both signs, infinities, exact sum.
A zero sum keeps the one sign all members have, and is otherwise −0 under RDN and +0 else. -/
def sumF (f : Fmt) (mode : RMode) (vs : List FVal) : Nat × BitVec 5 :=
  if vs.any isNan then (f.nanCode, sigFlag vs)
  else if vs.contains (.inf false) ∧ vs.contains (.inf true) then (f.nanCode, flNV)
  else if vs.contains (.inf false) then (f.infCode, 0)
  else if vs.contains (.inf true) then (signed f true f.infCode, 0)
  else
    let zneg := if vs.all negOf then true else if vs.any negOf then mode == .rdn else false
    roundDy f mode zneg (dySum (vs.map dyOf))

/-- The exact product (R127): NaN for ∞ · 0. -/
def mulF (a b : FVal) : Option FVal :=
  let neg := negOf a ^^ negOf b
  if isInf a ∨ isInf b then (if isZero a ∨ isZero b then none else some (.inf neg))
  else some (.fin neg ((dyOf a).n * (dyOf b).n).natAbs ((dyOf a).e + (dyOf b).e))

/-- a + b, a − b, a · b, a · b + c (R373). -/
def addF (f : Fmt) (mode : RMode) (a b : FVal) : Nat × BitVec 5 := sumF f mode [a, b]
def subF (f : Fmt) (mode : RMode) (a b : FVal) : Nat × BitVec 5 := sumF f mode [a, negF b]
/-- A NaN operand comes before ∞ · 0, as in R142, so that NV is then raised for a signalling NaN alone (DEDUCED, log 125). -/
def fmaF (f : Fmt) (mode : RMode) (a b c : FVal) : Nat × BitVec 5 :=
  if isNan a ∨ isNan b ∨ isNan c then (f.nanCode, sigFlag [a, b, c])
  else
    match mulF a b with
    | none => (f.nanCode, flNV)
    | some p => sumF f mode [p, c]
def prodF (f : Fmt) (mode : RMode) (a b : FVal) : Nat × BitVec 5 :=
  if isNan a ∨ isNan b then (f.nanCode, sigFlag [a, b])
  else
    match mulF a b with
    | none => (f.nanCode, flNV)
    | some (.inf n) => (signed f n f.infCode, 0)
    | some p => roundDy f mode (negOf p) (dyOf p)

/-- An order of the codes of a format: −0 below +0 (R127), or the two equal. -/
def codeKey (f : Fmt) (x : Nat) : Int := if x / f.signW % 2 = 1 then -((x % f.signW : Nat) : Int) - 1 else ((x % f.signW : Nat) : Int)
def numKey (f : Fmt) (x : Nat) : Int := if x / f.signW % 2 = 1 then -((x % f.signW : Nat) : Int) else ((x % f.signW : Nat) : Int)
/-- `vmin`, `vmax` and the minimum and maximum of a set (Table 7-3, R386): NaN members are passed over. -/
def pickF (f : Fmt) (big : Bool) (xs : List Nat) : Nat × BitVec 5 :=
  let fl := sigFlag (xs.map (decodeF f))
  match xs.filter fun x => !isNan (decodeF f x) with
  | [] => (f.nanCode, fl)
  | x :: r => (r.foldl (fun a b => if (codeKey f a < codeKey f b) = big then b else a) x, fl)
/-- A comparison (Table 7-3). -/
def cmpF (f : Fmt) (c : Cond) (a b : Nat) : Bool × BitVec 5 :=
  let vs := [decodeF f a, decodeF f b]
  let n := vs.any isNan
  match c with
  | .eq => (!n && decide (numKey f a = numKey f b), sigFlag vs)
  | .ne => (n || decide (numKey f a ≠ numKey f b), sigFlag vs)
  | .lt => (!n && decide (numKey f a < numKey f b), if n then flNV else 0)
  | .le => (!n && decide (numKey f a ≤ numKey f b), if n then flNV else 0)

/-! Conversions (R134, R135). -/

/-- FP32 to an integer in [lo, hi] (Table 7-8). -/
def toInt (mode : RMode) (lo hi : Int) (x : Nat) : Int × BitVec 5 :=
  match decodeF fp32 x with
  | .nan _ => (0, flNV)
  | .inf n => (if n then lo else hi, flNV)
  | .fin neg m e =>
    let (w, x) := roundAt (.mode mode) neg m e false 0
    let v : Int := if neg then -(w : Int) else w
    if v < lo then (lo, flNV) else if hi < v then (hi, flNV) else (v, if x then flNX else 0)
/-- An integer to FP32, RNE always. -/
def ofInt (v : Int) : Nat × BitVec 5 := roundDy fp32 .rne false { n := v, e := 0 }
/-- Between floating-point formats by R128. -/
def convF (a b : Fmt) (mode : RMode) (x : Nat) : Nat × BitVec 5 :=
  match decodeF a x with
  | .nan s => (b.nanCode, if s then flNV else 0)
  | .inf n => (signed b n b.infCode, 0)
  | .fin neg m e => roundDy b mode neg { n := if neg then -(m : Int) else m, e := e }
/-- FP32 to E4M3 or E5M2 (R135, Table 7-9). -/
def toF8 (f : Fmt) (nsat : Bool) (mode : RMode) (x : Nat) : Nat × BitVec 5 :=
  match decodeF fp32 x with
  | .nan s => (f.nanCode, if s then flNV else 0)
  | .inf n =>
    if nsat then (if f = e4m3 then (0x7F, flNV) else (signed f n f.infCode, 0)) else (signed f n f.maxCode, flNX)
  | .fin neg m e =>
    let (c, x, tiny) := roundMag f (.mode mode) neg m e false
    if f.maxCode < c then
      (if nsat then (if f = e4m3 then 0x7F else signed f neg f.infCode) else signed f neg f.maxCode, flOF ||| flNX)
    else (signed f neg c, if x then (if tiny then flUF ||| flNX else flNX) else 0)

/-! Special functions (R381, R382). Results of rsq, ex2, lg2, sin, cos and tanh are computed to 2^-512 and better, which no
input outside Table 19-13 comes near to a representable value by (log 8). -/

/-- Fixed-point precision of the series, and π, ln 2 to it and 128 bits beyond. -/
def fxP : Nat := 576
def piFx : Nat := 0x3243f6a8885a308d313198a2e03707344a4093822299f31d0082efa98ec4e6c89452821e638d01377be5466cf34e90c6cc0ac29b7c97c50dd3f84d5b5b54709179216d5d98979fb1bd1310ba698dfb5ac2ffd72dbd01adfb7
def ln2Fx : Nat := 0xb17217f7d1cf79abc9e3b39803f2f6af40f343267298b62d8a0d175b8baafa2be7b876206debac98559552fb4afa1b10ed2eae35c138214427573b291169b8253e96ca16224ae8c51acbda11317c387eb9ea9bc3b136603b
/-- Fixed-point product. -/
def fxMul (a b : Nat) : Nat := a * b / 2 ^ fxP
/-- exp(y) for 0 ≤ y < 1 by its series. -/
def expSeries : Nat → Nat → Nat → Nat → Nat → Nat
  | 0, _, _, _, acc => acc
  | n + 1, k, y, t, acc =>
    let t2 := fxMul t y / k
    expSeries n (k + 1) y t2 (acc + t2)
def expFx (y : Nat) : Nat := expSeries 120 1 y (2 ^ fxP) (2 ^ fxP)
/-- Sine and cosine of 0 ≤ y < 2 by their series: even and odd terms, alternating. -/
def sinSeries : Nat → Nat → Nat → Nat → Int → Bool → Int
  | 0, _, _, _, acc, _ => acc
  | n + 1, k, y2, t, acc, minus =>
    let t2 := fxMul t y2 / ((k + 1) * (k + 2))
    sinSeries n (k + 2) y2 t2 (if minus then acc - t2 else acc + t2) (!minus)
def sinFx (y : Nat) : Int := sinSeries 70 1 (fxMul y y) y y true
def cosFx (y : Nat) : Int := sinSeries 70 0 (fxMul y y) (2 ^ fxP) (2 ^ fxP : Nat) true
/-- The inverse hyperbolic tangent of z ≤ 1/3 by its series. -/
def atanhSeries : Nat → Nat → Nat → Nat → Nat → Nat
  | 0, _, _, _, acc => acc
  | n + 1, k, z2, t, acc =>
    let t2 := fxMul t z2
    atanhSeries n (k + 2) z2 t2 (acc + t2 / (k + 2))
def atanhFx (z : Nat) : Nat := atanhSeries 190 1 (fxMul z z) z z

/-- What a function delivers: the special cases of Table 19-13, an exact value, or one of the two that bracket
m · 2^e, where `m` may be short of the value by less than one unit. -/
inductive SfuVal
  | code (mag : Nat) (neg : Bool) (fl : BitVec 5)
  | exact (neg : Bool) (m : Nat) (e : Int) (st : Bool)
  | near (neg : Bool) (m : Nat) (e : Int)
  deriving DecidableEq, Repr

/-- A signed fixed-point number as a bracketed value; 2^64 units of slack stand below the truncation. -/
def nearFx (v : Int) (scale : Int) : SfuVal := .near (decide (v < 0)) v.natAbs scale

/-- x = m · 2^e as fixed point. -/
def toFx (m : Nat) (e : Int) : Nat :=
  let k := e + (fxP : Int)
  if 0 ≤ k then m * 2 ^ k.toNat else m / 2 ^ (-k).toNat
/-- Quadrant and reduced argument of |x|: x − k · π/2 in [0, π/2), to fixed point. -/
def reduceFx (m : Nat) (e : Int) : Nat × Nat :=
  let half := piFx / 2
  let v := if 0 ≤ e + 704 then m * 2 ^ (e + 704).toNat else m / 2 ^ (-(e + 704)).toNat
  (v / half % 4, v % half / 2 ^ 128)
/-- Sine of |x| shifted by q quarter turns. -/
def sinQ (m : Nat) (e : Int) (q : Nat) : Int :=
  let (k, r) := reduceFx m e
  match (k + q) % 4 with
  | 0 => sinFx r
  | 1 => cosFx r
  | 2 => -sinFx r
  | _ => -cosFx r
/-- 2^x for x = (−1)^neg · m · 2^e that is no integer. -/
def ex2Val (neg : Bool) (m : Nat) (e : Int) : SfuVal :=
  if 12 < (Nat.log2 m : Int) + e then (if neg then .near false 1 (-2000) else .near false 1 2000)
  else
    let w := m / 2 ^ (-e).toNat
    let frac := m % 2 ^ (-e).toNat
    let f := if neg then 2 ^ (-e).toNat - frac else frac
    let n : Int := if neg then -(w : Int) - 1 else w
    nearFx (expFx (toFx f e * (ln2Fx / 2 ^ 128) / 2 ^ fxP)) (n - fxP)
/-- log2 of m · 2^e that is no power of two. -/
def lg2Val (m : Nat) (e : Int) : SfuVal :=
  let k := Nat.log2 m
  let one := 2 ^ k
  let z := (m - one) * 2 ^ fxP / (m + one)
  let l : Nat := (2 * atanhFx z) * 2 ^ fxP / (ln2Fx / 2 ^ 128)
  nearFx (((k : Int) + e) * 2 ^ fxP + l) (-fxP)
/-- tanh of (−1)^neg · m · 2^e. -/
def tanhVal (neg : Bool) (m : Nat) (e : Int) : SfuVal :=
  if 6 < (Nat.log2 m : Int) + e then .near neg (2 ^ 600 - 1) (-600)
  else
    let y := 2 * toFx m e
    let ln2 := ln2Fx / 2 ^ 128
    let k := y / ln2
    let ex := expFx (y % ln2) * 2 ^ k
    .near neg ((ex - 2 ^ fxP) * 2 ^ fxP / (ex + 2 ^ fxP)) (-fxP)
/-- 1/√(m · 2^e). -/
def rsqVal (m : Nat) (e : Int) : SfuVal :=
  let m2 := if e % 2 = 0 then m else 2 * m
  let e2 := if e % 2 = 0 then e else e - 1
  let n := 2 ^ 200 / m2
  let r := Nat.sqrt n
  .exact false r (-(e2 / 2) - 100) (decide (r * r * m2 ≠ 2 ^ 200))
/-- √(m · 2^e). -/
def sqrtVal (m : Nat) (e : Int) : SfuVal :=
  let m2 := if e % 2 = 0 then m else 2 * m
  let e2 := if e % 2 = 0 then e else e - 1
  let n := m2 * 2 ^ 120
  let r := Nat.sqrt n
  .exact false r (e2 / 2 - 60) (decide (r * r ≠ n))
/-- 1/(m · 2^e). -/
def rcpVal (neg : Bool) (m : Nat) (e : Int) : SfuVal :=
  .exact neg (2 ^ 120 / m) (-e - 120) (decide (2 ^ 120 % m ≠ 0))

/-- An integer value of m · 2^e, if it is one. -/
def asInteger (m : Nat) (e : Int) : Option Nat :=
  if 0 ≤ e then some (m * 2 ^ e.toNat) else if m % 2 ^ (-e).toNat = 0 then some (m / 2 ^ (-e).toNat) else none

/-- The value of a function at a code (Table 19-13, R382). -/
def sfuVal (f : Fmt) (fn : SfuFn) (x : Nat) : SfuVal :=
  match fn, decodeF f x with
  | _, .nan s => .code f.nanCode false (if s then flNV else 0)
  | .rcp, .inf n => .code 0 n 0
  | .rcp, .fin n m e => if m = 0 then .code f.infCode n flDZ else rcpVal n m e
  | .rsq, .inf n => if n then .code f.nanCode false flNV else .code 0 false 0
  | .rsq, .fin n m e => if m = 0 then .code f.infCode n flDZ else if n then .code f.nanCode false flNV else rsqVal m e
  | .sqrt, .inf n => if n then .code f.nanCode false flNV else .code f.infCode false 0
  | .sqrt, .fin n m e => if m = 0 then .code 0 n 0 else if n then .code f.nanCode false flNV else sqrtVal m e
  | .ex2, .inf n => if n then .code 0 false 0 else .code f.infCode false 0
  | .ex2, .fin n m e =>
    (match (if 12 < (Nat.log2 m : Int) + e then none else asInteger m e) with
      | some k => .exact false 1 (if n then -(k : Int) else k) false
      | none => ex2Val n m e)
  | .lg2, .inf n => if n then .code f.nanCode false flNV else .code f.infCode false 0
  | .lg2, .fin n m e =>
    if m = 0 then .code f.infCode true flDZ
    else if n then .code f.nanCode false flNV
    else if m = 2 ^ Nat.log2 m then
      (let k : Int := (Nat.log2 m : Int) + e
       if k = 0 then .code 0 false 0 else .exact (decide (k < 0)) k.natAbs 0 false)
    else lg2Val m e
  | .sin, .inf _ => .code f.nanCode false flNV
  | .sin, .fin n m e => if m = 0 then .code 0 n 0 else nearFx (if n then -sinQ m e 0 else sinQ m e 0) (-fxP)
  | .cos, .inf _ => .code f.nanCode false flNV
  | .cos, .fin _ m e => if m = 0 then .exact false 1 0 false else nearFx (sinQ m e 1) (-fxP)
  | .tanh, .inf n => .exact n 1 0 false
  | .tanh, .fin n m e => if m = 0 then .code 0 n 0 else tanhVal n m e

/-- Whether a function's result is rounded to the mode, or left to the part within the bracket (R382). -/
def correctlyRounded : SfuFn → Bool
  | .rcp => true
  | .sqrt => true
  | _ => false
def sfuIndex : SfuFn → Nat
  | .rcp => 0 | .rsq => 1 | .sqrt => 2 | .ex2 => 3 | .lg2 => 4 | .sin => 5 | .cos => 6 | .tanh => 7
def modeIndex : RMode → Nat
  | .rne => 0 | .rz => 1 | .rdn => 2 | .rup => 3
/-- The result and flags of `vsfu` for one element. -/
def sfuF (f : Fmt) (fn : SfuFn) (mode : RMode) (x : Nat) : Nat × BitVec 5 :=
  let up (neg : Bool) : Rnd :=
    if (Config.sfuUpper (sfuIndex fn) (f == fp16) (modeIndex mode) (BitVec.ofNat 32 x)) ^^ neg then .up else .down
  match sfuVal f fn x with
  | .code a n fl => (signed f n a, fl)
  | .exact n m e st => if correctlyRounded fn then roundF f mode n m e st else roundBy f (up n) mode n m e st
  | .near n m e => roundBy f (up n) mode n m e true

/-! Quantisation (R141). -/

/-- The smallest e ≥ −127 with |x| ≤ 6 · 2^e. -/
def blockExp (m : Dy) : Int :=
  if m.n = 0 then -127
  else
    let k : Int := (Nat.log2 m.n.natAbs : Int) + m.e
    let e := if dyLt { n := 3, e := k - 1 } m then k - 1 else k - 2
    max (-127) e
/-- One element: its E2M1 code, zero as 0000b, and its encoded value. -/
def quantOne (e : Int) (d : Dy) : Nat × Dy :=
  let neg := decide (d.n < 0)
  let (c, _, _) := roundMag e2m1 (.mode .rne) neg d.n.natAbs (d.e - e) false
  let code := if c = 0 then 0 else signed e2m1 neg c
  let v := dyOf (decodeF e2m1 code)
  (code, { n := v.n, e := v.e + e })
/-- The lowest index of a largest error. -/
def worst (errs : List Dy) : Nat :=
  let i := errs.zipIdx.foldl (fun (b : Dy × Nat) x => if dyLt b.1 x.1 then (x.1, x.2) else b) (errs.headD { n := 0, e := 0 }, 0)
  i.2
/-- The 32 words and the flags of `vqcvt`. -/
def quantise (xs : List Nat) : List Word × BitVec 5 :=
  let vs := xs.map (decodeF fp32)
  if vs.any fun v => isNan v || isInf v then ((List.range 32).map fun l => if l = 4 then 0xFF else 0, flNV)
  else
    let ds := vs.map dyOf
    let m := ds.foldl (fun a d => if dyLt a (dyAbs d) then dyAbs d else a) { n := 0, e := 0 }
    let e := blockExp m
    let qs := ds.map (quantOne e)
    let errs := (ds.zip qs).map fun p => dyAbs (dySub p.1 p.2.2)
    let i := worst errs
    let anyErr := errs.any fun d => d.n != 0
    let xi := ds.getD i { n := 0, e := 0 }
    let sp := if anyErr then
        (let (c, _, _) := roundMag e4m3 (.mode .rne) (decide (xi.n < 0)) xi.n.natAbs (xi.e - e) false
         signed e4m3 (decide (xi.n < 0)) c)
      else 0
    let spv := dyOf (decodeF e4m3 sp)
    let codes := (qs.map (·.1)).zipIdx.map fun c => if anyErr ∧ c.2 = i then 8 else c.1
    let off := (errs.zipIdx.any fun d => d.2 != i && d.1.n != 0) || (anyErr && !dyEq xi { n := spv.n, e := spv.e + e })
    ((List.range 32).map fun l =>
        if l < 4 then BitVec.ofNat 32 (((List.range 8).map fun k => codes.getD (8 * l + k) 0 * 16 ^ k).foldl (· + ·) 0)
        else if l = 4 then BitVec.ofNat 32 (sp * 256 + (e + 127).toNat) else 0,
      if off then flNX else 0)

/-! Matrix steps (R112, R138, R142, R143). -/

/-- The element formats of a slot (Table 7-11); none is unused. -/
inductive Elem | e4m3 | e5m2 | e2m1 | int8 | fp16 | bf16
  deriving DecidableEq, Repr
def slotElem (w : Word) : Option Elem :=
  match (w.extractLsb' 0 4).toNat with
  | 1 => some .e4m3
  | 2 => some .e5m2
  | 3 => some .e2m1
  | 4 => some .int8
  | 5 => some .fp16
  | 6 => some .bf16
  | _ => none
def slotScaled (w : Word) : Bool := w.extractLsb' 4 4 == 1
def slotSpare (w : Word) : Bool := w.getLsbD 16
def elemBits : Elem → Nat
  | .e2m1 => 4
  | .fp16 => 16
  | .bf16 => 16
  | _ => 8
def elemFmt : Elem → Fmt
  | .e4m3 => Sys2Proof.Machine.e4m3
  | .e5m2 => Sys2Proof.Machine.e5m2
  | .e2m1 => Sys2Proof.Machine.e2m1
  | .fp16 => Sys2Proof.Machine.fp16
  | .bf16 => Sys2Proof.Machine.bf16
  | .int8 => fp32
/-- Element k of the two words a lane supplies (R112). -/
def elemAt (el : Elem) (lo hi : Word) (k : Nat) : Nat :=
  let b := elemBits el
  let w := if k < 32 / b then lo else hi
  w.toNat / 2 ^ (b * (k % (32 / b))) % 2 ^ b
/-- A scaled element (R138): `sc` is the scale byte and the spare byte, none for `mma`. -/
def scaledElem (el : Elem) (spare : Bool) (x : Nat) (sc : Option (Nat × Nat)) : FVal :=
  let v := decodeF (elemFmt el) x
  match sc with
  | none => v
  | some (c, sp) =>
    if c = 255 then .nan false
    else
      match (if spare && el == .e2m1 && x == 8 then decodeF Sys2Proof.Machine.e4m3 sp else v) with
      | .fin n m e => .fin n m (e + (c : Int) - 127)
      | w => w
/-- StepAccumulate for the floating-point formats (R142). -/
def stepF (acc : Word) (ps : List (FVal × FVal)) : Word × BitVec 5 :=
  let a := decodeF fp32 acc.toNat
  let all := a :: ps.flatMap fun p => [p.1, p.2]
  if all.any isNan then (BitVec.ofNat 32 fp32.nanCode, sigFlag all)
  else
    let ms := ps.map fun p => mulF p.1 p.2
    if ms.any Option.isNone then (BitVec.ofNat 32 fp32.nanCode, flNV)
    else
      let r := sumF fp32 .rne (a :: ms.filterMap id)
      (BitVec.ofNat 32 r.1, r.2)
/-- A signed byte. -/
def sbyte (x : Nat) : Int := if x < 128 then x else (x : Int) - 256
/-- StepAccumulate for INT8 (R143). -/
def stepI (acc : Word) (ps : List (Nat × Nat)) : Word :=
  BitVec.ofInt 32 (acc.toInt + (ps.map fun p => sbyte p.1 * sbyte p.2).foldl (· + ·) 0)

end Sys2Proof.Machine
end

