-- ==== Sys2Proof/Machine/Operands.lean ====
section
/-! DEFINITION. Operand forms: vector names and their checks (02 R32, 04 R65, 06 R109), the frame of VEC words (19 R371),
lane addresses of MEM words (08 R147). -/
set_option Elab.async false
namespace Sys2Proof.Machine

/-! Vector names. -/

/-- Whether the IX field adds %ix to va, to vd (R31). -/
def ixVa : Ix → Bool
  | .va => true
  | .both => true
  | _ => false
def ixVd : Ix → Bool
  | .vd => true
  | .both => true
  | _ => false
/-- A register number, with %ix added if asked (R32). -/
def vname (g : Group) (v : BitVec 6) (ix : Bool) : Int := (v.toNat : Int) + if ix then g.ix.toInt else 0
/-- The names a `vb` operand gives. -/
def vbNames : VB → List Int
  | .reg v => [(v.toNat : Int)]
  | .sc _ => []
/-- REGIDX (R65), then MODE (R109) of the vector registers a word names. -/
def nameCheck (g : Group) (ns : List Int) : Option Cause :=
  if ns.any fun j => decide (j < 0 ∨ (window g : Int) ≤ j) then some .regidx
  else if g.matrix && ns.any fun j => decide (32 ≤ j) then some .mode
  else none
/-- A lane of a register whose name has been checked. -/
def getN (g : Group) (j : Int) (l : Nat) : Word := getV g j.toNat l
/-- The `vb` operand in a lane: a register, or a scalar broadcast (R371). -/
def getVB (g : Group) (b : VB) (l : Nat) : Word :=
  match b with
  | .reg v => getV g v.toNat l
  | .sc r => getS g r.toNat

/-! The vector frame (R371). -/

/-- The lanes of E: the fragment's lanes that the prefix mask enables. -/
def execLanes (g : Group) (f : Frag) (p : Option Pfx) : Mask :=
  match p with
  | some q => f.lanes &&& getM g q.mask.toNat
  | none => f.lanes
/-- Whether lanes of F outside E are zeroed. -/
def zeroing : Option Pfx → Bool
  | some q => q.z
  | none => false
/-- RoundingMode() (R128). -/
def fpmMode (v : BitVec 2) : RMode :=
  match v.toNat with
  | 0 => .rne
  | 1 => .rz
  | 2 => .rdn
  | _ => .rup
def roundingMode (g : Group) (p : Option Pfx) : RMode :=
  match p.bind (·.rnd) with
  | some m => m
  | none => fpmMode g.fpm
/-- Write a list of lanes of vd. -/
def setLanes (d : Nat) : List (Nat × Word) → Group → Group
  | [], g => g
  | (l, v) :: r, g => setLanes d r (setV g d l v)
/-- The lanes of F outside E that Z zeroes. -/
def zeroLanes (g : Group) (f : Frag) (p : Option Pfx) : List Nat :=
  if zeroing p then lanesOf (f.lanes &&& ~~~execLanes g f p) else []
/-- The frame: every lane of E from the sources before the word, the zeroed lanes, the flags of the lanes of E (R132). -/
def frame (f : Frag) (p : Option Pfx) (d : Int) (op : Nat → Word × BitVec 5) (g : Group) : Group :=
  let rs := (lanesOf (execLanes g f p)).map fun l => (l, op l)
  let g1 := setLanes d.toNat (rs.map fun r => (r.1, r.2.1)) g
  let g2 := setLanes d.toNat ((zeroLanes g f p).map fun l => (l, 0)) g1
  { g2 with fx := rs.foldl (fun x r => x ||| r.2.2) g.fx }
/-- A VEC word: its names are checked, then it changes its group (R372). -/
def vecWord (i : Instr) (s : State) (names : Group → List Int) (k : Frag → Group → Group) :
    Host.Outcome State Fault Refusal :=
  word i s fun c =>
    match nameCheck c.g (names c.g) with
    | some t => .trap s t 0
    | none => onGroup s c (k c.f)

/-! Elements of a lane (R45, R124). -/

/-- The format of a floating-point type. -/
def typeFmt : VT → Option Fmt
  | .f32 => some fp32
  | .f16x2 => some fp16
  | .bf16x2 => some bf16
  | _ => none
/-- Two elements to a lane. -/
def packed : VT → Bool
  | .f16x2 => true
  | .bf16x2 => true
  | .i16x2 => true
  | .n16x2 => true
  | _ => false
def elemWidth (t : VT) : Nat := if packed t then 16 else 32
/-- Compared and multiplied as signed. -/
def signedType : VT → Bool
  | .i32 => true
  | .i16x2 => true
  | _ => false
/-- The elements of a lane, and a lane from its elements. -/
def splitLane (t : VT) (w : Word) : List Nat := if packed t then [w.toNat % 2 ^ 16, w.toNat / 2 ^ 16] else [w.toNat]
def joinLane (t : VT) (es : List Nat) : Word :=
  match packed t, es with
  | true, [a, b] => BitVec.ofNat 32 (a % 2 ^ 16 + b % 2 ^ 16 * 2 ^ 16)
  | _, a :: _ => BitVec.ofNat 32 a
  | _, [] => 0
/-- An element as an integer of its type. -/
def elemInt (t : VT) (x : Nat) : Int :=
  let k := elemWidth t
  if signedType t && decide (2 ^ (k - 1) ≤ x) then (x : Int) - 2 ^ k else x
/-- An integer modulo 2^k as an element. -/
def wrapElem (t : VT) (v : Int) : Nat := (v % 2 ^ elemWidth t).toNat
/-- Apply an operation of two, of three elements to a lane; flags are ORed (R124). -/
def lane2 (t : VT) (k : Nat → Nat → Nat × BitVec 5) (a b : Word) : Word × BitVec 5 :=
  let rs := (splitLane t a).zipWith k (splitLane t b)
  (joinLane t (rs.map (·.1)), rs.foldl (fun x r => x ||| r.2) 0)
def lane1 (t : VT) (k : Nat → Nat × BitVec 5) (a : Word) : Word × BitVec 5 :=
  let rs := (splitLane t a).map k
  (joinLane t (rs.map (·.1)), rs.foldl (fun x r => x ||| r.2) 0)
def lane3 (t : VT) (k : Nat → Nat → Nat → Nat × BitVec 5) (a b c : Word) : Word × BitVec 5 :=
  let rs := ((splitLane t a).zip (splitLane t b)).zipWith (fun p z => k p.1 p.2 z) (splitLane t c)
  (joinLane t (rs.map (·.1)), rs.foldl (fun x r => x ||| r.2) 0)

/-! Subgroups (R45, R98). -/

def subWidth : SubW → Nat
  | .w32 => 32
  | .w16 => 16
  | .w8 => 8
  | .w4 => 4
/-- First lane of a lane's subgroup, and the subgroup's lanes. -/
def subBase (w l : Nat) : Nat := l - l % w
def subLanes (w l : Nat) : List Nat := (List.range w).map fun i => subBase w l + i

/-! Lane addresses of MEM words (R147, Table 8-2). -/

/-- Base of wrap pair n, its length (R62). -/
def wrapBase (g : Group) (n : Nat) : Nat := (getS g (496 + 2 * n)).toNat
def wrapLen (g : Group) (n : Nat) : Nat := (getS g (497 + 2 * n)).toNat
/-- The address of lane l for an access of w bytes, modulo 2^32. -/
def laneAddr (g : Group) (m : AM) (b : BitVec 9) (w l : Nat) : Nat :=
  let o := (getS g b.toNat).toNat
  match m with
  | .imm i => (o + i.toNat * w + l * w) % 2 ^ 32
  | .vec v => (o + (getV g v.toNat l).toNat) % 2 ^ 32
  | .ix => (((o : Int) + g.ix.toInt * w + l * w) % 2 ^ 32).toNat
  | .wrap n _ => (wrapBase g n.toNat + (o + l * w) % wrapLen g n.toNat) % 2 ^ 32
/-- The conditions of a wrap pair for width w (R147). -/
def wrapOk (g : Group) (m : AM) (w : Nat) : Bool :=
  match m with
  | .wrap n _ => wrapLen g n.toNat != 0 && wrapLen g n.toNat % 16 == 0 && wrapBase g n.toNat % w == 0
  | _ => true
/-- The post-increment of sbase. Here and in a lane's address the sum before mod L is exact; R147's wrap at 2^32 is read as that of the
whole address (DESIGN CHOICE, log 116). -/
def wrapStep (m : AM) (b : BitVec 9) (g : Group) : Group :=
  match m with
  | .wrap n i => setS g b.toNat (BitVec.ofNat 32 (((getS g b.toNat).toNat + 16 * 2 ^ i.toNat) % wrapLen g n.toNat))
  | _ => g
/-- Registers a vector access of a width names, from vd (R148, R109). -/
def widthRegs : MemW → Nat
  | .b64 => 2
  | .b128 => 4
  | _ => 1
def accessNames (w : MemW) (d : BitVec 6) (m : AM) : List Int :=
  ((List.range (widthRegs w)).map fun i => ((d.toNat + i : Nat) : Int)) ++
    match m with
    | .vec v => [(v.toNat : Int)]
    | _ => []

end Sys2Proof.Machine
end

