-- ==== Sys2Proof/Machine/Flags.lean ====
section
/-! DEFINITION. Flags: the check of a delivery point (05 R103, R104) and the flags of arithmetic on elements (07 R132). -/
set_option Elab.async false
namespace Sys2Proof.Machine

/-- What a delivery point finds: a pending sequencer fault of the team in its group 0, or an enabled flag (R103, R104). -/
inductive Due
  | nothing
  | seq (x : SeqFault)
  | fpx
  deriving DecidableEq, Repr

/-- The pending sequencer fault, for a group that is group 0 of its team. -/
def pendingSeq (s : State) (g : Group) : Option SeqFault := if g.idx = 0 then (teamOf s g).fault else none
/-- The check of a delivery point: a sequencer fault first, then FPX. -/
def dueAt (s : State) (g : Group) : Due :=
  match pendingSeq s g with
  | some x => .seq x
  | none => if g.fx &&& g.fxen != 0 then .fpx else .nothing
/-- The pending fault is delivered: it is no longer pending (R104). -/
def clearFault (s : State) (g : Group) : State := modTeam s g.team fun t => { t with fault := none }

/-- The counters a leading `phrel` of a scope waits for, and a `phacq` (10 R194). -/
def relPaths : Scope → List Path
  | .grp => []
  | .team => [.ld, .st]
  | _ => [.ld, .st, .cpy, .gth]
def acqPaths : Scope → List Path
  | .grp => []
  | _ => [.ld]
/-- Counters that are not zero yet. -/
def pendingPaths (g : Group) (ps : List Path) : Bool := ps.any fun p => counter g p != 0
/-- A word that is a delivery point: it waits for its counters, then makes the check of R103 and R104, then acts. The waits
hold back later words of the group for `hold` and `point` (R194); a sequencer fault that finds it waiting takes it there. -/
def deliveryPoint (s : State) (c : Ctx) (ps : List Path) (kind : DrainKind) (k : Eff) : Eff :=
  if pendingPaths c.g ps then .wait s (.drain ps kind)
  else
    match dueAt s c.g with
    | .seq x => .seqFault (clearFault s c.g) x
    | .fpx => .trap s .fpx 0
    | .nothing => k

end Sys2Proof.Machine
end

