-- ==== Sys2Proof/Machine/Replay.lean ====
section
/-! DEFINITION. Recording and replay (15 R283 to R286): log chunks, bank gates, store digests and their events. -/
set_option Elab.async false
namespace Sys2Proof.Machine

/-! Chunks (Table 15-7). -/

/-- The 512 words of a chunk of a stream. -/
def chunkWords (x : LogStream) : List Word :=
  [BitVec.ofNat 32 (x.cseq % 2 ^ 16), BitVec.ofNat 32 (x.kind + x.core * 2 ^ 2 + x.bank * 2 ^ 8)] ++ x.entries ++
    List.replicate (510 - x.entries.length) 0
/-- The commands of one recording share its area: what is used of it is the same for all (log 26). -/
def shareUsed (base used : Nat) (s : State) : State :=
  { s with
    cmds := s.cmds.map fun c => (c.1, { c.2 with recd := c.2.recd.map fun r => if r.base = base then { r with used := used } else r })
    queues := s.queues.map fun q => (q.1, { q.2 with log := q.2.log.map fun a =>
      if a.base = base ∧ a.replay = false then { a with used := used } else a }) }
/-- Write a chunk into the log area, whose owner C6 keeps; a full area ends the recording (R283). -/
def writeChunk (r : Recording) (x : LogStream) (s : State) : Recording × State :=
  if r.incomplete then (r, s)
  else if r.bytes < r.used + 2048 then ({ r with incomplete := true }, report s [BitVec.ofNat 32 r.base, BitVec.ofNat 32 (r.base / 2 ^ 32)])
  else
    let s1 := writeBytes s (fun i => .hbm (r.base + r.used + i)) (bytesOfWords (chunkWords x))
    ({ r with used := r.used + 2048 },
      shareUsed r.base (r.used + 2048) { s1 with logOwners := kvPut s1.logOwners (r.base + r.used) (chunkWords x, r.nth) })
/-- The stream's chunk is written, and the next one begun. -/
def emitChunk (x : LogStream) (r : Recording) (s : State) : LogStream × Recording × State :=
  let (r1, s1) := writeChunk r x s
  ({ x with cseq := x.cseq + 1, entries := [] }, r1, s1)
/-- Add an entry to a stream. Its chunk is written when it is full; a bank's last entry is open until an access of another group
begins the next one, so its chunk is full only then. -/
def addEntry (ws : List Word) (x : LogStream) (r : Recording) (s : State) : LogStream × Recording × State :=
  let (x1, r1, s1) := if 510 < x.entries.length + ws.length then emitChunk x r s else (x, r, s)
  let x2 := { x1 with entries := x1.entries ++ ws }
  if 2 ≤ x.kind ∧ 510 < x2.entries.length + ws.length then emitChunk x2 r1 s1 else (x2, r1, s1)
/-- An access by a group joins the bank's last entry, or starts one (R284). -/
def addRun (gid : Nat) (x : LogStream) (r : Recording) (s : State) : LogStream × Recording × State :=
  match x.entries.getLast? with
  | some e =>
    if e.toNat / 2 ^ 20 = gid ∧ e.toNat % 2 ^ 20 < 2 ^ 20 - 1 then 
      let x1 := { x with entries := x.entries.dropLast ++ [e + 1] }
      if e.toNat % 2 ^ 20 = 2 ^ 20 - 2 ∧ x.entries.length = 510 then emitChunk x1 r s else (x1, r, s)
    else addEntry [BitVec.ofNat 32 (gid * 2 ^ 20 + 1)] x r s
  | none => addEntry [BitVec.ofNat 32 (gid * 2 ^ 20 + 1)] x r s
/-- Change one stream of a command's recording. -/
def onStream (s : State) (cmd kind core bank : Nat)
    (k : LogStream → Recording → State → LogStream × Recording × State) : State :=
  match (kvFind s.cmds cmd).bind (·.recd) with
  | none => s
  | some r =>
    let is (x : LogStream) : Bool := x.kind == kind && x.core == core && x.bank == bank
    let x := (r.streams.find? is).getD { kind := kind, core := core, bank := bank, cseq := 0, entries := [] }
    let (x1, r1, s1) := k x r s
    let rest := if r.streams.any is then r1.streams.map fun y => if is y then x1 else y else r1.streams ++ [x1]
    modCmd s1 cmd fun c => { c with recd := some { r1 with streams := rest } }
/-- The partial chunks are written before the completion record (R283). -/
def flushStreams : List LogStream → Recording → State → Recording × State
  | [], r, s => (r, s)
  | x :: t, r, s =>
    let (r1, s1) := if x.entries.isEmpty then (r, s) else writeChunk r x s
    flushStreams t r1 s1
/-- The log is complete. -/
def closeRecording (s : State) (cmd : Nat) : State :=
  match (kvFind s.cmds cmd).bind (·.recd) with
  | none => s
  | some r =>
    let (r1, s1) := flushStreams r.streams r s
    modCmd s1 cmd fun c => { c with recd := some { r1 with streams := [] } }

/-! Banks and their gates (R284, R286). -/

/-- Kind, core and bank of an SH or SP byte (01 R11). -/
def bankOf : Loc → Nat × Nat × Nat
  | .sh c o => (0, c, o / 4 % 64)
  | .sp a => (1, homeOf a, (a - sliceBase (homeOf a)) / 64 % 32)
  | _ => (0, 0, 0)
def bankKey (b : Nat × Nat × Nat) : Nat := (b.1 * 64 + b.2.1) * 64 + b.2.2
/-- The log a command is replayed against; after a divergence it holds nothing back any more (log 26). -/
def replaying (s : State) (cmd : Nat) : Option Replaying :=
  ((kvFind s.cmds cmd).bind (·.repl)).filter fun r => r.diverged.isNone

/-! Reading a log (R283, R284). -/

/-- A chunk as it stands in a log: its address, words 0 and 1, entries. -/
structure Chunk where
  at_ : Nat
  w0 : Word
  w1 : Word
  entries : List Word
  deriving DecidableEq, Repr
/-- The chunks of a log; a stretch of zeros is none, for a bank's entry is not zero. One with a reserved bit set is rejected (00 R4): C6
uses nothing of it; the spec names no status for it (DESIGN CHOICE, log 26). -/
def chunksAt (s : State) (base n : Nat) : List Chunk :=
  ((List.range (n / 2048)).map fun i =>
    let ws := wordsOf (readBytes s (fun j => .hbm (base + 2048 * i + j)) 2048)
    ({ at_ := base + 2048 * i, w0 := ws.getD 0 0, w1 := ws.getD 1 0, entries := ws.drop 2 } : Chunk)).filter fun c =>
      (c.w1 != 0 || c.entries.any (· != 0)) && decide (c.w0.toNat < 2 ^ 16 ∧ c.w1.toNat < 2 ^ 14)
/-- No entry fits into it any more. -/
def Chunk.full (c : Chunk) : Bool := c.entries.getD 508 0 != 0 || c.entries.getD 509 0 != 0
/-- A chunk begins another command's part: chunk 0 of a stream that the part before has already, or a full chunk 0 after a partial one,
since a command's partial chunks come last (log 26). -/
def beginsPart (part : List Chunk) (c : Chunk) : Bool :=
  c.w0 == 0 && (part.any (fun x => x.w1 == c.w1) || (c.full && part.any fun x => !x.full))
/-- The parts of a log, one for each command, in the order written. -/
def partsOf (cs : List Chunk) : List (List Chunk) :=
  cs.foldl (fun ps c => match ps.getLast? with
    | some p => if beginsPart p c then ps ++ [[c]] else ps.dropLast ++ [p ++ [c]]
    | none => [[c]]) []
/-- Entries without the zeros that fill a chunk. -/
def stripZeros (ws : List Word) : List Word := (ws.reverse.dropWhile fun w => w == 0).reverse
/-- A stream of a part: its kind, core and bank. -/
def streamOf (cs : List Chunk) (kind core bank : Nat) : List Word :=
  stripZeros ((cs.filter fun c => c.w1.toNat == kind + core * 2 ^ 2 + bank * 2 ^ 8).flatMap (·.entries))
/-- Pairs of words. -/
def pairsOf : List Word → List (Word × Word)
  | a :: b :: r => (a, b) :: pairsOf r
  | [a] => if a = 0 then [] else [(a, 0)]
  | [] => []
/-- Whose a chunk is, as C6 knows it: it stands as it was written. -/
def ownerOf (s : State) (c : Chunk) : Option Nat :=
  ((kvFind s.logOwners c.at_).filter fun e => e.1 == c.w0 :: c.w1 :: c.entries).map (·.2)
/-- The chunks of the n-th command of a log: those C6 wrote for it; of a log of which C6 knows none, its n-th part (log 26). -/
def chunksOf (s : State) (a : LogArea) (n : Nat) : List Chunk :=
  let cs := chunksAt s a.base a.bytes
  if cs.any fun c => (ownerOf s c).isSome then cs.filter fun c => ownerOf s c == some n else (partsOf cs).getD n []
/-- The log of the n-th command. An entry of zeros cannot be told from the filling of its chunk, so it is taken to stand at the end of its
stream (log 26). -/
def loadLog (s : State) (a : LogArea) (n : Nat) : Replaying :=
  let cs := chunksOf s a n
  let keys := (cs.filter fun c => decide (c.w1.toNat % 4 < 2)).map fun c => (c.w1.toNat % 4, bitsOf c.w1.toNat 2 6, bitsOf c.w1.toNat 8 6)
  { banks := keys.foldl (fun m k => kvPut m (bankKey k) (streamOf cs k.1 k.2.1 k.2.2)) []
    places := streamOf cs 3 0 0 ++ [0]
    digests := ((List.range 64).flatMap fun c => pairsOf (streamOf cs 2 c 0)) ++ [(0, 0)]
    gates := [], diverged := none }

/-! Gates. -/

/-- Whether a replayed command's gate lets an access of a group pass; where the bank's log has no entry left, none. -/
def gateAdmits (s : State) (cmd gid : Nat) (l : Loc) : Bool :=
  match replaying s cmd with
  | none => true
  | some r =>
    match kvGet [] r.banks (bankKey (bankOf l)) with
    | e :: _ => e.toNat / 2 ^ 20 == gid
    | [] => false
/-- A logged access is performed: it is recorded, or it uses up the log. -/
def logAccess (s : State) (cmd gid : Nat) (l : Loc) : State :=
  let b := bankOf l
  let s1 := onStream s cmd b.1 b.2.1 b.2.2 (addRun gid)
  match replaying s1 cmd with
  | none => s1
  | some r =>
    modCmd s1 cmd fun c => { c with repl := some { r with
      banks := kvPut r.banks (bankKey b) (match kvGet [] r.banks (bankKey b) with
        | e :: t => if e.toNat % 2 ^ 20 ≤ 1 then t else (e - 1) :: t
        | [] => []) } }

/-! Store digests (R285). -/

def digestStep (h : Word) (x : Word × Word) : Word := (h.rotateLeft 5) ^^^ x.2 ^^^ x.1
/-- Count what is in order. -/
def digestFlush : List (Option Nat × List (Word × Word)) → Word → Word × List (Option Nat × List (Word × Word))
  | (none, ws) :: t, h => digestFlush t (ws.foldl digestStep h)
  | l, h => (h, l)
def settleDigest (g : Group) : Group :=
  let (h, q) := digestFlush g.digq g.digest
  { g with digest := h, digq := q }
/-- The group's command is recorded or replayed. -/
def digested (s : State) (g : Group) : Bool := (cmdOf s g).recd.isSome || (cmdOf s g).repl.isSome
/-- Words that atomics in flight have still to give the digest, in their place before later ones: the event of an `exit` waits for them
(log 26). -/
def digestOpen (s : State) (g : Group) : Bool := digested s g && !g.digq.isEmpty
/-- Words written by a store: address and word, in order. -/
def digestStore (s : State) (gid : Nat) (ws : List (Word × Word)) : State :=
  modGroup s gid fun g => if digested s g then settleDigest { g with digq := g.digq ++ [(none, ws)] } else g
/-- An atomic takes its place, and gives its words when it is performed. -/
def digestHold (s : State) (gid id : Nat) : State :=
  modGroup s gid fun g => if digested s g then { g with digq := g.digq ++ [(some id, [])] } else g
def digestFill (s : State) (gid id : Nat) (ws : List (Word × Word)) : State :=
  modGroup s gid fun g => settleDigest { g with digq := g.digq.map fun e => if e.1 = some id then (none, ws) else e }
/-- The address of a word in the digest. -/
def digestAddr (sp : Bool) (a : Nat) : Word := if sp then BitVec.ofNat 32 a else 0x80000000 ||| BitVec.ofNat 32 a

/-! Events (R285, R286). -/

/-- Numbers of the events of `gbar`, `seal` and `exit` among those of the sixteen barriers. -/
def evGbar : Nat := 16
def evSeal : Nat := 17
def evExit : Nat := 18
/-- The first word of an event's entry. -/
def eventWord (gid n ord : Nat) : Word :=
  BitVec.ofNat 32 (gid * 2 ^ 20 + (if n < 16 then n else 0) * 2 ^ 16 + (if n = evExit then 2 ^ 15 else 0) + ord % 2 ^ 15)
/-- The logged digest of a group's event. -/
def loggedDigest (r : Replaying) (gid ord : Nat) : Option Word :=
  (r.digests.find? fun e => e.1.toNat / 2 ^ 20 == gid && e.1.toNat % 2 ^ 15 == ord % 2 ^ 15).map (·.2)
/-- The entry is used up: a later group of the slot has its own. -/
def useDigest (gid ord : Nat) : List (Word × Word) → List (Word × Word)
  | [] => []
  | e :: t => if e.1.toNat / 2 ^ 20 = gid ∧ e.1.toNat % 2 ^ 15 = ord % 2 ^ 15 then t else e :: useDigest gid ord t
/-- A replayed command diverges: its clusters freeze, and C6 reports the group, the event's ordinal, the expected and the found
value (R286). -/
def diverge (s : State) (cmd gid ord : Nat) (want found : Word) : State :=
  let s0 := report s [BitVec.ofNat 32 gid, BitVec.ofNat 32 ord, want, found]
  let s1 := modCmd s0 cmd fun c => { c with repl := c.repl.map fun r => { r with diverged := some (gid, ord, want, found) } }
  (s1.clusters.filter fun c => ((kvFind s1.tasks c.2.task).getD noTask).cmd = cmd).foldl (fun x c => freezeCluster x c.1 0) s1
/-- Lanes of a fragment arrive at event n of their group: the event is recorded or checked when no live lane is missing.
False where a replay diverges there. -/
def eventAt (s : State) (gid n : Nat) (lanes : Mask) : Bool × State :=
  match kvFind s.groups gid with
  | none => (true, s)
  | some g =>
    if digested s g = false then (true, s)
    else
      let here := kvGet 0 g.arrived n ||| lanes
      if liveOf g &&& ~~~here ≠ 0 then
        (true, modGroup s gid fun g => { g with arrived := kvSet 0 g.arrived n here })
      else
        let k := taskOf s g
        let bad : Option Word := match replaying s k.cmd with
          | none => none
          | some r =>
            match loggedDigest r gid g.evOrd with
            | some h => if h = g.digest then none else some h
            | none => some 0
        match bad with
        | some want => (false, diverge s k.cmd gid g.evOrd want g.digest)
        | none =>
          let s0 := modCmd s k.cmd fun c => { c with repl := c.repl.map fun r => { r with digests := useDigest gid g.evOrd r.digests } }
          let s1 := modGroup s0 gid fun g => { g with arrived := kvSet 0 g.arrived n 0, evOrd := g.evOrd + 1 }
          (true, onStream s1 k.cmd 2 (coreOfGid gid) 0 (addEntry [eventWord gid n g.evOrd, g.digest]))
/-- The instruction of an event: its effect in the state with the event recorded, or its fragment stands. -/
def withEvent (s : State) (c : Ctx) (n : Nat) (k : State → Eff) : Eff :=
  match eventAt s c.gid n c.f.lanes with
  | (true, s1) => k s1
  | (false, s1) => .stand s1

end Sys2Proof.Machine
end

