-- ==== Sys2Proof/Machine/MemI.lean ====
section
/-! DEFINITION. The MEM words (03 R54, R55): vector and scalar loads and stores, atomics, acquire loads, release stores; and
the watchpoints of direct accesses (15 R272). -/
set_option Elab.async false
namespace Sys2Proof.Machine

/-! Watchpoints. -/

/-- Debugging of a space. -/
def debugOf (s : State) (sid : Nat) : Debug := kvGet { enabled := false, watch := [], hist := [], tagRec := none } s.debug sid
/-- A watchpoint touches one of the ranges of a space (first address and bytes), with a kind it watches; with LEN 0 it is off
(Table 15-2). -/
def watchTouches (w : Watch) (code : Nat) (kinds : List AKind) (rs : List (Nat × Nat)) : Bool :=
  decide (w.len ≠ 0 ∧ codeOf w.base.toNat = code) && ((w.rd && kinds.contains .read) || (w.wr && kinds.contains .write)) &&
    rs.any fun r => decide (r.1 < vaOf w.base.toNat + w.len ∧ vaOf w.base.toNat < r.1 + r.2)
/-- The watchpoints an access of a space hits. -/
def watchHits (s : State) (sid code : Nat) (kinds : List AKind) (rs : List (Nat × Nat)) : List Nat :=
  let d := debugOf s sid
  if d.enabled then (d.watch.filter fun w => watchTouches w.2 code kinds rs).map (·.1) else []
/-- A direct access past its checks: it acts, or it hits a watchpoint, the cluster freezes and the fragment stands (R272). -/
def watched (s : State) (c : Ctx) (dsp : DSpace) (kinds : List AKind) (n : Nat) (as : List Nat) (k : Eff) : Eff :=
  let hits := (watchHits s (sidOf s c.g) (if dsp = .sp then 1 else 2) kinds (as.map fun a => (a, n))).filter fun w =>
    !c.f.passed.contains w
  if hits.isEmpty then k
  else
    let s1 := modGroup s c.gid fun g => modFrag g c.fid fun f => { f with passed := f.passed ++ hits }
    .stand (report (freezeCluster s1 (teamOf s c.g).cluster c.gid) [BitVec.ofNat 32 c.gid, BitVec.ofNat 32 (hits.headD 0)])
/-- A direct access: the counter it raises has room, its checks pass, no watchpoint stops it (R146, R151). -/
def direct (s : State) (c : Ctx) (path : Path) (dsp : DSpace) (kinds : List AKind) (al n : Nat) (as : List Nat) (k : Eff) : Eff :=
  if 63 ≤ counter c.g path then .wait s (.counterFull path)
  else
    match directCheck s c.g dsp kinds al n as with
    | some t => .trap s t 0
    | none => watched s c dsp kinds n as k
/-- The same with the conditions of a wrap pair, checked with BOUNDS (R147). With L = 0 the lanes have no address for the ALIGN check before
it; B + o + l·w is taken, what is left of it mod 0 (DESIGN CHOICE, log 115). -/
def directWrap (s : State) (c : Ctx) (path : Path) (dsp : DSpace) (kinds : List AKind) (n : Nat) (as : List Nat) (ok : Bool)
    (k : Eff) : Eff :=
  if 63 ≤ counter c.g path then .wait s (.counterFull path)
  else if ok = false ∧ directCheck s c.g dsp kinds n n as ≠ some .align then .trap s .bounds 0
  else direct s c path dsp kinds n n as k

/-! Vector loads and stores (R335 to R337). -/

/-- Lanes of the fragment with their addresses. -/
def laneAddrs (c : Ctx) (m : AM) (b : BitVec 9) (w : MemW) : List (Nat × Nat) :=
  (lanesOf c.f.lanes).map fun l => (l, laneAddr c.g m b (widthBytes w) l)
/-- The bytes a lane stores (R148). -/
def laneBytes (g : Group) (w : MemW) (d l : Nat) : List Byte :=
  match w with
  | .b8 => (bytesOf (getV g d l)).take 1
  | .b16 => (bytesOf (getV g d l)).take 2
  | .b32 => bytesOf (getV g d l)
  | .b64 => (List.range 2).flatMap fun i => bytesOf (getV g (d + i) l)
  | .b128 => (List.range 4).flatMap fun i => bytesOf (getV g (d + i) l)
/-- Bytes at consecutive addresses. -/
def placed (a : Nat) (bs : List Byte) : List (Nat × Byte) := bs.zipIdx.map fun x => (a + x.2, x.1)
/-- The words a store counts in the digest: its words, a narrow one zero-extended (15 R285). -/
def digestWords (sp : Bool) (a : Nat) (bs : List Byte) : List (Word × Word) :=
  (wordsOf (bs ++ List.replicate ((4 - bs.length % 4) % 4) 0)).zipIdx.map fun x => (digestAddr sp (a + 4 * x.2), x.1)
/-- The parts of a vector load: a lane's registers come word by word (02 R28). -/
def partWidth : MemW → MemW
  | .b64 => .b32
  | .b128 => .b32
  | w => w
def lanePartsOf (w : MemW) (as : List (Nat × Nat)) : List (Nat × Nat) :=
  as.flatMap fun x => (List.range ((widthBytes w + 3) / 4)).map fun i => (32 * i + x.1, x.2 + 4 * i)
/-- The parts of a scalar load. -/
def scalarPartsOf (w : MemW) (d a : Nat) : List (Nat × Nat) := (List.range ((widthBytes w + 3) / 4)).map fun i => (d + i, a + 4 * i)
/-- A vector load. -/
def loadWord (i : Instr) (dsp : DSpace) (w : MemW) (d : BitVec 6) (b : BitVec 9) (m : AM) (s : State) :
    Host.Outcome State Fault Refusal :=
  word i s fun c =>
    match nameCheck c.g (accessNames w d m) with
    | some t => .trap s t 0
    | none =>
      let as := laneAddrs c m b w
      directWrap s c .ld dsp [.read] (widthBytes w) (as.map (·.2)) (wrapOk c.g m (widthBytes w))
        (.ok (modGroup (launchOp s c.gid .ld (.vload (dsp == .sp) (partWidth w) (c.g.wb + d.toNat) (lanePartsOf w as))).2 c.gid (wrapStep m b)))
/-- A vector store: its bytes are read at issue, lanes in ascending order. -/
def storeWord (i : Instr) (dsp : DSpace) (w : MemW) (d : BitVec 6) (b : BitVec 9) (m : AM) (s : State) :
    Host.Outcome State Fault Refusal :=
  word i s fun c =>
    match nameCheck c.g (accessNames w d m) with
    | some t => .trap s t 0
    | none =>
      let as := laneAddrs c m b w
      let bs := as.map fun a => (a.2, laneBytes c.g w d.toNat a.1)
      let s1 := (launchOp s c.gid .st (.store (dsp == .sp) (bs.flatMap fun x => placed x.1 x.2))).2
      directWrap s c .st dsp [.write] (widthBytes w) (as.map (·.2)) (wrapOk c.g m (widthBytes w))
        (.ok (modGroup (digestStore s1 c.gid (bs.flatMap fun x => digestWords (dsp == .sp) x.1 x.2)) c.gid (wrapStep m b)))
/-- Load from SH. -/
def execLds (w : MemW) (d : BitVec 6) (b : BitVec 9) (m : AM) (s : State) : Host.Outcome State Fault Refusal :=
  loadWord (.lds w d b m) .sh w d b m s
/-- Store to SH. -/
def execSts (w : MemW) (d : BitVec 6) (b : BitVec 9) (m : AM) (s : State) : Host.Outcome State Fault Refusal :=
  storeWord (.sts w d b m) .sh w d b m s
/-- Load from SP. -/
def execLdp (w : MemW) (d : BitVec 6) (b : BitVec 9) (m : AM) (s : State) : Host.Outcome State Fault Refusal :=
  loadWord (.ldp w d b m) .sp w d b m s
/-- Store to SP. -/
def execStp (w : MemW) (d : BitVec 6) (b : BitVec 9) (m : AM) (s : State) : Host.Outcome State Fault Refusal :=
  storeWord (.stp w d b m) .sp w d b m s

/-! Scalar loads and stores (R363). -/

/-- The address (s(sB) + imm5 · w) mod 2^32. -/
def scalarAddr (g : Group) (b : BitVec 9) (i : BitVec 5) (w : Nat) : Nat := ((getS g b.toNat).toNat + i.toNat * w) % 2 ^ 32
/-- The space of an SP flag. -/
def spaceOf (sp : Bool) : DSpace := if sp then .sp else .sh
/-- Load a scalar. -/
def execSld (sp : Bool) (w : MemW) (d b : BitVec 9) (i : BitVec 5) (s : State) : Host.Outcome State Fault Refusal :=
  word (.sld sp w d b i) s fun c =>
    let a := scalarAddr c.g b i (widthBytes w)
    direct s c .ld (spaceOf sp) [.read] (widthBytes w) (widthBytes w) [a]
      (.ok (launchOp s c.gid .ld (.sload sp (partWidth w) (scalarPartsOf w d.toNat a))).2)
/-- The bytes of a scalar store. -/
def scalarBytes (g : Group) (w : MemW) (d : Nat) : List Byte :=
  (bytesOf (getS g d) ++ bytesOf (getS g (d + 1))).take (widthBytes w)
/-- Store a scalar. -/
def execSst (sp : Bool) (w : MemW) (d b : BitVec 9) (i : BitVec 5) (s : State) : Host.Outcome State Fault Refusal :=
  word (.sst sp w d b i) s fun c =>
    let a := scalarAddr c.g b i (widthBytes w)
    let bs := scalarBytes c.g w d.toNat
    direct s c .st (spaceOf sp) [.write] (widthBytes w) (widthBytes w) [a]
      (.ok (digestStore (launchOp s c.gid .st (.store sp (placed a bs))).2 c.gid (digestWords sp a bs)))

/-! Atomics, acquire loads, release stores (R306 to R309, R195, R333). -/

/-- Space and scope of an SS code (Table 3-1). -/
def ssSp : SS → Bool
  | .shGrp => false
  | .shTeam => false
  | _ => true
def ssScope : SS → Scope
  | .shGrp => .grp
  | .shTeam => .team
  | .spGrp => .grp
  | .spTeam => .team
  | .spClus => .clus
  | .spDev => .dev
  | .spSys => .sys
/-- The release that leads an atomic or a `strel`: it waits for the scope's counters, then publishes (R194). -/
def leading (s : State) (c : Ctx) (sc : Scope) (k : State → Eff) : Eff :=
  if pendingPaths c.g (relPaths sc) then .wait s (.drain (relPaths sc) .hold) else k (publishScope s c.g c.gid sc)
/-- Later MEM, ASY and SYS words wait for this operation's result, and an acquire follows it. -/
def holdGate (s : State) (gid id : Nat) (sc : Scope) : State :=
  if sc = .grp then s else modGroup s gid fun g => { g with gate := some (id, sc) }
/-- An atomic of one or more lanes: lane, address, operand, compare value. -/
def atomicEff (s : State) (c : Ctx) (op : AtomOp) (ss : SS) (ret vec : Bool) (d : Nat)
    (lanes : List (Nat × Nat × Word × Word)) : Eff :=
  let path : Path := if ret then .ld else .st
  direct s c path (spaceOf (ssSp ss)) [.read, .write] 4 4 (lanes.map (·.2.1))
    (leading s c (ssScope ss) fun s1 =>
      let (id, s2) := launchOp s1 c.gid path (.atomic op ss ret vec d lanes [] [] 0)
      let s3 := digestHold s2 c.gid id
      .ok (if ret then holdGate s3 c.gid id (ssScope ss) else s3))
/-- Atomic per lane. -/
def execAtom (op : AtomOp) (ss : SS) (ret : Bool) (d : BitVec 6) (b : BitVec 9) (s : State) : Host.Outcome State Fault Refusal :=
  word (.atom op ss ret d b) s fun c =>
    match nameCheck c.g ((List.range (if op = .cas then 3 else 2)).map fun i => ((d.toNat + i : Nat) : Int)) with
    | some t => .trap s t 0
    | none =>
      atomicEff s c op ss ret true (c.g.wb + d.toNat + 1) ((lanesOf c.f.lanes).map fun l =>
        (l, ((getS c.g b.toNat).toNat + (getV c.g d.toNat l).toNat) % 2 ^ 32, getV c.g (d.toNat + 1) l, getV c.g (d.toNat + 2) l))
/-- Atomic of the fragment. -/
def execAtoms (op : AtomOp) (ss : SS) (ret : Bool) (d b : BitVec 9) (s : State) : Host.Outcome State Fault Refusal :=
  word (.atoms op ss ret d b) s fun c =>
    atomicEff s c op ss ret false d.toNat [(0, (getS c.g b.toNat).toNat, getS c.g d.toNat, getS c.g (d.toNat + 1))]
/-- Acquire load. -/
def execLdacq (ss : SS) (d b : BitVec 9) (i : BitVec 5) (s : State) : Host.Outcome State Fault Refusal :=
  word (.ldacq ss d b i) s fun c =>
    let a := scalarAddr c.g b i 4
    let (id, s1) := launchOp s c.gid .ld (.acq ss d.toNat a)
    direct s c .ld (spaceOf (ssSp ss)) [.read] 4 4 [a] (.ok (holdGate s1 c.gid id (ssScope ss)))
/-- Release store. -/
def execStrel (ss : SS) (d b : BitVec 9) (i : BitVec 5) (s : State) : Host.Outcome State Fault Refusal :=
  word (.strel ss d b i) s fun c =>
    let a := scalarAddr c.g b i 4
    let v := getS c.g d.toNat
    direct s c .st (spaceOf (ssSp ss)) [.write] 4 4 [a]
      (leading s c (ssScope ss) fun s1 =>
        .ok (digestStore (launchOp s1 c.gid .st (.rel ss a v)).2 c.gid (digestWords (ssSp ss) a (bytesOf v))))

end Sys2Proof.Machine
end

