-- ==== Sys2Proof/Machine/Trans.lean ====
section
/-! DEFINITION. Translation (09): entries, lookups, walks, filling, and what a request that misses does. -/
set_option Elab.async false
namespace Sys2Proof.Machine

/-- What translates one 64 KiB page: target, peer, output address of the page, permissions, tag checking. -/
structure Trn where
  tgt : Nat
  peer : Nat
  base : Nat
  r : Bool
  w : Bool
  x : Bool
  tagen : Bool
  deriving DecidableEq, Repr

/-- The byte at an offset of the page (R174). -/
def trLoc (t : Trn) (off : Nat) : Loc :=
  match t.tgt with
  | 0 => .hbm (t.base + off)
  | 1 => .peer t.peer (t.base + off)
  | _ => .host (t.base + off)
/-- The permission an access kind needs (R184). -/
def permits (t : Trn) : AKind → Bool
  | .read => t.r
  | .write => t.w
  | .fetch => t.x

/-- A port that reaches a peer is left (16 R292). -/
def peerUp (s : State) (p : Nat) : Bool := kvGet 0 s.trust.peers p &&& ~~~s.trust.removed != 0
/-- Whether an access where a translation leads is carried out: at a peer only while a port to it is left and its access table
admits it; a refusal is a permission failure found after issue (R174, 16 R292; log 20). -/
inductive Reach | yes | refused | down
  deriving DecidableEq, Repr
def reaches (s : State) (t : Trn) : Reach :=
  if t.tgt = 1 then (if peerUp s t.peer then (if Config.peerAdmits s.tick then .yes else .refused) else .down) else .yes

/-! Page-table entries (R171 to R173). -/

def pteV (e : Nat) : Bool := bitsOf e 0 1 == 1
def pteLeaf (e : Nat) : Bool := bitsOf e 1 1 == 1
def pteAddr (e : Nat) : Nat := bitsOf e 16 36 * 2 ^ 16
/-- 64 KiB pages an entry of a level covers (Table 9-1). -/
def levelPages : Nat → Nat
  | 1 => 1
  | 2 => 2 ^ 13
  | 3 => 2 ^ 26
  | _ => 2 ^ 39
/-- A valid entry is malformed (R173). A leaf of another target than a peer whose PEER is not zero is one too: Table 9-2 wants it
zero, and R173's list does not name it (DEDUCED, log 87). -/
def pteMalformed (level e : Nat) : Bool :=
  if level = 4 then bitsOf e 1 15 != 0 || bitsOf e 52 12 != 0 || decide (Config.hbmEnd ≤ pteAddr e)
  else
    bitsOf e 13 3 != 0 || bitsOf e 52 12 != 0 ||
    (if pteLeaf e then
      bitsOf e 5 2 == 3 || (bitsOf e 5 2 != 1 && bitsOf e 7 5 != 0) || pteAddr e / 2 ^ 16 % levelPages level != 0 ||
        (bitsOf e 5 2 == 0 && decide (Config.hbmEnd ≤ pteAddr e))
    else level == 1 || bitsOf e 2 11 != 0 || decide (Config.hbmEnd ≤ pteAddr e))
/-- Where a page leads there is no byte: above the local HBM (R14), or past the 52 address bits of any target. -/
def nowhere (t : Trn) : Bool := (t.tgt == 0 && decide (Config.hbmEnd ≤ t.base)) || decide (2 ^ 52 ≤ t.base)
/-- Such a page grants nothing (DEDUCED, log 99). -/
def bounded (t : Trn) : Trn := if nowhere t then { t with r := false, w := false, x := false, tagen := false } else t
/-- The translation a cached leaf gives for one page. -/
def tlbTrn (t : Tlb) (page : Nat) : Trn :=
  let e := t.pte.toNat
  bounded { tgt := bitsOf e 5 2, peer := bitsOf e 7 5, base := pteAddr e + (page - t.page) * 2 ^ 16, r := bitsOf e 2 1 == 1,
            w := bitsOf e 3 1 == 1, x := bitsOf e 4 1 == 1, tagen := bitsOf e 12 1 == 1 }
/-- The entry of a TLB that holds a page. -/
def findTlb (l : List Tlb) (sid page : Nat) : Option Tlb :=
  l.find? fun t => t.sid == sid && decide (t.page ≤ page ∧ page < t.page + t.pages)

/-! Range entries (R177, Table 9-4). -/

def rangeBase (img : List Word) : Nat := pairNat img 0
def rangeLimit (img : List Word) : Nat := pairNat img 2
def rangeWord6 (img : List Word) : Nat := (img.getD 6 0).toNat
/-- A valid entry whose fields keep Table 9-4. -/
def rangeFormed (img : List Word) : Bool :=
  let w := rangeWord6 img
  rangeBase img % 2 ^ 16 == 0 && decide (rangeBase img < 2 ^ 55) && rangeLimit img % 2 ^ 16 == 0 &&
    decide (rangeLimit img < 2 ^ 55) && decide (rangeBase img < rangeLimit img) && pairNat img 4 % 2 ^ 16 == 0 &&
    decide (pairNat img 4 < 2 ^ 52) && bitsOf w 16 2 != 3 && (bitsOf w 16 2 == 1 || bitsOf w 18 5 == 0) &&
    bitsOf w 24 8 == 0 && img.getD 7 0 == 0
def rangeValid (img : List Word) : Bool := bitsOf (rangeWord6 img) 12 1 == 1
/-- A range entry that matches a page, and its translation. -/
def rangeTrn (img : List Word) (sid page : Nat) : Option Trn :=
  let w := rangeWord6 img
  if rangeValid img && rangeFormed img && bitsOf w 0 12 == sid && decide (rangeBase img ≤ page * 2 ^ 16) &&
      decide (page * 2 ^ 16 < rangeLimit img) then
    some <| bounded { tgt := bitsOf w 16 2, peer := bitsOf w 18 5, base := pairNat img 4 + (page * 2 ^ 16 - rangeBase img),
                      r := bitsOf w 13 1 == 1, w := bitsOf w 14 1 == 1, x := bitsOf w 15 1 == 1, tagen := bitsOf w 23 1 == 1 }
  else none
/-- The lowest-numbered range entry that matches (R176). -/
def rangeHit (d : Die) (sid page : Nat) : Option Trn := d.range.findSome? fun e => rangeTrn e.2 sid page

/-! Lookups and fills (R176). -/

/-- Put an entry in a structure of so many, in place of another where it is full (log 10). -/
def fillList {α : Type} [DecidableEq α] (cap tick : Nat) (x : α) (l : List α) : List α :=
  if l.contains x then l
  else if l.length < cap then l ++ [x]
  else l.eraseIdx (Config.victim tick % cap) ++ [x]
def fillL1 (s : State) (core : Nat) (t : Tlb) : State := modCore s core fun c => { c with l1 := fillList 256 s.tick t c.l1 }
def fillL2 (s : State) (die : Nat) (t : Tlb) : State := modDie s die fun d => { d with l2 := fillList 16384 s.tick t d.l2 }
def fillWalk (s : State) (die : Nat) (w : WalkEnt) : State :=
  modDie s die fun d => { d with walkc := fillList 4096 s.tick w d.walkc }
/-- Look up a page at a core, then its die; the hub has no L1 and uses die 1. An L2 hit fills the core's L1. -/
def lookup (s : State) (core : Option Nat) (die sid page : Nat) : Option Trn × State :=
  match core.bind fun c => findTlb (coreOf s c).l1 sid page with
  | some t => (some (tlbTrn t page), s)
  | none =>
    match rangeHit (dieOf s die) sid page with
    | some t => (some t, s)
    | none =>
      match findTlb (dieOf s die).l2 sid page with
      | some t =>
        (some (tlbTrn t page), match core with
          | some c => fillL1 s c t
          | none => s)
      | none => (none, s)
/-- A lookup of a request: a core's that misses its L1 is an L1 miss (15 Table 15-4). -/
def lookCounted (s : State) (core : Option Nat) (die sid page : Nat) : Option Trn × State :=
  lookup (match core with
    | some c => if (findTlb (coreOf s c).l1 sid page).isSome then s else count s c 8 1
    | none => s) core die sid page
/-- The same without the fill: whether the page hits. -/
def peek (s : State) (core : Option Nat) (die sid page : Nat) : Option Trn := (lookup s core die sid page).1

/-! Walks (R170, R178). -/

/-- How a walk ends: a leaf, an invalid entry at a level, a malformed one. -/
inductive WalkRes
  | leaf (t : Tlb)
  | invalid (level : Nat)
  | malformed
  deriving DecidableEq, Repr
/-- Index of a page in a table of a level (Table 9-1). -/
def levelIndex (level sid page : Nat) : Nat :=
  match level with
  | 4 => sid
  | 3 => page / 2 ^ 26
  | 2 => page / 2 ^ 13 % 2 ^ 13
  | _ => page % 2 ^ 13
def readEntry (s : State) (table i : Nat) : Nat := leNat (readBytes s (fun k => .hbm (table + 8 * i + k)) 8)
/-- Read the tables from a level down; with the result, the non-leaf entries read. -/
def walkFrom (s : State) (sid page : Nat) : Nat → Nat → WalkRes × List WalkEnt
  | 0, _ => (.malformed, [])
  | level + 1, table =>
    let e := readEntry s table (levelIndex (level + 1) sid page)
    let n := levelPages (level + 1)
    if pteV e = false then (.invalid (level + 1), [])
    else if pteMalformed (level + 1) e then (.malformed, [])
    else if level + 1 < 4 ∧ pteLeaf e then
      (.leaf { sid := sid, page := page / n * n, pages := n, pte := BitVec.ofNat 64 e }, [])
    else
      let r := walkFrom s sid page level (pteAddr e)
      (r.1, { sid := sid, level := level + 1, page := page / n * n, pages := n, table := pteAddr e } :: r.2)
/-- The deepest walk-cache entry that covers a page. -/
def deepest (l : List WalkEnt) (sid page : Nat) : Option WalkEnt :=
  (l.filter fun w => w.sid == sid && decide (w.page ≤ page ∧ page < w.page + w.pages)).foldl
    (fun b w => match b with
      | some x => if w.level < x.level then some w else b
      | none => some w) none
def walk (s : State) (die sid page : Nat) : WalkRes × List WalkEnt :=
  match deepest (dieOf s die).walkc sid page with
  | some w => walkFrom s sid page (w.level - 1) w.table
  | none => walkFrom s sid page 4 s.spaceBase

/-! Requests that miss (R178, R179, R182). -/

def kindBit : AKind → BitVec 3
  | .read => 1
  | .write => 2
  | .fetch => 4
/-- Tolerant lanes are reported, not parked. -/
def tolerant (r : Req) : Bool :=
  match r.who with
  | .tol _ => true
  | .left _ => true
  | _ => false
/-- A parked request takes a place in the replay list; where there is none it waits for one (log 10). -/
def parkReq (r : Req) (d : Die) : Die :=
  if tolerant r then d
  else if d.replay.length < 4096 then { d with replay := d.replay ++ [r] }
  else { d with replayFull := true, unplaced := d.unplaced ++ [r] }
/-- The open fault record of a page. -/
def openRec (d : Die) (sid page : Nat) : Option (Nat × FltRec) :=
  d.flt.find? fun e => e.2.sid == sid && e.2.page == page && !e.2.closed
/-- A request joins an outstanding miss: one that a lane tolerates counts in an entry whose walk has faulted, and is not kept there,
since it never parks (R179). -/
def joinMiss (r : Req) (m : Miss) : Miss :=
  { m with reqs := if m.stuck && tolerant r then m.reqs else m.reqs ++ [r], count := m.count + 1, kind := m.kind ||| kindBit r.kind }
/-- The outstanding miss of a page. -/
def missOf (d : Die) (sid page : Nat) : Option Miss := d.miss.find? fun m => m.sid == sid && m.page == page
/-- A request that misses in every structure: it joins an open record, joins a miss, allocates one, or waits at the port; a
tolerant lane that finds no free entry starts no walk. -/
def missReq (r : Req) (d : Die) : Die :=
  match openRec d r.sid r.page with
  | some (i, x) =>
    parkReq r { d with flt := kvPut d.flt i { x with count := min 65535 (x.count + 1), kind := x.kind ||| kindBit r.kind } }
  | none =>
    if (missOf d r.sid r.page).isSome then
      { d with miss := d.miss.map fun m => if m.sid = r.sid ∧ m.page = r.page then joinMiss r m else m }
    else if d.miss.length < 256 then
      let m : Miss := { sid := r.sid, page := r.page, reqs := [r], count := 1, gid := r.gid, eng := r.eng, kind := kindBit r.kind,
                        walking := false, stuck := false }
      { d with miss := d.miss ++ [m] }
    else if tolerant r then d
    else { d with port := d.port ++ [r] }
/-- It parks at once, on an open record or in an entry whose walk has faulted. -/
def parksNow (r : Req) (d : Die) : Bool :=
  !tolerant r && ((openRec d r.sid r.page).isSome || ((missOf d r.sid r.page).map (·.stuck)).getD false)
/-- A record of a tagged word whose operation parks on a fault says so (15 Table 15-5, LEVEL). -/
def sampleParked (s : State) (gid id : Nat) : State :=
  match kvFind (coreOf s (coreOfGid gid)).samp (quadOfGid gid) with
  | some y =>
    if y.fl = some (gid, id) then
      let z := { y with sample := y.sample.map fun ws => ws.set 4 (BitVec.ofNat 32 (7 * 2 ^ 16)) }
      modCore s (coreOfGid gid) fun x => { x with samp := kvPut x.samp (quadOfGid gid) z }
    else s
  | none => s
/-- A request parks on a fault: event counter 9 of its core counts it, and a tagged word's record (15 Tables 15-4, 15-5). -/
def noteParked (s : State) (r : Req) : State :=
  let s1 := if r.eng = 6 then s else count s r.core 9 1
  match r.who with
  | .bulk b _ => (match kvFind s.bulks b with
      | some x => if x.kind = .hub then s1 else sampleParked s1 x.gid x.fl
      | none => s1)
  | .locks g fl => sampleParked s1 g fl
  | _ => s1
def request (s : State) (die : Nat) (r : Req) : State :=
  if parksNow r (dieOf s die) then noteParked (modDie s die (missReq r)) r else modDie s die (missReq r)
/-- Requests of an asker that are outstanding: in the miss handler, at the port or in the replay list. -/
def reqsOf (d : Die) : List Req := d.replay ++ d.unplaced ++ d.port ++ d.miss.flatMap (·.reqs)
/-- A walk for a lane of `gath.tol` goes on for the task when the lane's group has left its slot. -/
def leaveLane (gid tk : Nat) (r : Req) : Req := if r.who = .tol gid then { r with who := .left tk } else r
/-- No request names a group that leaves its slot: a stopped group's fetch is asked for no more. -/
def leaveWalks (s : State) (gid tk : Nat) : State :=
  { s with dies := s.dies.map fun d =>
      let x := dropBy (fun r => r.who == .grp gid) d.2
      (d.1, { x with miss := x.miss.map fun m => { m with reqs := m.reqs.map (leaveLane gid tk) } }) }
def waitsFor (s : State) (die : Nat) (who : Who) : Bool := (reqsOf (dieOf s die)).any fun r => r.who == who
/-- Whether this asker already asks for this page. -/
def asksFor (s : State) (die : Nat) (who : Who) (page : Nat) : Bool :=
  (reqsOf (dieOf s die)).any fun r => r.who == who && r.page == page
/-- Ask once. -/
def requestOnce (s : State) (die : Nat) (r : Req) : State := if asksFor s die r.who r.page then s else request s die r

/-- The pages of [a, a + n). -/
def pagesOf (a n : Nat) : List Nat :=
  if n = 0 then [] else (List.range ((a + n - 1) / 2 ^ 16 - a / 2 ^ 16 + 1)).map fun i => a / 2 ^ 16 + i

/-! Memory tags (15 R280). -/

/-- The lock of the granule of an HBM byte. -/
def lockAt (s : State) (a : Nat) : BitVec 4 := kvGet 0 s.locks (a / 32)
/-- The first granule of [a, a + n) of a page whose lock differs from the key. -/
def tagMiss (s : State) (t : Trn) (key : Nat) (off n : Nat) : Option Nat :=
  if t.tagen ∧ t.tgt = 0 ∧ n ≠ 0 then
    ((List.range ((off + n - 1) / 32 - off / 32 + 1)).map fun i => off / 32 + i).find? fun g =>
      (kvGet 0 s.locks (t.base / 32 + g)).toNat != key
  else none

/-- The part of [a, a + n) in a page: its offset there and its length. -/
def pagePart (a n page : Nat) : Nat × Nat :=
  let lo := max a (page * 2 ^ 16)
  let hi := min (a + n) ((page + 1) * 2 ^ 16)
  (lo - page * 2 ^ 16, hi - lo)

/-! Looking up main-memory ranges at issue (08 R159, R184, R280). -/

/-- A lookup of a core. -/
def translate (s : State) (core sid page : Nat) : Option Trn × State := lookCounted s (some core) (dieOfCore core) sid page
/-- What the lookups of a word's ranges find: the pages that miss, whether a page that hits lacks the permission, the first
granule on a page that hits whose lock differs from the key. -/
structure Look where
  miss : List Nat
  perm : Bool
  tag : Option (Nat × BitVec 4)
  /-- What translates each page that hits, as found. -/
  found : List (Nat × Trn)
  deriving DecidableEq, Repr
def Look.none : Look := { miss := [], perm := false, tag := Option.none, found := [] }
/-- Where a byte of a page found stands. -/
def Look.at (k : Look) (a : Nat) : Option Loc := (k.found.find? fun e => e.1 == a / 2 ^ 16).map fun e => trLoc e.2 (a % 2 ^ 16)
/-- Whether the accesses to the pages found are carried out. -/
def Look.reach (k : Look) (s : State) : Reach := ((k.found.map fun e => reaches s e.2).find? (· != .yes)).getD .yes
/-- Look up the pages of [a, a + n), with the key its bytes carry. -/
def lookPages (core sid : Nat) (kind : AKind) (key a n : Nat) : List Nat → Look × State → Look × State
  | [], r => r
  | p :: ps, (k, s) =>
    match Machine.translate s core sid p with
    | (Option.none, s1) => lookPages core sid kind key a n ps ({ k with miss := if k.miss.contains p then k.miss else k.miss ++ [p] }, s1)
    | (some t, s1) =>
      let part := pagePart a n p
      let bad := (tagMiss s1 t key part.1 part.2).map fun g => (p * 2 ^ 16 + g * 32, kvGet 0 s1.locks (t.base / 32 + g))
      lookPages core sid kind key a n ps
        ({ k with perm := k.perm || !permits t kind, tag := if k.tag.isSome then k.tag else bad, found := k.found ++ [(p, t)] }, s1)
/-- Look up a list of ranges. -/
def lookRanges (core sid : Nat) (kind : AKind) (key : Nat) : List (Nat × Nat) → Look × State → Look × State
  | [], r => r
  | (a, n) :: rs, r => lookRanges core sid kind key rs (lookPages core sid kind key a n (pagesOf a n) r)

/-! The tag fault record (15 R282). -/

/-- A tag history entry: VA, granules, lock, group. -/
def histWords (h : Nat × Nat × BitVec 4 × Nat) : List Word :=
  [BitVec.ofNat 32 h.1, BitVec.ofNat 32 (h.1 / 2 ^ 32 + h.2.2.1.toNat * 2 ^ 28), BitVec.ofNat 32 (h.2.1 + h.2.2.2 * 2 ^ 17)]
/-- TAG is raised: C6 keeps a record for the space until it is read. -/
def tagFault (s : State) (sid gid eng : Nat) (precise : Bool) (va key : Nat) (lock : BitVec 4) : State :=
  let d := kvGet { enabled := false, watch := [], hist := [], tagRec := none } s.debug sid
  let hs := (d.hist.filter fun h => decide (h.1 ≤ va ∧ va < h.1 + 32 * h.2.1)).take 4
  let ws := ([BitVec.ofNat 32 va, BitVec.ofNat 32 (va / 2 ^ 32 + key * 2 ^ 28),
    BitVec.ofNat 32 (lock.toNat + gid * 2 ^ 4 + eng * 2 ^ 16 + (if precise then 2 ^ 19 else 0) + hs.length * 2 ^ 20)] ++
      hs.flatMap histWords ++ List.replicate 13 0).take 16
  match d.tagRec with
  | some _ => s
  | none => { s with debug := kvPut s.debug sid { d with tagRec := some ws } }

end Sys2Proof.Machine
end

