-- ==== Sys2Proof/Machine/Bulk.lean ====
section
/-! DEFINITION. What the bulk words share: descriptors, the ranges they name, their checks, their start in the copy engine
(08 R153 to R166). -/
set_option Elab.async false
namespace Sys2Proof.Machine

/-! Descriptors. -/

/-- The eight words of a descriptor. -/
def descOf (g : Group) (d : Nat) : List Word := (List.range 8).map fun i => getS g (d + i)
/-- The first failing check. -/
def firstFail : List (Bool × Cause) → Option Cause
  | [] => none
  | (b, c) :: r => if b then some c else firstFail r
/-- The first failing check traps; with none, the word goes on. -/
def unlessFail (s : State) (l : List (Bool × Cause)) (k : Eff) : Eff :=
  match firstFail l with
  | some t => .trap s t 0
  | none => k
/-- The address bits a space code uses; the others of a 64-bit address are reserved (Table 8-1). -/
def addrOk (spans : Bool) (v : Nat) : Bool :=
  bitsOf v 55 3 == 0 &&
    match codeOf v with
    | 0 => true
    | 1 => bitsOf v 31 24 == 0 && bitsOf v 60 4 == 0
    | 2 => bitsOf v 23 32 == 0 && bitsOf v 60 4 == 0 && (spans || bitsOf v 21 2 == 0)
    | _ => bitsOf v 0 55 == 0 && bitsOf v 60 4 == 0
/-- A copy descriptor (Table 8-4). -/
structure CopyD where
  src : Nat
  dst : Nat
  xb : Nat
  rows : Nat
  sys : Int
  dys : Int
  planes : Nat
  szs : Nat
  dzs : Nat
  deriving DecidableEq, Repr
def copyD (d : List Word) : CopyD :=
  let w4 := (d.getD 4 0).toNat
  let w7 := (d.getD 7 0).toNat
  { src := pairNat d 0, dst := pairNat d 2, xb := w4 % 2 ^ 16, rows := w4 / 2 ^ 16 + 1, sys := (d.getD 5 0).toInt,
    dys := (d.getD 6 0).toInt, planes := w7 % 2 ^ 8 + 1, szs := w7 / 2 ^ 8 % 2 ^ 12, dzs := w7 / 2 ^ 20 }
/-- Bytes of a copy. -/
def CopyD.bytes (c : CopyD) : Nat := c.xb * c.rows * c.planes
/-- First byte of a row, as an integer: row index over planes and rows. -/
def CopyD.srcRow (c : CopyD) (i : Nat) : Int := (vaOf c.src : Int) + 1024 * c.szs * (i / c.rows : Nat) + c.sys * (i % c.rows : Nat)
def CopyD.dstRow (c : CopyD) (i : Nat) : Int := (vaOf c.dst : Int) + 1024 * c.dzs * (i / c.rows : Nat) + c.dys * (i % c.rows : Nat)
/-- All rows of a side. -/
def CopyD.srcRows (c : CopyD) : List Int := (List.range (c.rows * c.planes)).map c.srcRow
def CopyD.dstRows (c : CopyD) : List Int := (List.range (c.rows * c.planes)).map c.dstRow
/-- The key of a main-memory address (R145). -/
def keyOf (v : Nat) : Nat := v / 2 ^ 60 % 16
/-- Ranges as naturals; negative ones are refused before. -/
def toRanges (rs : List Int) (n : Nat) : List (Nat × Nat) := rs.map fun r => (r.toNat, n)

/-! Checks of a list of rows in a space. -/

/-- Some byte lies outside the space's bounds (R146, R154, R316). -/
def rowsOut (s : State) (g : Group) (code : Nat) (rs : List Int) (n : Nat) : Bool :=
  rs.any fun r =>
    decide (r < 0) ||
      match code with
      | 0 => decide (2 ^ 55 < r.toNat + n)
      | 1 => !inWindow s (sidOf s g) r.toNat n
      | 2 => !inSh (teamOf s g) r.toNat n
      | _ => false
/-- An SP byte lacks a permission. -/
def rowsDenied (s : State) (g : Group) (code : Nat) (k : AKind) (rs : List Int) (n : Nat) : Bool :=
  code == 1 && rs.any fun r => !spGrants s (sidOf s g) r.toNat n k
/-- A written byte lies outside a ladder's write set (12 R236). -/
def rowsForbidden (s : State) (g : Group) (code : Nat) (rs : List Int) (n : Nat) : Bool :=
  match code with
  | 0 => rs.any fun r => !mayWriteVa s g r.toNat n
  | 1 => rs.any fun r => !mayWriteSp s g r.toNat n
  | _ => false

/-! Starting. -/

/-- Writes of the group that `.rel` waits for: stores, atomics and bulk operations (R156). -/
def writesBefore (g : Group) : List Nat :=
  (g.flight.filter fun f => !f.done && match f.op with
    | .store _ _ => true
    | .rel _ _ _ => true
    | .atomic _ _ _ _ _ _ _ _ _ => true
    | .bulk _ => true
    | _ => false).map (·.id)
/-- A bulk command with nothing to do yet. -/
def bulkOf (c : Ctx) (s : State) (kind : BulkKind) (rel res : Bool) (bar : Option (BitVec 4)) (desc : List Word) : Bulk :=
  { kind := kind, gid := c.gid, fl := 0, cmd := (taskOf s c.g).cmd, core := coreOfGid c.gid, team := c.g.team,
    sid := sidOf s c.g, rel := rel, res := res, bar := bar.map (·.toNat), desc := desc, scale := [], x := 0, todo := [],
    fetched := [], lanes := [], after := if rel then writesBefore c.g else [], late := false, checked := true }
/-- ENG codes of the bulk words (09 Table 9-5). -/
def engOf : BulkKind → Nat
  | .cpy => 0
  | .gath => 1
  | .scat => 2
  | .cpymc => 3
  | .cpyred => 0
  | .hub => 6
/-- A request of a bulk command for a page. -/
def bulkReq (b : Nat) (x : Bulk) (part : Nat) (kind : AKind) (page : Nat) : Req :=
  { sid := x.sid, page := page, kind := kind, who := .bulk b part, eng := engOf x.kind, gid := x.gid, core := x.core, pc := 0 }
def requestAll (die : Nat) : List Req → State → State
  | [], s => s
  | r :: rs, s => requestAll die rs (request s die r)
/-- Raise the counter and put the command in the engine, with the requests of its missing pages: part, kind, page. -/
def startBulk (s : State) (c : Ctx) (path : Path) (x : Bulk) (miss : List (Nat × AKind × Nat)) : Nat × State :=
  let (b, s1) := fresh s
  let (id, s2) := launchOp s1 c.gid path (.bulk b)
  let y := { x with fl := id, checked := x.checked && miss.isEmpty }
  let rs := miss.map fun m => { bulkReq b y m.1 m.2.1 m.2.2 with pc := c.f.pc }
  (id, requestAll (dieOfCore x.core) rs { s2 with bulks := kvPut s2.bulks b y })
/-- The issue of a bulk word stalls on a full counter or engine before its checks (R151, R155, R317). -/
def bulkRoom (s : State) (c : Ctx) (path : Path) (k : Eff) : Eff :=
  if 63 ≤ counter c.g path then .wait s (.counterFull path)
  else if 64 ≤ (s.bulks.filter fun b => b.2.core == coreOfGid c.gid && b.2.kind != .hub).length then .wait s .engineFull
  else k
/-- A failure found after issue, of a word that still stands: an error record, and the context faults at it (R159). -/
def failsLate (s : State) (c : Ctx) (cause : Cause) (ecause va : Nat) : Eff :=
  .stand (faultGroup (errorRecord s ecause (dieOfCore (coreOfGid c.gid)) (sidOf s c.g) c.gid va 0 0 0) c.gid (causeCode cause) c.f.pc)
/-- PERM, TAG and WRITESET of a word whose lookups are made. TAG leaves its record (15 R282); it is precise when every page that
counts hits, and a context fault otherwise (15 R280). -/
def lateChecks (s : State) (c : Ctx) (eng key : Nat) (whole perm : Bool) (tag : Option (Nat × BitVec 4)) (forbidden : Bool)
    (k : State → Eff) : Eff :=
  if perm then .trap s .perm 0
  else
    match tag with
    | some (va, lock) =>
      let s1 := tagFault s (sidOf s c.g) c.gid eng whole va key lock
      if whole then .trap s1 .tag 0 else failsLate s1 c .tag 5 va
    | none => if forbidden then .trap s .writeset 0 else k s
/-- A bulk operation read or wrote main memory: at a watched byte the cluster of its group freezes (15 R272). -/
def watchStop (s : State) (cl gid sid eng : Nat) (kind : AKind) (va n : Nat) : State :=
  if watchHits s sid 0 [kind] [(va, n)] ≠ [] then report (freezeCluster s cl gid) [BitVec.ofNat 32 eng, BitVec.ofNat 32 gid] else s

end Sys2Proof.Machine
end

