-- ==== Sys2Proof/Machine/Asy.lean ====
section
/-! DEFINITION. The ASY words that the copy engine and the residency tables serve (03 R57): `cpy`, `cpymc`, `cpyred`, `gath`,
`scat`, `resadd`, `resdel`, `resq`. -/
set_option Elab.async false
namespace Sys2Proof.Machine

/-! Copies (R316, R317). -/

/-- The directions of Table 8-5 that move rows. -/
def directionOk (src dst : Nat) : Bool :=
  [(0, 1), (0, 2), (1, 2), (2, 1), (1, 0), (2, 0)].contains (src, dst)
/-- ALIGN of a copy (R154). -/
def copyMisaligned (c : CopyD) : Bool :=
  vaOf c.src % 4 != 0 || vaOf c.dst % 4 != 0 || c.sys % 4 != 0 || c.dys % 4 != 0 || c.xb % 4 != 0
/-- The conditions of `.res` (R157). -/
def resOk (c : CopyD) : Bool :=
  codeOf c.src == 0 && codeOf c.dst == 1 && c.rows == 1 && c.planes == 1 && vaOf c.src % 256 == 0 && vaOf c.dst % 256 == 0 &&
    c.xb % 256 == 0 && homeOf (vaOf c.dst) == homeOf (vaOf c.dst + c.xb - 1)
/-- A team that spans cores. -/
def spanning (t : Team) : Bool := decide (1 < t.cores.length)
/-- BOUNDS of a copy that moves rows (R154, R316). -/
def copyOut (s : State) (g : Group) (c : CopyD) (res : Bool) : Bool :=
  !directionOk (codeOf c.src) (codeOf c.dst) || !addrOk (spanning (teamOf s g)) c.src || !addrOk (spanning (teamOf s g)) c.dst ||
    c.xb == 0 || decide (2 ^ 24 < c.bytes) || rowsOut s g (codeOf c.src) c.srcRows c.xb ||
    rowsOut s g (codeOf c.dst) c.dstRows c.xb || (res && !resOk c)
/-- Deliveries of a copy: so many to a row (R155). -/
def CopyD.perRow (c : CopyD) : Nat := (c.xb + 1023) / 1024
def CopyD.pieces (c : CopyD) : Nat := c.rows * c.planes * c.perRow
/-- The lookups of one side of a copy. -/
def lookSide (s : State) (core sid code : Nat) (kind : AKind) (key : Nat) (rs : List Int) (n : Nat) : Look × State :=
  if code = 0 then lookRanges core sid kind key (toRanges rs n) (Look.none, s) else (Look.none, s)
/-- A copy that moves rows. -/
def rowCopy (s : State) (c : Ctx) (rel res : Bool) (bar : Option (BitVec 4)) (d : List Word) : Eff :=
  let k := copyD d
  let g := c.g
  let core := coreOfGid c.gid
  let sid := sidOf s g
  unlessFail s [(copyMisaligned k, .align), (copyOut s g k res, .bounds),
      (rowsDenied s g (codeOf k.src) .read k.srcRows k.xb || rowsDenied s g (codeOf k.dst) .write k.dstRows k.xb, .perm)] (
    let x := lookSide s core sid (codeOf k.src) .read (keyOf k.src) k.srcRows k.xb
    let y := lookSide x.2 core sid (codeOf k.dst) .write (keyOf k.dst) k.dstRows k.xb
    let a := x.1
    let b := y.1
    lateChecks y.2 c 0 (keyOf (if a.tag.isSome then k.src else k.dst)) (a.miss.isEmpty && b.miss.isEmpty) (a.perm || b.perm)
      (a.tag.or b.tag)
      (rowsForbidden y.2 g (codeOf k.dst) k.dstRows k.xb) fun s3 =>
      .ok (startBulk s3 c .cpy { bulkOf c s3 .cpy rel res bar d with todo := [(0, 0, k.pieces)] }
        (a.miss.map (fun p => (0, .read, p)) ++ b.miss.map fun p => (0, .write, p))).2)

/-- A scale layout record (Table 7-12). -/
structure ScaleD where
  base : Nat
  key : Nat
  rows : Nat
  nblk : Nat
  rowStr : Nat
  blkStr : Nat
  smoff : Nat
  roleB : Bool
  e : Nat
  deriving DecidableEq, Repr
def scaleD (w : List Word) : ScaleD :=
  let w2 := (w.getD 2 0).toNat
  let w5 := (w.getD 5 0).toNat
  { base := vaOf (pairNat w 0), key := keyOf (pairNat w 0), rows := w2 % 2 ^ 16, nblk := w2 / 2 ^ 16, rowStr := (w.getD 3 0).toNat,
    blkStr := (w.getD 4 0).toNat, smoff := w5 % 2 ^ 14, roleB := bitsOf w5 16 1 == 1, e := if bitsOf w5 17 1 = 1 then 2 else 1 }
/-- Rows of a role's block. -/
def ScaleD.height (k : ScaleD) : Nat := if k.roleB then 24 else 32
/-- The record keeps Table 7-12 (R139). -/
def scaleOk (w : List Word) : Bool :=
  let k := scaleD w
  let w5 := (w.getD 5 0).toNat
  bitsOf (pairNat w 0) 55 5 == 0 && decide (1 ≤ k.rows ∧ k.rows ≤ if k.roleB then 96 else 128) && decide (1 ≤ k.nblk) &&
    decide (k.e * k.height * k.nblk ≤ 16384) && bitsOf w5 14 2 == 0 && bitsOf w5 18 14 == 0 && w.getD 6 0 == 0 && w.getD 7 0 == 0
/-- Bytes of element i, counted over rows and blocks: where they are read, and where they go (R140). -/
def ScaleD.src (k : ScaleD) (i : Nat) : Nat := k.base + i / k.nblk * k.rowStr + i % k.nblk * k.blkStr
def ScaleD.quad (k : ScaleD) (i : Nat) : Nat := i / k.nblk / k.height
def ScaleD.dst (k : ScaleD) (i : Nat) : Nat := (k.smoff + k.e * (k.height * (i % k.nblk) + i / k.nblk % k.height)) % 16384
/-- Byte j of the copy, counted over the elements: each goes by itself, so that a step may find one byte of a pair old and one new. -/
def ScaleD.srcByte (k : ScaleD) (j : Nat) : Nat := k.src (j / k.e) + j % k.e
def ScaleD.dstByte (k : ScaleD) (j : Nat) : Nat := (k.dst (j / k.e) + j % k.e) % 16384
def ScaleD.ranges (k : ScaleD) : List (Nat × Nat) := (List.range (k.rows * k.nblk)).map fun i => (k.src i, k.e)
/-- The group parks replayably until pages are translated, and the word issues again (R154, 12 R245). -/
def parkOnPages (s : State) (c : Ctx) (eng : Nat) (kind : AKind) (tag : Option (Nat × Nat × Nat)) (pages : List Nat) : Eff :=
  let core := coreOfGid c.gid
  let req (p : Nat) : Req :=
    { sid := sidOf s c.g, page := p, kind := kind, who := .grp c.gid, eng := eng, gid := c.gid, core := core, pc := c.f.pc,
      tag := tag }
  .wait (requestAll (dieOfCore core) (pages.map req) s) .run
/-- The lookup of a layout record, and of the elements it lays out, where the record can be read. -/
def lookRecord (s : State) (core sid : Nat) (k : CopyD) : Look × State :=
  if vaOf k.src + 32 ≤ 2 ^ 55 then lookRanges core sid .read (keyOf k.src) [(vaOf k.src, 32)] (Look.none, s) else (Look.none, s)
def lookElements (s : State) (core sid : Nat) (unread : Bool) (m : ScaleD) : Look × State :=
  if unread then (Look.none, s) else lookRanges core sid .read m.key m.ranges (Look.none, s)
/-- A copy to scale memories (Table 8-5): the record is read first. -/
def scaleCopy (s : State) (c : Ctx) (rel res : Bool) (bar : Option (BitVec 4)) (d : List Word) : Eff :=
  let k := copyD d
  let core := coreOfGid c.gid
  let sid := sidOf s c.g
  let a := vaOf k.src
  let x := lookRecord s core sid k
  let r := x.1
  if r.miss.isEmpty = false then parkOnPages x.2 c 0 .read (some (keyOf k.src, a, 32)) r.miss
  else if r.perm = false ∧ r.reach x.2 ≠ .yes then failsLate x.2 c .perm (if r.reach x.2 = .down then 6 else 4) a
  else
    let w := wordsOf ((List.range 32).map fun i => ((r.at (a + i)).map (readByte x.2)).getD 0)
    let unread := r.perm || r.tag.isSome || decide (2 ^ 55 < a + 32)
    -- the record is read, which a watchpoint sees
    let s1 := if unread then x.2 else watchStop x.2 (teamOf s c.g).cluster c.gid sid 0 .read a 32
    let fixed := !addrOk false k.src || !addrOk false k.dst || d.getD 4 0 != 0 || d.getD 5 0 != 0 ||
      d.getD 6 0 != 0 || d.getD 7 0 != 0 || res || decide (2 ^ 55 < a + 32)
    unlessFail s1 [(copyMisaligned k, .align), (fixed || (!unread && !scaleOk w), .bounds)] (
      let m := scaleD w
      if !unread && m.ranges.any (fun e => decide (2 ^ 55 < e.1 + e.2)) then .trap s1 .bounds 0
      else
        let y := lookElements s1 core sid unread m
        let l := y.1
        lateChecks y.2 c 0 (if r.tag.isSome then keyOf k.src else m.key) l.miss.isEmpty (r.perm || l.perm) (r.tag.or l.tag) false
          fun s3 => .ok (startBulk s3 c .cpy
            { bulkOf c s3 .cpy rel false bar d with scale := w, todo := [(0, 0, m.rows * m.nblk * m.e)] }
            (l.miss.map fun p => (0, .read, p))).2)
/-- `cpy`. -/
def execCpy (rel res : Bool) (d : BitVec 9) (bar : Option (BitVec 4)) (s : State) : Host.Outcome State Fault Refusal :=
  word (.cpy rel res d bar) s fun c =>
    let ws := descOf c.g d.toNat
    bulkRoom s c .cpy (if codeOf (pairNat ws 0) = 0 ∧ codeOf (pairNat ws 2) = 3 then scaleCopy s c rel res bar ws else rowCopy s c rel res bar ws)

/-! Multicast (R160, R318). -/

/-- The cores a mask names. -/
def coresOfMask (m : BitVec 64) : List Nat := (List.range 64).filter fun n => m.getLsbD n
/-- `cpymc`. -/
def execCpymc (rel : Bool) (d x : BitVec 9) (bar : Option (BitVec 4)) (s : State) : Host.Outcome State Fault Refusal :=
  word (.cpymc rel d x bar) s fun c =>
    bulkRoom s c .cpy (
      let ws := descOf c.g d.toNat
      let k := copyD ws
      let g := c.g
      let core := coreOfGid c.gid
      let sid := sidOf s g
      let mask := getPair g x.toNat
      let cs := coresOfMask mask
      let onCore (n : Nat) : List Int := k.dstRows.map fun r => r + (sliceBase n : Int)
      unlessFail s [(copyMisaligned k, .align),
          (mask == 0 || cs.any fun n => !(clusterOf s g).cores.contains n, .async),
          (!((codeOf k.src == 0 || codeOf k.src == 1) && codeOf k.dst == 1) || !addrOk false k.src || !addrOk false k.dst ||
            k.xb == 0 || decide (2 ^ 24 < k.bytes) || rowsOut s g (codeOf k.src) k.srcRows k.xb ||
            (k.dstRows.any fun r => decide (r < 0 ∨ (0x1800000 : Int) < r + k.xb)) || cs.any fun n => rowsOut s g 1 (onCore n) k.xb,
            .bounds),
          (rowsDenied s g (codeOf k.src) .read k.srcRows k.xb || cs.any fun n => rowsDenied s g 1 .write (onCore n) k.xb, .perm)] (
        let y := lookSide s core sid (codeOf k.src) .read (keyOf k.src) k.srcRows k.xb
        let a := y.1
        lateChecks y.2 c 3 (keyOf k.src) a.miss.isEmpty a.perm a.tag (cs.any fun n => rowsForbidden y.2 g 1 (onCore n) k.xb) fun s2 =>
          .ok (startBulk s2 c .cpy { bulkOf c s2 .cpymc rel false bar ws with
              x := mask, todo := cs.map fun n => (n, 0, k.pieces) } (a.miss.map fun p => (0, .read, p))).2))

/-! Reductions (R161, R319). -/

/-- `cpyred`. -/
def execCpyred (rel : Bool) (d x : BitVec 9) (bar : Option (BitVec 4)) (s : State) : Host.Outcome State Fault Refusal :=
  word (.cpyred rel d x bar) s fun c =>
    bulkRoom s c .cpy (
      let ws := descOf c.g d.toNat
      let k := copyD ws
      let g := c.g
      let v := (getS g x.toNat).toNat
      let a := vaOf k.dst
      unlessFail s [(copyMisaligned k, .align),
          (codeOf k.dst == 1 && spExists a && !(clusterOf s g).cores.contains (homeOf a), .async),
          (!((codeOf k.src == 1 || codeOf k.src == 2) && codeOf k.dst == 1) || !addrOk (spanning (teamOf s g)) k.src ||
            !addrOk false k.dst || k.xb == 0 || decide (2 ^ 24 < k.bytes) || rowsOut s g (codeOf k.src) k.srcRows k.xb ||
            rowsOut s g 1 k.dstRows k.xb || bitsOf v 19 13 != 0 || bitsOf v 12 7 == 0 || decide (64 < bitsOf v 12 7), .bounds),
          (rowsDenied s g (codeOf k.src) .read k.srcRows k.xb || rowsDenied s g 1 .write k.dstRows k.xb, .perm),
          (rowsForbidden s g 1 k.dstRows k.xb, .writeset)]
        (.ok (startBulk s c .cpy { bulkOf c s .cpyred rel false bar ws with x := BitVec.ofNat 64 v, todo := [(0, 0, 1)] } []).2))

/-! Gathers and scatters (R325, R326, R359). -/

/-- Participating lanes with their VAs (R163). -/
def movesOf (c : Ctx) (ws : List Word) : List LaneMove :=
  let p := c.f.lanes &&& ws.getD 5 0
  let r := (ws.getD 3 0).toNat % 64
  (lanesOf p).map fun l => { lane := l, va := getV c.g (r + 1) l ++ getV c.g r l, tr := none }
/-- Row bytes, and the row of a lane at LOC. -/
def rowBytes (ws : List Word) : Nat := (ws.getD 2 0).toNat % 2 ^ 13
def rowAt (ws : List Word) (l : Nat) : Nat := vaOf (pairNat ws 0) + l * (ws.getD 4 0).toNat
/-- The checks up to the SP permissions (R325): `k` is the permission the rows at LOC need. -/
def laneChecks (s : State) (c : Ctx) (ws : List Word) (k : AKind) : Option Cause :=
  let loc := pairNat ws 0
  let rb := rowBytes ws
  let va := (ws.getD 3 0).toNat % 64
  let ms := movesOf c ws
  let rows := ms.map fun m => ((rowAt ws m.lane : Nat) : Int)
  match nameCheck c.g [(va : Int), (va : Int) + 1] with
  | some t => some t
  | none => firstFail [
      (vaOf loc % 4 != 0 || rb % 4 != 0 || (ws.getD 4 0).toNat % 4 != 0 || ms.any fun m => m.va.toNat % 4 != 0, .align),
      (bitsOf (ws.getD 2 0).toNat 13 19 != 0 || bitsOf (ws.getD 3 0).toNat 6 26 != 0 || ws.getD 6 0 != 0 || ws.getD 7 0 != 0 ||
        va % 2 != 0 || !(codeOf loc == 1 || codeOf loc == 2) || !addrOk (spanning (teamOf s c.g)) loc || decide (rb < 4) ||
        decide (4096 < rb) || (ms.any fun m => bitsOf m.va.toNat 55 5 != 0 || decide (2 ^ 55 < vaOf m.va.toNat + rb)) ||
        rowsOut s c.g (codeOf loc) rows rb, .bounds),
      (rowsDenied s c.g (codeOf loc) k rows rb, .perm)]
/-- The lookups of each lane's row. -/
def lookLanes (core sid : Nat) (kind : AKind) (rb : Nat) : List LaneMove → State → List (LaneMove × Look) × State
  | [], s => ([], s)
  | m :: ms, s =>
    let (k, s1) := lookRanges core sid kind (keyOf m.va.toNat) [(vaOf m.va.toNat, rb)] (Look.none, s)
    let (r, s2) := lookLanes core sid kind rb ms s1
    ((m, k) :: r, s2)
/-- The first lane with a tag mismatch. -/
def laneTag (ls : List (LaneMove × Look)) : Option (Nat × Nat × BitVec 4) :=
  ls.findSome? fun x => x.2.tag.map fun t => (keyOf x.1.va.toNat, t.1, t.2)
/-- The lookups and the checks after them, common to the three words: `all` lanes count even where a page misses (R359), for a
gather those whose pages all hit (R325). -/
def laneLate (s : State) (c : Ctx) (ws : List Word) (eng : Nat) (kind : AKind) (all : Bool) (forbidden : State → Bool)
    (k : List (LaneMove × Look) → State → Eff) : Eff :=
  let (ls, s1) := lookLanes (coreOfGid c.gid) (sidOf s c.g) kind (rowBytes ws) (movesOf c ws) s
  let judged := ls.filter fun x => all || x.2.miss.isEmpty
  let t := laneTag judged
  lateChecks s1 c eng ((t.map (·.1)).getD 0) (judged.all fun x => x.2.miss.isEmpty) (judged.any fun x => x.2.perm) (t.map (·.2)) (forbidden s1) (k ls)
/-- Requests of the lanes that miss. -/
def laneMisses (ls : List (LaneMove × Look)) (kind : AKind) : List (Nat × AKind × Nat) :=
  ls.flatMap fun x => x.2.miss.map fun p => (x.1.lane, kind, p)
/-- The pieces of a lane list. -/
def laneTodo (ms : List LaneMove) : List (Nat × Nat × Nat) := ms.map fun m => (0, m.lane, m.lane + 1)
/-- A written row at LOC lies outside the write set. -/
def rowsAtForbidden (c : Ctx) (ws : List Word) (s : State) : Bool :=
  rowsForbidden s c.g (codeOf (pairNat ws 0)) ((movesOf c ws).map fun m => ((rowAt ws m.lane : Nat) : Int)) (rowBytes ws) &&
    codeOf (pairNat ws 0) == 1
/-- A gather's lane: one whose pages all hit keeps the places it found (17 R327). -/
def keepRow (ws : List Word) (e : LaneMove × Look) : LaneMove :=
  if e.2.miss.isEmpty then { e.1 with tr := some ((List.range (rowBytes ws)).filterMap fun i => e.2.at (vaOf e.1.va.toNat + i)) } else e.1
/-- `gath.park`. -/
def execGathPark (d : BitVec 9) (bar : Option (BitVec 4)) (s : State) : Host.Outcome State Fault Refusal :=
  word (.gathPark d bar) s fun c =>
    bulkRoom s c .gth (
      let ws := descOf c.g d.toNat
      match laneChecks s c ws .write with
      | some t => .trap s t 0
      | none =>
        laneLate s c ws 1 .read false (rowsAtForbidden c ws) fun ls s1 =>
          if ls.isEmpty then .ok s1
          else
            let ms := ls.map (keepRow ws)
            let (id, s2) := startBulk s1 c .gth { bulkOf c s1 .gath false false bar ws with lanes := ms, todo := laneTodo ms }
              (laneMisses ls .read)
            .ok (modGroup s2 c.gid fun g => { g with park := .gath id, parkPc := c.f.pc }))
/-- Walks of tolerant lanes: one request for each missing page of each lane (R165). -/
def tolReqs (c : Ctx) (sid : Nat) (ls : List (LaneMove × Look)) : List Req :=
  ls.flatMap fun x => x.2.miss.map fun p =>
    { sid := sid, page := p, kind := .read, who := .tol c.gid, eng := 1, gid := c.gid, core := coreOfGid c.gid, pc := c.f.pc }
/-- `gath.tol`. -/
def execGathTol (d x : BitVec 9) (bar : Option (BitVec 4)) (s : State) : Host.Outcome State Fault Refusal :=
  word (.gathTol d x bar) s fun c =>
    bulkRoom s c .gth (
      let ws := descOf c.g d.toNat
      let core := coreOfGid c.gid
      match laneChecks s c ws .write with
      | some t => .trap s t 0
      | none =>
        laneLate s c ws 1 .read false (rowsAtForbidden c ws) fun ls s1 =>
          let sid := sidOf s1 c.g
          let hit := ls.filter fun e => e.2.miss.isEmpty
          let lost := ls.filter fun e => !e.2.miss.isEmpty
          let ms := hit.map (keepRow ws)
          let s2 := if hit.isEmpty then s1
            else (startBulk s1 c .gth { bulkOf c s1 .gath false false bar ws with lanes := ms, todo := laneTodo ms } []).2
          let s3 := requestAll (dieOfCore core) (tolReqs c sid lost) (count s2 core 10 lost.length)
          .ok (modGroup s3 c.gid fun g => setS g x.toNat (maskOf (lost.map fun e => e.1.lane))))
/-- `scat`. -/
def execScat (rel : Bool) (d : BitVec 9) (bar : Option (BitVec 4)) (s : State) : Host.Outcome State Fault Refusal :=
  word (.scat rel d bar) s fun c =>
    bulkRoom s c .gth (
      let ws := descOf c.g d.toNat
      match laneChecks s c ws .read with
      | some t => .trap s t 0
      | none =>
        laneLate s c ws 2 .write true
            (fun s1 => rowsForbidden s1 c.g 0 ((movesOf c ws).map fun m => ((vaOf m.va.toNat : Nat) : Int)) (rowBytes ws)) fun ls s1 =>
          if ls.isEmpty then .ok s1
          else
            let ms := ls.map (·.1)
            .ok (startBulk s1 c .gth { bulkOf c s1 .scat rel false bar ws with lanes := ms, todo := laneTodo ms }
              (laneMisses ls .write)).2)

/-! Residency (R167, R355). -/

/-- VA, LEN in units of 256 bytes, and SP address of a residency descriptor. -/
def resVa (g : Group) (d : Nat) : Nat := (getPair g d).toNat
def resLen (g : Group) (d : Nat) : Nat := (getS g (d + 2)).toNat
/-- A VA or LEN that R167 and R355 refuse. -/
def resOut (va len al : Nat) : Bool := va % al != 0 || decide (2 ^ 55 ≤ va) || len == 0 || decide (65536 < len)
/-- The SP range of an entry is not within one slice of its space's window, or is misaligned. -/
def resSpOut (s : State) (sid a n : Nat) : Bool :=
  a % 256 != 0 || !inWindow s sid a (256 * n) || homeOf a != homeOf (a + 256 * n - 1)
/-- Put an entry into a core's table: in place of one with the same space and VA, else at the lowest free index; whether there
was room. -/
def resPut (s : State) (core : Nat) (e : Res) : Bool × State :=
  let t := (coreOf s core).res
  let put (i : Nat) : State := modCore s core fun x => { x with res := kvPut x.res i e, resOff := kvDel x.resOff i }
  match t.find? fun y => y.2.sid == e.sid && y.2.va == e.va with
  | some (i, _) => (true, put i)
  | none =>
    match (List.range 1024).find? fun i => (kvFind t i).isNone with
    | some i => (true, put i)
    | none => (false, s)
/-- The first entry that covers a range, in a core's table in index order. -/
def resIn (s : State) (sid va n core : Nat) : Option Nat :=
  ((coreOf s core).res.find? fun e => e.2.sid == sid && decide (e.2.va ≤ va ∧ va + n ≤ e.2.va + 256 * e.2.len)).map fun e =>
    e.2.sp + (va - e.2.va)
/-- What `resq` finds: the issuing core's table, then the others of its die. -/
def resFind (s : State) (sid core va n : Nat) : Word :=
  let others := (List.range 64).filter fun k => k != core && dieOfCore k == dieOfCore core
  BitVec.ofNat 32 (((core :: others).findSome? (resIn s sid va n)).getD 0xFFFFFFFF)
/-- RESFULL. -/
def setCpystat (s : State) (gid i : Nat) : State := modGroup s gid fun g => { g with cpystat := putBit g.cpystat i true }
/-- `resadd`. -/
def execResadd (d : BitVec 9) (s : State) : Host.Outcome State Fault Refusal :=
  word (.resadd d) s fun c =>
    let va := resVa c.g d.toNat
    let n := resLen c.g d.toNat
    let a := (getS c.g (d.toNat + 3)).toNat
    let sid := sidOf s c.g
    unlessFail s [(resOut va n 256 || resSpOut s sid a n, .bounds),
        (!spGrants s sid a (256 * n) .read, .perm)] (
      match resPut s (homeOf a) { sid := sid, va := va, len := n, sp := a } with
      | (true, s1) => .ok s1
      | (false, s1) => .ok (setCpystat s1 c.gid 1))
/-- `resdel`. -/
def execResdel (d : BitVec 9) (s : State) : Host.Outcome State Fault Refusal :=
  word (.resdel d) s fun c =>
    let va := resVa c.g d.toNat
    let n := resLen c.g d.toNat
    let sid := sidOf s c.g
    if resOut va n 256 then .trap s .bounds 0
    else
      .ok { s with cores := s.cores.map fun x => (x.1, { x.2 with res := x.2.res.filter fun e =>
        !(e.2.sid == sid && decide (e.2.va < va + 256 * n ∧ va < e.2.va + 256 * e.2.len)) }) }
/-- `resq`. -/
def execResq (x d : BitVec 9) (s : State) : Host.Outcome State Fault Refusal :=
  word (.resq x d) s fun c =>
    let va := resVa c.g d.toNat
    let n := resLen c.g d.toNat
    if 63 ≤ counter c.g .ld then .wait s (.counterFull .ld)
    else if resOut va n 4 then .trap s .bounds 0
    else .ok (launchOp s c.gid .ld (.resq x.toNat va n)).2

end Sys2Proof.Machine
end

