-- ==== Sys2Proof/Machine/Clause.lean ====
section
/-! DEFINITION. Clause headers (02 R20 to R22): their checks, safe points (15 R269, R279), their waits. -/
set_option Elab.async false
namespace Sys2Proof.Machine

/-- The paths a WAITP field names (Table 2-1). -/
def waitPaths (w : BitVec 5) : List Path :=
  (([(0, .ld), (1, .st), (2, .cpy), (3, .gth), (4, .sfu)] : List (Nat × Path)).filter fun e => w.getLsbD e.1).map (·.2)

/-- What the wait of `barwait` finds (05 R94): it ends at once, clearing APV, or waits; the group after it. -/
def barWaitNow (b : Bar) (n : Nat) (g : Group) : Bool × Group :=
  if g.apv.getLsbD n then
    (if b.phase != g.ap.getLsbD n then (true, { g with apv := putBit g.apv n false }) else (false, g))
  else (false, { g with ap := putBit g.ap n b.phase })
/-- The barrier of a team. -/
def barOf (t : Team) (n : Nat) : Bar := kvGet noBar t.bars n

/-- A stop finds its fragments at a STOP header, a pre-emption at any (R269, 11 R227). -/
def stopsAt (c : Cluster) (stop : Bool) : Bool := (c.stop != .none && stop) || c.pre == .asked

/-- A header's effect on its fragment: into the clause, with what it waits for. -/
def enterClause (h : Header) (f : Frag) (park : Park) : Frag :=
  { f with
    pc := f.pc + 4, cl := some (h.cls, h.count.toNat), landed := false, passed := []
    safe := if h.stop then some (h.ord.toNat, f.pc) else f.safe
    park := park }

/-- A header of a group's stream (R21, R22). -/
def groupHeader (h : Word) (s : State) (c : Ctx) : State :=
  match decodeHeader h with
  | .error _ => takeTrap s c.gid c.fid .illegal 0 c.f.pc
  | .ok h =>
    if h.cls = .mtx then takeTrap s c.gid c.fid .illegal 0 c.f.pc
    else if stopsAt (clusterOf s c.g) h.stop then
      modGroup s c.gid fun g => modFrag g c.fid fun f => { f with
        park := .safe, halted := true, safe := if h.stop then some (h.ord.toNat, f.pc) else f.safe }
    else
      let ps := (waitPaths h.waitp).filter fun p => counter c.g p != 0
      let t := teamOf s c.g
      let (now, g1) := match h.wb with
        | some n => barWaitNow (barOf t n.toNat) n.toNat (absorb (waitPaths h.waitp) c.g)
        | none => (true, absorb (waitPaths h.waitp) c.g)
      -- a barrier wait that has ended makes its acquire once the ld counter is zero
      let park : Park := match h.wb with
        | some n => if now then .acq (some n.toNat) .team (.header ps) else .hdr ps (some n.toNat)
        | none => if ps.isEmpty then .run else .hdr ps none
      let waits := !ps.isEmpty || (h.wb.isSome && (!now || counter c.g .ld != 0))
      settleAcq { s with groups := kvPut s.groups c.gid (modFrag g1 c.fid fun f =>
        { enterClause h f park with halted := asked s c.g && waits }) } c.gid

/-- A header of a sequencer's stream (R21, R22): its barrier wait is that of `mbwait` without the FPX check
(06 R118), and ends as one when no group of the team is left (05 R84). -/
def seqHeader (h : Word) (s : State) (tid : Nat) (t : Team) (q : Seq) : State :=
  match decodeHeader h with
  | .error _ => seqFault s tid .illegal 0 q.pc
  | .ok h =>
    if h.cls ≠ .mtx ∨ h.waitp ≠ 0 then seqFault s tid .illegal 0 q.pc
    else if h.wb.isSome ∧ q.run.isSome then seqFault s tid .mode 0 q.pc
    else
      let q1 := { q with pc := q.pc + 4, cl := some (h.cls, h.count.toNat), landed := false, jumped := false }
      let q2 := match h.wb with
        | some n =>
          if (barOf t n.toNat).phase != q.sap.getLsbD n.toNat then { q1 with sap := putBit q.sap n.toNat (barOf t n.toNat).phase }
          else { q1 with park := .bar n.toNat true }
        | none => q1
      modTeam s tid fun t => { t with seq := some q2 }

/-- The clause header. -/
def execClauseHeader (h : Word) (s : State) : Host.Outcome State Fault Refusal :=
  match s.issue with
  | .seq tid _ =>
    (match kvFind s.teams tid with
      | some t =>
        (match t.seq with
          | some q => .next { seqHeader h s tid t q with issue := .none }
          | none => .fault .noIssuer)
      | none => .fault .noIssuer)
  | _ =>
    match issueOf s with
    | some c => .next { groupHeader h s c with issue := .none }
    | none => .fault .noIssuer

end Sys2Proof.Machine
end

