-- ==== Sys2Proof/Machine/Fetch.lean ====
section
/-! DEFINITION. What issues next and where its words come from: readiness of groups, fragments and sequencers (05 R90, 11 R225),
code fetch (09 R185), landing (02 R26), the word decoded in its clause's class (03 R42). -/
set_option Elab.async false
namespace Sys2Proof.Machine

/-- What a step does: change the state alone, or run an instruction that `State.issue` issues. -/
inductive Plan
  | idle (s : State)
  | run (i : Instr) (s : State)

/-! Readiness. -/

/-- A word that holds back every later word of the group waits (10 R194). -/
def holdsBack : Park → Bool
  | .drain _ .hold => true
  | .drain _ .point => true
  | .acq _ _ _ => true
  | _ => false
/-- Commands in a core's copy engine (08 R155). -/
def engineLoad (s : State) (core : Nat) : Nat := (s.bulks.filter fun b => b.2.core == core && b.2.kind != .hub).length
/-- Whether a sequencer still has to write a register of a group. -/
def writesTo (q : Seq) (gid : Nat) : Bool := q.writes.any fun w => w.cells.any fun c => c.1 == gid
/-- The version unit may make a vat-table entry for a reader: there is room, and no ladder task is held for want of one
(12 R231). -/
def vatRoom (s : State) : Bool :=
  decide (s.vats.length < 256) && !(s.tasks.any fun t => t.2.queued && (t.2.ladder.map (·.wants)).getD false)
/-- Whether a fragment's wait is over. -/
def parkOver (s : State) (gid : Nat) (g : Group) (f : Frag) : Bool :=
  match f.park with
  | .run => true
  | .drain ps _ => !pendingPaths g ps
  | .counterFull p => decide (counter g p < 63)
  | .engineFull => decide (engineLoad s (coreOfGid gid) < 64)
  | .invFull => decide (s.invs.length < 16)
  | .spawnFull => decide ((cmdOf s g).spawn < 2 ^ 24 - 1)
  | .vatFull => vatRoom s
  | .hdr ps b => ps.isEmpty && b.isNone
  | .modeRel eng => !eng || !((teamOf s g).seq.map fun q => writesTo q gid).getD false
  | _ => false
/-- Classes whose words a pending acquire, returning atomic or pin of the group holds back (10 R195, R307, 12 R245). -/
def gatedClass : Cls → Bool
  | .mem => true
  | .asy => true
  | .sys => true
  | _ => false
/-- The fragment's next step is to end a wait, not to issue a word. -/
def endsWait : Park → Bool
  | .hdr _ _ => true
  | .modeRel _ => true
  | _ => false
/-- Its next word is one that a pending result of the group holds back. -/
def gateHolds (g : Group) (f : Frag) : Bool :=
  g.gate.isSome && !endsWait f.park && match f.cl with
    | some (c, left) => gatedClass c && left != 0
    | none => false
/-- Nothing parks the whole group, and its cluster runs. -/
def groupFree (s : State) (gid : Nat) (g : Group) : Bool :=
  !g.exiting && !g.held && g.park == .none && (!g.marked || drained g) && !groupFrozen s g &&
    !waitsFor s (dieOfCore (coreOfGid gid)) (.grp gid) && !waitsFor s 1 (.grp gid)
/-- A group may offer a word. -/
def groupOpen (s : State) (gid : Nat) (g : Group) : Bool := g.active && groupFree s gid g
/-- A fragment may issue. -/
def fragReady (s : State) (gid : Nat) (g : Group) (f : Frag) : Bool :=
  !f.halted && parkOver s gid g f && !gateHolds g f && !(g.frags.any fun x => fidOf x.lanes != fidOf f.lanes && holdsBack x.park)
/-- A group could offer a word if it were active (11 R225). -/
def groupReady (s : State) (gid : Nat) (g : Group) : Bool := groupFree s gid g && g.frags.any (fragReady s gid g)
/-- The next ready fragment in rotation (R90). -/
def pickFrag (s : State) (gid : Nat) (g : Group) : Option Frag :=
  let rs := g.frags.filter (fragReady s gid g)
  let lowest (l : List Frag) : Option Frag := l.foldl (fun b f => match b with
    | some x => if fidOf f.lanes < fidOf x.lanes then some f else b
    | none => some f) none
  match lowest (rs.filter fun f => decide (g.rot < fidOf f.lanes)) with
  | some f => some f
  | none => lowest rs

/-! Code fetch. -/

/-- What a fetch of the word at a code address gives. -/
inductive Fetched
  | word (w : Word) (s : State)
  /-- No such page yet: it is asked for. -/
  | miss (s : State)
  /-- A permission failure, here or at the peer. -/
  | perm (s : State)
  /-- At or past the end of the code (03 R60). -/
  | off
def fetchWord (s : State) (core : Nat) (k : Task) (sid : Nat) (pc : Word) (r : Req) : Fetched :=
  if codeLen k ≤ pc.toNat then .off
  else
    let va := (codeVa k + pc.toNat) % 2 ^ 55
    match Machine.translate s core sid (va / 2 ^ 16) with
    | (none, s1) => .miss (request s1 (dieOfCore core) { r with page := va / 2 ^ 16 })
    | (some t, s1) =>
      if t.x then
        match reaches s1 t with
        | .yes =>
          (match wordsOf (readBytes s1 (fun i => trLoc t (va % 2 ^ 16 + i)) 4) with
            | w :: _ => .word w s1
            | [] => .off)
        | .refused => .perm (errorRecord s1 4 (dieOfCore core) sid r.gid va 0 0 0)
        | .down => .perm (errorRecord s1 6 (dieOfCore core) sid r.gid va 0 0 0)
      else .perm s1
/-- The request of a group's or a sequencer's fetch (Table 9-5). -/
def fetchReq (who : Who) (eng sid gid core : Nat) (pc : Word) : Req :=
  { sid := sid, page := 0, kind := .fetch, who := who, eng := eng, gid := gid, core := core, pc := pc }

/-- `mode.v` ends (06 R108): it traps if no engine arrival was in the phase, and otherwise returns the registers. -/
def endModeV (s : State) (gid fid : Nat) (g : Group) (f : Frag) (eng : Bool) : State :=
  if eng then
    let s1 := modGroup s gid fun g => modFrag { g with matrix := false } fid fun f => { f with park := .run }
    modTeam s1 g.team fun t => { t with seq := t.seq.map fun q => { q with acc := q.acc.filter fun e => e.2 != g.idx } }
  else takeTrap (modGroup s gid fun g => modFrag g fid fun f => { f with park := .run }) gid fid .mode 0 f.pc

/-- The conditions of R36 that a prefix breaks by itself, before the word after it is looked at (19 R372 step 1). -/
def prefixBad (left : Nat) (w : Word) : Bool :=
  match decPfx w with
  | .error _ => true
  | .ok p => decide (left < 2) || (p.z && p.mask == 0)
/-- The word of a fragment: a header, or an instruction of its clause. -/
def fragPlan (s : State) (gid : Nat) (g : Group) (f : Frag) : Plan :=
  let fid := fidOf f.lanes
  let core := coreOfGid gid
  let k := taskOf s g
  let sid := sidOf s g
  let fetch (s : State) (pc : Word) : Fetched := fetchWord s core k sid pc (fetchReq (.grp gid) 4 sid gid core pc)
  match fetch s f.pc with
  | .off => .idle (takeTrap s gid fid .target 0 f.pc)
  | .perm s1 => .idle (faultGroup s1 gid (causeCode .perm) f.pc)
  | .miss s1 => .idle s1
  | .word w s1 =>
    match f.cl with
    | none =>
      if isHeader w then .run (.clauseHeader w) { s1 with issue := .frag gid fid false 1 }
      else .idle (takeTrap s1 gid fid (if f.landed then .target else .illegal) 0 f.pc)
    | some (c, left) =>
      let issue (w2 : Word) (s2 : State) : Plan :=
        match decodeWords c left w w2 with
        | .error _ => .idle (takeTrap s2 gid fid .illegal 0 f.pc)
        | .ok x => .run x.instr { s2 with issue := .frag gid fid x.s x.words }
      if c = .vec ∧ isPrefix w = true then
        if prefixBad left w then .idle (takeTrap s1 gid fid .illegal 0 f.pc)
        else
          match fetch s1 (f.pc + 4) with
          | .off => .idle (takeTrap s1 gid fid .target 0 (f.pc + 4))
          | .perm s2 => .idle (faultGroup s2 gid (causeCode .perm) (f.pc + 4))
          | .miss s2 => .idle s2
          | .word w2 s2 => issue w2 s2
      else issue 0 s1

/-- A group's turn. -/
def groupPlan (s : State) (gid : Nat) : Plan :=
  match kvFind s.groups gid with
  | none => .idle s
  | some g =>
    if groupOpen s gid g = false then .idle s
    else
      match pickFrag s gid g with
      | none => .idle s
      | some f =>
        let fid := fidOf f.lanes
        match f.park with
        | .modeRel eng => .idle (endModeV s gid fid g f eng)
        | .hdr _ _ => .idle (modGroup s gid fun g => modFrag g fid fun f => { f with park := .run })
        | _ =>
          match f.cl with
          | some (_, 0) => .idle (modGroup s gid fun g => arriveAt g fid f.pc false)
          | _ => fragPlan (modGroup s gid fun g => { g with marked := false }) gid g f

/-- Whether a sequencer may issue: its cluster runs, no stop or pre-emption asks for it, and its words are not used up (05 R84). -/
def seqOpen (s : State) (tid : Nat) (t : Team) (q : Seq) : Bool :=
  let c := (kvFind s.clusters t.cluster).getD noCluster
  q.busy && !teamGated s t && c.stop == .none && c.pre == .none && !((q.run.map fun n => decide (65536 ≤ n)).getD false) &&
    !waitsFor s (dieOfCore (t.cores.headD 0)) (.seq tid) &&
    match q.park with
    | .run => true
    | .writes => q.writes.isEmpty
    | .bar _ _ => false
/-- A word on which a `mjmp` or `mloop` has landed, and which is a header of another class. -/
def strays (q : Seq) (w : Word) : Bool := q.jumped && isHeader w && Cls.ofCode (fld w 21 3) != .mtx
/-- The fault of such a landing, before the word. By R26 and R21, which R56 and R60 name for it, its cause is ILLEGAL; by R342 it is
TARGET. The rules differ, so that which of the two it is stays free (DESIGN CHOICE, log 102). -/
def strayCause (s : State) : Cause := if Config.strayIllegal s.tick then .illegal else .target
/-- A sequencer's turn. FIRST of a record of its fetch is the global group ID of the team's group 0, a sequencer having none of its
own (DESIGN CHOICE, log 88). -/
def seqPlan (s : State) (tid : Nat) : Plan :=
  match kvFind s.teams tid with
  | none => .idle s
  | some t =>
    match t.seq with
    | none => .idle s
    | some q =>
      if seqOpen s tid t q = false then .idle s
      else
        let core := t.cores.headD 0
        let k := taskOfTeam s t
        let sid := ((kvFind s.cmds k.cmd).getD noCmd).sid
        let gid := t.lead
        match fetchWord s core k sid q.pc (fetchReq (.seq tid) 5 sid gid core q.pc) with
        | .off => .idle (seqFault s tid .target 0 q.pc)
        | .perm s1 => .idle (faultTask s1 ((kvFind s.clusters t.cluster).getD noCluster).task (causeCode .perm) q.pc gid)
        | .miss s1 => .idle s1
        | .word w s1 =>
          match q.cl with
          | none =>
            if strays q w then .idle (seqFault s1 tid (strayCause s1) 0 q.pc)
            else if isHeader w then .run (.clauseHeader w) { s1 with issue := .seq tid false }
            else .idle (seqFault s1 tid (if q.landed then .target else .illegal) 0 q.pc)
          | some (c, left) =>
            if left = 0 then .idle (modTeam s1 tid fun t => { t with seq := t.seq.map fun q => { q with cl := none, landed := false } })
            else
              match decodeWords c left w 0 with
              | .error _ => .idle (seqFault s1 tid .illegal 0 q.pc)
              | .ok x => .run x.instr { s1 with issue := .seq tid x.s }

end Sys2Proof.Machine
end

