-- ==== Sys2Proof/Machine/Ctl.lean ====
section
/-! DEFINITION. The CTL words (03 R48): moves, special registers, transfers, splits, the window, barriers, waits, allocation. -/
set_option Elab.async false
namespace Sys2Proof.Machine

/-! Moves (R347) and special registers (R77, R353, R390). -/

/-- No effect (R349). -/
def execNop (s : State) : Host.Outcome State Fault Refusal := word .nop s fun c => onGroup s c id
/-- s(sd) ← ZeroExtend(imm16). -/
def execMovi (d : BitVec 9) (i : BitVec 16) (s : State) : Host.Outcome State Fault Refusal :=
  word (.movi d i) s fun c => onGroup s c fun g => setS g d.toNat (i.setWidth 32)
/-- The high half; the low half stays. -/
def execMovhi (d : BitVec 9) (i : BitVec 16) (s : State) : Host.Outcome State Fault Refusal :=
  word (.movhi d i) s fun c => onGroup s c fun g => setS g d.toNat (i ++ (getS g d.toNat).extractLsb' 0 16)
/-- s(sd) ← s(sa). -/
def execMov (d a : BitVec 9) (s : State) : Host.Outcome State Fault Refusal :=
  word (.mov d a) s fun c => onGroup s c fun g => setS g d.toNat (getS g a.toNat)

/-- The 64-bit address of the current curd slot, with its space code; 0 for none (12 R239). -/
def curdOf (k : Task) : BitVec 64 :=
  match k.ladder with
  | some l => match l.curd with
    | some i => BitVec.ofNat 64 (codeOf (pairNat l.desc 2) * 2 ^ 58 + slotBase l.desc i)
    | none => 0
  | none => 0
/-- A special register as it stands (Tables 3-4, 4-4); the two wide ones are `wideSpecial`. -/
def special (s : State) (c : Ctx) (r : SReg) : Word :=
  let t := teamOf s c.g
  let k := taskOf s c.g
  let w4 := (lrWord k 4).toNat
  let gz := (lrWord k 5).toNat % 2 ^ 16
  match r with
  | .lane => c.f.lanes
  | .grp => BitVec.ofNat 32 c.g.idx
  | .teamX => BitVec.ofNat 32 t.x
  | .teamY => BitVec.ofNat 32 t.y
  | .teamZ => BitVec.ofNat 32 t.z
  | .nteam => BitVec.ofNat 32 (w4 % 2 ^ 16 * (w4 / 2 ^ 16) * gz)
  | .clus => BitVec.ofNat 32 (clusterOf s c.g).idx
  | .core => BitVec.ofNat 32 (coreOfGid c.gid)
  | .quad => BitVec.ofNat 32 (quadOfGid c.gid)
  | .gridX => BitVec.ofNat 32 (w4 % 2 ^ 16)
  | .gridY => BitVec.ofNat 32 (w4 / 2 ^ 16)
  | .gridZ => BitVec.ofNat 32 gz
  | .curd => (curdOf k).setWidth 32
  | .vseq => match k.ladder with
    | some l => l.counter
    | none => 0
  | .codeva => BitVec.ofNat 32 (codeVa k)
  | .fx => c.g.fx.setWidth 32
  | .fxen => c.g.fxen.setWidth 32
  | .fpm => c.g.fpm.setWidth 32
  | .ix => c.g.ix
  | .wb => BitVec.ofNat 32 c.g.wb
  | .alloc => BitVec.ofNat 32 (c.g.alloc / 16)
  | .clk => BitVec.ofNat 32 (coreOf s (coreOfGid c.gid)).clk
  | .clkhi => BitVec.ofNat 32 ((coreOf s (coreOfGid c.gid)).clk / 2 ^ 32)
  | .cpystat => c.g.cpystat.setWidth 32
  | .tcause => c.g.tcause
  | .tpc => c.g.tpc
  | .mpc => c.g.mpc
/-- %curd and %codeva. -/
def wideSpecial (s : State) (g : Group) (r : SReg) : BitVec 64 :=
  if r = .curd then curdOf (taskOf s g) else BitVec.ofNat 64 (codeVa (taskOf s g) % 2 ^ 55)
/-- Read a special register. -/
def execRds (d : BitVec 9) (r : SReg) (s : State) : Host.Outcome State Fault Refusal :=
  word (.rds d r) s fun c => onGroup s c fun g =>
    if r.wide then setPair g d.toNat (wideSpecial s c.g r) else setS g d.toNat (special s c r)
/-- The effect of a write (Table 19-23). -/
def writeSpecial (r : SReg) (v : Word) (g : Group) : Group :=
  match r with
  | .fx => { g with fx := g.fx &&& ~~~(v.setWidth 5) }
  | .fxen => { g with fxen := v.setWidth 5 }
  | .fpm => { g with fpm := v.setWidth 2 }
  | .ix => { g with ix := v }
  | .cpystat => { g with cpystat := g.cpystat &&& ~~~(v.setWidth 3) }
  | _ => g
/-- Write a special register. -/
def execWrs (r : SReg) (a : BitVec 9) (s : State) : Host.Outcome State Fault Refusal :=
  word (.wrs r a) s fun c => onGroup s c fun g => writeSpecial r (getS g a.toNat) g
/-- %ix ← s(sa) + imm16 (R70). -/
def execSetix (a : BitVec 9) (i : BitVec 16) (s : State) : Host.Outcome State Fault Refusal :=
  word (.setix a i) s fun c => onGroup s c fun g => { g with ix := getS g a.toNat + i.signExtend 32 }

/-! Branches (R313). -/

/-- A target: the word's address and a signed count of words (R25). -/
def target {n : Nat} (c : Ctx) (o : BitVec n) : Word := c.f.pc + 4 * o.signExtend 32
/-- Branch. -/
def execBr (o : BitVec 25) (s : State) : Host.Outcome State Fault Refusal :=
  word (.br o) s fun c => .jump s (target c o)
/-- Branch on zero. -/
def execBz (a : BitVec 9) (o : BitVec 16) (s : State) : Host.Outcome State Fault Refusal :=
  word (.bz a o) s fun c => if getS c.g a.toNat = 0 then .jump s (target c o) else onGroup s c id
/-- Branch on non-zero. -/
def execBnz (a : BitVec 9) (o : BitVec 16) (s : State) : Host.Outcome State Fault Refusal :=
  word (.bnz a o) s fun c => if getS c.g a.toNat ≠ 0 then .jump s (target c o) else onGroup s c id

/-! The window (R66 to R69). -/

/-- Values of the 32 lanes of a position, in address order. -/
def posBytes (g : Group) (p : Nat) : List Byte := bytesOfWords ((List.range 32).map fun l => getPos g p l)
/-- SpillBlock(LO), as many times as asked; LO rises (R67). -/
def spillBlocks (gid : Nat) : Nat → State → State
  | 0, s => s
  | n + 1, s =>
    match kvFind s.groups gid with
    | none => s
    | some g =>
      let bs := (List.range 8).flatMap fun i => posBytes g (g.lo + i)
      let s1 := publishOwn s gid (g.spillBase + g.regTop) bs
      spillBlocks gid n (count (modGroup s1 gid fun g => { g with regTop := g.regTop + 1024, lo := g.lo + 8 }) (coreOfGid gid) 3 1)
/-- Write eight positions from the words of a block. -/
def putBlock (p : Nat) (ws : List Word) (g : Group) : Group :=
  ws.zipIdx.foldl (fun g x => setPos g (p + x.2 / 32) (x.2 % 32) x.1) g
/-- FillBlock below LO, as many times as asked; LO falls first (R66, R67). -/
def fillBlocks (gid : Nat) : Nat → State → State
  | 0, s => s
  | n + 1, s =>
    match kvFind s.groups gid with
    | none => s
    | some g =>
      let top := g.regTop - 1024
      let ws := wordsOf ((List.range 1024).map fun i => peekSp s (coreOfGid gid) (g.spillBase + top + i))
      fillBlocks gid n (count (modGroup s gid fun g => putBlock (g.lo - 8) ws { g with regTop := top, lo := g.lo - 8 })
        (coreOfGid gid) 4 1)
/-- Blocks to spill so that a window of w registers from position b fits an allocation of a (R66, R73). -/
def blocksNeeded (g : Group) (b w a : Nat) : Nat := (b + w - (g.lo + a) + 7) / 8
/-- A lane of a register that enters the window unwritten: zero, or a value that a register of the group has held in that lane since the
group was placed (R69, log 7). -/
def enterLane (tick p l : Nat) (g : Group) : Group :=
  let vs := 0 :: (g.v.past.filter fun e => e.1 == l).map (·.2)
  setPos g p l (vs.getD (Config.entering tick (32 * p + l) % vs.length) 0)
def enterPos (tick p : Nat) (g : Group) : Group := (List.range 32).foldl (fun x l => enterLane tick p l x) g
/-- Positions [a, b) enter. -/
def enterRange (tick a b : Nat) (g : Group) : Group := ((List.range (b - a)).map (a + ·)).foldl (fun x p => enterPos tick p x) g
/-- Matrix mode, or a live lane outside the issuing fragment (R66). -/
def slideBlocked (c : Ctx) : Bool := c.g.matrix || liveOf c.g != c.f.lanes
/-- Bytes of a spilled link entry (R67). -/
def linkBytes (e : Word × Nat) : List Byte := bytesOfWords [e.1, BitVec.ofNat 32 e.2]
/-- A full link stack gives up its oldest entry. -/
def spillLink (gid : Nat) (s : State) : State :=
  match kvFind s.groups gid with
  | none => s
  | some g =>
    if g.link.length < 16 then s
    else
      match g.link.getLast? with
      | none => s
      | some e =>
        modGroup (publishOwn s gid (g.spillBase + (g.linkBot - 8)) (linkBytes e)) gid fun g =>
          { g with linkBot := g.linkBot - 8, link := g.link.dropLast }
/-- `call` (R66, R314). -/
def execCall (k : BitVec 3) (o : BitVec 22) (s : State) : Host.Outcome State Fault Refusal :=
  word (.call k o) s fun c =>
    if slideBlocked c then .trap s .mode 0
    else
      let g := c.g
      let w := window g
      let n := blocksNeeded g (g.wb + 8 * k.toNat) w g.alloc
      if g.linkBot < g.regTop + 1024 * n + (if g.link.length < 16 then 0 else 8) then .trap s .spill 0
      else
        let s1 := spillLink c.gid s
        let s2 := modGroup s1 c.gid fun g =>
          { g with link := (c.f.pc + 4, k.toNat) :: g.link, wb := g.wb + 8 * k.toNat }
        let s3 := spillBlocks c.gid n s2
        .jump (modGroup s3 c.gid (enterRange s.tick (g.wb + w) (g.wb + 8 * k.toNat + w))) (target c o)
/-- The link entry `ret` takes, and the group without it. -/
def popLink (s : State) (gid : Nat) (g : Group) : Option ((Word × Nat) × Group) :=
  match g.link with
  | e :: t => some (e, { g with link := t })
  | [] =>
    if g.spillSize ≤ g.linkBot then none
    else
      match wordsOf ((List.range 8).map fun i => peekSp s (coreOfGid gid) (g.spillBase + g.linkBot + i)) with
      | a :: k :: _ => some ((a, k.toNat % 8), { g with linkBot := g.linkBot + 8 })
      | _ => none
/-- `ret` (R66, R357). A step of an overwritten spilled entry that is longer than WB, which leaves no window the spec describes,
gives WB 0 (DESIGN CHOICE, log 41). -/
def execRet (s : State) : Host.Outcome State Fault Refusal :=
  word .ret s fun c =>
    if slideBlocked c then .trap s .mode 0
    else
      match popLink s c.gid c.g with
      | none => .trap s .target 0
      | some ((a, k), g) =>
        let wb := g.wb - 8 * k
        let s1 := modGroup s c.gid fun _ => { g with wb := wb }
        .jump (fillBlocks c.gid ((g.lo - wb + 7) / 8) s1) a

/-! Splits (R86, R87). -/

/-- The entries of the split table that are open (R88). -/
def openEntries (l : List SplitRec) : Nat := (l.filter fun r => match r with
  | .entry _ _ _ _ => true
  | .hold _ _ _ _ _ _ _ _ => false).length
/-- The clause of a fragment after so many words. -/
def clauseAfter (f : Frag) (words : Nat) : Option (Cls × Nat) := f.cl.map fun e => (e.1, e.2 - words)
/-- Both sides have lanes: a new entry, or with a full table a hold record. -/
def divide (c : Ctx) (taken rest : Mask) (dst rejoin : Word) (g : Group) : Group :=
  let others := g.frags.filter fun x => fidOf x.lanes ≠ c.fid
  let t : Frag := { c.f with lanes := taken, pc := dst, cl := none, landed := true, park := .run, passed := [] }
  if openEntries g.splits < 8 then
    let n : Frag := { c.f with lanes := rest, park := .run, passed := [] }
    reach 64 t (advance { g with splits := .entry c.f.lanes 0 rejoin c.f.safe :: g.splits, frags := others ++ [n] } (fidOf rest) c.words)
  else
    reach 64 t { g with
      splits := .hold rest taken 0 rejoin (c.f.pc + BitVec.ofNat 32 (4 * c.words)) (clauseAfter c.f c.words) false c.f.safe :: g.splits
      frags := others }
/-- `split`. -/
def execSplit (m : BitVec 3) (t r : BitVec 11) (s : State) : Host.Outcome State Fault Refusal :=
  word (.split m t r) s fun c =>
    let taken := c.f.lanes &&& getM c.g m.toNat
    let rest := c.f.lanes &&& ~~~getM c.g m.toNat
    if taken = 0 then onGroup s c id
    else if rest = 0 then .jump s (target c t)
    else .gone (modGroup s c.gid (divide c taken rest (target c t) (target c r)))
/-- `join` (R332). -/
def execJoin (s : State) : Host.Outcome State Fault Refusal :=
  word .join s fun c =>
    match innermost c.f.lanes c.g.splits with
    | some (_, r, _) => .jump s (rejoinOf r)
    | none => .trap s .target 0
/-- `exit` (R105, R322). -/
def execExit (s : State) : Host.Outcome State Fault Refusal :=
  word .exit s fun c =>
    if c.g.matrix then .trap s .mode 0
    else
      deliveryPoint s c [] .hold
        (if liveOf c.g &&& ~~~c.f.lanes = 0 then
          if digestOpen s c.g then .wait s (.drain [.ld, .st] .plain)
          else withEvent s c evExit fun s1 => .gone (retire s1 c.gid c.f.lanes)
        else .gone (retire s c.gid c.f.lanes))

/-! Waits and barriers (R93, R94, R389). -/

/-- `waitc`. -/
def execWaitc (p : Path) (a : BitVec 9) (s : State) : Host.Outcome State Fault Refusal :=
  word (.waitc p a) s fun c =>
    let t := (getS c.g a.toNat).toNat
    if counter c.g p ≤ t then onGroup s c (absorb [p]) else .park s (.count p t)
/-- The groups of a team are 32 lanes each. -/
def teamLanes (t : Team) : Nat := 32 * t.groups.length
/-- `barinit`. -/
def execBarinit (n : BitVec 4) (s : State) : Host.Outcome State Fault Refusal :=
  word (.barinit n) s fun c =>
    let e := teamLanes (teamOf s c.g)
    deliveryPoint s c [] .hold
      (.ok (barEvent s c.g.team n.toNat fun b => { b with expl := e, expb := 0, expe := 0, arrl := 0, arrb := 0, arre := 0 }))
/-- The limits of `barexp`. -/
def barLimit : BarKind → Nat
  | .lanes => 2048
  | .bytes => 2 ^ 24
  | .eng => 15
/-- Set an expected count. -/
def setExpected (k : BarKind) (v : Nat) (b : Bar) : Bar :=
  match k with
  | .lanes => { b with expl := v }
  | .bytes => { b with expb := v }
  | .eng => { b with expe := v }
/-- `barexp` (R311). -/
def execBarexp (k : BarKind) (n : BitVec 4) (a : BitVec 9) (s : State) : Host.Outcome State Fault Refusal :=
  word (.barexp k n a) s fun c =>
    let v := (getS c.g a.toNat).toNat
    deliveryPoint s c [] .hold
      (if barLimit k < v then .trap s .bounds 0 else .ok (barEvent s c.g.team n.toNat (setExpected k v)))
/-- A lane arrival: the release at team scope (R197), AP and APV, then the barrier's event. -/
def arriveAtBar (s : State) (c : Ctx) (n : Nat) : State :=
  let s1 := publishScope s c.g c.gid .team
  let s2 := modGroup s1 c.gid fun g =>
    { g with ap := putBit g.ap n (barOf (teamOf s c.g) n).phase, apv := putBit g.apv n true }
  arriveLanes s2 c.g.team n (laneCount c.f.lanes)
/-- `barin`. -/
def execBarin (n : BitVec 4) (s : State) : Host.Outcome State Fault Refusal :=
  word (.barin n) s fun c =>
    deliveryPoint s c (relPaths .team) .hold
      (withEvent s c n.toNat fun s1 => .ok (arriveAtBar s1 c n.toNat))
/-- The wait of R94, as `park`: the fragment waits, or the wait ends at once, and its acquire is made once the ld counter is zero
(R197); `e` is what follows it. -/
def waitAtBar (s : State) (c : Ctx) (n : Nat) (park : Park) (e : AcqEnd) (k : State → Eff) : Eff :=
  match kvFind s.groups c.gid with
  | none => .ok s
  | some g =>
    match barWaitNow (barOf (teamOf s g) n) n g with
    | (true, g1) =>
      let s1 := { s with groups := kvPut s.groups c.gid g1 }
      if counter g1 .ld = 0 then k (acquireNow s1 c.gid (some n) .team) else .park s1 (.acq (some n) .team e)
    | (false, g1) => .park { s with groups := kvPut s.groups c.gid g1 } park
/-- `barwait`. -/
def execBarwait (n : BitVec 4) (s : State) : Host.Outcome State Fault Refusal :=
  word (.barwait n) s fun c => deliveryPoint s c [] .point (waitAtBar s c n.toNat (.bar n.toNat) .point .ok)
/-- `barsync`. -/
def execBarsync (n : BitVec 4) (s : State) : Host.Outcome State Fault Refusal :=
  word (.barsync n) s fun c =>
    deliveryPoint s c (relPaths .team) .point
      (withEvent s c n.toNat fun s1 => waitAtBar (arriveAtBar s1 c n.toNat) c n.toNat (.bar n.toNat) .point .ok)

/-! Sequencer, active set, allocation (R71 to R73, R96, R97, R226). -/

/-- SAP takes each barrier's phase. -/
def phases (t : Team) : BitVec 16 := (List.range 16).foldl (fun v n => putBit v n (barOf t n).phase) 0
/-- The sequencer's state at `fork` (Table 6-2); writes of steps done before a fault still come (R117). -/
def forked (t : Team) (pc : Word) (writes : List SeqWrite) : Seq :=
  { busy := true, pc := pc, cl := none, landed := true, jumped := false, k := [], pa := 0, pb := 0, share := 2, acc := [], ahold := [],
    bhold := [], sap := phases t, flags := 0, park := .run, stepIdx := 0, writes := writes, run := none }
/-- `fork` (R324). -/
def execFork (s : State) : Host.Outcome State Fault Refusal :=
  word .fork s fun c =>
    let t := teamOf s c.g
    if c.g.idx ≠ 0 ∨ (t.seq.map (·.busy)).getD true = true then .trap s .mode 0
    else .ok (modTeam s c.g.team fun t => { t with seq := t.seq.map fun q => forked t (lrWord (taskOf s c.g) 3) q.writes })
/-- `rdzv` (R97, R104, R354). -/
def execRdzv (s : State) : Host.Outcome State Fault Refusal :=
  word .rdzv s fun c =>
    match pendingSeq s c.g with
    | some x => .seqFault (clearFault s c.g) x
    | none => if ((teamOf s c.g).seq.map (·.busy)).getD false then .park s .rdzv else onGroup s c id
/-- Ready inactive groups of a quadrant. -/
def readyInactive (s : State) (gid : Nat) : List Nat :=
  (s.groups.filter fun g => g.1 / 16 == gid / 16 && g.1 != gid && !g.2.active && groupReady s g.1 g.2).map (·.1)
/-- `yield`. -/
def execYield (s : State) : Host.Outcome State Fault Refusal :=
  word .yield s fun c =>
    let rs := readyInactive s c.gid
    onGroup s c fun g => if rs.isEmpty then g else { g with active := false, yielded := rs }
/-- `grow`: denied at once past 256 registers, else queued at the quadrant with the group parked at the word (R71). -/
def execGrow (d : BitVec 9) (n : BitVec 4) (s : State) : Host.Outcome State Fault Refusal :=
  word (.grow d n) s fun c =>
    if 256 < c.g.alloc + 16 * n.toNat then onGroup s c fun g => setS g d.toNat 0
    else
      let quad := c.gid / 16
      .gone (checkGrow (setGrowQueue (modGroup s c.gid fun g => { g with park := .grow d.toNat n.toNat c.fid }) quad
        (growQueue s quad ++ [c.gid])) quad)
/-- `shrink` (R73, R362). -/
def execShrink (n : BitVec 4) (s : State) : Host.Outcome State Fault Refusal :=
  word (.shrink n) s fun c =>
    let g := c.g
    if g.matrix then .trap s .mode 0
    else if g.alloc < 16 * n.toNat + 32 then .trap s .regidx 0
    else if pendingPaths g [.ld, .sfu] then .wait s (.drain [.ld, .sfu] .plain)
    else
      let a := g.alloc - 16 * n.toNat
      let b := blocksNeeded g g.wb (min 64 a) a
      if g.linkBot < g.regTop + 1024 * b then .trap s .spill 0
      else
        .ok (modGroup (spillBlocks c.gid b s) c.gid fun g =>
          { g with alloc := a, v := { g.v with now := g.v.now.filter fun e => decide (e.1 / 32 < g.lo + a) } })

end Sys2Proof.Machine
end

