-- ==== Sys2Proof/Machine/Queue.lean ====
section
/-! DEFINITION. Queues (11 R205 to R213): hub accesses, claims, doorbells, the parser loop, packets' forms, commands and tasks;
and the words `enq` and `qpost`. -/
set_option Elab.async false
namespace Sys2Proof.Machine

/-! Hub accesses through a space's translation, at die 1 (R176). -/

/-- What a hub access of n bytes finds: pages to ask for; a refusal by permission or tag; where the bytes stand. -/
inductive HubAt
  | miss (pages : List Nat)
  | refused
  | at_ (ls : List Loc)
/-- What follows each finding. -/
def onHub {α : Type} (h : HubAt) (miss : List Nat → α) (refused : α) (found : List Loc → α) : α :=
  match h with
  | .miss ps => miss ps
  | .refused => refused
  | .at_ ls => found ls
/-- What follows two accesses: a refusal of either comes first, then a page that either misses. -/
def onBoth {α : Type} (a b : HubAt) (miss : List Nat → α) (refused : α) (found : List Loc → List Loc → α) : α :=
  match a, b with
  | .refused, _ => refused
  | _, .refused => refused
  | .miss p, _ => miss p
  | _, .miss p => miss p
  | .at_ x, .at_ y => found x y
/-- The pages of a hub access. -/
def hubPages (s : State) (sid : Nat) (kind : AKind) (key a n : Nat) : List Nat → HubAt → HubAt
  | [], r => r
  | p :: ps, r =>
    match peek s none 1 sid p, r with
    | _, .refused => .refused
    | none, .miss l => hubPages s sid kind key a n ps (.miss (l ++ [p]))
    | none, .at_ _ => hubPages s sid kind key a n ps (.miss [p])
    | some t, r =>
      let q := pagePart a n p
      if !permits t kind || (tagMiss s t key q.1 q.2).isSome then .refused
      else
        match r with
        | .at_ l => hubPages s sid kind key a n ps (.at_ (l ++ (List.range q.2).map fun i => trLoc t (q.1 + i)))
        | x => hubPages s sid kind key a n ps x
/-- Where a hub access at a 64-bit address of main memory or SP leads (Table 8-1); one access entry covers an SP access (16 R300). -/
def hubRaw (s : State) (sid : Nat) (kind : AKind) (v n : Nat) : HubAt :=
  let a := vaOf v
  match codeOf v with
  | 0 => if 2 ^ 55 < a + n then .refused else hubPages s sid kind (keyOf v) a n (pagesOf a n) (.at_ [])
  | 1 =>
    if inWindow s sid a n && admitted s (.ctx sid) 0 a n kind then .at_ ((List.range n).map fun i => .sp (a + i)) else .refused
  | _ => .refused
/-- The peer a place lies on. -/
def peerOf : Loc → Option Nat
  | .peer p _ => some p
  | _ => none
/-- Whether the accesses to some places are carried out (R174, 16 R292). -/
def locsReach (s : State) (ls : List Loc) : Reach :=
  let ps := ls.filterMap peerOf
  if ps.any fun p => !peerUp s p then .down else if ps.isEmpty || Config.peerAdmits s.tick then .yes else .refused
/-- The same where a refusal by a peer, or one that no port reaches, counts as one by permission. -/
def hubAt (s : State) (sid : Nat) (kind : AKind) (v n : Nat) : HubAt :=
  match hubRaw s sid kind v n with
  | .at_ ls => if locsReach s ls = .yes then .at_ ls else .refused
  | h => h
/-- A refusal found at a peer makes an error record, with cause LINKDOWN where no port reaches it (R174, 16 R292; log 77). -/
def hubNote (s : State) (sid : Nat) (kind : AKind) (v n : Nat) : State :=
  match hubRaw s sid kind v n with
  | .at_ ls =>
    (match locsReach s ls with
      | .yes => s
      | .down => errorRecord s 6 0 sid 0 v 0 0 0
      | .refused => errorRecord s 4 0 sid 0 v 0 0 0)
  | _ => s
/-- The hub asks for pages. -/
def hubRequest (s : State) (sid : Nat) (kind : AKind) (who : Who) (pages : List Nat) : State :=
  pages.foldl (fun x p => requestOnce x 1
    { sid := sid, page := p, kind := kind, who := who, eng := 6, gid := 0, core := 0, pc := 0 }) s
/-- Bytes at a list of places; a write to SP is published. -/
def readLocs (s : State) (ls : List Loc) : List Byte := ls.map (readByte s)
def putByte (s : State) (l : Loc) (b : Byte) : State :=
  match l with
  | .sp a => publish s a b
  | _ => writeByte s l b
def writeLocs : List Loc → List Byte → State → State
  | l :: ls, b :: bs, s => writeLocs ls bs (putByte s l b)
  | _, _, s => s
/-- The peer of the first byte. -/
def peerOfAll (ls : List Loc) : Option Nat := ls.head?.bind peerOf

/-! Commands and tasks (R211 to R213). -/

/-- Words of a packet. -/
def pktType (w : List Word) : Nat := (w.getD 0 0).toNat % 256
def pktBarrier (w : List Word) : Bool := (w.getD 0 0).toNat / 256 % 2 == 1
/-- A packet becomes an open command of its queue. -/
def newCmd (s : State) (q : Nat) (x : Queue) (w : List Word) (launch : Bool) : Nat × State :=
  let (c, s1) := fresh s
  let k : Command :=
    { queue := q, seq := w.getD 1 0, cr := pairNat w 2, sid := x.sid, priv := x.priv, launch := launch,
      spawn := if launch then 1 else 0, tasks := 0, ending := none, vseq := 0, vqual := 0, recd := none, repl := none,
      inval := none, closing := false, ran := [] }
  (c, modQueue { s1 with cmds := kvPut s1.cmds c k } q fun y => { y with opened := y.opened ++ [c] })
/-- A command ends with a status and a cause, and its record is due (R208, R210). -/
def endCmd (s : State) (c status cause : Nat) : State :=
  modCmd s c fun x => { x with closing := true, ending := some { status := status, cause := cause, tpc := 0, ggid := 0 } }
/-- A command ends well. -/
def okCmd (s : State) (c : Nat) : State := modCmd s c fun x => { x with closing := true }
/-- A packet that does not start completes REJECTED. -/
def rejectPacket (s : State) (q : Nat) (x : Queue) (w : List Word) (cause : Nat) : State :=
  let (c, s1) := newCmd s q x w false
  endCmd s1 c 4 cause
/-- A task is ready: it waits in its priority's FIFO. -/
def newTask (s : State) (cmd lraddr : Nat) (args : List Word) (tcb : Option (BitVec 64)) : State :=
  let (t, s1) := fresh s
  let prio := ((kvFind s.queues ((kvFind s.cmds cmd).getD noCmd).queue).map (·.prio)).getD 0
  let k : Task :=
    { cmd := cmd, lraddr := lraddr, lr := [], args := args, tcb := tcb, prio := prio, queued := true, order := t, nextCl := 0,
      pass := 0, urgent := false, placedNs := 0, gone := 0, dead := false, ladder := none, stagger := none }
  { s1 with tasks := kvPut s1.tasks t k }

/-! Packet forms (Tables 11-3, 11-4). -/

def zeroWords (w : List Word) (a b : Nat) : Bool := (w.take b).drop a |>.all fun x => x == 0
/-- A main-memory address with nothing reserved set. -/
def mainOk (v : Nat) : Bool := codeOf v == 0 && addrOk false v
/-- A main-memory or SP address with nothing reserved set. -/
def mainOrSp (v : Nat) : Bool := decide (codeOf v ≤ 1) && addrOk false v
/-- Reserved bits and unknown types (cause 0x20). -/
def pktReserved (w : List Word) : Bool :=
  let n (i : Nat) : Nat := (w.getD i 0).toNat
  bitsOf (n 0) 9 23 != 0 ||
    match pktType w with
    | 1 => !zeroWords w 6 16
    | 2 => !zeroWords w 12 16
    | 3 => !zeroWords w 13 16 || bitsOf (n 8) 3 29 != 0
    | 4 => !zeroWords w 11 16 || bitsOf (n 10) 2 30 != 0
    | 5 => !zeroWords w 8 16
    | 6 => bitsOf (n 4) 2 30 != 0 || bitsOf (n 5) 12 20 != 0 ||
        (match n 4 % 4 with
          | 0 => !zeroWords w 12 16 || bitsOf (n 8) 5 3 != 0 || bitsOf (n 8) 23 9 != 0
          | 1 => !zeroWords w 6 16
          | 2 => !zeroWords w 7 16
          | _ => false)
    | _ => true
/-- Fields out of range or misaligned (cause 0x21), as far as the packet alone shows them. An address with a reserved bit set or of
another space counts as a field out of range, not as a reserved bit (DEDUCED, log 90). -/
def pktBad (w : List Word) : Bool :=
  let n (i : Nat) : Nat := (w.getD i 0).toNat
  let v (i : Nat) : Nat := pairNat w i
  v 2 % 32 != 0 || !mainOk (v 2) ||
    match pktType w with
    | 1 => v 4 % 64 != 0 || !mainOk (v 4)
    | 3 => v 4 % 8 != 0 || !mainOrSp (v 4) || n 8 == 7 || (n 8 != 3 && v 9 != 0) || v 11 % 8 != 0 || !mainOrSp (v 11)
    | 4 => v 4 % 8 != 0 || !mainOrSp (v 4)
    | 6 => n 4 == 3 || (n 4 == 0 && (n 8 % 32 < 6 || 16 < n 8 % 32 || v 6 % (64 * 2 ^ (n 8 % 32)) != 0 || !mainOk (v 6) ||
        !mainOk (v 9)))
    | _ => false
/-- Why a packet cannot start at all. -/
def pktCause (q : Nat) (x : Queue) (w : List Word) : Option Nat :=
  if pktReserved w then some 0x20
  else if pktBad w then some 0x21
  else if pktType w = 6 ∧ q ≠ 0 then some 0x26
  else if pktType w = 5 ∧ x.priv = false then some 0x26
  else none

/-! Claims, doorbells, the parser loop (R206, R207). -/

/-- A claim: the index, or a refusal of a full ring, an absent queue, a part in thermal shutdown, or a queue whose destroy waits
for its commands, which the spec does not name (DESIGN CHOICE, log 91). -/
def claim (s : State) (q : Nat) : Option Word × State :=
  match kvFind s.queues q with
  | none => (none, s)
  | some x =>
    if x.widx - x.ridx = BitVec.ofNat 32 (2 ^ x.logn) ∨ s.power.shutdown = true ∨ x.destroying ≠ none then (none, s)
    else (some x.widx, modQueue s q fun y => { y with widx := y.widx + 1 })
/-- The 64-bit address of a slot. -/
def slotAddr (x : Queue) (i : Word) : Nat := x.ring + 64 * (i.toNat % 2 ^ x.logn)
/-- The journal keeps its newest entries: 256 KiB hold 8,192 (16 R296). -/
def journal (s : State) (core a b c : Nat) : State :=
  { s with trust := { s.trust with journal := ((core, a, b, c) :: s.trust.journal).take 8192 } }
/-- The parser loop of a queue, one packet at a time: a packet whose SEQ is written is copied out and RIDX rises; the loop
goes on once that packet has started. -/
def parse (s : State) (q : Nat) : State :=
  match kvFind s.queues q with
  | none => s
  | some x =>
    if x.door = false ∨ x.held ≠ none ∨ s.power.shutdown = true ∨ s.trust.deviceFailed = true then s
    else
      match hubAt s x.sid .read (slotAddr x x.ridx) 64 with
      | .miss ps => hubRequest s x.sid .read (.ring q) ps
      | .refused => modQueue (hubNote s x.sid .read (slotAddr x x.ridx) 64) q fun y => { y with door := false }
      | .at_ ls =>
        let w := wordsOf (readLocs s ls)
        if w.getD 1 0 = x.ridx + 1 then
          modQueue (journal s 0 q x.ridx.toNat (pktType w)) q fun y => { y with ridx := y.ridx + 1, held := some w }
        else modQueue s q fun y => { y with door := false }
/-- A doorbell; one that comes while the loop runs makes it run once more. -/
def ring (s : State) (q : Nat) : State :=
  if s.power.shutdown then s else parse (modQueue s q fun y => { y with door := true }) q
/-- The held packet has started: the loop goes on. -/
def nextPacket (s : State) (q : Nat) : State := parse (modQueue s q fun y => { y with held := none }) q
/-- The effect of a packet at the head of its queue, where it may start: its form is right, every earlier packet has completed
where it asks for that, no WAITVALUE holds it (R207). -/
def startPacket (s : State) (q ty : Nat) (k : Queue → List Word → State → State) : State :=
  match kvFind s.queues q with
  | none => s
  | some x =>
    match x.held with
    | none => s
    | some w =>
      if (pktType w ≠ ty ∧ 1 ≤ pktType w ∧ pktType w ≤ 6) ∨ x.wait.isSome = true ∨ (pktBarrier w = true ∧ x.opened ≠ []) ∨ waitsFor s 1 (.ring q) = true ∨
          s.power.shutdown = true ∨ s.trust.deviceFailed = true then s
      else
        match pktCause q x w with
        | some e => nextPacket (rejectPacket s q x w e) q
        | none => k x w s

/-! `enq` (R213, R320). -/

/-- The waits and the publication of a leading `phrel.sys` without the FPX check. -/
def leadSys (s : State) (c : Ctx) (k : State → Eff) : Eff := leading s c .sys k
/-- A TCB with a reserved bit set, a STATE, or a misaligned record address. -/
def tcbBad (w : List Word) : Bool :=
  bitsOf (w.getD 0 0).toNat 20 12 != 0 || w.getD 1 0 != 0 || pairNat w 2 % 64 != 0 || !zeroWords w 26 32
/-- `enq`. -/
def execEnq (d : BitVec 9) (s : State) : Host.Outcome State Fault Refusal :=
  word (.enq d) s fun c => leadSys s c fun s1 =>
    let v := (getPair c.g d.toNat).toNat
    let sid := sidOf s1 c.g
    let k := taskOf s1 c.g
    if 2 ^ 24 - 1 ≤ (cmdOf s1 c.g).spawn then .wait s1 .spawnFull
    else if vaOf v % 128 ≠ 0 then .trap s1 .align 0
    else if mainOrSp v = false ∨ (codeOf v = 1 ∧ inWindow s1 sid (vaOf v) 128 = false) ∨ (codeOf v = 0 ∧ 2 ^ 55 < vaOf v + 128) then
      .trap s1 .bounds 0
    else
      match hubRaw s1 sid .read v 128, hubRaw s1 sid .write v 128 with
      | .at_ ls, b =>
        if locsReach s1 ls ≠ .yes then failsLate s1 c .perm (if locsReach s1 ls = .down then 6 else 4) v
        else
          let w := wordsOf (readLocs s1 ls)
          if tcbBad w then .trap s1 .bounds 0
          else
            (match b with
              | .at_ _ =>
                let ready := decide ((w.getD 0 0).toNat % 2 ^ 16 = 0)
                let s2 := writeLocs (ls.drop 4) (bytesOf (if ready then 2 else 1)) s1
                let s3 := modCmd s2 k.cmd fun x => { x with spawn := x.spawn + 1 }
                .ok (if ready then newTask s3 k.cmd (pairNat w 2) ((w.drop 18).take 8) (some (BitVec.ofNat 64 v)) else s3)
              | _ => .trap s1 .perm 0)
      | .miss ps, _ =>
        .wait (ps.foldl (fun x p => request x 1 { sid := sid, page := p, kind := .read, who := .grp c.gid, eng := 6, gid := 0,
                                                  core := coreOfGid c.gid, pc := c.f.pc }) s1) .run
      | .refused, _ => .trap s1 .perm 0

/-! `qpost` (R216, R351). -/

/-- A word of a packet replaced. -/
def withSeq (w : List Word) (v : Word) : List Word := w.set 1 v
/-- Post to a queue of this device: the index, or a refusal at once. A slot that refuses the write keeps its bytes, with an error
record (DEDUCED, log 55). -/
def postLocal (s : State) (c : Ctx) (q d : Nat) (image : List Word) : Eff :=
  match claim s q, kvFind s.queues q with
  | (some i, s1), some x =>
    let a := slotAddr x x.widx
    (match hubAt s x.sid .write a 64 with
      | .miss ps =>
        .wait (ps.foldl (fun y p => request y 1 { sid := x.sid, page := p, kind := .write, who := .grp c.gid, eng := 6, gid := 0,
                                                  core := coreOfGid c.gid, pc := c.f.pc }) s) .run
      | .at_ ls => onGroup (ring (writeLocs ls (bytesOfWords (withSeq image (i + 1))) s1) q) c fun g => setS g (d + 3) i
      | .refused =>
        let down : Bool := match hubRaw s x.sid .write a 64 with
          | .at_ ls => locsReach s ls == .down
          | _ => false
        onGroup (ring (errorRecord s1 (if down then 6 else 4) 0 x.sid c.gid a 0 0 0) q) c fun g => setS g (d + 3) i)
  | (_, s1), _ => onGroup s1 c fun g => setS g (d + 3) 0xFFFFFFFF
/-- Post to a queue of a peer (16 R292): the image and the doorbell go over the link. -/
def postRemote (s : State) (c : Ctx) (p q d : Nat) (image : List Word) : Eff :=
  match Config.peerClaim s.tick with
  | none => onGroup s c fun g => setS g (d + 3) 0xFFFFFFFF
  | some i =>
    let m : Reply := { dest := .peer p, words := BitVec.ofNat 32 q :: withSeq image (i + 1) }
    onGroup { s with out := s.out ++ [m] } c fun g => setS g (d + 3) i
/-- `qpost`. -/
def execQpost (d : BitVec 9) (s : State) : Host.Outcome State Fault Refusal :=
  word (.qpost d) s fun c => leadSys s c fun s1 =>
    let n := d.toNat
    let w := (getS c.g n).toNat
    let a := (getS c.g (n + 2)).toNat
    let q := w % 2 ^ 12
    let p := bitsOf w 12 5
    let remote := bitsOf w 17 1 == 1
    let sid := sidOf s1 c.g
    if a % 64 ≠ 0 then .trap s1 .align 0
    else if bitsOf w 18 14 ≠ 0 ∨ getS c.g (n + 1) ≠ 0 ∨ inWindow s1 sid a 64 = false then .trap s1 .bounds 0
    else if admitted s1 (.ctx sid) 0 a 64 .read = false then .trap s1 .perm 0
    else if remote && !peerUp s1 p then .trap (errorRecord s1 6 0 sid c.gid a 0 0 0) .perm 0
    else if (if remote then Config.peerAdmits s1.tick else admitted s1 (.ctx sid) 2 q 1 .write) = false then .trap s1 .perm 0
    else
      let image := wordsOf ((List.range 64).map fun i => peekSp s1 (coreOfGid c.gid) (a + i))
      if remote then postRemote s1 c p q n image else postLocal s1 c q n image

end Sys2Proof.Machine
end

