-- ==== Sys2Proof/Machine/Vat.lean ====
section
/-! DEFINITION. The version unit (12): heads and rind records in memory, the vat table, curd slots, seal points, the end of a
vat, and the checks of a head address. -/
set_option Elab.async false
namespace Sys2Proof.Machine

/-! Heads and rind records (Tables 12-2, 12-3). A vat is named by the key of its head's first byte; its head region lies in one
block of one target, so byte i of it has that key and i more. -/

/-- The place a key stands for. -/
def keyLoc (k : Nat) : Loc :=
  if k < 2 ^ 44 then .hbm k
  else if k < 2 ^ 45 then .sp (k - 2 ^ 44)
  else if k < 2 ^ 46 then .sh ((k - 2 ^ 45) / 2 ^ 21) ((k - 2 ^ 45) % 2 ^ 21)
  else if k < 2 ^ 57 then .sm ((k - 2 ^ 46) / 2 ^ 14 / 4) ((k - 2 ^ 46) / 2 ^ 14 % 4) ((k - 2 ^ 46) % 2 ^ 14)
  else if k < 2 ^ 58 then .host (k - 2 ^ 57)
  else .peer ((k - 2 ^ 58) / 2 ^ 52) ((k - 2 ^ 58) % 2 ^ 52)
def vatLocs (key off n : Nat) : List Loc := (List.range n).map fun i => keyLoc (key + off + i)
def vatWord (s : State) (key i : Nat) : Word := (wordsOf (readLocs s (vatLocs key (4 * i) 4))).getD 0 0
def vatWrite (s : State) (key i : Nat) (ws : List Word) : State :=
  writeLocs (vatLocs key (4 * i) (4 * ws.length)) (bytesOfWords ws) s
/-- Words of the head region that no reader finds some changed and others not (R238). -/
def vatWriteOnce (s : State) (key : Nat) (l : List (Nat × List Word)) : State :=
  let bs := l.flatMap fun e => (vatLocs key (4 * e.1) (4 * e.2.length)).zip (bytesOfWords e.2)
  let inSp (e : Loc × Byte) : Option (Nat × Byte) := match e.1 with
    | .sp a => some (a, e.2)
    | _ => none
  publishAtOnce (bs.filterMap inSp) ((bs.filter fun e => (inSp e).isNone).foldl (fun x e => putByte x e.1 e.2) s)
/-- Word i of rind record n. -/
def rindAt (n i : Nat) : Nat := 16 * (n + 1) + i
def rindWord (s : State) (key n i : Nat) : Word := vatWord s key (rindAt n i)
def rindStatus (s : State) (key n : Nat) : Nat := bitsOf (rindWord s key n 2).toNat 8 2
/-- Fields of a head. -/
def headMagic (s : State) (key : Nat) : Bool := (vatWord s key 0).toNat % 2 ^ 16 == 0x5EA1
def headK (s : State) (key : Nat) : Nat := bitsOf (vatWord s key 0).toNat 16 4
def headEnded (s : State) (key : Nat) : Bool := bitsOf (vatWord s key 0).toNat 20 1 == 1
def newSeq (s : State) (key : Nat) : Word := vatWord s key 1
def newQual (s : State) (key : Nat) : Word := vatWord s key 2
def newSlot (s : State) (key : Nat) : Nat := (vatWord s key 3).toNat % 8
/-- Word 0 of a head, its unused bits as they were. -/
def setHead (s : State) (key : Nat) (ended active : Bool) : State :=
  let w := vatWord s key 0
  vatWrite s key 0 [putBit (putBit w 20 ended) 21 active]
/-- A rind record with a status and nothing else (EMPTY 0, CURD 1). -/
def clearRind (s : State) (key n status : Nat) : State :=
  vatWrite s key (rindAt n 0) ([0, 0, BitVec.ofNat 32 (n + status * 2 ^ 8), 0, 0, 0] ++ List.replicate 10 0)

/-! The vat table (R244). -/

def noVat : Vat := { pins := [], running := none }
def pinCount (s : State) (key n : Nat) : Nat := kvGet 0 ((kvFind s.vats key).getD noVat).pins n
/-- Some fragment waits on a vat. One of a saved unit does not: its `vwait` asks for an entry anew when it waits again (DESIGN CHOICE, log
120). -/
def vatWaited (s : State) (key : Nat) : Bool :=
  s.groups.any fun g => g.2.frags.any fun f => match f.park with
    | .vwait _ k _ => k == key
    | _ => false
/-- An entry that nothing needs goes. -/
def vatTidy (s : State) (key : Nat) : State :=
  match kvFind s.vats key with
  | none => s
  | some v => if v.running.isNone && v.pins.isEmpty && !vatWaited s key then { s with vats := kvDel s.vats key } else s
/-- An entry is found, or made for a reader. -/
def vatMake (s : State) (key : Nat) : Bool × State :=
  match kvFind s.vats key with
  | some _ => (true, s)
  | none => if vatRoom s then (true, { s with vats := kvPut s.vats key noVat }) else (false, s)
def modVat (s : State) (key : Nat) (f : Vat → Vat) : State :=
  match kvFind s.vats key with
  | some v => { s with vats := kvPut s.vats key (f v) }
  | none => s
def setPin (s : State) (key n c : Nat) : State := modVat s key fun v => { v with pins := kvSet 0 v.pins n c }

/-- What a pin finds (R245): sequence number, quality, slot, and flags NONE, ENDED, BUSY; with the state after it. A read without a pin
(OP 00 of VPIN, R248) needs no entry and no count, so it is never BUSY (DESIGN CHOICE, log 109). -/
def pinNewest (s : State) (key : Nat) (take : Bool) : (Word × Word × Word × Word) × State :=
  let ended : Word := if headEnded s key then 2 else 0
  let n := newSlot s key
  let none_ := !headMagic s key || newSeq s key == 0
  let found : Word × Word × Word := (newSeq s key, newQual s key, BitVec.ofNat 32 n)
  if take = false then (if none_ then (0, 0, 0, 1 ||| ended) else (found.1, found.2.1, found.2.2, ended), s)
  else
    match vatMake s key with
    | (false, s1) => ((0, 0, 0, 4 ||| ended), s1)
    | (true, s1) =>
      if pinCount s1 key n = 65535 then ((0, 0, 0, 4 ||| ended), vatTidy s1 key)
      else if none_ then ((0, 0, 0, 1 ||| ended), vatTidy s1 key)
      else ((found.1, found.2.1, found.2.2, ended), setPin s1 key n (pinCount s1 key n + 1))
/-- An unpin of a slot: none where the vat has no entry or the count is 0 (R246). -/
def unpin (s : State) (key n : Nat) : Option State :=
  if pinCount s key n = 0 then none else some (vatTidy (setPin s key n (pinCount s key n - 1)) key)

/-- Waiting fragments of `vwait` whose wait is over (R247). -/
def vwaitOver (s : State) (q : Word) (key : Nat) : Bool :=
  headEnded s key || (headMagic s key && newSeq s key != 0 && decide (q.toNat ≤ (newQual s key).toNat))
def wakeFrag (s : State) (f : Frag) : Frag :=
  match f.park with
  | .vwait q key _ => if vwaitOver s q key then { f with park := .run } else f
  | _ => f
def wakeVwaits (s : State) (key : Nat) : State :=
  vatTidy { s with groups := s.groups.map fun g => (g.1, { g.2 with frags := g.2.frags.map (wakeFrag s) }) } key

/-! Curd slots (R235). -/

/-- The version a is older than b. -/
def olderSeq (a b : Word) : Bool := decide (1 ≤ (b - a).toNat ∧ (b - a).toNat < 2 ^ 31)
/-- The slot the rules choose. -/
def curdChoice (s : State) (l : Ladder) : Option Nat :=
  let k := (l.desc.getD 5 0).toNat % 16
  match (List.range k).find? fun i => rindStatus s l.key i == 0 with
  | some i => some i
  | none =>
    ((List.range k).filter fun i => rindStatus s l.key i == 2 && pinCount s l.key i == 0 && i != newSlot s l.key).foldl
      (fun b i => match b with
        | some j => if olderSeq (rindWord s l.key i 0) (rindWord s l.key j 0) then some i else b
        | none => some i) none
def modLadder (s : State) (t : Nat) (f : Ladder → Ladder) : State := modTask s t fun x => { x with ladder := x.ladder.map f }
/-- Choose, or wait to. -/
def chooseCurd (s : State) (t : Nat) (l : Ladder) : State :=
  match curdChoice s l with
  | some i => modLadder (clearRind s l.key i 1) t fun y => { y with curd := some i, choosing := false }
  | none => modLadder s t fun y => { y with curd := none, choosing := true }

/-! Seal points and releases (R237, R238, 14 R264). -/

/-- Every team has arrived or retired, and some lane sealed in the pass. -/
def sealHere (g : Group) : Bool := g.exiting || (liveOf g &&& ~~~g.sealed == 0)
def sealDue (s : State) (t : Nat) : Bool :=
  match (kvFind s.tasks t).bind (·.ladder) with
  | some l => l.someSeal && !l.ended && !l.releasing && l.cutting.isNone &&
    ((clustersOf s t).all fun c => match c.2.pre with
      | .saved _ _ => false
      | _ => true) &&
    (groupsOfTask s t).all fun g => sealHere g.2
  | none => false
/-- The next sequence number: 0 is skipped. -/
def nextSeq (n : Word) : Word := if n + 1 = 0 then 1 else n + 1
def isSeal : Park → Bool
  | .seal _ => true
  | _ => false
/-- A group's fragments leave `seal` with a pair, to make the acquire that follows. -/
def leaveSeal (v : BitVec 64) (sc : Scope) (g : Group) : Group :=
  { g.frags.foldl (fun y f => match f.park with
      | .seal d => setPair y d v
      | _ => y) g with frags := g.frags.map (acquireParked isSeal sc .seal) }
/-- Release the groups of a wave from `seal` with a pair: the acquire at sys scope (R194), then the words after it. -/
def releaseSeal (t w W : Nat) (v : BitVec 64) : List (Nat × Group) → State → State
  | [], s => s
  | (gid, g) :: r, s =>
    if (W = 0 ∨ (clusterOf s g).idx / W = w) ∧ g.frags.any (fun f => isSeal f.park) = true then
      releaseSeal t w W v r (settleAcq (modGroup s gid (leaveSeal v .sys)) gid)
    else releaseSeal t w W v r s
/-- Release the teams of a ladder task: the first wave now, the others in their time. -/
def releaseTeams (s : State) (t : Nat) (v : BitVec 64) : State :=
  let s1 := modTask s t fun x => { x with
    ladder := x.ladder.map fun l => { l with releasing := false, q := 0xFFFFFFFF, l := false, someSeal := false }
    stagger := staggerOf s x true }
  releaseSeal t 0 s.power.stagW v (groupsOfTask s1 t) s1
/-- The address a release hands out. -/
def curdPair (l : Ladder) : BitVec 64 :=
  match l.curd with
  | some i => BitVec.ofNat 64 (codeOf (pairNat l.desc 2) * 2 ^ 58 + slotBase l.desc i)
  | none => 0
/-- No ladder task runs on the vat any more. -/
def freeVat (s : State) (key : Nat) : State := vatTidy (wakeVwaits (modVat s key fun v => { v with running := none }) key) key
/-- The seal sequence. -/
def sealSequence (s0 : State) (t : Nat) (l : Ladder) (placed : Nat) : State :=
  let s := (groupsOfTask s0 t).foldl (fun x g => modGroup x g.1 fun y => { y with sealed := 0 }) s0
  let n := nextSeq l.counter
  let p := l.pass + 1
  let i := l.curd.getD 0
  let at_ := s.ns - placed
  let s2 := vatWriteOnce s l.key [
    (rindAt i 0, [n, l.q, BitVec.ofNat 32 (i + 2 * 2 ^ 8), BitVec.ofNat 32 p, BitVec.ofNat 32 at_, BitVec.ofNat 32 (at_ / 2 ^ 32)] ++
      List.replicate 10 0),
    (1, [n, l.q, BitVec.ofNat 32 i, BitVec.ofNat 32 p])]
  let l1 := { l with pass := p, counter := n, curd := none }
  let s3 := modLadder s2 t fun _ => l1
  if l.l then
    let s4 := setHead s3 l.key true false
    releaseTeams (freeVat (modLadder s4 t fun y => { y with ended := true }) l.key) t 0
  else
    let s4 := chooseCurd (wakeVwaits s3 l.key) t l1
    match ((kvFind s4.tasks t).bind (·.ladder)) with
    | some l2 => if l2.choosing then modLadder s4 t fun y => { y with releasing := true } else releaseTeams s4 t (curdPair l2)
    | none => s4

/-- The vat at the end of a ladder task: a curd slot becomes EMPTY, the head ENDED and not ACTIVE (R239, R241). -/
def endVat (s : State) (t : Nat) : State :=
  match (kvFind s.tasks t).bind (·.ladder) with
  | none => s
  | some l =>
    if l.ended then s
    else
      let s1 := match l.curd with
        | some i => clearRind s l.key i 0
        | none => s
      freeVat (modLadder (setHead s1 l.key true false) t fun y => { y with ended := true, curd := none, choosing := false, releasing := false })
        l.key

/-! Head addresses of the version words (R245, R387). -/

/-- What the checks of a head find. -/
inductive HeadAt
  | bad (c : Cause)
  | miss (pages : List Nat) (s : State)
  /-- A permission failure found after issue: the peer refuses, or no port reaches it. -/
  | late (r : Reach) (s : State)
  | at_ (key : Nat) (s : State)
def headAt (s : State) (c : Ctx) (v : Nat) : HeadAt :=
  let sid := sidOf s c.g
  let a := vaOf v
  if mainOrSp v = false ∨ a % 1024 ≠ 0 then .bad .bounds
  else if codeOf v = 1 then
    if inWindow s sid a 64 = false then .bad .bounds
    else if admitted s (.ctx sid) 0 a 64 .read = false then .bad .perm
    else .at_ (locKey (.sp a)) s
  else
    match Machine.translate s (coreOfGid c.gid) sid (a / 2 ^ 16) with
    | (none, s1) => .miss [a / 2 ^ 16] s1
    | (some t, s1) =>
      if !t.r then .bad .perm
      else if reaches s1 t ≠ .yes then .late (reaches s1 t) s1
      else .at_ (locKey (trLoc t (a % 2 ^ 16))) s1

end Sys2Proof.Machine
end

