-- ==== Sys2Proof/Machine/Sys.lean ====
section
/-! DEFINITION. The SYS words (03 R58): modes, seals, versions, phases, traps, tags, snapshots, the grid barrier, invalidations. -/
set_option Elab.async false
namespace Sys2Proof.Machine

/-! Modes (06 R107, R108, R346). -/

/-- `mode.m`. -/
def execModeM (s : State) : Host.Outcome State Fault Refusal :=
  word .modeM s fun c =>
    let g := c.g
    if g.matrix || (teamOf s g).seq.isNone || c.f.lanes != allLanes || decide (g.alloc < 64) then .trap s .mode 0
    else if pendingPaths g [.ld, .sfu] then .wait s (.drain [.ld, .sfu] .plain)
    else onGroup s c fun g => { g with matrix := true }
/-- `mode.v`. -/
def execModeV (n : BitVec 4) (s : State) : Host.Outcome State Fault Refusal :=
  word (.modeV n) s fun c =>
    if c.g.matrix = false ∨ c.f.lanes ≠ liveOf c.g then .trap s .mode 0
    else
      deliveryPoint s c (relPaths .team) .point
        (withEvent s c n.toNat fun s1 =>
          let s2 := arriveAtBar s1 c n.toNat
          let eng := (barOf (teamOf s2 c.g) n.toNat).expe != 0
          waitAtBar s2 c n.toNat (.modeV n.toNat) (.mode eng) fun s3 => .park s3 (.modeRel eng))

/-! Versions (12 R237, R245 to R247). -/

/-- The ladder of a group's task. -/
def ladderOf (s : State) (g : Group) : Option Ladder := (taskOf s g).ladder
/-- `seal`. -/
def execSeal (last : Bool) (q d : BitVec 9) (s : State) : Host.Outcome State Fault Refusal :=
  word (.seal last q d) s fun c =>
    match ladderOf s c.g with
    | none => .trap s .mode 0
    | some l =>
      if l.ended then .trap s .mode 0
      else
        deliveryPoint s c (relPaths .sys) .hold
          (withEvent s c evSeal fun s1 =>
            let v := getS c.g q.toNat
            let s2 := publishScope s1 c.g c.gid .sys
            let s3 := modLadder s2 (clusterOf s2 c.g).task fun y =>
              { y with q := if v.toNat < y.q.toNat then v else y.q, l := y.l || last, someSeal := true }
            .park (modGroup s3 c.gid fun g => { g with sealed := g.sealed ||| c.f.lanes }) (.seal d.toNat))
/-- Park on the page of a head. -/
def parkOnHead (s : State) (c : Ctx) (pages : List Nat) : Eff := parkOnPages s c 0 .read none pages
/-- What follows the checks of a head. -/
def onHead (s : State) (c : Ctx) (v : Nat) (k : Nat → State → Eff) : Eff :=
  match headAt s c v with
  | .bad t => .trap s t 0
  | .miss ps s1 => parkOnHead s1 c ps
  | .late r s1 => failsLate s1 c .perm (if r = .down then 6 else 4) v
  | .at_ key s1 => k key s1
/-- `vpin`: the pin itself is taken when the operation completes. -/
def execVpin (d v : BitVec 9) (s : State) : Host.Outcome State Fault Refusal :=
  word (.vpin d v) s fun c =>
    let h := getPair c.g v.toNat
    if 63 ≤ counter c.g .ld then .wait s (.counterFull .ld)
    else
      onHead s c h.toNat fun key s1 =>
        let (id, s2) := launchOp s1 c.gid .ld (.pin d.toNat h key)
        .ok (holdGate s2 c.gid id .sys)
/-- `vunpin`. -/
def execVunpin (v sl : BitVec 9) (s : State) : Host.Outcome State Fault Refusal :=
  word (.vunpin v sl) s fun c =>
    onHead s c (getPair c.g v.toNat).toNat fun key s1 =>
      match unpin s1 key ((getS c.g sl.toNat).toNat % 8) with
      | some s2 => .ok s2
      | none => .trap s1 .bounds 0
/-- `vwait`. -/
def execVwait (q v : BitVec 9) (s : State) : Host.Outcome State Fault Refusal :=
  word (.vwait q v) s fun c =>
    let h := (getPair c.g v.toNat).toNat
    onHead s c h fun key s1 =>
      let w := getS c.g q.toNat
      if vatRoom s1 = false then .wait s1 .vatFull
      else if vwaitOver s1 w key then .ok s1
      else .park (vatMake s1 key).2 (.vwait w key h)

/-! Phases and fences (10 R194). -/

/-- `phacq`. -/
def execPhacq (sc : Scope) (s : State) : Host.Outcome State Fault Refusal :=
  word (.phacq sc) s fun c => deliveryPoint s c (acqPaths sc) .point (.ok (refreshScope s c.g c.gid sc))
/-- `phrel`. -/
def execPhrel (sc : Scope) (s : State) : Host.Outcome State Fault Refusal :=
  word (.phrel sc) s fun c => deliveryPoint s c (relPaths sc) .point (.ok (publishScope s c.g c.gid sc))
/-- `fence`. -/
def execFence (sc : Scope) (s : State) : Host.Outcome State Fault Refusal :=
  word (.fence sc) s fun c =>
    deliveryPoint s c (relPaths sc) .point (.ok (refreshScope (publishScope s c.g c.gid sc) c.g c.gid sc))

/-! Traps and breakpoints (R370, 15 R271). -/

/-- `trap`. -/
def execTrap (i : BitVec 8) (s : State) : Host.Outcome State Fault Refusal :=
  word (.trap i) s fun _ => .trap s .trap i.toNat
/-- The mark of a `brk` that has frozen its cluster once, beside the eight watchpoints. -/
def brkMark : Nat := 8
/-- `brk`: with debugging enabled it freezes its cluster, and goes on at the thaw, whatever debugging is then. -/
def execBrk (i : BitVec 8) (s : State) : Host.Outcome State Fault Refusal :=
  word (.brk i) s fun c =>
    if c.f.passed.contains brkMark then onGroup s c id
    else if (debugOf s (sidOf s c.g)).enabled = false then .trap s .brk i.toNat
    else
      let s1 := modGroup s c.gid fun g => modFrag g c.fid fun f => { f with passed := f.passed ++ [brkMark] }
      .stand (report (freezeCluster s1 (teamOf s c.g).cluster c.gid) [BitVec.ofNat 32 c.gid, BitVec.ofNat 32 brkMark])

/-! Tags (15 R281, R368). -/

/-- A page takes locks: write permission, local HBM, tag checking. -/
def lockable (t : Trn) : Bool := t.w && t.tgt == 0 && t.tagen
/-- What the lookups of the granules' pages find: those that miss, whether one that hits takes no locks, where the others stand. -/
structure LockLook where
  miss : List Nat
  bad : Bool
  pages : List (Nat × Nat)
  deriving DecidableEq, Repr
def lockPages (core sid : Nat) : List Nat → LockLook × State → LockLook × State
  | [], r => r
  | p :: ps, (k, s) =>
    match Machine.translate s core sid p with
    | (none, s1) => lockPages core sid ps ({ k with miss := k.miss ++ [p] }, s1)
    | (some t, s1) => lockPages core sid ps ({ k with bad := k.bad || !lockable t, pages := k.pages ++ [(p, t.base)] }, s1)
/-- `tagset`. -/
def execTagset (d : BitVec 9) (s : State) : Host.Outcome State Fault Refusal :=
  word (.tagset d) s fun c =>
    let v := (getPair c.g d.toNat).toNat
    let w := (getS c.g (d.toNat + 2)).toNat
    let n := w % 2 ^ 17
    let a := vaOf v
    let core := coreOfGid c.gid
    let sid := sidOf s c.g
    if 63 ≤ counter c.g .st then .wait s (.counterFull .st)
    else if a % 32 ≠ 0 then .trap s .align 0
    else if n = 0 ∨ 65536 < n ∨ bitsOf w 17 15 ≠ 0 ∨ bitsOf v 55 5 ≠ 0 ∨ 2 ^ 55 < a + 32 * n then .trap s .bounds 0
    else
      match lockPages core sid (pagesOf a (32 * n)) ({ miss := [], bad := false, pages := [] }, s) with
      | (k, s1) =>
        if k.bad then .trap s1 .perm 0
        else if mayWriteVa s1 c.g a (32 * n) = false then .trap s1 .writeset 0
        else
          let (id, s2) := launchOp s1 c.gid .st (.locks a n (BitVec.ofNat 4 (keyOf v)) k.pages)
          .ok (requestAll (dieOfCore core) (k.miss.map fun p => { sid := sid, page := p, kind := .write, who := .locks c.gid id,
                                                                  eng := 0, gid := c.gid, core := core, pc := c.f.pc }) s2)

/-! Snapshots (15 R276), the grid barrier (05 R101, R328), invalidations (09 R186). -/

/-- `snap`. -/
def execSnap (s : State) : Host.Outcome State Fault Refusal := word .snap s fun c => .ok (trigger s 1 c.gid)
/-- The grid is cooperative (Table 11-9). -/
def coopOf (k : Task) : Bool := bitsOf (lrWord k 5).toNat 26 1 == 1
/-- `gbar`: the fragment parks, and its arrival may complete the barrier. -/
def gbarEff (s : State) (c : Ctx) : Eff :=
  if coopOf (taskOf s c.g) = false then .trap s .mode 0
  else
    deliveryPoint s c (relPaths .dev) .point
      (withEvent s c evGbar fun s1 =>
        .park (modGroup (publishScope s1 c.g c.gid .dev) c.gid fun g => { g with gbarred := g.gbarred ||| c.f.lanes }) .gbar)
/-- `gbar`. -/
def execGbar (s : State) : Host.Outcome State Fault Refusal :=
  match issueOf s with
  | none => .fault .noIssuer
  | some c => .next (checkGbar (endWord .gbar c (gbarEff s c)) (clusterOf s c.g).task)
/-- A range that R186 refuses. -/
def invalBad (start stop : Nat) : Bool :=
  start % 2 ^ 16 != 0 || stop % 2 ^ 16 != 0 || decide (stop ≤ start) || decide (2 ^ 55 < stop)
/-- Queue an invalidation: its number, skipping 0. -/
def startInval (s : State) (sid start stop : Nat) : Word × State :=
  let n := nextSeq s.invSeq
  (n, { s with invSeq := n, invs := s.invs ++ [{ n := n, sid := sid, start := start, stop := stop, performed := false, waits := [], ops := [] }] })
/-- `invrg`. -/
def execInvrg (d x : BitVec 9) (s : State) : Host.Outcome State Fault Refusal :=
  word (.invrg d x) s fun c =>
    let a := (getPair c.g d.toNat).toNat
    let b := (getPair c.g (d.toNat + 2)).toNat
    let w := (getS c.g (d.toNat + 4)).toNat
    if (cmdOf s c.g).priv = false then .trap s .priv 0
    else if invalBad a b || bitsOf a 55 9 != 0 || bitsOf b 55 9 != 0 || bitsOf w 12 20 != 0 then .trap s .bounds 0
    else if 16 ≤ s.invs.length then .wait s .invFull
    else
      let (n, s1) := startInval s (w % 2 ^ 12) a b
      onGroup s1 c fun g => setS g x.toNat n

end Sys2Proof.Machine
end

