-- ==== Sys2Proof/Machine/Deliver.lean ====
section
/-! DEFINITION. Completions of the operations of a group (08 R151): loads, stores, atomics, special functions; and the
publication of pending writes (10 R193). -/
set_option Elab.async false
namespace Sys2Proof.Machine

/-! Which operation, and when it may complete. -/

/-- An operation of a group that is not done. -/
def findOp (s : State) (gid id : Nat) : Option (Group × Flight) :=
  match kvFind s.groups gid with
  | none => none
  | some g => (g.flight.find? fun f => f.id == id && !f.done).map fun f => (g, f)
/-- [a, a + n) as addresses. -/
def spanOf (a n : Nat) : List Nat := (List.range n).map (a + ·)
/-- SH or SP, and the byte addresses an operation still has to touch. -/
def opBytes : FOp → Bool × List Nat
  | .vload sp w _ as => (sp, as.flatMap fun x => spanOf x.2 (widthBytes w))
  | .sload sp w as => (sp, as.flatMap fun x => spanOf x.2 (widthBytes w))
  | .acq ss _ a => (ssSp ss, spanOf a 4)
  | .store sp bs => (sp, bs.map (·.1))
  | .rel ss a _ => (ssSp ss, spanOf a 4)
  | .atomic _ ss _ _ _ ls _ _ _ => (ssSp ss, ls.flatMap fun x => spanOf x.2.1 4)
  | _ => (false, [])
/-- Two operations touch a byte. -/
def overlaps (a b : FOp) : Bool :=
  let x := opBytes a
  let y := opBytes b
  x.1 == y.1 && x.2.any fun i => y.2.contains i
/-- An operation of the group issued before this one touches one of its bytes and is not done (R150). -/
def blocked (g : Group) (id : Nat) (op : FOp) : Bool :=
  (g.flight.takeWhile fun f => f.id != id).any fun f => !f.done && overlaps f.op op
/-- The core whose SRAM or slice holds a byte. -/
def locCore : Loc → Option Nat
  | .sp a => some (homeOf a)
  | .sh c _ => some c
  | .sm c _ _ => some c
  | _ => none
def locFrozen (s : State) (l : Loc) : Bool := ((locCore l).map (coreFrozen s)).getD false
/-- Where a byte of a group's access stands. -/
def groupLoc (s : State) (g : Group) (sp : Bool) (a : Nat) : Loc := dLoc (teamOf s g) (spaceOf sp) a
/-- Its order holds, and the clocks of every core whose bytes it touches run. -/
def opReaches (s : State) (g : Group) (f : Flight) : Bool :=
  !blocked g f.id f.op && !((opBytes f.op).2.any fun a => locFrozen s (groupLoc s g (opBytes f.op).1 a))
/-- The operation may act: its group's clocks run too. -/
def opFree (s : State) (g : Group) (f : Flight) : Bool := !groupFrozen s g && opReaches s g f
/-- A logged access waits at its bank's gate (15 R286). -/
def gateOpen (s : State) (g : Group) (gid : Nat) (sp : Bool) (a : Nat) : Bool :=
  gateAdmits s (taskOf s g).cmd gid (groupLoc s g sp a)

/-! Loads (R336, R148, 10 R193, R195). -/

/-- Read bytes at addresses, each once: SH at its bank, SP through the core's view. -/
def loadBytes (core : Nat) (own : List (Nat × Nat × Nat)) (t : Team) (sp : Bool) : List Nat → State → List (Nat × Byte) × State
  | [], s => ([], s)
  | a :: as, s =>
    let (b, s1) := if sp then loadSp s core t.placedAt own a else (readByte s (shLoc t a), s)
    let (r, s2) := loadBytes core own t sp as s1
    ((a, b) :: r, s2)
/-- The value of bytes [a, a + n). -/
def valueOf (bs : List (Nat × Byte)) (a n : Nat) : Nat :=
  leNat ((spanOf a n).map fun i => ((bs.find? fun x => x.1 == i).map (·.2)).getD 0)
/-- A part of a vector load's result (R148), of a scalar one's (R363). -/
def putLane (pos : Nat) (x : Nat × Nat) (g : Group) : Group := setPos g (pos + x.1 / 32) (x.1 % 32) (BitVec.ofNat 32 x.2)
def putScalar (x : Nat × Nat) (g : Group) : Group := setS g x.1 (BitVec.ofNat 32 x.2)
/-- Load some parts: each with its value. A part at the address of one that came earlier takes the value read then (R336). -/
def loadParts (s : State) (gid : Nat) (g : Group) (known : List (Nat × Nat)) (sp : Bool) (w : MemW) (as : List (Nat × Nat)) :
    List (Nat × Nat) × State :=
  let n := widthBytes w
  let seen (a : Nat) : Option Nat := (known.find? fun e => e.1 == a).map (·.2)
  let new := as.filter fun x => (seen x.2).isNone
  let (bs, s1) := loadBytes (coreOfGid gid) g.own (teamOf s g) sp (new.flatMap fun x => spanOf x.2 n).eraseDups s
  (as.map fun x => (x.1, (seen x.2).getD (valueOf bs x.2 n)), s1)
/-- What the parts of a load read so far. -/
def readsOf (g : Group) (id : Nat) : List (Nat × Nat) := ((g.flight.find? fun f => f.id == id).map (·.reads)).getD []
/-- The values of parts that come early are kept by their addresses. -/
def keepReads (s : State) (gid id : Nat) (as vs : List (Nat × Nat)) : State :=
  modGroup s gid fun g => { g with flight := g.flight.map fun f =>
    if f.id = id then { f with reads := f.reads ++ (as.zip vs).map fun e => (e.1.2, e.2.2) } else f }
/-- An acquire load reads the pending write or the published value (R195), which no later load of the core goes behind. -/
def acquireRead (s : State) (core : Nat) (t : Team) (sp : Bool) (a : Nat) : Word × State :=
  if sp then
    (BitVec.ofNat 32 (leNat ((spanOf a 4).map fun i => peekSp s core i)),
      (spanOf a 4).foldl (fun x i => coreSees (noteLoaded x core i) core i) s)
  else (BitVec.ofNat 32 (leNat ((spanOf a 4).map fun i => readByte s (shLoc t i))), s)
/-- The result block of `vpin`. -/
def putPin (d : Nat) (r : Word × Word × Word × Word) (g : Group) : Group :=
  setS (setS (setS (setS g d r.1) (d + 1) r.2.1) (d + 2) r.2.2.1) (d + 3) r.2.2.2
/-- What a returning atomic wrote back (R307). -/
def putOlds (vec : Bool) (d : Nat) (olds : List (Nat × Word)) (g : Group) : Group :=
  olds.foldl (fun g x => if vec then setPos g d x.1 x.2 else setS g d x.2) g
/-- A load or a returning atomic completes: its register result is written. -/
def completeLoad (s : State) (gid id : Nat) (g : Group) (op : FOp) : State :=
  let core := coreOfGid gid
  let t := teamOf s g
  match op with
  | .vload sp w pos as =>
    let (vs, s1) := loadParts s gid g (readsOf g id) sp w as
    opDone (modGroup s1 gid fun y => vs.foldl (fun y x => putLane pos x y) y) gid id
  | .sload sp w as =>
    let (vs, s1) := loadParts s gid g (readsOf g id) sp w as
    opDone (modGroup s1 gid fun y => vs.foldl (fun y x => putScalar x y) y) gid id
  | .acq ss d a =>
    let (v, s1) := acquireRead (logAccess s (taskOf s g).cmd gid (groupLoc s g (ssSp ss) a)) core t (ssSp ss) a
    opDone (modGroup s1 gid fun y => setS y d v) gid id
  | .resq d va n => opDone (modGroup s gid fun y => setS y d (resFind s (sidOf s g) core va (256 * n))) gid id
  | .pin d _ key =>
    let (r, s1) := pinNewest s key true
    opDone (modGroup s1 gid (putPin d r)) gid id
  | .atomic _ _ true vec d [] olds _ flags =>
    opDone (modGroup s gid fun y => { putOlds vec d olds y with fx := y.fx ||| flags }) gid id
  | _ => s
/-- An operation whose next event is the completion of a load. -/
def loadDue (s : State) (gid : Nat) (g : Group) (op : FOp) : Bool :=
  match op with
  | .vload _ _ _ _ => true
  | .sload _ _ _ => true
  | .acq ss _ a => gateOpen s g gid (ssSp ss) a
  | .resq _ _ _ => true
  | .pin _ _ _ => true
  | .atomic _ _ ret _ _ ls _ _ _ => ret && ls.isEmpty
  | _ => false
/-- Whether a load's completion may come. -/
def loadReady (s : State) (gid id : Nat) : Bool :=
  match findOp s gid id with
  | some (g, f) => loadDue s gid g f.op && opFree s g f
  | none => false
/-- A load completes. -/
def execLoadComplete (g id : Nat) (s : State) : Host.Outcome State Fault Refusal :=
  match findOp s g id with
  | some (x, f) => if loadReady s g id then .next (completeLoad s g id x f.op) else .next s
  | none => .next s

/-! Stores (R192, R193, R195) and lock writes (15 R281). -/

/-- Bytes to SH; to SP as the core's pending writes; the last of one address stays (R337). -/
def storeBytes (gid : Nat) (t : Team) (sp : Bool) : List (Nat × Byte) → State → State
  | [], s => s
  | (a, b) :: r, s => storeBytes gid t sp r (if sp then pend s (coreOfGid gid) gid a b else writeByte s (shLoc t a) b)
/-- A word written at its home: published in SP, the core's pending write to it dropped, for the group's own later loads to see. -/
def homeWord (gid : Nat) (t : Team) (sp : Bool) (a : Nat) (v : Word) (s : State) : State :=
  if sp then publishOwn s gid a (bytesOf v) else writeBytes s (fun i => shLoc t (a + i)) (bytesOf v)
/-- Every page of a `tagset` is translated; where each granule stands. -/
def locksKnown (va n : Nat) (pages : List (Nat × Nat)) : Bool := (pagesOf va (32 * n)).all fun p => pages.any fun e => e.1 == p
def lockPlaces (va n : Nat) (pages : List (Nat × Nat)) : List Nat :=
  (List.range n).filterMap fun i =>
    (pages.find? fun e => e.1 == (va + 32 * i) / 2 ^ 16).map fun e => (e.2 + (va + 32 * i) % 2 ^ 16) / 32
/-- A tag history keeps its newest 256 entries (15 R282), newest first. -/
def addHistory (s : State) (sid : Nat) (e : Nat × Nat × BitVec 4 × Nat) : State :=
  let d := debugOf s sid
  { s with debug := kvPut s.debug sid { d with hist := (e :: d.hist).take 256 } }
/-- Every lock is written, and the operation enters the history. -/
def writeLocks (s : State) (gid id : Nat) (g : Group) (va n : Nat) (lock : BitVec 4) (pages : List (Nat × Nat)) : State :=
  opDone (addHistory { s with locks := (lockPlaces va n pages).foldl (fun m p => kvSet 0 m p lock) s.locks } (sidOf s g)
    (va, n, lock, gid)) gid id
def performStore (s : State) (gid id : Nat) (g : Group) (op : FOp) : State :=
  let t := teamOf s g
  match op with
  | .store sp bs => opDone (storeBytes gid t sp bs s) gid id
  | .rel ss a v =>
    opDone (homeWord gid t (ssSp ss) a v (logAccess s (taskOf s g).cmd gid (groupLoc s g (ssSp ss) a))) gid id
  | .locks va n lock pages => writeLocks s gid id g va n lock pages
  | _ => s
/-- A store may be performed; of a `tagset` that a cut has abandoned nothing is (12 R241, R369). -/
def storeReady (s : State) (gid id : Nat) : Bool :=
  match findOp s gid id with
  | some (g, f) =>
    (match f.op with
      | .store _ _ => true
      | .rel ss a _ => gateOpen s g gid (ssSp ss) a
      | .locks va n _ pages => locksKnown va n pages && !((taskOf s g).ladder.map fun l => l.cutting.isSome).getD false
      | _ => false) && opFree s g f
  | none => false
/-- A store is performed. -/
def execStorePerformed (g id : Nat) (s : State) : Host.Outcome State Fault Refusal :=
  match findOp s g id with
  | some (x, f) => if storeReady s g id then .next (performStore s g id x f.op) else .next s
  | none => .next s

/-! Atomics (R307, R308, 10 R196). -/

/-- AtomicOp (Table 17-2): new value, whether it is written, flags. -/
def atomicOp (op : AtomOp) (old d c : Word) : Word × Bool × BitVec 5 :=
  let f (r : Nat × BitVec 5) : Word × Bool × BitVec 5 := (BitVec.ofNat 32 r.1, true, r.2)
  match op with
  | .add => (old + d, true, 0)
  | .minI => (if d.toInt < old.toInt then d else old, true, 0)
  | .maxI => (if old.toInt < d.toInt then d else old, true, 0)
  | .minN => (if d.toNat < old.toNat then d else old, true, 0)
  | .maxN => (if old.toNat < d.toNat then d else old, true, 0)
  | .and => (old &&& d, true, 0)
  | .or => (old ||| d, true, 0)
  | .xor => (old ^^^ d, true, 0)
  | .exch => (d, true, 0)
  | .cas => (d, old == c, 0)
  | .fadd => f (addF fp32 .rne (decodeF fp32 old.toNat) (decodeF fp32 d.toNat))
  | .fmin => f (pickF fp32 false [old.toNat, d.toNat])
  | .fmax => f (pickF fp32 true [old.toNat, d.toNat])
/-- The word an atomic acts on, after the core's pending write to it is published; and the state then. -/
def atomicRead (s : State) (core : Nat) (t : Team) (sp : Bool) (a : Nat) : Word × State :=
  if sp then
    let s1 := (spanOf a 4).foldl (fun x i => publishPend x core i) s
    (BitVec.ofNat 32 (leNat ((spanOf a 4).map fun i => readByte s1 (.sp i))), s1)
  else (BitVec.ofNat 32 (leNat ((spanOf a 4).map fun i => readByte s (shLoc t i))), s)
/-- The next lane an atomic may perform on its word: no lower one names the same word. -/
def laneDue (lanes : List (Nat × Nat × Word × Word)) (l : Nat) : Option (Nat × Word × Word) :=
  match lanes.find? fun x => x.1 == l with
  | some x => if lanes.any fun y => decide (y.1 < l) && y.2.1 == x.2.1 then none else some x.2
  | none => none
def atomicReady (s : State) (gid id l : Nat) : Bool :=
  match findOp s gid id with
  | some (g, f) =>
    (match f.op with
      | .atomic _ ss _ _ _ ls _ _ _ =>
        (match laneDue ls l with
          | some x => gateOpen s g gid (ssSp ss) x.1
          | none => false)
      | _ => false) && opFree s g f
  | none => false
/-- Keep an operation's progress. -/
def setOp (s : State) (gid id : Nat) (op : FOp) : State :=
  modGroup s gid fun g => { g with flight := g.flight.map fun f => if f.id = id then { f with op := op } else f }
/-- A written word takes its lane's place (15 R285). -/
def putWrote (x : Nat × Word × Word) : List (Nat × Word × Word) → List (Nat × Word × Word)
  | [] => [x]
  | y :: r => if x.1 < y.1 then x :: y :: r else y :: putWrote x r
/-- One lane of an atomic is performed at its word's home; the last lane of one that returns nothing completes it. -/
def performLane (s : State) (gid id : Nat) (g : Group) (op : FOp) (l : Nat) : State :=
  match op with
  | .atomic o ss ret vec d lanes olds wrote flags =>
    (match laneDue lanes l with
      | none => s
      | some (a, x, c) =>
        let sp := ssSp ss
        let t := teamOf s g
        let (old, s1) := atomicRead (logAccess s (taskOf s g).cmd gid (groupLoc s g sp a)) (coreOfGid gid) t sp a
        let (new, wr, fl) := atomicOp o old x c
        let s2 := if wr then homeWord gid t sp a new s1 else if sp then mustSee a 4 s1 gid else s1
        let rest := lanes.filter fun y => y.1 != l
        let wrote1 := if wr then putWrote (l, digestAddr sp a, new) wrote else wrote
        let s3 := setOp s2 gid id (.atomic o ss ret vec d rest (olds ++ [(l, old)]) wrote1 (flags ||| fl))
        if rest.isEmpty then
          let s4 := digestFill s3 gid id (wrote1.map (·.2))
          if ret then s4 else opDone (modGroup s4 gid fun y => { y with fx := y.fx ||| (flags ||| fl) }) gid id
        else s3)
  | _ => s
/-- One lane of an atomic. -/
def execAtomicPerform (g id l : Nat) (s : State) : Host.Outcome State Fault Refusal :=
  match findOp s g id with
  | some (x, f) => if atomicReady s g id l then .next (performLane s g id x f.op l) else .next s
  | none => .next s

/-! Special functions (R381), publication (10 R193). -/

/-- Results, zeroed lanes and flags of a `vsfu`. -/
def execVsfuResult (g id : Nat) (s : State) : Host.Outcome State Fault Refusal :=
  match findOp s g id with
  | some (x, f) =>
    (match f.op with
      | .sfu pos res flags =>
        if opFree s x f then
          .next (opDone (modGroup s g fun y =>
            { res.foldl (fun y r => setPos y pos r.1 r.2) y with fx := y.fx ||| flags }) g id)
        else .next s
      | _ => .next s)
  | none => .next s
/-- One part of a result arrives before the others (02 R28): of a load, of a returning atomic, of a special function. -/
def partEarly (s : State) (gid id : Nat) (g : Group) (op : FOp) (l : Nat) : State :=
  match op with
  | .vload sp w pos as =>
    let now := as.filter fun x => x.1 == l
    let (vs, s1) := loadParts s gid g (readsOf g id) sp w now
    let s2 := modGroup s1 gid fun y => vs.foldl (fun y x => putLane pos x y) y
    keepReads (setOp s2 gid id (.vload sp w pos (as.filter fun x => x.1 != l))) gid id now vs
  | .sload sp w as =>
    let now := as.filter fun x => x.1 == l
    let (vs, s1) := loadParts s gid g (readsOf g id) sp w now
    let s2 := modGroup s1 gid fun y => vs.foldl (fun y x => putScalar x y) y
    keepReads (setOp s2 gid id (.sload sp w (as.filter fun x => x.1 != l))) gid id now vs
  | .atomic o ss true vec d ls olds wrote flags =>
    setOp (modGroup s gid (putOlds vec d (olds.filter fun x => x.1 == l))) gid id
      (.atomic o ss true vec d ls (olds.filter fun x => x.1 != l) wrote flags)
  | .sfu pos res flags =>
    setOp (modGroup s gid fun y => (res.filter fun x => x.1 == l).foldl (fun y r => setPos y pos r.1 r.2) y) gid id
      (.sfu pos (res.filter fun x => x.1 != l) flags)
  | _ => s
/-- The parts that may come so. -/
def earlyParts : FOp → List Nat
  | .vload _ _ _ as => as.map (·.1)
  | .sload _ _ as => as.map (·.1)
  | .atomic _ _ true _ _ _ olds _ _ => olds.map (·.1)
  | .sfu _ res _ => res.map (·.1)
  | _ => []
def partResult (s : State) (gid id l : Nat) : State :=
  match findOp s gid id with
  | some (g, f) => if opFree s g f then partEarly s gid id g f.op l else s
  | none => s
/-- A pending write is published. -/
def execPendingWritePublish (c a : Nat) (s : State) : Host.Outcome State Fault Refusal :=
  if coreFrozen s c || locFrozen s (.sp a) then .next s else .next (publishPend s c a)

end Sys2Proof.Machine
end

