-- ==== Sys2Proof/Machine/Engine.lean ====
section
/-! DEFINITION. What the copy engines do (08 R155 to R166, 10 R198): deliveries of copies, multicasts, gathers and scatters, and
contributions to reductions. -/
set_option Elab.async false
namespace Sys2Proof.Machine

/-! Where the bytes of a piece stand. -/

/-- The core whose L1 a command uses; the hub has none and uses die 1. -/
def bulkCore (x : Bulk) : Option Nat := if x.kind = .hub then none else some x.core
def bulkDie (x : Bulk) : Nat := if x.kind = .hub then 1 else dieOfCore x.core
def bulkTeam (s : State) (x : Bulk) : Team := (kvFind s.teams x.team).getD noTeam
/-- What translation finds for a range of main memory. -/
inductive Where
  | miss (pages : List Nat)
  | denied
  | tag (va : Nat) (lock : BitVec 4)
  | down (peer : Nat)
  | at_ (ls : List Loc)
/-- The pages of a range, permissions, and tags where the command's pages were not all checked at issue (R159). -/
def findPages (s : State) (x : Bulk) (kind : AKind) (key a n : Nat) : List Nat → Where → Where
  | [], r => r
  | p :: ps, r =>
    match peek s (bulkCore x) (bulkDie x) x.sid p, r with
    | none, .miss l => findPages s x kind key a n ps (.miss (l ++ [p]))
    | none, .at_ _ => findPages s x kind key a n ps (.miss [p])
    | some t, r =>
      let q := pagePart a n p
      if !permits t kind then .denied
      else if t.tgt = 1 ∧ peerUp s t.peer = false then .down t.peer
      else
        match (if x.checked then none else tagMiss s t key q.1 q.2) with
        | some g => .tag (p * 2 ^ 16 + g * 32) (kvGet 0 s.locks (t.base / 32 + g))
        | none =>
          (match r with
            | .at_ l => findPages s x kind key a n ps (.at_ (l ++ (List.range q.2).map fun i => trLoc t (q.1 + i)))
            | y => findPages s x kind key a n ps y)
    | _, r => r
/-- n bytes at an address of a space. -/
def findBytes (s : State) (x : Bulk) (kind : AKind) (code key a n : Nat) : Where :=
  match code with
  | 0 => findPages s x kind key a n (pagesOf a n) (.at_ [])
  | 1 => .at_ ((spanOf a n).map Loc.sp)
  | _ => .at_ ((spanOf a n).map (shLoc (bulkTeam s x)))
/-- Source bytes as a bulk read sees them (R198): the issuing core's pending writes over the published values; the hub has none. Of the
values that R198 allows a read of main memory, it takes the one there at the delivery (DESIGN CHOICE, log 107). -/
def bulkRead (s : State) (x : Bulk) (ls : List Loc) : List Byte :=
  ls.map fun l => match l, bulkCore x with
    | .sp a, some c => peekSp s c a
    | l, _ => readByte s l

/-- A byte of a source stands on a frozen core that the command is not of: its read is a request from outside the frozen cluster, which
waits in the fabric (15 R273). Commands of the frozen cores themselves go on. -/
def sourceHeld (s : State) (x : Bulk) (l : Loc) : Bool :=
  match locCore l with
  | none => false
  | some c => s.clusters.any fun k => k.2.frozen && k.2.cores.contains c && !((bulkCore x).map k.2.cores.contains).getD false

/-! Ending. -/

/-- Every earlier write that `.rel` names is performed (R156). -/
def relDone (s : State) (x : Bulk) : Bool :=
  match kvFind s.groups x.gid with
  | some g => x.after.all fun i => !(g.flight.any fun f => f.id == i && !f.done)
  | none => true
/-- The command is gone from its engine, and its counter counts it complete; a packet's command completes (11 R209). -/
def bulkDone (s : State) (b : Nat) (x : Bulk) : State :=
  let s1 := { s with bulks := kvDel s.bulks b }
  if x.kind = .hub then okCmd s1 x.cmd else opDone s1 x.gid x.fl
/-- No request of a command that is gone stays. -/
def dropReqs (s : State) (b : Nat) : State :=
  let mine (r : Req) : Bool := match r.who with
    | .bulk k _ => k == b
    | _ => false
  { s with dies := s.dies.map fun d => (d.1, dropBy mine d.2) }
/-- A failure found after issue: the operation stops, an error record is made and the context faults (R159); a packet is
rejected (11 R209). -/
def bulkFault (s : State) (b : Nat) (x : Bulk) (cause : Cause) (ecause va : Nat) : State :=
  let s1 := errorRecord s ecause (if x.kind = .hub then 0 else bulkDie x) x.sid x.gid va 0 0 0
  let s2 := dropReqs { s1 with bulks := kvDel s1.bulks b } b
  if x.kind = .hub then endCmd s2 x.cmd 4 0x27
  else opDone (faultGroup s2 x.gid (causeCode cause) 0) x.gid x.fl
/-- A piece whose bytes are not all to be had: its pages are looked up and asked for, once each, or the command fails. -/
def bulkLost (s : State) (b part : Nat) (x : Bulk) (kind : AKind) (key va : Nat) : Where → State
  | .miss ps => ps.foldl (fun y p =>
      if asksFor y (bulkDie x) (bulkReq b x part kind p).who p then y
      else request (lookCounted y (bulkCore x) (bulkDie x) x.sid p).2 (bulkDie x) (bulkReq b x part kind p)) s
  | .denied => bulkFault s b x .perm 4 va
  | .tag a lock => bulkFault (tagFault s x.sid x.gid (engOf x.kind) false a key lock) b x .tag 5 a
  | .down _ => bulkFault s b x .perm 6 va
  | .at_ _ => s
/-- The lookups of a range's pages at a delivery: an L2 hit fills the core's L1 (09 R176). -/
def warm (s : State) (x : Bulk) (code a n : Nat) : State :=
  if code = 0 then (pagesOf a n).foldl (fun y p => (lookCounted y (bulkCore x) (bulkDie x) x.sid p).2) s else s
/-- SP bytes delivered for a group are its own to see once its counter's wait covers them (R152). -/
def noteDlv (s : State) (x : Bulk) (rs : List (Nat × Nat)) : State :=
  if x.kind = .hub then s
  else modGroup s x.gid fun g => { g with dlv := g.dlv ++ rs.map fun r =>
    { path := if x.kind = .gath ∨ x.kind = .scat then .gth else .cpy, id := x.fl, a := r.1, n := r.2, pub := s.pubs } }
/-- SP bytes among some places, as a range where they are consecutive. -/
def spRanges (ls : List Loc) : List (Nat × Nat) :=
  let as := ls.filterMap fun l => match l with
    | .sp a => some a
    | _ => none
  match as with
  | [] => []
  | a :: _ => if as = spanOf a as.length then [(a, as.length)] else as.map fun b => (b, 1)
/-- Write bytes at their places; SP bytes are published (R198). -/
def deliver (ls : List Loc) (bs : List Byte) (s : State) : State := writeLocs ls bs s
/-- SP bytes counted at a barrier, for the refresh at its waits (10 R197). -/
def gotSp (n : Nat) (ls : List Loc) : List (Nat × Nat × Nat × Bool) :=
  match ls with
  | .sp a :: _ => [(n, a, ls.length, false)]
  | _ => []
/-- Delivered bytes arrive at a barrier of a team (R92). -/
def arriveAtTeam (s : State) (team : Nat) (bar : Option Nat) (ls : List Loc) (count : Nat) : State :=
  match bar with
  | none => s
  | some n => arriveBytes (modTeam s team fun t => { t with got := t.got ++ gotSp n ls }) team n count
/-- A piece is done. -/
def dropPiece (c k : Nat) : List (Nat × Nat × Nat) → List (Nat × Nat × Nat)
  | [] => []
  | (d, lo, hi) :: r =>
    if d = c ∧ lo ≤ k ∧ k < hi then
      (if lo < k then [(d, lo, k)] else []) ++ (if k + 1 < hi then [(d, k + 1, hi)] else []) ++ r
    else (d, lo, hi) :: dropPiece c k r
def hasPiece (x : Bulk) (c k : Nat) : Bool := x.todo.any fun e => e.1 == c && decide (e.2.1 ≤ k ∧ k < e.2.2)
/-- A watched main-memory byte was read or written: the issuing group's cluster freezes (15 R272). -/
def bulkWatch (s : State) (x : Bulk) (kind : AKind) (code va n : Nat) : State :=
  if x.kind ≠ .hub ∧ code = 0 then watchStop s (bulkTeam s x).cluster x.gid x.sid (engOf x.kind) kind va n else s

/-! Copies (R155, R317), with the scale case (07 R140). -/

/-- `.res` of a copy that is complete (R157). -/
def residency (s : State) (x : Bulk) : State :=
  let k := copyD x.desc
  if x.res then
    match resPut s (homeOf (vaOf k.dst)) { sid := x.sid, va := vaOf k.src, len := k.xb / 256, sp := vaOf k.dst } with
    | (true, s1) => s1
    | (false, s1) => setCpystat s1 x.gid 1
  else s
/-- The command loses a piece, and ends with its last one. -/
def pieceDone (s : State) (b c k : Nat) (x : Bulk) : State :=
  let y := { x with todo := dropPiece c k x.todo }
  if y.todo.isEmpty then
    let s1 := if y.late then setCpystat s y.gid 0 else s
    bulkDone (residency s1 y) b y
  else { s with bulks := kvPut s.bulks b y }
/-- Source and destination of piece k: code, key, address of each, and bytes. -/
def pieceOf (x : Bulk) (k : Nat) : (Nat × Nat × Nat) × (Nat × Nat × Nat) × Nat :=
  let d := copyD x.desc
  if x.scale.isEmpty then
    let row := k / d.perRow
    let off := k % d.perRow * 1024
    ((codeOf d.src, keyOf d.src, (d.srcRow row).toNat + off), (codeOf d.dst, keyOf d.dst, (d.dstRow row).toNat + off),
      min 1024 (d.xb - off))
  else
    let m := scaleD x.scale
    ((0, m.key, m.srcByte k), (3, 0, 0), 1)
/-- The places of a destination. -/
def pieceDst (s : State) (x : Bulk) (k : Nat) (dst : Nat × Nat × Nat) (n : Nat) : Where :=
  if dst.1 = 3 then
    let m := scaleD x.scale
    .at_ [.sm x.core (m.quad (k / m.e)) (m.dstByte k)]
  else findBytes s x .write dst.1 dst.2.1 dst.2.2 n
/-- One delivery. -/
def deliverCopy (s : State) (b k : Nat) (x : Bulk) : State :=
  let (src, dst, n) := pieceOf x k
  match findBytes s x .read src.1 src.2.1 src.2.2 n with
  | .at_ from_ =>
    (match pieceDst s x k dst n with
      | .at_ to_ =>
        if from_.any (sourceHeld s x) || to_.any (locFrozen s) then s
        else
          let s0 := deliver to_ (bulkRead s x from_) (warm (warm s x src.1 src.2.2 n) x dst.1 dst.2.2 n)
          let s1 := noteDlv s0 x (spRanges to_)
          let s2 := arriveAtTeam s1 x.team x.bar to_ n
          bulkWatch (bulkWatch (pieceDone s2 b 0 k x) x .read src.1 src.2.2 n) x .write dst.1 dst.2.2 n
      | w => bulkLost s b 0 x .write dst.2.1 dst.2.2 w)
  | w => bulkLost s b 0 x .read src.2.1 src.2.2 w
/-- A delivery of a copy. -/
def execCopyDelivery (b k : Nat) (s : State) : Host.Outcome State Fault Refusal :=
  match kvFind s.bulks b with
  | some x => if (x.kind = .cpy ∨ x.kind = .hub) ∧ hasPiece x 0 k = true ∧ relDone s x = true then .next (deliverCopy s b k x) else .next s
  | none => .next s

/-! Multicast (R160, R318). -/

/-- The team of a cluster that holds a core and has not retired. -/
def teamIn (s : State) (cl c : Nat) : Option Nat :=
  (s.teams.find? fun t => t.2.cluster == cl && t.2.cores.contains c && !t.2.retired).map (·.1)
/-- The same of the issuing cluster. -/
def teamOnCore (s : State) (x : Bulk) (c : Nat) : Option Nat := teamIn s (bulkTeam s x).cluster c
/-- The source bytes of a piece: read once. -/
def fetchPiece (s : State) (b k : Nat) (x : Bulk) (src : Nat × Nat × Nat) (n : Nat) : Option (List Byte) × State :=
  match kvFind x.fetched k with
  | some bs => (some bs, s)
  | none =>
    match findBytes s x .read src.1 src.2.1 src.2.2 n with
    | .at_ ls => if ls.any (sourceHeld s x) then (none, s) else (some (bulkRead s x ls), warm s x src.1 src.2.2 n)
    | w => (none, bulkLost s b 0 x .read src.2.1 src.2.2 w)
def deliverMulticast (s : State) (b k c : Nat) (x : Bulk) : State :=
  let (src, dst, n) := pieceOf x k
  match fetchPiece s b k x src n with
  | (none, s1) => s1
  | (some bs, s1) =>
    let first := (kvFind x.fetched k).isNone
    let more := x.todo.any fun e => e.1 != c && decide (e.2.1 ≤ k ∧ k < e.2.2)
    let y := { x with fetched := if more then kvPut x.fetched k bs else kvDel x.fetched k }
    let s2 := if first then bulkWatch s1 x .read src.1 src.2.2 n else s1
    match teamOnCore s1 x c with
    | none => pieceDone s2 b c k { y with late := true }
    | some t =>
      let ls := (spanOf (sliceBase c + dst.2.2) n).map Loc.sp
      if ls.any (locFrozen s1) then s1
      else pieceDone (arriveAtTeam (noteDlv (deliver ls bs s2) x (spRanges ls)) t x.bar ls n) b c k y
/-- A delivery of a multicast to one core. -/
def execMulticastDelivery (b k c : Nat) (s : State) : Host.Outcome State Fault Refusal :=
  match kvFind s.bulks b with
  | some x => if x.kind = .cpymc ∧ hasPiece x c k = true ∧ relDone s x = true then .next (deliverMulticast s b k c x) else .next s
  | none => .next s

/-! Reductions (R161, R162, R319). -/

/-- Destination and shape of a contribution: the words of its descriptor that hold them, a stride that moves nothing too (DESIGN CHOICE, log
114). -/
def redShape (d : List Word) : List Word :=
  [d.getD 2 0, d.getD 3 0, d.getD 4 0, d.getD 6 0, d.getD 7 0 &&& 0xFFF000FF]
/-- All bytes of the rows of a side. -/
def rowBytesOf (k : CopyD) (rows : List Int) : List Nat := rows.flatMap fun r => spanOf r.toNat k.xb
/-- One element: the contributions in order. -/
def reduceWords : List Word → Word
  | [] => 0
  | e :: r => r.foldl (fun a c => BitVec.ofNat 32 (addF fp32 .rne (decodeF fp32 a.toNat) (decodeF fp32 c.toNat)).1) e
/-- Contributions by source core, then in the order that core issued them. -/
def redOrder (l : List (Nat × Nat × List Byte)) : List (List Word) :=
  (l.mergeSort fun a b => decide (a.1 < b.1 ∨ (a.1 = b.1 ∧ a.2.1 ≤ b.2.1))).map fun x => wordsOf x.2.2
/-- The count is reached: the destination is written, and its bytes arrive at the barrier of the first contribution, on the team of its
cluster there. -/
def reduceNow (s : State) (key : Nat) (r : Red) (x : Bulk) : State :=
  let k := copyD x.desc
  let cs := redOrder r.got
  let n := (cs.headD []).length
  let sums := (List.range n).map fun i => reduceWords (cs.map fun c => c.getD i 0)
  let ls := (rowBytesOf k k.dstRows).map Loc.sp
  let s1 := deliver ls (bytesOfWords sums) { s with reds := kvDel s.reds key }
  match teamIn s1 r.cluster r.core with
  | none => s1
  | some t =>
    match r.bar with
    | none => s1
    | some b =>
      arriveBytes (modTeam s1 t fun y => { y with got := y.got ++ k.dstRows.map fun d => (b, d.toNat, k.xb, false) }) t b k.bytes
/-- The base die's switch that a core's contributions meet first (01 R15; log 89). -/
def switchOf (core : Nat) : Nat := dieOfCore core / 2
/-- A contribution is taken: combined in that switch, where the reduction has an entry of its table or one is free; else by the
destination core's buffer, where the reduction has an entry or one is free; else it waits in the fabric (R162). -/
def takenBy (s : State) (r : Red) (core : Nat) : Option Red :=
  let w := switchOf core
  if r.switches.contains w then some r
  else if (s.reds.filter fun e => e.2.switches.contains w).length < 256 then some { r with switches := r.switches ++ [w] }
  else if r.buffered then some r
  else if (s.reds.filter fun e => e.2.buffered && e.2.core == r.core).length < 64 then some { r with buffered := true }
  else none
/-- The grid of a command has been cut, or ends as a cut grid does (12 R241, R242). -/
def gridCut (s : State) (x : Bulk) : Bool :=
  let k := (kvFind s.tasks ((kvFind s.clusters (bulkTeam s x).cluster).getD noCluster).task).getD noTask
  (k.ladder.map fun l => l.cutting.isSome).getD false
/-- One that comes after the cut of its grid is discarded with its reduction (17 R319). -/
def contribute (s : State) (b : Nat) (x : Bulk) : State :=
  let k := copyD x.desc
  let v := x.x.toNat
  let key := x.sid * 4096 + v % 4096
  let count := bitsOf v 12 7
  let from_ := (rowBytesOf k k.srcRows).map fun a => if codeOf k.src = 1 then Loc.sp a else shLoc (bulkTeam s x) a
  if gridCut s x then bulkDone s b x
  else if from_.any (sourceHeld s x) then s
  else
    let bs := bulkRead s x from_
    let r := (kvFind s.reds key).getD
      { dst := redShape x.desc, count := count, got := [], bar := x.bar, core := homeOf (vaOf k.dst), cluster := (bulkTeam s x).cluster, cmd := x.cmd,
        task := ((kvFind s.clusters (bulkTeam s x).cluster).getD noCluster).task, switches := [], buffered := false }
    if r.dst ≠ redShape x.desc ∨ r.count ≠ count then bulkDone (setCpystat s x.gid 2) b x
    else
      match takenBy s r x.core with
      | none => s
      | some r0 =>
        let r1 := { r0 with got := r0.got ++ [(x.core, x.fl, bs)] }
        if r1.got.length < r1.count then bulkDone { s with reds := kvPut s.reds key r1 } b x
        else if coreFrozen s r1.core then s
        else bulkDone (reduceNow s key r1 x) b x
/-- A contribution is read, and accepted or discarded. -/
def execReductionContribution (b : Nat) (s : State) : Host.Outcome State Fault Refusal :=
  match kvFind s.bulks b with
  | some x => if x.kind = .cpyred ∧ relDone s x = true then .next (contribute s b x) else .next s
  | none => .next s

/-! Gathers and scatters (R163 to R166). -/

/-- The byte offsets of a row no higher lane's row covers; `base` gives a lane's first address. -/
def ownBytes (ms : List LaneMove) (base : LaneMove → Nat) (rb : Nat) (m : LaneMove) : List Nat :=
  (List.range rb).filter fun i => !(ms.any fun h =>
    decide (m.lane < h.lane ∧ base h ≤ base m + i ∧ base m + i < base h + rb))
/-- The row of a lane at LOC, and its places. -/
def locBytes (s : State) (x : Bulk) (l rb : Nat) : List Loc :=
  let a := rowAt x.desc l
  if codeOf (pairNat x.desc 0) = 1 then (spanOf a rb).map Loc.sp else (spanOf a rb).map (shLoc (bulkTeam s x))
/-- The row of a lane in main memory. -/
def laneBytesAt (s : State) (x : Bulk) (m : LaneMove) (kind : AKind) (rb : Nat) : Where :=
  match m.tr with
  | some ls =>
    (match (ls.filterMap peerOf).find? fun p => !peerUp s p with
      | some p => .down p
      | none => .at_ ls)
  | none => findBytes s x kind 0 (keyOf m.va.toNat) (vaOf m.va.toNat) rb
/-- Move the bytes at some offsets of a row. -/
def moveRow (s : State) (x : Bulk) (from_ to_ : List Loc) (is : List Nat) : State :=
  deliver (is.map fun i => to_.getD i (.hbm 0)) (bulkRead s x (is.map fun i => from_.getD i (.hbm 0))) s
def deliverLane (s : State) (b : Nat) (x : Bulk) (m : LaneMove) : State :=
  let rb := rowBytes x.desc
  let here := locBytes s x m.lane rb
  let kind : AKind := if x.kind = .gath then .read else .write
  let va := vaOf m.va.toNat
  match laneBytesAt s x m kind rb with
  | .at_ there =>
    if here.any (if x.kind = .gath then locFrozen s else sourceHeld s x) then s
    else
      let own := ownBytes x.lanes (fun h => rowAt x.desc h.lane) rb m
      let s0 := warm s x (if m.tr.isSome then 1 else 0) va rb
      let s1 := if x.kind = .gath then noteDlv (moveRow s0 x there here own) x (spRanges (own.map fun i => here.getD i (.hbm 0)))
        else moveRow s0 x here there (ownBytes x.lanes (fun h => vaOf h.va.toNat) rb m)
      let s2 := arriveAtTeam s1 x.team x.bar (if x.kind = .gath then here else there) rb
      bulkWatch (pieceDone s2 b 0 m.lane x) x kind 0 va rb
  | w => bulkLost s b m.lane x kind (keyOf m.va.toNat) va w
/-- A lane of a gather, of a scatter. -/
def laneEvent (kind : BulkKind) (b l : Nat) (s : State) : State :=
  match kvFind s.bulks b with
  | some x =>
    if x.kind = kind ∧ hasPiece x 0 l = true ∧ relDone s x = true then
      match x.lanes.find? fun m => m.lane == l with
      | some m => deliverLane s b x m
      | none => s
    else s
  | none => s
/-- A lane of a gather is delivered. -/
def execGatherLaneDelivery (b l : Nat) (s : State) : Host.Outcome State Fault Refusal := .next (laneEvent .gath b l s)
/-- A row of a scatter is written. -/
def execScatterRowWrite (b l : Nat) (s : State) : Host.Outcome State Fault Refusal := .next (laneEvent .scat b l s)

/-- The pieces of a bulk command that are left. -/
def piecesLeft (x : Bulk) : List (Nat × Nat) := x.todo.flatMap fun e => (List.range (e.2.2 - e.2.1)).map fun i => (e.1, e.2.1 + i)
/-- The main-memory sides of a piece: first address, and where its bytes stand. -/
def pieceSides (s : State) (x : Bulk) (k : Nat) : List (Nat × Where) :=
  let row (kind : AKind) : List (Nat × Where) :=
    (x.lanes.filter fun m => m.lane == k).map fun m => (vaOf m.va.toNat, laneBytesAt s x m kind (rowBytes x.desc))
  match x.kind with
  | .gath => row .read
  | .scat => row .write
  | _ =>
    let (src, dst, n) := pieceOf x k
    (if src.1 = 0 then [(src.2.2, findBytes s x .read 0 src.2.1 src.2.2 n)] else []) ++
      if dst.1 = 0 then [(dst.2.2, findBytes s x .write 0 dst.2.1 dst.2.2 n)] else []
/-- The first byte of a side that stands at a peer. -/
def peerByte : Nat × Where → Option Nat
  | (a, .at_ ls) => (ls.findIdx? fun l => (peerOf l).isSome).map (a + ·)
  | _ => none
/-- The first byte at a peer of what is left of a command. -/
def peerVa (s : State) (x : Bulk) : Option Nat := ((piecesLeft x).flatMap fun p => pieceSides s x p.2).findSome? peerByte
/-- A peer's access table refuses a request of a bulk command (09 R174). -/
def usesPeer (s : State) (x : Bulk) : Bool := (peerVa s x).isSome
/-- The refusal is a permission failure found after issue, at the first byte that the peer has. -/
def execPeerRefusal (b : Nat) (s : State) : Host.Outcome State Fault Refusal :=
  match kvFind s.bulks b with
  | some x =>
    (match peerVa s x with
      | some va => .next (bulkFault s b x .perm 4 va)
      | none => .next s)
  | none => .next s

end Sys2Proof.Machine
end

