-- ==== Sys2Proof/Machine/Walk.lean ====
section
/-! DEFINITION. Translation events (09): walks, fault records, replays, invalidations, range entries; and which accesses of the
host-visible registers are admitted (16 R291, R300). -/
set_option Elab.async false
namespace Sys2Proof.Machine

/-! Accesses of the main BAR. -/

/-- The host port has trained: a boot that halted leaves it down (R297). -/
def linked (s : State) (m : Master) : Bool :=
  match m with
  | .host _ => !s.trust.halted
  | _ => true
/-- Whether a master reaches a block at an offset (R291). -/
def barSees (m : Master) (off n : Nat) : Bool :=
  match m with
  | .host 0 => true
  | .host f => decide (f < 16) && (decide (off + n ≤ 0x8004) || decide (0x8100 ≤ off ∧ off + n ≤ 0x8120) ||
      decide (0x11120 ≤ off ∧ off + n ≤ 0x11124))
  | .mgmt => true
  | .fw _ => true
  | _ => false
/-- An access of a block is admitted: it is seen, and an access entry grants it; C5 always reaches the access table (R300). -/
def barAdmits (s : State) (m : Master) (off n : Nat) (k : AKind) : Bool :=
  barSees m off n && (admitted s m 3 off n k || (m == .fw 5 && decide (0x14000 ≤ off ∧ off + n ≤ 0x14024)))
/-- A host, management or peer access that is refused: an error record with cause DENIED (R300). -/
def denied (s : State) (addr : Nat) : State := errorRecord s 7 0 0 0 addr 0 0 0
/-- A register write: its effect where it is admitted; ignored where the function sees no block; else dropped with a record. -/
def barWrite (s : State) (m : Master) (off n : Nat) (k : State → State) : State :=
  if linked s m = false ∨ barSees m off n = false then s
  else if barAdmits s m off n .write then k s
  else denied s off

/-! Units of pre-emption (11 R227, 15 R269). -/

/-- The clusters of a unit: the cluster, or with a cooperative grid all of its clusters. -/
def unitOf (s : State) (cl : Nat) : List (Nat × Cluster) :=
  match kvFind s.clusters cl with
  | none => []
  | some c => if coopOf ((kvFind s.tasks c.task).getD noTask) then clustersOf s c.task else [(cl, c)]
/-- The groups of clusters. -/
def unitGroups (s : State) (cls : List (Nat × Cluster)) : List (Nat × Group) :=
  s.groups.filter fun g => cls.any fun c => (teamOf s g.2).cluster == c.1
/-- A fragment takes up its wait again; one stopped at a header goes on, unless C6 has stopped it (15 R270). -/
def resumeFrag (stopped : Bool) (f : Frag) : Frag :=
  if stopped then f else { f with halted := false, park := if f.park = .safe then .run else f.park }
/-- Fragments go on after a pre-emption that does not take place, unless C6 has stopped them. -/
def unhaltUnit (s : State) (cls : List (Nat × Cluster)) : State :=
  (unitGroups s cls).foldl (fun x g =>
    let stopped := (clusterOf x g.2).stop != .none
    modGroup x g.1 fun y => { y with frags := y.frags.map (resumeFrag stopped) }) s
/-- The scheduler gives a pre-emption up, and the unit runs on. -/
def abandon (s : State) (cls : List (Nat × Cluster)) : State :=
  cls.foldl (fun x u => modCluster x u.1 fun c => { c with pre := .none }) (unhaltUnit s cls)

/-! Requests that continue, park or fail (R159, R179, R182, R184). -/

/-- A journal entry of C1 about a cluster: task, cluster, anchor (16 R296). -/
def journalCluster (s : State) (cl : Nat) : State :=
  let c := (kvFind s.clusters cl).getD noCluster
  journal s 1 c.task cl c.anchor
/-- A context fault of the command of a space's sequencer or of a group. -/
def faultSeqCmd (s : State) (t : Nat) (cause : Cause) (pc : Word) (gid : Nat) : State :=
  match kvFind s.teams t with
  | none => s
  | some x => faultTask s ((kvFind s.clusters x.cluster).getD noCluster).task (causeCode cause) pc gid
/-- What a failure during a walk does to the request that met it. -/
def reqFails (s : State) (r : Req) (cause : Cause) (ecause : Nat) : State :=
  let va := r.page * 2 ^ 16
  let rec1 (s : State) : State := errorRecord s ecause (if r.eng = 6 then 0 else dieOfCore r.core) r.sid r.gid va 0 0 0
  match r.who with
  | .bulk b _ =>
    (match kvFind s.bulks b with
      | some x => bulkFault s b x cause ecause va
      | none => s)
  | .grp g => faultGroup (rec1 s) g (causeCode cause) r.pc
  | .seq t => faultSeqCmd (rec1 s) t cause r.pc r.gid
  | .tol g => faultGroup (rec1 s) g (causeCode cause) 0
  | .left t => if (kvFind s.tasks t).isSome then faultTask (rec1 s) t (causeCode cause) 0 r.gid else rec1 s
  | .locks g fl => opDone (faultGroup (rec1 s) g (causeCode cause) 0) g fl
  | _ => s
/-- The error record of a malformed entry met by an access of the hub. -/
def malformedRecord (s : State) (r : Req) : State := errorRecord s 3 0 r.sid 0 (r.page * 2 ^ 16) 0 0 0
/-- A malformed entry met by an access of the hub: for a packet (11 R209), a completion record (11 R210), a launch record or what
belongs to it (11 R217), a control block, a save area (11 R227), a copy of its channel; a group's own access at the hub faults its
context (R173). -/
def hubMalformed (s : State) (r : Req) : State :=
  match r.who with
  | .ring q =>
    let s1 := malformedRecord s r
    (match kvFind s1.queues q with
      | some x =>
        (match x.held with
          | some w => nextPacket (rejectPacket s1 q x w 0x27) q
          | none => modQueue s1 q fun y => { y with door := false })
      | none => s1)
  | .poll q =>
    let s1 := malformedRecord s r
    (match (kvFind s1.queues q).bind (·.wait) with
      | some v => endCmd (modQueue s1 q fun y => { y with wait := none }) v.cmd 4 0x27
      | none => s1)
  | .task t =>
    let s1 := malformedRecord s r
    (match kvFind s1.tasks t with
      | some k => faultCmd s1 k.cmd { status := 4, cause := 0x27, tpc := 0, ggid := 0 }
      | none => s1)
  | .succ t =>
    let s1 := malformedRecord s r
    (match kvFind s1.tasks t with
      | some k => faultCmd s1 k.cmd { status := 6, cause := causeCode .perm, tpc := 0, ggid := 0 }
      | none => s1)
  | .record c =>
    (match kvFind s.cmds c with
      | some x => modCmd (errorRecord s 8 0 x.sid 0 x.cr x.queue ((x.ending.map (·.status)).getD 1) x.seq) c fun y => { y with cr := 0 }
      | none => s)
  | .save cl =>
    let s1 := malformedRecord s r
    (match kvFind s1.clusters cl with
      | some c =>
        -- while it is written the unit runs on, by a decision that is journaled first (16 R296); of a saved unit the command ends, as for a control block
        if c.pre == .asked then abandon (journalCluster s1 cl) (unitOf s1 cl)
        else faultCmd s1 ((kvFind s1.tasks c.task).getD noTask).cmd { status := 6, cause := causeCode .perm, tpc := 0, ggid := 0 }
      | none => s1)
  | .host _ => s
  | _ => reqFails s r .perm 3
/-- The first granule whose lock differs from the key a request carries for the record of a scale copy (15 R280): its VA and lock. -/
def reqTag (s : State) (r : Req) (t : Trn) : Option (Nat × Nat × BitVec 4) :=
  match r.tag with
  | some (key, a, n) =>
    let q := pagePart a n r.page
    (tagMiss s t key q.1 q.2).map fun g => (key, r.page * 2 ^ 16 + g * 32, kvGet 0 s.locks (t.base / 32 + g))
  | none => none
/-- Whether a request lacks the permission it needs; a lock write needs a page that takes locks (15 R281). -/
def reqLacks (r : Req) (t : Trn) : Bool :=
  match r.who with
  | .locks _ _ => !lockable t
  | _ => !permits t r.kind
/-- A page of a lock write is found: where its locks stand. -/
def lockFound (s : State) (r : Req) (t : Trn) : State :=
  match r.who with
  | .locks g fl =>
    (match findOp s g fl with
      | some (_, { op := .locks va n lock pages, .. }) => setOp s g fl (.locks va n lock (pages ++ [(r.page, t.base)]))
      | _ => s)
  | _ => s
/-- A request of a group, sequencer or engine whose page is found: it goes on, or its operation fails; a tolerant lane is
reported either way (R184). -/
def reqContinues (s : State) (r : Req) (t : Trn) : State :=
  if tolerant r ∨ r.eng = 6 then s
  else if reqLacks r t then reqFails s r .perm 4
  else
    match reqTag s r t with
    | some (key, va, lock) => reqFails (tagFault s r.sid r.gid r.eng false va key lock) r .tag 5
    | none => lockFound s r t
/-- The L1 of the core of a request is filled; the hub has none. -/
def fillFor (t : Tlb) (s : State) (r : Req) : State := if r.eng = 6 then s else fillL1 s r.core t
/-- A request is made again: it goes on where its page hits now. -/
def reissue (die : Nat) (s : State) (r : Req) : State :=
  match lookCounted s (if r.eng = 6 then none else some r.core) die r.sid r.page with
  | (some t, s1) => reqContinues s1 r t
  | (none, s1) => request s1 die r
/-- Requests at the port go on as entries free (R178). -/
def feedPort (s : State) (die : Nat) : State :=
  let d := dieOf s die
  if d.port.isEmpty ∨ 256 ≤ d.miss.length then s
  else d.port.foldl (reissue die) (modDie s die fun x => { x with port := [] })
/-- Parked requests of commands that have ended leave the lists (11 R215), those that parked after the end too. While the grid of one of
its tasks is being cut, the command's other tasks still run (12 R241). -/
def dropEnded (s : State) : State :=
  let cut (c : Nat) : Bool := s.tasks.any fun t => t.2.cmd == c && (t.2.ladder.bind (·.cutting)) == some false
  let dead (c : Nat) : Bool := ((kvFind s.cmds c).map fun x => x.ending.isSome && !cut c).getD true
  let gs := (s.groups.filter fun g => dead (taskOf s g.2).cmd).map (·.1)
  let ts := (s.teams.filter fun t => dead (taskOfTeam s t.2).cmd).map (·.1)
  let bs := (s.bulks.filter fun b => gs.contains b.2.gid && b.2.kind != .hub).map (·.1)
  if gs.isEmpty ∧ ts.isEmpty then s
  else completeParked (parkedOps gs bs ts s) { s with dies := s.dies.map fun d => (d.1, unpark gs bs ts d.2) }

/-! Walks (R178, R179). -/

/-- The oldest entry whose walk has not begun gets a walker. -/
def startWalk : List Miss → List Miss
  | [] => []
  | m :: r => if m.walking || m.stuck then m :: startWalk r else { m with walking := true } :: r
def walkers (d : Die) : Nat := (d.miss.filter (·.walking)).length
def walkStartReady (s : State) (d : Nat) : Bool :=
  decide (walkers (dieOf s d) < 64) && (dieOf s d).miss.any fun m => !m.walking && !m.stuck
/-- A walk starts. -/
def execWalkStart (d : Nat) (s : State) : Host.Outcome State Fault Refusal :=
  if walkStartReady s d then .next (modDie s d fun x => { x with miss := startWalk x.miss }) else .next s
/-- LEVEL of a fault record (Table 9-5). -/
def levelCode (l : Nat) : Nat := l - 1
/-- A record of a fault in the lowest free slot, or DROPPED; with the notice to C2 (R179, R180). -/
def faultRecord (s : State) (die level : Nat) (m : Miss) : State :=
  let d := dieOf s die
  let s1 := match (List.range 8).find? fun i => (kvFind d.flt i).isNone with
    | some i => modDie s die fun x => { x with
        faultSeq := x.faultSeq + 1
        flt := kvPut x.flt i { page := m.page, sid := m.sid, kind := m.kind, closed := false, count := min 65535 m.count,
                               first := if m.eng = 6 then 0 else m.gid, eng := m.eng, level := levelCode level,
                               seq := x.faultSeq + 1 } }
    | none => modDie s die fun x => { x with dropped := true }
  postMsg s1 2 (noticeMsg 2)
/-- Requests of an entry park; those that find no place stay in it. -/
def parkEntry (s : State) (die : Nat) (m : Miss) : State :=
  let rs := m.reqs.filter fun r => !tolerant r
  let d := dieOf s die
  let n := 4096 - d.replay.length
  let rest := rs.drop n
  let s1 := modDie s die fun x => { x with
    replay := x.replay ++ rs.take n
    replayFull := x.replayFull || !rest.isEmpty
    miss := if rest.isEmpty then x.miss else x.miss ++ [{ m with reqs := rest, walking := false, stuck := true }] }
  rs.foldl noteParked s1
/-- The end of a walk. The walk cache takes the non-leaf entries that it read, however it ends: R176 and R179 name the filling for a walk
that ends on a valid leaf (DESIGN CHOICE, log 101). -/
def endWalk (s : State) (die : Nat) (m : Miss) : State :=
  let (res, ents) := walk s die m.sid m.page
  let s1 := modDie s die fun d => { d with miss := d.miss.filter fun x => !(x.sid == m.sid && x.page == m.page) }
  let s2 := ents.foldl (fun y w => fillWalk y die w) s1
  match res with
  | .leaf t =>
    let s3 := m.reqs.foldl (fillFor t) (fillL2 s2 die t)
    m.reqs.foldl (fun y r => reqContinues y r (tlbTrn t r.page)) s3
  | .malformed => m.reqs.foldl (fun y r => if r.eng = 6 then hubMalformed y r else reqFails y r .perm 3) s2
  | .invalid level => parkEntry (faultRecord s2 die level m) die m
/-- A walk ends. -/
def execWalkEnd (d k : Nat) (s : State) : Host.Outcome State Fault Refusal :=
  match (dieOf s d).miss[k]? with
  | some m => if m.walking then .next (feedPort (endWalk s d m) d) else .next s
  | none => .next s

/-! Replays (R183). -/

/-- Every open record closes, every parked request is made again in list order. -/
def replayDie (s : State) (die : Nat) : State :=
  let rs := (dieOf s die).replay
  let s1 := modDie s die fun d => { d with replay := [], flt := d.flt.map fun e => (e.1, { e.2 with closed := true }) }
  rs.foldl (reissue die) (modDie s1 die feedDie)
/-- A write of FLTREPLAY. -/
def execFltreplay (d : Nat) (v : Word) (s : State) : Host.Outcome State Fault Refusal :=
  if v.getLsbD 0 then .next (feedPort (replayDie s d) d) else .next s

/-! Invalidations (R186 to R190). -/

/-- [page, page + pages) overlaps [START, END). -/
def pageMeets (v : Inval) (sid page pages : Nat) : Bool :=
  sid == v.sid && decide (page * 2 ^ 16 < v.stop ∧ v.start < (page + pages) * 2 ^ 16)
/-- A range of main memory at an address with a key and code overlaps. -/
def rangeMeets (v : Inval) (sid va n : Nat) : Bool :=
  sid == v.sid && codeOf va == 0 && decide (vaOf va < v.stop ∧ v.start < vaOf va + n)
/-- Rows of gather lanes translated before: the invalidation waits for them. -/
def translatedBefore (s : State) (v : Inval) : List (Nat × Nat) :=
  s.bulks.flatMap fun b =>
    (b.2.lanes.filter fun m => m.tr.isSome && hasPiece b.2 0 m.lane && rangeMeets v b.2.sid m.va.toNat (rowBytes b.2.desc)).map
      fun m => (b.1, m.lane)
/-- An operation of a group that acts on places found before: a pin, lock writes. -/
def opBefore (v : Inval) (sid : Nat) (f : Flight) : Bool :=
  !f.done && match f.op with
    | .pin _ head _ => rangeMeets v sid head.toNat 64
    | .locks va n _ pages => !pages.isEmpty && rangeMeets v sid va (32 * n)
    | _ => false
def opsBefore (s : State) (v : Inval) : List (Nat × Nat) :=
  s.groups.flatMap fun g => (g.2.flight.filter (opBefore v (sidOf s g.2))).map fun f => (g.1, f.id)
/-- A waiting `vwait` whose head lies in the range is issued again (DEDUCED, log 93). -/
def vwaitAgain (v : Inval) (sid : Nat) (f : Frag) : Frag :=
  match f.park with
  | .vwait _ _ head => if rangeMeets v sid head 64 then { f with
      park := .run, pc := f.pc - 4
      cl := match f.cl with
        | some (k, left) => some (k, left + 1)
        | none => none } else f
  | _ => f
/-- Vats that were waited on so are no more by those. -/
def vatKeys (s : State) : List Nat := s.vats.map (·.1)
/-- The entries of the space that overlap are gone from every structure. -/
def performInval (s : State) (v : Inval) : State :=
  let w := { v with performed := true, waits := translatedBefore s v, ops := opsBefore s v }
  let s1 := { s with
    cores := s.cores.map fun c => (c.1, { c.2 with l1 := c.2.l1.filter fun t => !pageMeets v t.sid t.page t.pages })
    dies := s.dies.map fun d => (d.1, { d.2 with
      l2 := d.2.l2.filter fun t => !pageMeets v t.sid t.page t.pages
      walkc := d.2.walkc.filter fun t => !pageMeets v t.sid t.page t.pages })
    invs := s.invs.map fun x => if x.n = v.n then w else x
    groups := s.groups.map fun g => (g.1, { g.2 with frags := g.2.frags.map (vwaitAgain v (sidOf s g.2)) }) }
  (vatKeys s1).foldl vatTidy s1
def execInvalidationPerform (n : Nat) (s : State) : Host.Outcome State Fault Refusal :=
  match s.invs.find? fun v => v.n.toNat == n && !v.performed with
  | some v => .next (performInval s v)
  | none => .next s
/-- INVSEQ advances over each completed prefix (R188). -/
def advanceSeq (out : List Word) (last : Word) : Nat → Word → Word
  | 0, d => d
  | k + 1, d => if d = last ∨ out.contains (nextSeq d) then d else advanceSeq out last k (nextSeq d)
/-- A number has been reached. -/
def reached (done n : Word) : Bool := decide ((done - n).toNat < 2 ^ 31)
/-- INVAL packets whose number is reached complete (11 R209). -/
def completeInvals (s : State) : State :=
  { s with cmds := s.cmds.map fun c => match c.2.inval with
      | some n => if reached s.invDone n then (c.1, { c.2 with inval := none, closing := true }) else c
      | none => c }
/-- Replies of destroyed spaces whose invalidation is complete. -/
def answerDestroys (s : State) : State :=
  let due := s.trust.destroys.filter fun d => reached s.invDone d.1
  let s1 := { s with trust := { s.trust with destroys := s.trust.destroys.filter fun d => !reached s.invDone d.1 } }
  due.foldl (fun x d => answer x d.2.1 2 d.2.2.1 0 []) s1
def invalReady (s : State) (v : Inval) : Bool :=
  v.performed && v.waits.all (fun w => !((kvFind s.bulks w.1).map fun x => hasPiece x 0 w.2).getD false) &&
    v.ops.all fun w => (findOp s w.1 w.2).isNone
def completeInval (s : State) (v : Inval) : State :=
  let s1 := { s with invs := s.invs.filter fun x => x.n != v.n }
  answerDestroys (completeInvals { s1 with invDone := advanceSeq (s1.invs.map (·.n)) s1.invSeq (s1.invSeq - s1.invDone).toNat s1.invDone })
def execInvalidationComplete (n : Nat) (s : State) : Host.Outcome State Fault Refusal :=
  match s.invs.find? fun v => v.n.toNat == n with
  | some v => if invalReady s v then .next (completeInval s v) else .next s
  | none => .next s
/-- A 64-bit field of INVRANGE. -/
def invrangeNat (s : State) (i : Nat) : Nat := (kvGet 0 s.invrange i).toNat + (kvGet 0 s.invrange (i + 1)).toNat * 2 ^ 32
/-- A write of INVRANGE word 4: with GO it starts an invalidation, or refuses (R189). -/
def goInvrange (v : Word) (s : State) : State :=
  let s1 := { s with invrange := kvSet 0 s.invrange 4 (v &&& 0xFFF) }
  if v.getLsbD 31 = false then s1
  else
    let a := invrangeNat s 0
    let b := invrangeNat s 2
    if invalBad a b then { s1 with invrangeSeq := 0, invrangeErr := 1 }
    else if 16 ≤ s.invs.length then { s1 with invrangeSeq := 0, invrangeErr := 2 }
    else
      let (n, s2) := startInval s1 (v.toNat % 2 ^ 12) a b
      { s2 with invrangeSeq := n, invrangeErr := 0 }
def execInvrange (m : Master) (v : Word) (s : State) : Host.Outcome State Fault Refusal :=
  .next (barWrite s m (0x11100 + 16) 4 (goInvrange v))

/-! Range entries (R177). -/

/-- C2 writes a range entry; one that is valid and breaks its table makes an error record. -/
def execRangeEntryWrite (d i : Nat) (img : List Word) (s : State) : Host.Outcome State Fault Refusal :=
  if 16 ≤ d ∨ 64 ≤ i then .next s
  else
    let w := (img ++ List.replicate 8 0).take 8
    let s1 := modDie s d fun x => { x with range := kvSet (List.replicate 8 0) x.range i w }
    if rangeValid w && !rangeFormed w then
      .next (errorRecord s1 3 d (bitsOf (rangeWord6 w) 0 12) 0 (rangeBase w) i 0 0)
    else .next s1

end Sys2Proof.Machine
end

