-- ==== Sys2Proof/Machine/Release.lean ====
section
/-! DEFINITION. Grants, the active set, releases and retirements (04 R71, R76, 11 R211 to R214, R225, R226); completion records
(11 R210). -/
set_option Elab.async false
namespace Sys2Proof.Machine

/-! Grants (04 R71). -/

/-- The oldest request is granted: the registers enter, and the word ends. -/
def grantGrow (s : State) (quad : Nat) : State :=
  match growQueue s quad with
  | [] => s
  | gid :: _ =>
    match kvFind s.groups gid with
    | none => s
    | some g =>
      match growOf g with
      | none => s
      | some (d, n, fid) =>
        let a := g.alloc + 16 * n
        let s1 := modGroup s gid fun g => enterRange s.tick (g.wb + window g) (g.wb + min 64 a) { g with alloc := a }
        checkGrow (endGrow s1 gid d fid (BitVec.ofNat 32 (a / 16))) quad
def growReady (s : State) (quad : Nat) : Bool :=
  growGrantable s quad && !((kvFind s.groups ((growQueue s quad).headD 0)).map (groupFrozen s)).getD true
/-- The oldest `grow` of a quadrant is granted. -/
def execGrowGrant (c q : Nat) (s : State) : Host.Outcome State Fault Refusal :=
  .next (if growReady s (4 * c + q) then grantGrow s (4 * c + q) else s)

/-! The active set (R225, R226). -/

/-- The issue of its word stalls, which is no park that R225 lists. -/
def stalls : Park → Bool
  | .counterFull _ => true
  | .engineFull => true
  | .invFull => true
  | .spawnFull => true
  | .vatFull => true
  | _ => false
/-- A fragment is parked as R225 lists it, or held back by one that is. -/
def fragParked (s : State) (gid : Nat) (g : Group) (f : Frag) : Bool :=
  f.park != .safe && !stalls f.park &&
    (!parkOver s gid g f || g.frags.any fun x => fidOf x.lanes != fidOf f.lanes && holdsBack x.park)
/-- An active group is parked (R225). -/
def groupParked (s : State) (gid : Nat) (g : Group) : Bool :=
  !groupFrozen s g &&
    (g.park != .none || (g.marked && !drained g) || waitsFor s (dieOfCore (coreOfGid gid)) (.grp gid) || waitsFor s 1 (.grp gid) ||
      g.frags.all (fragParked s gid g))
/-- A group that a `yield` saw ready is waited for until it enters or stops being ready (R226). -/
def waitedFor (s : State) (y : Nat) : Bool := ((kvFind s.groups y).map fun x => !x.active && groupReady s y x).getD false
def yieldOver (s : State) (g : Group) : Bool := !g.yielded.any (waitedFor s)
/-- Groups that have entered, or stopped being ready, are waited for no more: before each step. -/
def unwait (s : State) : State :=
  if s.groups.any fun g => g.2.yielded.any fun y => !waitedFor s y then
    { s with groups := s.groups.map fun g => (g.1, { g.2 with yielded := g.2.yielded.filter (waitedFor s) }) }
  else s
/-- The earliest placed ready group that may enter. -/
def nextActive (s : State) (quad : Nat) : Option Nat :=
  (((residents s quad).filter fun g => !g.2.active && groupReady s g.1 g.2 && yieldOver s g.2).foldl (fun b g => match b with
    | some x => if g.2.order < x.2.order then some g else b
    | none => some g) none).map (·.1)
def activeCount (s : State) (quad : Nat) : Nat := ((residents s quad).filter fun g => g.2.active).length
/-- Active groups that have parked leave. -/
def leaveParked (s : State) (quad : Nat) : State :=
  ((residents s quad).filter fun g => g.2.active && groupParked s g.1 g.2).foldl
    (fun x g => modGroup x g.1 fun y => { y with active := false }) s
def activeReady (s : State) (quad : Nat) : Bool :=
  (nextActive s quad).isSome && decide (activeCount (leaveParked s quad) quad < 8)
/-- A group enters the active set; one that has entered is waited for no more. -/
def enterActive (s : State) (quad : Nat) : State :=
  match nextActive s quad with
  | some gid => unYield (modGroup (leaveParked s quad) gid fun g => { g with active := true, yielded := [] }) [gid]
  | none => s
/-- The earliest placed ready group enters the active set of its quadrant. -/
def execActiveSetEntry (c q : Nat) (s : State) : Host.Outcome State Fault Refusal :=
  .next (if activeReady s (4 * c + q) then enterActive s (4 * c + q) else s)

/-! Groups (04 R76). -/

/-- Its counters are zero, and no step still writes it: no earlier write can reach a register of its slot (R76). -/
def releaseReady (s : State) (gid : Nat) : Bool :=
  match kvFind s.groups gid with
  | some g =>
    g.exiting && drained g && !groupFrozen s g && !((teamOf s g).seq.map fun q => writesTo q gid).getD false
  | none => false
/-- Slot and granules are free, the team may retire. -/
def releaseGroup (s : State) (gid : Nat) : State :=
  match kvFind s.groups gid with
  | none => s
  | some g =>
    let s1 := leaveWalks (leaveWriters s gid) gid (clusterOf s g).task
    checkGrow (retireTeam (unYield { s1 with groups := kvDel s1.groups gid } [gid]) g.team) (gid / 16)
/-- An exiting group releases. -/
def execGroupRelease (g : Nat) (s : State) : Host.Outcome State Fault Refusal :=
  .next (if releaseReady s g then releaseGroup s g else s)

/-! Tasks (R214). -/

/-- The bytes of a control block or of its overflow block, or the pages to ask for. -/
inductive Block
  | miss (pages : List Nat)
  | refused
  | at_ (ls : List Loc) (ws : List Word)
def blockAt (s : State) (sid v : Nat) : Block :=
  match hubAt s sid .read v 128, hubAt s sid .write v 128 with
  | .at_ ls, .at_ _ => .at_ ls (wordsOf (readLocs s ls))
  | .miss p, _ => .miss p
  | _, .miss p => .miss p
  | _, _ => .refused
/-- An overflow block, which is only read. -/
def overflowAt (s : State) (sid v : Nat) : Block :=
  match hubAt s sid .read v 128 with
  | .at_ ls => .at_ ls (wordsOf (readLocs s ls))
  | .miss p => .miss p
  | .refused => .refused
/-- The successors of an overflow chain: fifteen to a block, an unused place 0, then the next block. The fuel bounds the
chain by the number of tasks a command may have. -/
def overflow (s : State) (sid : Nat) : Nat → Nat → List Nat → List Nat × Option (Nat × Block)
  | 0, _, l => (l, none)
  | n + 1, v, l =>
    if v = 0 then (l, none)
    else
      match overflowAt s sid v with
      | .at_ _ ws => overflow s sid n (pairNat ws 30) (l ++ ((List.range 15).map fun i => pairNat ws (2 * i)).filter (· != 0))
      | b => (l, some (v, b))
/-- All successors of a control block in list order, and what stopped the reading. Table 11-7 gives NSUCC the values 0 to 6; 7, to which
the spec gives no outcome, is read as 6 (DESIGN CHOICE, log 108). -/
def successors (s : State) (sid : Nat) (ws : List Word) : List Nat × Option (Nat × Block) :=
  let w := (ws.getD 0 0).toNat
  let inl := (List.range (min 6 (bitsOf w 16 3))).map fun i => pairNat ws (4 + 2 * i)
  if bitsOf w 19 1 = 1 then overflow s sid (2 ^ 24) (pairNat ws 16) inl else (inl, none)
/-- A task-graph fault, or a refusal of the hub's access. -/
def graphFault (s : State) (k : Task) (cause : Nat) : State :=
  faultCmd s k.cmd { status := 6, cause := cause, tpc := 0, ggid := 0 }
/-- The hub's access to a block is refused. -/
def refusedBlock (s : State) (k : Task) (sid : Nat) (kind : AKind) (v : Nat) : State :=
  graphFault (hubNote s sid kind v 128) k (causeCode .perm)
/-- One successor: PRED falls; a task whose last predecessor it was becomes ready if it is enqueued. Its task is one of the retiring
task's command, whichever command's group entered it: the spec does not say (DESIGN CHOICE, log 108). -/
def decrement (s : State) (k : Task) (sid v : Nat) : State × Bool :=
  match blockAt s sid v with
  | .at_ ls ws =>
    let w := ws.getD 0 0
    let pred := w.toNat % 2 ^ 16
    if pred = 0 then (graphFault s k 0x40, false)
    else
      let s1 := writeLocs (ls.take 4) (bytesOf (w - 1)) s
      if pred = 1 ∧ (ws.getD 1 0).toNat % 8 = 1 then
        (newTask (writeLocs ((ls.drop 4).take 4) (bytesOf 2) s1) k.cmd (pairNat ws 2) ((ws.drop 18).take 8)
          (some (BitVec.ofNat 64 v)), true)
      else (s1, true)
  | _ => (refusedBlock s k sid .write v, false)
def decrementAll (k : Task) (sid : Nat) : List Nat → State → State × Bool
  | [], s => (s, true)
  | v :: vs, s =>
    match decrement s k sid v with
    | (s1, true) => decrementAll k sid vs s1
    | (s1, false) => (s1, false)
/-- The vat's newest version goes into the command (12 R239). -/
def takeVersion (s : State) (c key : Nat) : State := modCmd s c fun x => { x with vseq := newSeq s key, vqual := newQual s key }
/-- The task itself goes: the grid's pending writes are published, its vat ends, it counts, the counter of the command falls. -/
def dropTask (s : State) (t : Nat) (k : Task) : State :=
  let s1 := endVat (publishGrid s t) t
  let s2 := match k.ladder with
    | some l => takeVersion s1 k.cmd l.key
    | none => s1
  modCmd { s2 with tasks := kvDel s2.tasks t } k.cmd fun x => { x with spawn := x.spawn - 1, tasks := x.tasks + 1 }
/-- Retire a task: its control block is RETIRED, every successor is handled, the counter falls. -/
def retireTask (s : State) (t : Nat) (k : Task) : State :=
  match k.tcb with
  | none => dropTask s t k
  | some v =>
    let sid := ((kvFind s.cmds k.cmd).getD noCmd).sid
    match blockAt s sid v.toNat with
    | .miss ps => hubRequest s sid .write (.succ t) ps
    | .refused => refusedBlock s k sid .write v.toNat
    | .at_ ls ws =>
      match successors s sid ws with
      | (_, some (_, .miss ps)) => hubRequest s sid .read (.succ t) ps
      | (_, some (a, _)) => refusedBlock s k sid .read a
      | (vs, none) =>
        let missing := vs.flatMap fun x => match blockAt s sid x with
          | .miss ps => ps
          | _ => []
        if missing.isEmpty then
          match decrementAll k sid vs (writeLocs ((ls.drop 4).take 4) (bytesOf 4) s) with
          | (s1, true) => dropTask s1 t k
          | (s1, false) => s1
        else hubRequest s sid .write (.succ t) missing
/-- Its grid has retired. -/
def retireReady (s : State) (t : Nat) : Bool :=
  match kvFind s.tasks t with
  | some k => !k.queued && !k.dead && !k.lr.isEmpty && decide (clusterCount k ≤ k.gone) && !waitsFor s 1 (.succ t)
  | none => false
/-- A task retires. -/
def execTaskRetire (t : Nat) (s : State) : Host.Outcome State Fault Refusal :=
  match kvFind s.tasks t with
  | some k => .next (if retireReady s t then retireTask s t k else s)
  | none => .next s

/-! Commands (R208 to R211). -/

/-- Every pending write of the cores that ran a command's grids is published (10 R199). -/
def publishRan (s : State) (cs : List Nat) : State := cs.foldl (fun x c => publishHomes x c fun _ => true) s
/-- The eight words of a completion record (Table 11-5). -/
def recordWords (c : Command) : List Word :=
  let e := c.ending.getD { status := 1, cause := 0, tpc := 0, ggid := 0 }
  [BitVec.ofNat 32 (e.status + e.cause * 2 ^ 8), c.seq, c.vseq, c.vqual, e.tpc, BitVec.ofNat 32 e.ggid, BitVec.ofNat 32 c.tasks, 0]
/-- The command is complete: its queue knows it no more, and a queue whose destruction waits for the last goes. -/
def closeCmd (s : State) (c : Nat) (x : Command) : State :=
  let s1 := { s with cmds := kvDel s.cmds c, tasks := s.tasks.filter fun t => t.2.cmd != c }
  let s2 := modQueue s1 x.queue fun q => { q with opened := q.opened.filter fun y => y != c }
  match kvFind s2.queues x.queue with
  | some q =>
    (match q.destroying with
      | some d => if q.opened.isEmpty then okCmd { s2 with queues := kvDel s2.queues x.queue } d else s2
      | none => s2)
  | none => s2
/-- The record is written, asked a page for, or refused with CRFAIL. It goes to CRADDR as the packet names it, also where the packet
was rejected for a misaligned one (DESIGN CHOICE, log 94). -/
def writeRecord (s : State) (c : Nat) (x : Command) : State :=
  if x.cr = 0 then closeCmd s c x
  else
    match hubAt s x.sid .write x.cr 32 with
    | .miss ps => hubRequest s x.sid .write (.record c) ps
    | .refused =>
      closeCmd (errorRecord (hubNote s x.sid .write x.cr 32) 8 0 x.sid 0 x.cr x.queue ((x.ending.map (·.status)).getD 1) x.seq) c x
    | .at_ ls => closeCmd (writeLocs ls (bytesOfWords (recordWords x)) s) c x
/-- A cut or faulted ladder task's vat is still to be ended. -/
def vatsSettled (s : State) (c : Nat) : Bool :=
  (tasksOfCmd s c).all fun t => (t.2.ladder.map fun l => l.cutting.isNone).getD true
/-- A command is complete but for its record: a LAUNCH when its counter is 0, or it ends early and all its groups have released;
another when its action is done. -/
def completeReady (s : State) (c : Nat) : Bool :=
  match kvFind s.cmds c with
  | some x =>
    (if x.launch then
      decide (x.spawn = 0) || (x.ending.isSome && (groupsOfCmd s c).isEmpty && (teamsOfCmd s c).isEmpty && vatsSettled s c)
     else x.closing) && !waitsFor s 1 (.record c)
  | none => false
/-- A command completes: pending writes are published, reductions still open are discarded (08 R161, R319). -/
def completeCmd (s : State) (c : Nat) : State :=
  let s1 := closeRecording (dropReds (publishRan s ((kvFind s.cmds c).getD noCmd).ran) c) c
  match kvFind s1.cmds c with
  | some x => writeRecord s1 c x
  | none => s1
def execCommandComplete (c : Nat) (s : State) : Host.Outcome State Fault Refusal :=
  .next (if completeReady s c then completeCmd s c else s)

end Sys2Proof.Machine
end

