-- ==== Sys2Proof/Machine/Image.lean ====
section
/-! DEFINITION. The image of a unit (11 R228 Table 11-13): how a save area or a debugger's buffer holds it, and how it is laid back.
What the headers and the split state hold has no layout in the spec; the one here is the model's (log 30). -/
set_option Elab.async false
namespace Sys2Proof.Machine

/-- Words of an image, filled up with zeros to a length. -/
def padTo (n : Nat) (ws : List Word) : List Word := (ws ++ List.replicate n 0).take n
/-- The image of a barrier (Table 5-5). -/
def barWords (b : Bar) : List Word :=
  [BitVec.ofNat 32 (b.expl + b.arrl * 2 ^ 16 + (if b.phase then 2 ^ 31 else 0)), BitVec.ofNat 32 b.expb, BitVec.ofNat 32 b.arrb,
    BitVec.ofNat 32 (b.expe + b.arre * 2 ^ 4)]
def barOfWords (ws : List Word) : Bar :=
  let n (i : Nat) : Nat := (ws.getD i 0).toNat
  { expl := n 0 % 2 ^ 12, arrl := bitsOf (n 0) 16 12, phase := bitsOf (n 0) 31 1 == 1, expb := n 1 % 2 ^ 25, arrb := n 2 % 2 ^ 25,
    expe := n 3 % 2 ^ 4, arre := bitsOf (n 3) 4 4 }
/-- Four bytes in a word. -/
def packBytes (a b c d : Nat) : Word := BitVec.ofNat 32 (a + b * 2 ^ 8 + c * 2 ^ 16 + d * 2 ^ 24)
/-- A table of group indexes, four to a word; 255 for none. -/
def indexWord (m : Kv Nat) (i : Nat) : Word :=
  packBytes (kvGet 255 m i) (kvGet 255 m (i + 1)) (kvGet 255 m (i + 2)) (kvGet 255 m (i + 3))
def indexOfWords (ws : List Word) : Kv Nat :=
  ((ws.flatMap bytesOf).zipIdx.filter fun e => e.1 != 255).map fun e => (e.2, e.1.toNat)
/-- A sequencer's place in its clause and what it waits for: the words after Table 6-2's. -/
def seqPlace (q : Seq) : Word :=
  let c := match q.cl with
    | some (k, left) => 1 + k.code.toNat * 2 + left * 2 ^ 4
    | none => 0
  let p := match q.park with
    | .run => 0
    | .writes => 1
    | .bar n hdr => 2 + n * 2 ^ 2 + (if hdr then 2 ^ 6 else 0)
  BitVec.ofNat 32 (c + (if q.landed then 2 ^ 8 else 0) + (if q.jumped then 2 ^ 9 else 0) + p * 2 ^ 10)
/-- Class and words left of a clause under way, from five bits and the class. -/
def placeClause (n : Nat) : Option (Cls × Nat) :=
  if n % 2 = 1 then some (Cls.ofCode (BitVec.ofNat 3 (bitsOf n 1 3)), bitsOf n 4 4) else none
def seqParkOf (n : Nat) : SPark :=
  match n % 4 with
  | 1 => .writes
  | 2 => .bar (bitsOf n 2 4) (bitsOf n 6 1 == 1)
  | _ => .run
/-- The image of a sequencer (06 Table 6-2). -/
def seqWords (q : Seq) : List Word :=
  padTo 32 ([q.pc, BitVec.ofNat 32 ((if q.busy then 1 else 0) + q.share * 2 ^ 4 + q.flags.toNat * 2 ^ 8 + q.sap.toNat * 2 ^ 16),
      BitVec.ofNat 32 (q.pa + q.pb * 2 ^ 16)] ++
    ((List.range 8).map fun i => kvGet 0 q.k (2 * i + 1) ++ kvGet 0 q.k (2 * i)) ++
    ((List.range 8).map fun i => indexWord q.acc (4 * i)) ++ [indexWord q.ahold 0, indexWord q.bhold 0, seqPlace q,
      BitVec.ofNat 32 q.stepIdx, BitVec.ofNat 32 ((q.run.map (· + 1)).getD 0)])
def seqOfWords (ws : List Word) (q : Seq) : Seq :=
  let n (i : Nat) : Nat := (ws.getD i 0).toNat
  { q with
    pc := ws.getD 0 0, busy := n 1 % 2 == 1, share := bitsOf (n 1) 4 4, flags := BitVec.ofNat 5 (bitsOf (n 1) 8 5)
    sap := BitVec.ofNat 16 (bitsOf (n 1) 16 16), pa := n 2 % 2 ^ 14, pb := bitsOf (n 2) 16 14
    k := (List.range 16).foldl (fun m i => kvSet 0 m i (BitVec.ofNat 16 (bitsOf (n (3 + i / 2)) (16 * (i % 2)) 16))) []
    acc := indexOfWords ((ws.drop 11).take 8), ahold := indexOfWords ((ws.drop 19).take 1), bhold := indexOfWords ((ws.drop 20).take 1)
    cl := placeClause (n 21 % 2 ^ 8), landed := bitsOf (n 21) 8 1 == 1, jumped := bitsOf (n 21) 9 1 == 1
    park := seqParkOf (n 21 / 2 ^ 10), stepIdx := n 22, run := if n 23 = 0 then none else some (n 23 - 1) }
/-- The header of a team. -/
def teamHead (k : Task) (t : Team) : List Word :=
  padTo 16 [lrWord k 6 &&& 0x7F, BitVec.ofNat 32 (spanCount k), BitVec.ofNat 32 t.sh, if t.seq.isSome then 1 else 0]

/-! Fragments (05 R85 to R88): a word of each lane's PC, a word of each lane's state, then the open records, newest first. -/

/-- A set of paths, a path. -/
def pathBits (ps : List Path) : Nat := (allPaths.zipIdx.map fun e => if ps.contains e.1 then 2 ^ e.2 else 0).sum
def pathsOfBits (n : Nat) : List Path := (allPaths.zipIdx.filter fun e => bitsOf n e.2 1 == 1).map (·.1)
/-- What a wait is in an image: its kind and nine bits of it. A word not issued yet issues again, and so does a `vwait`. -/
def parkCode (g : Group) (f : Frag) : Nat × Nat :=
  match f.park with
  | .hdr ps none => (1, pathBits ps)
  | .hdr ps (some n) => (2, pathBits ps + n * 2 ^ 5)
  | .bar n => (3, n)
  | .modeV n => (4, n)
  | .modeRel e => (5, if e then 1 else 0)
  | .rdzv => (6, 0)
  | .gbar => (if f.lanes &&& ~~~g.gbarred = 0 then 7 else 10, 0)
  | .seal d => (if f.lanes &&& ~~~g.sealed = 0 then 8 else 11, d)
  | .count p t => (9, allPaths.idxOf p + t * 2 ^ 3)
  | .acq _ _ (.header ps) => (1, pathBits ps)
  | .acq _ _ (.mode e) => (5, if e then 1 else 0)
  | .acq _ _ _ => (1, 0)
  | _ => (0, 0)
def parkOfCode (code arg : Nat) : Park :=
  match code with
  | 1 => .hdr (pathsOfBits arg) none
  | 2 => .hdr (pathsOfBits arg) (some (arg / 2 ^ 5))
  | 3 => .bar (arg % 2 ^ 4)
  | 4 => .modeV (arg % 2 ^ 4)
  | 5 => .modeRel (arg % 2 == 1)
  | 6 => .rdzv
  | 7 => .gbar
  | 10 => .gbar
  | 8 => .seal arg
  | 11 => .seal arg
  | 9 => .count (allPaths.getD (arg % 2 ^ 3) .ld) (arg / 2 ^ 3)
  | _ => .run
/-- A fragment that waits after its word: its PC in an image is at the parking word (R227). -/
def pastWord (g : Group) (f : Frag) : Bool :=
  (parkCode g f).1 != 0 || match f.park with
    | .vwait _ _ _ => true
    | _ => false
def imagePcOf (g : Group) (f : Frag) : Word := if pastWord g f then f.pc - 4 else f.pc
/-- A word parks the whole group: one with a switch marker, a `gath.park`. -/
def wholePark (g : Group) : Bool := (g.marked && !drained g) || match g.park with
  | .gath _ => true
  | _ => false
/-- The PC of a fragment as a stop reports it and as a group's header holds it: at the word that parks the group, for the fragment that
issued it. -/
def reportPc (g : Group) (f : Frag) : Word :=
  if wholePark g && f.lanes.getLsbD g.rot && f.park == .run then g.parkPc else imagePcOf g f
/-- The clause under way, a `vwait` standing before its word. -/
def imageClause (f : Frag) : Nat :=
  let again := match f.park with
    | .vwait _ _ _ => 1
    | _ => 0
  match f.cl with
  | some (k, left) => 1 + k.code.toNat * 2 + (left + again) * 2 ^ 4
  | none => 0
/-- Lanes that wait at a record's rejoin; lanes that a record still holds. -/
def waitsIn : SplitRec → Mask
  | .entry _ a _ _ => a
  | .hold _ _ a _ _ _ _ _ => a
def heldIn : SplitRec → Mask
  | .hold l _ _ _ _ _ false _ => l
  | _ => 0
/-- PC and state of a lane: retired; of a fragment (1); waiting at a rejoin (2); held (3). -/
def laneImage (g : Group) (l : Nat) : Word × Word :=
  match g.frags.find? fun f => f.lanes.getLsbD l with
  | some f =>
    let p := parkCode g f
    (imagePcOf g f, BitVec.ofNat 32 (fidOf f.lanes + 1 * 2 ^ 5 + p.1 * 2 ^ 7 + p.2 * 2 ^ 11 + imageClause f * 2 ^ 20 +
      (if f.landed then 2 ^ 31 else 0)))
  | none =>
    match g.splits.zipIdx.find? fun e => (waitsIn e.1).getLsbD l with
    | some (r, i) => (rejoinOf r, BitVec.ofNat 32 (l + 2 * 2 ^ 5 + i * 2 ^ 11))
    | none =>
      match g.splits.find? fun r => (heldIn r).getLsbD l with
      | some (.hold _ _ _ _ pc res _ _) =>
        (pc, BitVec.ofNat 32 (l + 3 * 2 ^ 5 + (match res with
          | some (k, left) => 1 + k.code.toNat * 2 + left * 2 ^ 4
          | none => 0) * 2 ^ 20))
      | _ => (0, 0)
/-- An open record: its rejoin, with what it is in the low bits, and the lane sets that its lanes' words do not give. -/
def recordImage : SplitRec → List Word
  | .entry p _ r _ => [r, p]
  | .hold l t _ r _ _ resumed _ => [r ||| (if resumed then 3 else 1), l, t]
/-- The split state: 640 bytes hold 32 lanes twice and at most 31 records, of which eight are entries. -/
def splitImage (g : Group) : List Word :=
  padTo 160 (((List.range 32).map fun l => (laneImage g l).1) ++ ((List.range 32).map fun l => (laneImage g l).2) ++
    g.splits.flatMap recordImage)

/-- Lanes whose state word has a kind and passes a test. -/
def lanesWith (st : Nat → Nat) (p : Nat → Bool) : Mask := maskOf ((List.range 32).filter fun l => p (st l))
/-- The open records of an image. -/
def recordsOf (st : Nat → Nat) (pc : Nat → Word) (safe : Nat → Option (Nat × Word)) : Nat → Nat → List Word → List SplitRec
  | 0, _, _ => []
  | n + 1, i, r :: a :: ws =>
    let arrived := lanesWith st fun w => bitsOf w 5 2 == 2 && bitsOf w 11 9 == i
    if r.getLsbD 0 then
      let l := fidOf a
      .hold a (ws.headD 0) arrived (r &&& ~~~3) (if l < 32 then pc l else 0) (if l < 32 then placeClause (bitsOf (st l) 20 8) else none)
        (r.getLsbD 1) (safe i) :: recordsOf st pc safe n (i + 1) (ws.drop 1)
    else .entry a arrived (r &&& ~~~3) (safe i) :: recordsOf st pc safe n (i + 1) ws
  | _, _, _ => []
def safeOf : SplitRec → Option (Nat × Word)
  | .entry _ _ _ z => z
  | .hold _ _ _ _ _ _ _ z => z
/-- The split state laid back: `n` records. What it has no place for, the safe points passed, stays. -/
def applySplit (n : Nat) (ws : List Word) (g : Group) : Group :=
  let pc (l : Nat) : Word := ws.getD l 0
  let st (l : Nat) : Nat := (ws.getD (32 + l) 0).toNat
  let frag (f : Nat) : Option Frag :=
    let ls := lanesWith st fun w => bitsOf w 5 2 == 1 && w % 2 ^ 5 == f
    let l := fidOf ls
    if ls = 0 then none
    else
      let w := st l
      let code := bitsOf w 7 4
      some { lanes := ls, pc := if code = 0 then pc l else pc l + 4, cl := placeClause (bitsOf w 20 8), landed := bitsOf w 31 1 == 1,
             park := parkOfCode code (bitsOf w 11 9), safe := (findFrag g f).bind (·.safe), passed := [], halted := true }
  { g with
    frags := (List.range 32).filterMap frag
    splits := recordsOf st pc (fun i => (g.splits[i]?).bind safeOf) n 0 (ws.drop 64)
    dead := lanesWith st fun w => bitsOf w 5 2 == 0
    gbarred := lanesWith st fun w => bitsOf w 5 2 == 1 && bitsOf w 7 4 == 7
    sealed := lanesWith st fun w => bitsOf w 5 2 == 1 && bitsOf w 7 4 == 8 }

/-! Groups. -/

/-- PC and RESUME of a group's header: those of its lowest fragment; a wait of the whole group counts. -/
def imagePc (g : Group) : Word × Bool :=
  match g.frags.find? fun f => g.frags.all fun x => decide (fidOf f.lanes ≤ fidOf x.lanes) with
  | some f => (reportPc g f, pastWord g f || wholePark g)
  | none => (0, false)
/-- The in-flight counters of Table 4-1, six bits each; reads show them, and a written image leaves them as they are (log 30). -/
def counterBits (g : Group) : Nat := (allPaths.zipIdx.map fun e => counter g e.1 * 2 ^ (6 * e.2)).sum
/-- The header of a group. -/
def groupHead (g : Group) : List Word :=
  let p := imagePc g
  padTo 16 [p.1, BitVec.ofNat 32 ((if p.2 then 1 else 0) + (if g.matrix then 2 else 0) + g.fx.toNat * 2 ^ 2 + g.fxen.toNat * 2 ^ 7 +
      g.fpm.toNat * 2 ^ 12 + g.cpystat.toNat * 2 ^ 14),
    BitVec.ofNat 32 g.wb, BitVec.ofNat 32 g.lo, BitVec.ofNat 32 g.alloc, BitVec.ofNat 32 g.regTop, BitVec.ofNat 32 g.linkBot, g.ix,
    g.tcause, g.tpc, g.mpc, g.apv ++ g.ap, BitVec.ofNat 32 (g.splits.length + g.link.length * 2 ^ 8),
    BitVec.ofNat 32 (counterBits g)]
/-- The bytes of a spill stack that are in use, and where they go: the register area, then the link area (Table 11-13). -/
def stackBytes (s : State) (g : Group) : List Byte :=
  (List.range g.regTop).map (fun i => readByte s (.sp (g.spillBase + i))) ++
    (List.range (g.spillSize - g.linkBot)).map fun i => readByte s (.sp (g.spillBase + g.linkBot + i))
def putStack (bs : List Byte) (g : Group) (s : State) : State :=
  publishBytes (g.spillBase + g.linkBot) (bs.drop g.regTop) (publishBytes g.spillBase (bs.take g.regTop) s)
/-- The image of a group. -/
def groupImage (s : State) (g : Group) : List Byte :=
  bytesOfWords (groupHead g ++ ((List.range 512).map (getS g)) ++ padTo 8 ((List.range 7).map fun i => getM g (i + 1)) ++
    padTo 32 (g.link.flatMap fun e => [e.1, BitVec.ofNat 32 e.2]) ++ splitImage g) ++
  ((List.range g.alloc).flatMap fun i => posBytes g (g.lo + i)) ++ stackBytes s g
/-- The bytes of a group's image before its vectors. -/
def groupFixed : Nat := 2912
/-- Granules a written allocation may have: 32 to 256 registers, and no more than the quadrant has. -/
def allocOf (s : State) (gid : Nat) (g : Group) (n : Nat) : Nat :=
  min (max 32 (n / 16 * 16)) (min 256 (g.alloc + 16 * freeGran s (gid / 16)))
/-- The window part of an image's head, each field held to its range. WB is taken as given, and LO held to what R64 leaves it: at most WB,
and such that WB + W does not pass LO + A (DESIGN CHOICE, log 30). -/
def applyWindow (s : State) (gid : Nat) (h : List Word) (g : Group) : Group :=
  let n (i : Nat) : Nat := (h.getD i 0).toNat
  let wb := n 2 / 8 * 8
  let a := allocOf s gid g (n 4)
  { g with
    wb := wb, lo := max (wb + min 64 a - a) (min wb (n 3 / 8 * 8)), alloc := a
    regTop := min g.spillSize (n 5 / 1024 * 1024), linkBot := max (min g.spillSize (n 5 / 1024 * 1024)) (min g.spillSize (n 6 / 8 * 8)) }
/-- Link entries of an image. -/
def linkOfWords : Nat → List Word → List (Word × Nat)
  | n + 1, a :: k :: r => (a, k.toNat % 8) :: linkOfWords n r
  | _, _ => []
/-- The registers of a group from its image. -/
def applyRegs (ws : List Word) (g : Group) : Group :=
  let w (i : Nat) : Word := ws.getD i 0
  let n1 := (w 1).toNat
  { g with
    matrix := bitsOf n1 1 1 == 1, fx := BitVec.ofNat 5 (bitsOf n1 2 5), fxen := BitVec.ofNat 5 (bitsOf n1 7 5)
    fpm := BitVec.ofNat 2 (bitsOf n1 12 2), cpystat := BitVec.ofNat 3 (bitsOf n1 14 3), ix := w 7, tcause := w 8, tpc := w 9, mpc := w 10
    ap := (w 11).setWidth 16, apv := (w 11).extractLsb' 16 16
    s := (List.range 512).foldl (fun m i => kvSet 0 m i (w (16 + i))) []
    m := (List.range 7).foldl (fun m i => kvSet 0 m (i + 1) (w (528 + i))) []
    link := linkOfWords (min 16 (bitsOf (w 12).toNat 8 8)) ((ws.drop 536).take 32) }
/-- The vectors, from position `lo` on. -/
def applyVecs (ws : List Word) (g : Group) : Group :=
  (List.range (g.alloc * 32)).foldl (fun y i => setPos y (g.lo + i / 32) (i % 32) (ws.getD i 0)) g
/-- One group takes its part of an image, if all of it is there; what is left of the image. -/
def applyGroup (gid : Nat) (r : List Byte × State) : List Byte × State :=
  match kvFind r.2.groups gid with
  | none => r
  | some g =>
    let ws := wordsOf (r.1.take groupFixed)
    let g1 := applySplit (bitsOf (ws.getD 12 0).toNat 0 8) ((ws.drop 568).take 160) (applyRegs ws (applyWindow r.2 gid ws g))
    let nv := 128 * (ws.getD 4 0).toNat
    let n := g1.regTop + (g1.spillSize - g1.linkBot)
    if r.1.length < groupFixed + nv + n then ([], r.2)
    else
      let g2 := applyVecs (wordsOf ((r.1.drop groupFixed).take nv)) g1
      (r.1.drop (groupFixed + nv + n),
        putStack ((r.1.drop (groupFixed + nv)).take n) g2 { r.2 with groups := kvPut r.2.groups gid g2 })

/-! Teams and units. -/

/-- The image of a team and of its groups. -/
def teamImage (s : State) (k : Task) (tid : Nat) (t : Team) : List Byte :=
  bytesOfWords (teamHead k t ++ ((List.range 16).flatMap fun n => barWords (kvGet noBar t.bars n)) ++
    (match t.seq with
      | some q => seqWords q
      | none => List.replicate 32 0)) ++
  ((List.range t.sh).map fun a => readByte s (shLoc t a)) ++
  t.groups.flatMap fun g => match teamGroup s tid g with
    | some x => groupImage s x
    | none => []
/-- The teams of clusters that have not retired. -/
def unitTeams (s : State) (cls : List (Nat × Cluster)) : List (Nat × Team) :=
  cls.flatMap fun c => c.2.teams.filterMap fun t => ((kvFind s.teams t).filter fun x => !x.retired).map fun x => (t, x)
/-- The image of a unit. -/
def unitImage (s : State) (k : Task) (cls : List (Nat × Cluster)) : List Byte :=
  let ts := unitTeams s cls
  bytesOfWords (padTo 16 [1, BitVec.ofNat 32 ts.length, BitVec.ofNat 32 k.lraddr, BitVec.ofNat 32 (k.lraddr / 2 ^ 32),
    BitVec.ofNat 32 ((ts.head?.map (·.2.lin)).getD 0)]) ++ ts.flatMap fun t => teamImage s k t.1 t.2
/-- One team takes its part: barriers, sequencer, SH where `sh` says so, its groups. -/
def applyTeam (sh : Bool) (r : List Byte × State) (tid : Nat) : List Byte × State :=
  match kvFind r.2.teams tid with
  | none => r
  | some t =>
    if r.1.length < 448 + t.sh then ([], r.2)
    else
      let bars := wordsOf ((r.1.drop 64).take 256)
      let sq := wordsOf ((r.1.drop 320).take 128)
      let t1 := { t with
        bars := (List.range 16).foldl (fun m n => kvPut m n (barOfWords ((bars.drop (4 * n)).take 4))) []
        seq := t.seq.map (seqOfWords sq) }
      let s1 := { r.2 with teams := kvPut r.2.teams tid t1 }
      let s2 := if sh then writeBytes s1 (shLoc t1) ((r.1.drop 448).take t.sh) else s1
      (t.groups.filter fun g => (teamGroup r.2 tid g).isSome).foldl (fun x g => applyGroup g x) (r.1.drop (448 + t.sh), s2)
/-- The teams of clusters take their parts, one after another; what is left of the image. -/
def applyTeams (sh : Bool) (u : List (Nat × Cluster)) (r : List Byte × State) : List Byte × State :=
  (unitTeams r.2 u).foldl (fun x t => applyTeam sh x t.1) r
/-- The image of a unit as images of its clusters: each the header of the unit, and its own teams' bytes. -/
def imageParts (head : List Byte) : List (Nat × Cluster) → List Byte × State → List (Nat × List Byte)
  | [], _ => []
  | c :: cs, r =>
    let r1 := applyTeams false [c] r
    (c.1, head ++ r.1.take (r.1.length - r1.1.length)) :: imageParts head cs r1
/-- An image is laid over a unit. -/
def applyImage (sh : Bool) (s : State) (u : List (Nat × Cluster)) (img : List Byte) : State :=
  (applyTeams sh u (img.drop 64, s)).2

end Sys2Proof.Machine
end

