-- ==== Sys2Proof/Machine/Place.lean ====
section
/-! DEFINITION. Placement (11 R217 to R222, R229): the check of launch records and vat descriptors, candidates and scores, the
placement of clusters and grids, the preparation of a vat (12 R231, R234). -/
set_option Elab.async false
namespace Sys2Proof.Machine

/-! The launch record (Table 11-9). -/

def lrN (k : Task) (i : Nat) : Nat := (lrWord k i).toNat
def seqTask (k : Task) : Bool := bitsOf (lrN k 5) 27 1 == 1
def groupCount (k : Task) : Nat := lrN k 6 % 2 ^ 7
def regGran (k : Task) : Nat := bitsOf (lrN k 6) 8 5
def boostClass (k : Task) : Nat := bitsOf (lrN k 6) 13 2
def initFxen (k : Task) : BitVec 5 := BitVec.ofNat 5 (bitsOf (lrN k 6) 16 5)
def shBytes (k : Task) : Nat := lrN k 7
def spillBytes (k : Task) : Nat := lrN k 8
def spillOff (k : Task) : Nat := lrN k 9
def vatAddr (k : Task) : Nat := pairNat k.lr 11
/-- A reserved bit is set. -/
def lrReserved (k : Task) : Bool :=
  bitsOf (lrN k 5) 28 4 != 0 || bitsOf (lrN k 6) 7 1 != 0 || bitsOf (lrN k 6) 15 1 != 0 || bitsOf (lrN k 6) 21 11 != 0 ||
    !zeroWords k.lr 14 16 || !zeroWords k.lr 64 128
/-- An offset of code that must lie below CODELEN, a whole word. -/
def badEntry (k : Task) (i : Nat) : Bool := lrN k i % 4 != 0 || decide (codeLen k ≤ lrN k i)
/-- A field is out of range or misaligned, as far as the span's shape does not matter. -/
def lrRange (k : Task) : Bool :=
  codeVa k % 2 ^ 16 != 0 || !mainOk (codeVa k) || codeLen k % 4 != 0 || decide (codeLen k < 8) || decide (2 ^ 26 < codeLen k) ||
    badEntry k 2 || (lrWord k 3 != 0xFFFFFFFF && badEntry k 3) || (lrWord k 10 != 0xFFFFFFFF && badEntry k 10) ||
    gridX k == 0 || gridY k == 0 || gridZ k == 0 || clW k == 0 || clH k == 0 || decide (8 < clW k) || decide (8 < clH k) ||
    decide (12 < clW k * clH k) || bitsOf (lrN k 5) 24 2 == 3 ||
    seqTask k != (lrWord k 3 != 0xFFFFFFFF) || (seqTask k && spanCount k != 1) ||
    groupCount k == 0 || decide (64 < groupCount k) || decide (regGran k < 2) || decide (16 < regGran k) ||
    shBytes k % 4096 != 0 || spillBytes k % 1024 != 0 || decide (393216 < spillBytes k) || spillOff k % 1024 != 0 ||
    decide (Config.sliceBytes < spillOff k + 64 * spillBytes k) || vatAddr k % 64 != 0 ||
    (vatAddr k != 0 && (!coopOf k || !mainOk (vatAddr k)))
/-- The cluster cannot hold the span (05 R81). -/
def badShape (k : Task) : Bool :=
  (spanCount k == 2 && clW k % 2 == 1 && clH k % 2 == 1) || (spanCount k == 4 && (clW k % 2 == 1 || clH k % 2 == 1))
/-- A cluster's block of teams does not divide the grid. -/
def badBlock (k : Task) : Bool := gridX k % teamsW k != 0 || gridY k % teamsH k != 0
/-- A slot word breaks Table 7-11. -/
def badSlot (w : Word) : Bool :=
  let el := w.toNat % 16
  let sc := bitsOf w.toNat 4 4
  let spare := bitsOf w.toNat 16 1 == 1
  bitsOf w.toNat 17 15 != 0 || decide (6 < el) || decide (1 < sc) || bitsOf w.toNat 8 8 != (if el = 0 then 0 else 32) ||
    (sc == 1 && !(el == 1 || el == 2 || el == 3)) || (spare && !(el == 3 && sc == 1))
/-- Groups of a team that stand in quadrant q of the i-th core of its span (05 R80). -/
def groupsIn (k : Task) (i q : Nat) : Nat :=
  ((List.range (groupCount k)).filter fun g => g % 4 == q && g / 4 % spanCount k == i).length
/-- One team needs more than its span has. -/
def badNeeds (k : Task) : Bool :=
  decide (0x200000 * spanCount k < shBytes k) ||
    (List.range (spanCount k)).any fun i => (List.range 4).any fun q =>
      decide (16 < groupsIn k i q) || decide (128 < groupsIn k i q * regGran k)
/-- Why a record is rejected, but for what needs a device or a vat descriptor; in the order of Table 11-6 (log 28). -/
def lrCause (k : Task) : Option Nat :=
  if lrReserved k then some 0x20
  else if lrRange k then some 0x21
  else if badShape k then some 0x22
  else if badBlock k then some 0x21
  else if (List.range 8).any fun i => badSlot (lrWord k (24 + i)) then some 0x23
  else if badNeeds k then some 0x25
  else none

/-! The vat descriptor (12 R230, R231). -/

def descK (d : List Word) : Nat := (d.getD 5 0).toNat % 16
def descKeep (d : List Word) : Bool := bitsOf (d.getD 5 0).toNat 4 1 == 1
/-- Space code, first address and bytes of the head region, the slots and the scratch ranges in use. -/
def descRanges (d : List Word) : List (Nat × Nat × Nat) :=
  (codeOf (pairNat d 0), vaOf (pairNat d 0), 64 * (descK d + 1)) ::
    ((List.range (descK d)).map fun i => (codeOf (pairNat d 2), slotBase d i, (d.getD 4 0).toNat)) ++
      (scratchOf d).filter fun e => e.2.2 != 0
def meets (a b : Nat × Nat × Nat) : Bool := a.1 == b.1 && decide (a.2.1 < b.2.1 + b.2.2 ∧ b.2.1 < a.2.1 + a.2.2)
/-- Some two ranges of a list meet. -/
def anyMeet : List (Nat × Nat × Nat) → Bool
  | [] => false
  | a :: r => r.any (meets a) || anyMeet r
/-- A range of SP crosses a slice boundary. -/
def crossesSlice (e : Nat × Nat × Nat) : Bool :=
  e.1 == 1 && e.2.2 != 0 && (!spExists e.2.1 || !spExists (e.2.1 + e.2.2 - 1) || homeOf e.2.1 != homeOf (e.2.1 + e.2.2 - 1))
/-- A range of main memory passes the end of a space. -/
def pastSpace (e : Nat × Nat × Nat) : Bool := e.1 == 0 && decide (2 ^ 55 < e.2.1 + e.2.2)
/-- The descriptor breaks its table. -/
def badDesc (d : List Word) : Bool :=
  let n := (d.getD 4 0).toNat
  let sp := codeOf (pairNat d 0) == 1
  !mainOrSp (pairNat d 0) || vaOf (pairNat d 0) % 1024 != 0 || !mainOrSp (pairNat d 2) || codeOf (pairNat d 0) != codeOf (pairNat d 2) ||
    vaOf (pairNat d 2) % 256 != 0 || n % 256 != 0 || decide (n < 256) || decide ((if sp then Config.sliceBytes else 2 ^ 30) < n) ||
    decide (descK d < 2) || decide (8 < descK d) || bitsOf (d.getD 5 0).toNat 5 27 != 0 || d.getD 9 0 != 0 ||
    (List.range 4).any (fun j => !mainOrSp (pairNat d (10 + 4 * j)) || d.getD (13 + 4 * j) 0 != 0) || !zeroWords d 26 32 ||
    ((descRanges d).drop 1).any crossesSlice || (descRanges d).any pastSpace || anyMeet (descRanges d)
/-- Whether the hub may write a range: pages it misses, a refusal. -/
def canWritePages (s : State) (sid key a n : Nat) : List Nat → List Nat × Bool → List Nat × Bool
  | [], r => r
  | p :: ps, (miss, bad) =>
    match peek s none 1 sid p with
    | none => canWritePages s sid key a n ps (miss ++ [p], bad)
    | some t =>
      let q := pagePart a n p
      canWritePages s sid key a n ps (miss, bad || !t.w || (tagMiss s t key q.1 q.2).isSome)
def canWriteRanges (s : State) (sid : Nat) (keyAt : Nat → Nat) : List (Nat × Nat × Nat) → List Nat × Bool → List Nat × Bool
  | [], r => r
  | (code, a, n) :: rs, (miss, bad) =>
    if code = 1 then
      canWriteRanges s sid keyAt rs (miss, bad || !(inWindow s sid a n && spGrants s sid a n .write))
    else
      let (m, b) := canWritePages s sid (keyAt a) a n (pagesOf a n) (miss, bad)
      canWriteRanges s sid keyAt rs (m, b)
/-- The key that the descriptor's address of a range carries. -/
def descKey (d : List Word) (a : Nat) : Nat :=
  if a = vaOf (pairNat d 0) then keyOf (pairNat d 0)
  else
    match (List.range 4).find? fun j => vaOf (pairNat d (10 + 4 * j)) == a && (d.getD (12 + 4 * j) 0 != 0) with
    | some j => keyOf (pairNat d (10 + 4 * j))
    | none => keyOf (pairNat d 2)

/-! Candidates and scores (R221). -/

/-- The part of a team's SH that the i-th core of its span holds, in pages of 4 KiB (01 R19). -/
def pagesAt (k : Task) (i : Nat) : Nat := ((List.range (shBytes k / 4096)).filter fun p => p % spanCount k == i).length
/-- Pages of a core's SH that teams hold. -/
def usedPages (s : State) (core : Nat) : List Nat :=
  s.teams.flatMap fun t => if t.2.retired then [] else ((t.2.cores.zip t.2.shPages).filter fun e => e.1 == core).flatMap (·.2)
def freePages (s : State) (core : Nat) : List Nat :=
  let used := usedPages s core
  (List.range 512).filter fun p => !used.contains p
/-- Sequencers of a core in use; it has two (01 R19). -/
def usedSeqs (s : State) (core : Nat) : Nat := (s.teams.filter fun t => !t.2.retired && t.2.seq.isSome && t.2.cores.contains core).length
def freeSlots (s : State) (quad : Nat) : Nat := 16 - (residents s quad).length
/-- The cores of a span are candidates: what a waiting `grow` is about to be granted is not free (04 R71). -/
def teamFits (s : State) (k : Task) (cores : List Nat) : Bool :=
  cores.zipIdx.all fun e =>
    (List.range 4).all (fun q =>
      let n := groupsIn k e.2 q
      decide (n ≤ freeSlots s (4 * e.1 + q)) && decide (n * regGran k ≤ openGran s (4 * e.1 + q))) &&
      decide (pagesAt k e.2 ≤ (freePages s e.1).length) && (!seqTask k || decide (usedSeqs s e.1 < 2))

/-- Insert an interval by its start. -/
def insertSpan (x : Nat × Nat) : List (Nat × Nat) → List (Nat × Nat)
  | [] => [x]
  | y :: r => if x.1 ≤ y.1 then x :: y :: r else y :: insertSpan x r
/-- Length of a union of intervals. -/
def unionLength (l : List (Nat × Nat)) : Nat :=
  ((l.foldr insertSpan []).foldl (fun (r : Nat × Nat) i =>
    if i.2 ≤ r.1 then r else (i.2, r.2 + (i.2 - max i.1 r.1))) (0, 0)).2
/-- The tiles of a team (R219). Bits [63:55] of a BASE count for nothing, as bits [57:55] of a TCB's LRADDR do: R145 wants [59:55] zero and
no rule says what a record with them set does (DESIGN CHOICE, log 111). -/
def tilesOf (k : Task) (lin : Nat) : List (Nat × Nat) :=
  (List.range 8).filterMap fun j =>
    let n := lrN k (34 + 4 * j)
    let a : Int := (vaOf (pairNat k.lr (32 + 4 * j)) : Int) + lin * (lrWord k (35 + 4 * j)).toInt
    if n = 0 then none else some (a.toNat, (a + n).toNat)
/-- The parts of the tiles that residency entries of a core cover. -/
def coveredTiles (s : State) (sid : Nat) (tiles : List (Nat × Nat)) (core : Nat) : List (Nat × Nat) :=
  ((coreOf s core).res.filter fun e => e.2.sid == sid).flatMap fun e =>
    tiles.filterMap fun t =>
      let lo := max t.1 e.2.va
      let hi := min t.2 (e.2.va + 256 * e.2.len)
      if lo < hi then some (lo, hi) else none
/-- The score of a team on its cores. -/
def teamScore (s : State) (sid : Nat) (k : Task) (lin : Nat) (cores : List Nat) : Nat :=
  let tiles := tilesOf k lin
  let own := unionLength (cores.flatMap (coveredTiles s sid tiles))
  let near := (List.range 64).filter fun c => cores.any fun x => dieOfCore x == dieOfCore c
  let all := unionLength (near.flatMap (coveredTiles s sid tiles))
  4 * own + (all - own)

/-! Anchors (R222). -/

/-- The coordinates and the linear index of team i of cluster n (R219). -/
def teamAt (k : Task) (n i : Nat) : Nat × Nat × Nat × Nat :=
  let x := n % clustersX k * teamsW k + i % teamsW k
  let y := n / clustersX k % clustersY k * teamsH k + i / teamsW k
  let z := n / clustersX k / clustersY k
  (x, y, z, x + gridX k * (y + gridY k * z))
def teamsIn (k : Task) : Nat := teamsW k * teamsH k
/-- The cores of team i of a cluster at an anchor. -/
def teamCores (k : Task) (anchor i : Nat) : List Nat :=
  let x := anchor % 8 + i % teamsW k * blockW k
  let y := anchor / 8 + i / teamsW k * blockH k
  (List.range (blockH k)).flatMap fun b => (List.range (blockW k)).map fun a => 8 * (y + b) + (x + a)
/-- The cores of the rectangle, row by row. -/
def rectCores (k : Task) (anchor : Nat) : List Nat :=
  (List.range (clH k)).flatMap fun b => (List.range (clW k)).map fun a => anchor + 8 * b + a
def anchorValid (s : State) (k : Task) (anchor : Nat) : Bool :=
  decide (anchor % 8 + clW k ≤ 8) && decide (anchor / 8 + clH k ≤ 8) &&
    (List.range (teamsIn k)).all fun i => teamFits s k (teamCores k anchor i)
/-- What anchors are compared by: score, free slots, free granules. -/
def anchorRank (s : State) (sid : Nat) (k : Task) (n anchor : Nat) : Nat × Nat × Nat :=
  let quads := (rectCores k anchor).flatMap fun c => (List.range 4).map (4 * c + ·)
  (((List.range (teamsIn k)).map fun i => teamScore s sid k (teamAt k n i).2.2.2 (teamCores k anchor i)).sum,
    (quads.map (freeSlots s)).sum, (quads.map (freeGran s)).sum)
def rankAbove (a b : Nat × Nat × Nat) : Bool :=
  decide (b.1 < a.1) || (a.1 == b.1 && (decide (b.2.1 < a.2.1) || (a.2.1 == b.2.1 && decide (b.2.2 < a.2.2))))
/-- The anchor chosen for cluster n. -/
def bestAnchor (s : State) (sid : Nat) (k : Task) (n : Nat) : Option Nat :=
  (((List.range 64).filter (anchorValid s k)).foldl (fun (b : Option (Nat × Nat × Nat × Nat)) a =>
    let r := anchorRank s sid k n a
    match b with
    | some x => if rankAbove r x.2 then some (a, r) else b
    | none => some (a, r)) none).map (·.1)

/-! Placing a cluster (R218, 04 R61, 05 R80). -/

/-- The first free slot of a quadrant. -/
def firstSlot (s : State) (quad : Nat) : Option Nat :=
  ((List.range 16).find? fun j => (kvFind s.groups (16 * quad + j)).isNone).map (16 * quad + ·)
/-- Base of a group's spill stack (R218). -/
def stackBase (k : Task) (gid : Nat) : Nat := sliceBase (gid / 64) + spillOff k + gid % 64 * spillBytes k
/-- A group's state at placement. -/
def freshGroup (k : Task) (team idx order gid : Nat) : Group :=
  { team := team, idx := idx, order := order, s := k.args.zipIdx.foldl (fun m e => kvSet 0 m e.2 e.1) [], v := { now := [], past := [] },
    alloc := 16 * regGran k, wb := 0, lo := 0, link := [], regTop := 0, linkBot := spillBytes k, spillBase := stackBase k gid,
    spillSize := spillBytes k, m := [], ix := 0, fx := 0, fxen := initFxen k, fpm := 0, tcause := 0, tpc := 0, mpc := 0,
    cpystat := 0, matrix := false, frags := [newFrag allLanes (lrWord k 2) none true none], splits := [], dead := 0, flight := [],
    ap := 0, apv := 0, park := .none, marked := false, parkPc := 0, gate := none, active := false, yielded := [], own := [], dlv := [],
    exiting := false, sealed := 0, gbarred := 0, digest := 0, digq := [], evOrd := 0, arrived := [], rot := 0, held := false }
/-- A sequencer that has not been forked: the values of Table 6-2 at a `fork`, with nothing in SAP and not busy (DESIGN CHOICE,
log 95). -/
def idleSeq : Seq :=
  { busy := false, pc := 0, cl := none, landed := false, jumped := false, k := [], pa := 0, pb := 0, share := 2, acc := [], ahold := [],
    bhold := [], sap := 0, flags := 0, park := .run, stepIdx := 0, writes := [], run := none }
/-- The SH pages of a team on its cores: the first free ones. -/
def takePages (s : State) (k : Task) (cores : List Nat) : List (List Nat) :=
  cores.zipIdx.map fun e => (freePages s e.1).take (pagesAt k e.2)
/-- The quadrant of group g of a team. -/
def groupQuad (k : Task) (cores : List Nat) (g : Nat) : Nat := 4 * cores.getD (g / 4 % spanCount k) 0 + g % 4
/-- Put groups into slots, in order: which slot, and what the group is there. -/
def putGroups (slot : State → Nat → Option Nat) (mk : Nat → Nat → Nat → Group) (tid : Nat) : List Nat → State → State
  | [], s => s
  | g :: gs, s =>
    match slot s g with
    | none => putGroups slot mk tid gs s
    | some gid =>
      let (n, s1) := fresh s
      putGroups slot mk tid gs (modTeam { s1 with groups := kvPut s1.groups gid (mk g n gid) } tid fun t =>
        { t with groups := t.groups ++ [gid] })
/-- The global group ID of group 0, where it has a place; one that had released keeps what it had. -/
def setLead (tid : Nat) (s : State) : State :=
  modTeam s tid fun t => { t with lead := ((t.groups.head?).filter fun g => decide (g < 4096)).getD t.lead }
/-- A placed group is recorded (15 R284). -/
def logPlacement (s : State) (cmd tid : Nat) : State :=
  let t := (kvFind s.teams tid).getD noTeam
  t.groups.zipIdx.foldl (fun x e =>
    onStream x cmd 3 0 0 (addEntry [BitVec.ofNat 32 (e.1 * 2 ^ 20 + (64 * t.lin + e.2) % 2 ^ 20)])) s
/-- Place team i of a cluster. -/
def placeTeam (slot : State → Nat → Option Nat) (k : Task) (cl i : Nat) (at_ : Nat × Nat × Nat × Nat) (cores : List Nat)
    (s : State) : State :=
  let (tid, s1) := fresh s
  let lanes := 32 * groupCount k
  let t : Team :=
    { cluster := cl, idx := i, lin := at_.2.2.2, x := at_.1, y := at_.2.1, z := at_.2.2.1, cores := cores, groups := [],
      lead := 4096, sh := shBytes k, shPages := takePages s1 k cores,
      bars := (List.range 16).map fun n => (n, { noBar with expl := lanes }),
      seq := if seqTask k then some idleSeq else none, fault := none, got := [], placedAt := s1.pubs, retired := false }
  let s2 := setLead tid (putGroups slot (freshGroup k tid) tid (List.range (groupCount k))
    (modCluster { s1 with teams := kvPut s1.teams tid t } cl fun c => { c with teams := c.teams ++ [tid] }))
  logPlacement s2 k.cmd tid
/-- Stacks outside the context's window fault the command (R218). -/
def checkStacks (s : State) (cl : Nat) (k : Task) : State :=
  let sid := ((kvFind s.cmds k.cmd).getD noCmd).sid
  match s.groups.find? fun g => (teamOf s g.2).cluster == cl && !inWindow s sid g.2.spillBase g.2.spillSize with
  | some (gid, _) => faultGroup s gid (causeCode .bounds) 0
  | none => s
/-- A placement has been made: the time of it, and the first one begins interval 1 (14 R261). -/
def placementMade (s : State) : State :=
  { s with lastPlace := some s.ns,
           power := { s.power with nextInt := some (s.power.nextInt.getD s.ns) } }
/-- Cores that run a command's grids (10 R199). -/
def noteRan (s : State) (c : Nat) (cores : List Nat) : State :=
  modCmd s c fun x => { x with ran := x.ran ++ cores.filter fun k => !x.ran.contains k }
/-- Place the next cluster of a task: the cores of its teams, and their slots. -/
def placeCluster (s : State) (tk : Nat) (anchor : Nat) (cores : Nat → List Nat) (slot : Nat → State → Nat → Option Nat) : State :=
  match kvFind s.tasks tk with
  | none => s
  | some k =>
    let (cl, s1) := fresh s
    let n := k.nextCl
    let c : Cluster :=
      { noCluster with task := tk, idx := n, anchor := anchor, cores := (List.range (teamsIn k)).flatMap cores, cls := boostClass k,
                       placedNs := s.ns }
    let s2 := (List.range (teamsIn k)).foldl (fun x i => placeTeam (slot i) k cl i (teamAt k n i) (cores i) x)
      { noteRan (journal s1 1 tk cl anchor) k.cmd c.cores with clusters := kvPut s1.clusters cl c }
    let s3 := modTask s2 tk fun y => { y with
      nextCl := n + 1, queued := decide (n + 1 < clusterCount k), placedNs := if n = 0 then s.ns else y.placedNs }
    placementMade s3
/-- The slots R80 gives. -/
def normalSlot (k : Task) (cores : List Nat) (s : State) (g : Nat) : Option Nat := firstSlot s (groupQuad k cores g)
def placeAt (s : State) (tk : Nat) (k : Task) (anchor : Nat) : State :=
  placeCluster s tk anchor (teamCores k anchor) fun i => normalSlot k (teamCores k anchor i)

/-! Replayed placements (15 R286). -/

/-- The slot the log names for group g of the team with a linear index. -/
def loggedSlot (r : Replaying) (lin g : Nat) : Option Nat :=
  (r.places.find? fun e => e.toNat % 2 ^ 20 == (64 * lin + g) % 2 ^ 20).map fun e => e.toNat / 2 ^ 20
/-- The slots the log names for cluster n, by team; none where an entry is missing. -/
def loggedCluster (r : Replaying) (k : Task) (n : Nat) : Option (List (List Nat)) :=
  (List.range (teamsIn k)).mapM fun i => (List.range (groupCount k)).mapM fun g => loggedSlot r (teamAt k n i).2.2.2 g
/-- The cores of a team whose first group the log names. -/
def loggedCores (k : Task) (gids : List Nat) : List Nat :=
  let c := gids.headD 0 / 64
  (List.range (blockH k)).flatMap fun b => (List.range (blockW k)).map fun a => c + 8 * b + a
/-- The logged slots are free and their cores have what the teams need. -/
def loggedFree (s : State) (k : Task) (gss : List (List Nat)) : Bool :=
  gss.all fun gs => gs.all (fun g => (kvFind s.groups g).isNone) && teamFits s k (loggedCores k gs)
/-- The placement entries of a cluster are used up: a later task of the command has its own. -/
def usePlaces (k : Task) (n : Nat) (gss : List (List Nat)) (ws : List Word) : List Word :=
  (gss.zipIdx.flatMap fun t => t.1.zipIdx.map fun g =>
    (BitVec.ofNat 32 (g.1 * 2 ^ 20 + (64 * (teamAt k n t.2).2.2.2 + g.2) % 2 ^ 20) : Word)).foldl List.erase ws
def placeLogged (s : State) (tk : Nat) (k : Task) (gss : List (List Nat)) : State :=
  let s1 := modCmd s k.cmd fun c => { c with repl := c.repl.map fun r => { r with places := usePlaces k k.nextCl gss r.places } }
  placeCluster s1 tk ((loggedCores k (gss.headD [])).headD 0) (fun i => loggedCores k (gss.getD i []))
    fun i _ g => (gss.getD i [])[g]?

/-! Units placed again (R229). -/

/-- The cores of a saved cluster's teams have room for its groups, which keep the granules they had. -/
def resumeRoom (s : State) (k : Task) (c : Cluster) (cores : Nat → List Nat) : Bool :=
  (List.range (teamsIn k)).all fun i =>
    (cores i).zipIdx.all fun e => (List.range 4).all fun q =>
      decide (((c.savedGroups.filter fun g =>
          ((c.savedTeams.find? fun t => t.1 == g.2.team).map (·.2.idx)).getD 0 == i && g.2.idx % 4 == q &&
            g.2.idx / 4 % spanCount k == e.2).map fun g => g.2.alloc / 16).sum ≤ openGran s (4 * e.1 + q))
def resumeFits (s : State) (k : Task) (c : Cluster) (anchor : Nat) : Bool := anchorValid s k anchor && resumeRoom s k c (teamCores k anchor)
def resumeAnchor (s : State) (sid : Nat) (k : Task) (c : Cluster) : Option Nat :=
  (((List.range 64).filter (resumeFits s k c)).foldl (fun (b : Option (Nat × Nat × Nat × Nat)) a =>
    let r := anchorRank s sid k c.idx a
    match b with
    | some x => if rankAbove r x.2 then some (a, r) else b
    | none => some (a, r)) none).map (·.1)
/-- A saved group in its new slot, before its part of the save area is laid over it. -/
def resumeGroup (k : Task) (g : Group) (order gid : Nat) : Group :=
  { g with order := order, spillBase := stackBase k gid, active := false, yielded := [], own := [], dlv := [] }
/-- A saved cluster of a replayed command goes back to the cores and slots that the log named for its groups (15 R286): they are free, and
its teams fit. -/
def homeFree (s : State) (k : Task) (c : Cluster) : Bool :=
  c.savedGroups.all (fun g => (kvFind s.groups g.1).isNone) && c.savedTeams.all (fun t => t.2.retired || teamFits s k t.2.cores) &&
    resumeRoom s k c fun i => ((c.savedTeams.find? fun t => t.2.idx == i).map (·.2.cores)).getD []
/-- Place the groups of one team on its new cores: `same` on the slots they had. -/
def resumeTeam (same : Bool) (k : Task) (c : Cluster) (cores : List Nat) (tid : Nat) (t : Team) (s : State) : State :=
  let live := (List.range (groupCount k)).filter fun g => c.savedGroups.any fun x => x.2.team == tid && x.2.idx == g
  let t1 := { t with cores := cores, groups := [], shPages := takePages s k cores, placedAt := s.pubs }
  let mk (g order gid : Nat) : Group :=
    match c.savedGroups.find? fun x => x.2.team == tid && x.2.idx == g with
    | some x => resumeGroup k x.2 order gid
    | none => freshGroup k tid g order gid
  let slot (x : State) (g : Nat) : Option Nat :=
    if same then (c.savedGroups.find? fun y => y.2.team == tid && y.2.idx == g).map (·.1) else firstSlot x (groupQuad k cores g)
  let s1 := putGroups slot mk tid live { s with teams := kvPut s.teams tid t1 }
  let news := ((kvFind s1.teams tid).getD noTeam).groups
  -- a group that had released keeps its place in the team's list
  let full := (List.range (groupCount k)).map fun g =>
    match live.findIdx? fun x => x == g with
    | some i => news.getD i 0
    | none => 4096
  setLead tid (modTeam s1 tid fun x => { x with groups := full })
/-- Place a saved cluster at an anchor, or on the cores and slots it had; the decision is journaled (16 R296). -/
def resumeAt (same : Bool) (s : State) (cl : Nat) (k : Task) (c : Cluster) (anchor : Nat) : State :=
  let cores := if same then c.savedTeams.flatMap (·.2.cores) else rectCores k anchor
  let s1 := modCluster (noteRan (journal s 1 c.task cl anchor) k.cmd cores) cl fun x => { x with
    anchor := anchor, cores := cores, placedNs := s.ns, step := 0, byGrant := false, pre := .none
    savedGroups := [], savedTeams := [] }
  let s2 := c.savedTeams.foldl (fun x t =>
    if t.2.retired then { x with teams := kvPut x.teams t.1 t.2 }
    else resumeTeam same k c (if same then t.2.cores else teamCores k anchor t.2.idx) t.1 t.2 x) s1
  placementMade s2
/-- Where a saved unit's area stands, and its bytes. -/
def areaOf (c : Cluster) : Nat × Nat :=
  match c.pre with
  | .saved a n => (a, n)
  | _ => (0, 0)
/-- The fragments of clusters go on, unless C6 has stopped them. -/
def startUnit (s : State) (cls : List (Nat × Cluster)) : State :=
  cls.foldl (fun x u => unhaltUnit x [u]) s

/-! The version unit at a placement (12 R231, R234). -/

/-- A valid ladder task that is held, and whether for want of an entry. -/
def vatHeld (s : State) (l : Ladder) : Bool × Bool :=
  match kvFind s.vats l.key with
  | some v => (v.running.isSome || (!descKeep l.desc && !v.pins.isEmpty), false)
  | none => (decide (256 ≤ s.vats.length), decide (256 ≤ s.vats.length))
/-- The version unit prepares the vat, and chooses the first curd slot; without one the groups wait at their first word. -/
def prepareVat (s : State) (tk : Nat) : State :=
  match (kvFind s.tasks tk).bind (·.ladder) with
  | none => s
  | some l =>
    let k := descK l.desc
    let key := l.key
    let old := headMagic s key && descKeep l.desc && headK s key == k
    let s1 := if old then
        (List.range k).foldl (fun x i => if rindStatus x key i = 1 then clearRind x key i 0 else x) (setHead s key false true)
      else
        (List.range k).foldl (fun x i => clearRind x key i 0)
          (vatWrite s key 0 (BitVec.ofNat 32 (0x5EA1 + k * 2 ^ 16 + 2 ^ 21) :: List.replicate 15 0))
    let l1 := { l with counter := if old then newSeq s key else 0, pass := 0, wants := false }
    let s2 := modVat (if (kvFind s1.vats key).isSome then s1 else { s1 with vats := kvPut s1.vats key noVat }) key
      fun v => { v with running := some tk }
    let s3 := chooseCurd (modLadder s2 tk fun _ => l1) tk l1
    let waits := (((kvFind s3.tasks tk).bind (·.ladder)).map (·.choosing)).getD false
    (groupsOfTask s3 tk).foldl (fun x g => modGroup x g.1 fun y => { y with held := waits }) s3

/-! Which task comes next (R217, R220). -/

/-- What the hub finds when a task is considered for the first time. -/
inductive Ready
  /-- It is checked: it may be placed. -/
  | ok (s : State)
  /-- It waits for a translation. -/
  | wait (s : State)
  /-- Its command ends with REJECTED and a cause. -/
  | reject (s : State) (cause : Nat)
  /-- Its command has ended. -/
  | stop (s : State)
/-- The task with its record's words. -/
def withRecord (k : Task) (ws : List Word) : Task := { k with lr := ws, args := if k.tcb.isSome then k.args else (ws.drop 16).take 8 }
/-- A device with every core free (05 R100). -/
def emptyDevice (s : State) : State := { s with groups := [], teams := [], clusters := [], cores := [] }
/-- Place clusters of a task one after another, as many as the count says; none if one does not fit. -/
def placeRest (sid tk : Nat) : Nat → State → Option State
  | 0, s => some s
  | n + 1, s =>
    match kvFind s.tasks tk with
    | none => none
    | some k =>
      match bestAnchor s sid k k.nextCl with
      | some a => placeRest sid tk n (placeAt s tk k a)
      | none => none
/-- A cooperative grid could fit an empty device. -/
def couldFit (s : State) (sid tk : Nat) (k : Task) : Bool :=
  !coopOf k || (placeRest sid tk (clusterCount k) (emptyDevice { s with tasks := kvPut s.tasks tk k })).isSome
/-- A ladder task's progress before its first pass. -/
def freshLadder (d : List Word) (key : Nat) : Ladder :=
  { desc := d, key := key, pass := 0, q := 0xFFFFFFFF, l := false, someSeal := false, counter := 0, curd := none,
    choosing := false, ended := false, energy := 0, cutting := none, releasing := false, wants := false }
/-- The head of the vat is found. The address it is found at serves the task to its end: R244 keys the vat by it, and no rule says that an
invalidation of its page changes it (DESIGN CHOICE, log 117). -/
def checkHead (s : State) (sid tk : Nat) (k : Task) (d : List Word) : Ready :=
  onHub (hubAt s sid .write (pairNat d 0) 64) (fun ps => .wait (hubRequest s sid .write (.task tk) ps)) (.reject (hubNote s sid .write (pairNat d 0) 64) 0x27) fun ls =>
    match ls with
    | [] => .reject s 0x27
    | h :: _ => .ok { s with tasks := kvPut s.tasks tk { k with ladder := some (freshLadder d (locKey h)) } }
/-- The check of ranges found these pages missing and whether some range is denied. -/
def afterRanges (s : State) (sid tk : Nat) (r : List Nat × Bool) (next : Ready) : Ready :=
  match r with
  | (_, true) => .reject s 0x27
  | (p :: ps, false) => .wait (hubRequest s sid .write (.task tk) (p :: ps))
  | ([], false) => next
/-- The vat descriptor of a ladder task: read, checked, its ranges found writable. -/
def checkVat (s : State) (sid tk : Nat) (k : Task) : Ready :=
  onHub (hubAt s sid .read (vatAddr k) 128) (fun ps => .wait (hubRequest s sid .read (.task tk) ps)) (.reject (hubNote s sid .read (vatAddr k) 128) 0x27) fun ls =>
    let d := wordsOf (readLocs s ls)
    if badDesc d then .reject s 0x21 else
      afterRanges s sid tk (canWriteRanges s sid (descKey d) (descRanges d) ([], false)) (checkHead s sid tk k d)
/-- The clusters of a task that are saved, in ascending index. -/
def savedOf (s : State) (tk : Nat) : List (Nat × Cluster) :=
  (clustersOf s tk).filter fun c => match c.2.pre with
    | .saved _ _ => true
    | _ => false
/-- The saved unit of a task that is placed again next. -/
def nextSaved (s : State) (tk : Nat) (k : Task) : List (Nat × Cluster) :=
  match savedOf s tk with
  | u :: us => if coopOf k then u :: us else [u]
  | [] => []
/-- What the hub finds of its save area. -/
def savedArea (s : State) (sid : Nat) (us : List (Nat × Cluster)) : HubAt :=
  match us with
  | u :: _ => hubAt s sid .read (areaOf u.2).1 (areaOf u.2).2
  | [] => .at_ []
/-- A task placed before: the save area of the unit it has to place again must be readable (R229); without that the command ends, as
for a control block. -/
def checkSaved (s : State) (tk : Nat) (k : Task) : Ready :=
  let sid := ((kvFind s.cmds k.cmd).getD noCmd).sid
  match nextSaved s tk k with
  | [] => .ok s
  | u :: us =>
    onHub (savedArea s sid (u :: us)) (fun ps => .wait (hubRequest s sid .read (.save u.1) ps))
      (.stop (faultCmd (hubNote s sid .read (areaOf u.2).1 (areaOf u.2).2) k.cmd
        { status := 6, cause := causeCode .perm, tpc := 0, ggid := 0 })) fun _ => .ok s
/-- The control block of a task that has placed nothing must be writable, for it to say RUNNING: a miss waits, and a failure ends the
command (R214). -/
def checkBlock (s : State) (sid tk : Nat) (k : Task) (next : Ready) : Ready :=
  match (if k.nextCl = 0 then k.tcb else none) with
  | none => next
  | some v =>
    match blockAt s sid v.toNat with
    | .miss ps => .wait (hubRequest s sid .write (.task tk) ps)
    | .refused => .stop (refusedBlock s k sid .write v.toNat)
    | .at_ _ _ => next
/-- The check of R217, and of the control block. -/
def checkTask (s : State) (tk : Nat) (k : Task) : Ready :=
  let sid := ((kvFind s.cmds k.cmd).getD noCmd).sid
  if !k.lr.isEmpty then checkBlock s sid tk k (checkSaved s tk k)
  else if mainOk k.lraddr = false then .reject s 0x21
  else
    onHub (hubAt s sid .read k.lraddr 512) (fun ps => .wait (hubRequest s sid .read (.task tk) ps))
        (.reject (hubNote s sid .read k.lraddr 512) 0x27) fun ls =>
      let k1 := withRecord k (wordsOf (readLocs s ls))
      match lrCause k1 with
      | some c => .reject s c
      | none =>
        if couldFit s sid tk k1 = false then .reject s 0x24
        else if vatAddr k1 = 0 then checkBlock s sid tk k1 (.ok { s with tasks := kvPut s.tasks tk k1 })
        else checkBlock s sid tk k1 (checkVat s sid tk k1)
/-- The control block says RUNNING (Table 11-7). -/
def markRunning (s : State) (k : Task) : State :=
  match k.tcb with
  | none => s
  | some v =>
    match blockAt s ((kvFind s.cmds k.cmd).getD noCmd).sid v.toNat with
    | .at_ ls _ => writeLocs ((ls.drop 4).take 4) (bytesOf 3) s
    | _ => s
/-- Stacks of all clusters of a task are checked. -/
def checkAllStacks (s : State) (tk : Nat) (k : Task) : State := (clustersOf s tk).foldl (fun x c => checkStacks x c.1 k) s
/-- Place a saved cluster, if it fits. -/
def resumeCluster (sid cl : Nat) (k : Task) (c : Cluster) (s : State) : Option State :=
  if ((kvFind s.cmds k.cmd).bind (·.repl)).isSome then (if homeFree s k c then some (resumeAt true s cl k c c.anchor) else none)
  else (resumeAnchor s sid k c).map (resumeAt false s cl k c)
/-- Place saved units: one cluster, or all of a cooperative grid. -/
def resumeUnits (sid : Nat) (k : Task) : List (Nat × Cluster) → State → Option State
  | [], s => some s
  | (cl, c) :: r, s =>
    match resumeCluster sid cl k c s with
    | some s1 => resumeUnits sid k r s1
    | none => none
/-- A wave of a stagger has resumed, or there is none in progress (14 R264). -/
def waveDone (k : Task) (idx : Nat) : Bool :=
  match k.stagger with
  | some g => g.w == 0 || g.done.contains (idx / g.w)
  | none => true
/-- Groups that waited for their first slot wait on only while it is still to be chosen (12 R234). -/
def resumeHeld (s : State) (tk : Nat) : State :=
  let choosing := ((((kvFind s.tasks tk).bind (·.ladder))).map (·.choosing)).getD false
  (groupsOfTask s tk).foldl (fun x e => modGroup x e.1 fun y => { y with held := y.held && choosing }) s
/-- Groups whose release came while their unit was saved resume, as their wave did. -/
def resumeLate (s : State) (tk : Nat) : State :=
  let k := (kvFind s.tasks tk).getD noTask
  (groupsOfTask s tk).foldl (fun x e =>
    let g := e.2
    if waveDone k (clusterOf s g).idx = false then x
    else
      let x1 := if g.gbarred = 0 ∧ g.frags.any (fun f => isGbar f.park) = true then
        modGroup x e.1 fun y => { y with frags := y.frags.map (acquireParked isGbar .dev .point) } else x
      match k.ladder with
      | some l => if g.sealed = 0 ∧ !l.releasing ∧ g.frags.any (fun f => isSeal f.park) = true then
          settleAcq (modGroup x1 e.1 (leaveSeal (if l.ended then 0 else curdPair l) .sys)) e.1 else settleAcq x1 e.1
      | none => settleAcq x1 e.1) s
/-- A unit placed again is restored from its save area before any group of it issues (R229), and its stacks are checked (R218). -/
def restoreUnit (tk : Nat) (k : Task) (us : List (Nat × Cluster)) (img : List Byte) (s : State) : State :=
  let now := us.filterMap fun u => (kvFind s.clusters u.1).map fun c => (u.1, c)
  us.foldl (fun x u => checkStacks x u.1 k) (resumeLate (resumeHeld (startUnit (applyImage true s now img) now) tk) tk)
def resumeNext (s : State) (sid tk : Nat) (k : Task) (us : List (Nat × Cluster)) : Option State :=
  match savedArea s sid us with
  | .at_ ls => (resumeUnits sid k us s).map (restoreUnit tk k us (readLocs s ls))
  | _ => none
/-- Place clusters against a log, as many as the count says. -/
def placeLog (r : Replaying) (tk : Nat) : Nat → State → Option State
  | 0, s => some s
  | n + 1, s =>
    match kvFind s.tasks tk with
    | none => none
    | some k =>
      match loggedCluster r k k.nextCl with
      | none => none
      | some gss => if loggedFree s k gss then placeLog r tk n (placeLogged s tk k gss) else none
/-- The first group of what a task places next that the log of its command does not name: its team's linear index, its own: a
divergence. -/
def logGap (s : State) (k : Task) (count : Nat) : Option (Nat × Nat) :=
  (replaying s k.cmd).bind fun r =>
    ((List.range count).flatMap fun i => (List.range (teamsIn k)).flatMap fun t =>
      (List.range (groupCount k)).map fun g => ((teamAt k (k.nextCl + i) t).2.2.2, g)).find? fun e => (loggedSlot r e.1 e.2).isNone
/-- The divergence of a group that was placed without an entry: the entry that its place would have made is found, none was expected. -/
def divergePlaced (s : State) (tk : Nat) (k : Task) (e : Nat × Nat) : State :=
  let team := s.teams.find? fun t => t.2.lin == e.1 && ((kvFind s.clusters t.2.cluster).getD noCluster).task == tk
  let gid := (team.bind fun t => t.2.groups[e.2]?).getD 0
  diverge s k.cmd gid 0 0 (BitVec.ofNat 32 (gid * 2 ^ 20 + (64 * e.1 + e.2) % 2 ^ 20))
/-- A command that has diverged stays as it is while its clusters are frozen (15 R286). -/
def heldByDivergence (s : State) (k : Task) : Bool :=
  (((kvFind s.cmds k.cmd).bind (·.repl)).map fun r => r.diverged.isSome).getD false &&
    s.clusters.any fun c => c.2.frozen && ((kvFind s.tasks c.2.task).getD noTask).cmd == k.cmd
/-- Place what a checked task has next, or nothing. What is placed where the log has a gap goes where it would without a log, and
stands frozen. -/
def placeNext (s : State) (tk : Nat) (k : Task) : Option State :=
  let sid := ((kvFind s.cmds k.cmd).getD noCmd).sid
  let count := if coopOf k then clusterCount k - k.nextCl else 1
  match nextSaved s tk k with
  | u :: us => resumeNext s sid tk k (u :: us)
  | [] =>
    if k.queued = false then none
    else if (k.ladder.map fun l => (vatHeld s l).1).getD false then none
    else if heldByDivergence s k then none
    else
      let gap := logGap s k count
      let r := match gap, replaying s k.cmd with
        | none, some x => placeLog x tk count s
        | _, _ => placeRest sid tk count s
      match r with
      | none => none
      | some s1 =>
        let s2 := match gap with
          | some e => divergePlaced s1 tk k e
          | none => s1
        some (checkAllStacks (prepareVat (if k.nextCl = 0 then markRunning s2 k else s2) tk) tk k)
/-- A held ladder task says whether it waits for an entry. -/
def noteHeld (s : State) (tk : Nat) : State := modLadder s tk fun l => { l with wants := (vatHeld s l).2 }
/-- A placed task's pass count; those ahead of it that were not placed pass once more. A saved unit waits with its task: in the task's
place of its FIFO, under its pass count and its urgency, which lasts until the task has neither clusters nor saved units to place
(DESIGN CHOICE, log 118). -/
def afterPlacing (tk : Nat) (ahead : List Nat) (s : State) : State :=
  ahead.foldl (fun x t => modTask x t fun k => { k with pass := k.pass + 1, urgent := k.urgent || decide (64 ≤ k.pass + 1) })
    (modTask s tk fun k => { k with pass := 0, urgent := k.urgent && (k.queued || !(savedOf s tk).isEmpty) })
/-- Try the tasks of a list in order. -/
def tryTasks : List Nat → List Nat → State → State
  | _, [], s => s
  | ahead, tk :: r, s =>
    match kvFind s.tasks tk with
    | none => tryTasks ahead r s
    | some k =>
      match (if waitsFor s 1 (.task tk) then Ready.wait s else checkTask s tk k) with
      | .reject s1 c => tryTasks ahead r (faultCmd s1 k.cmd { status := 4, cause := c, tpc := 0, ggid := 0 })
      | .wait s1 => tryTasks (ahead ++ [tk]) r s1
      | .stop s1 => tryTasks ahead r s1
      | .ok s1 =>
        let s2 := noteHeld s1 tk
        match (match kvFind s2.tasks tk with
          | some k2 => placeNext s2 tk k2
          | none => none) with
        | some s3 => afterPlacing tk ahead s3
        | none => tryTasks (ahead ++ [tk]) r s2
/-- Tasks that have something to place, oldest first; those of commands that end have nothing. -/
def waitingTasks (s : State) : List (Nat × Task) :=
  let ts := s.tasks.filter fun t => !t.2.dead && (t.2.queued || !(savedOf s t.1).isEmpty)
  ts.foldr (fun x l => (l.takeWhile fun y => decide (y.2.order < x.2.order)) ++ x :: l.dropWhile fun y => decide (y.2.order < x.2.order)) []
/-- The scan: the oldest urgent task alone, else by priority. -/
def scanOrder (s : State) : List Nat :=
  let ts := waitingTasks s
  match ts.find? fun t => t.2.urgent with
  | some t => [t.1]
  | none => [3, 2, 1, 0].flatMap fun p => (ts.filter fun t => t.2.prio == p).map (·.1)
def placementReady (s : State) : Bool :=
  !s.power.shutdown && !s.trust.deviceFailed && (s.lastPlace.map fun t => decide (t + 8 ≤ s.ns)).getD true && !(scanOrder s).isEmpty
/-- A placement step. -/
def execPlacementStep (s : State) : Host.Outcome State Fault Refusal :=
  .next (if placementReady s then tryTasks [] (scanOrder s) s else s)

end Sys2Proof.Machine
end

