-- ==== Sys2Proof/Machine/Preempt.lean ====
section
/-! DEFINITION. Pre-emption (11 R227): asking a unit to stop, giving up, the save area. -/
set_option Elab.async false
namespace Sys2Proof.Machine

/-! Units (R227, 15 R269). -/

/-- A request that finds a fragment parked, or its group parked, finds it stopped. -/
def haltParked (s : State) (gid : Nat) (g : Group) : Group :=
  let all := g.park != .none || g.held || (g.marked && !drained g) || waitsFor s (dieOfCore (coreOfGid gid)) (.grp gid) ||
    waitsFor s 1 (.grp gid)
  { g with frags := g.frags.map fun f => if all || f.park != .run then { f with halted := true } else f }
def haltUnit (s : State) (cls : List (Nat × Cluster)) : State :=
  (unitGroups s cls).foldl (fun x g => modGroup x g.1 (haltParked x g.1)) s
/-- Every fragment of a group stands still. -/
def groupStill (g : Group) : Bool := (growOf g).isSome || g.frags.all fun f => f.halted
/-- Sequencers of teams are at a step boundary with nothing left to write. -/
def seqsStill (ts : List (Nat × Team)) : Bool := ts.all fun t => (t.2.seq.map fun q => q.writes.isEmpty).getD true

/-! Pre-emption. -/

/-- A unit that can be asked: it is placed, and no pre-emption of it is under way. -/
def preemptReady (s : State) (cl : Nat) : Bool :=
  match kvFind s.clusters cl with
  | some c => c.pre == .none && !((kvFind s.tasks c.task).getD noTask).dead && (unitOf s cl).all (fun u => u.2.pre == .none)
  | none => false
/-- The scheduler asks a unit to stop. -/
def execPreemption (cl : Nat) (s : State) : Host.Outcome State Fault Refusal :=
  .next (if preemptReady s cl then
    (unitOf s cl).foldl (fun x u => modCluster x u.1 fun c => { c with pre := .asked, frozen := false }) (haltUnit (journalCluster s cl) (unitOf s cl))
   else s)
def askedUnit (s : State) (cl : Nat) : Bool := ((kvFind s.clusters cl).map fun c => c.pre == .asked).getD false
/-- The scheduler gives a pre-emption up: a decision, which is journaled first (16 R296). -/
def execPreemptionAbandon (cl : Nat) (s : State) : Host.Outcome State Fault Refusal :=
  .next (if askedUnit s cl then abandon (journalCluster s cl) (unitOf s cl) else s)

/-! The save area. -/

/-- Save areas in use in a queue's pool. -/
def savedAreas (s : State) (q : Nat) : List (Nat × Nat) :=
  s.clusters.filterMap fun c =>
    match c.2.pre with
    | .saved a n => if ((kvFind s.cmds ((kvFind s.tasks c.2.task).getD noTask).cmd).getD noCmd).queue = q then some (a, n) else none
    | _ => none
/-- The first place of a pool that holds so many bytes, a multiple of 64. -/
def findArea (x : Queue) (used : List (Nat × Nat)) (n : Nat) : Option Nat :=
  (x.saveVA :: used.map fun e => e.1 + e.2).find? fun a =>
    decide (a + n ≤ x.saveVA + x.saveBytes) && used.all fun e => decide (a + n ≤ e.1 ∨ e.1 + e.2 ≤ a)
/-- Everything of the unit stands still and every counter is zero. The walk for a lane of `gath.tol`, which holds no counter, may go on. -/
def saveReady (s : State) (cl : Nat) : Bool :=
  askedUnit s cl && !waitsFor s 1 (.save cl) && seqsStill (unitTeams s (unitOf s cl)) &&
    (unitOf s cl).all (fun u => !u.2.frozen) &&
    (unitGroups s (unitOf s cl)).all fun g =>
      !g.2.exiting && groupStill g.2 && drained g.2 && !(s.dies.any fun d => (reqsOf d.2).any fun r => !tolerant r && reqOf [g.1] [] (unitTeams s (unitOf s cl) |>.map (·.1)) r)
/-- A group as it is saved: one parked in `grow` as if the word had not issued. -/
def savedGroup (g : Group) : Group := { g with park := if (growOf g).isSome then .none else g.park, active := false, marked := false }
/-- The pending writes of groups are published: where they are placed again, their own loads must see them (08 R150). -/
def publishOf (gs : List (Nat × Group)) (s : State) : State :=
  gs.foldl (fun x g => publishList (coreOfGid g.1) ((coreOf x (coreOfGid g.1)).pend.filter fun p => p.2.writers.contains g.1) x) s
/-- A cluster leaves its cores. Its step goes with it, so that a cluster placed again in the same interval does not glide after it (R262;
DESIGN CHOICE, log 122). -/
def takeOut (addr bytes : Nat) (s : State) (u : Nat × Cluster) : State :=
  let ts := u.2.teams.filterMap fun t => (kvFind s.teams t).map fun x => (t, x)
  let gs := s.groups.filter fun g => (teamOf s g.2).cluster == u.1
  let s1 := modCluster s u.1 fun c => { c with
    pre := .saved addr bytes, step := 0, byGrant := false, cores := []
    savedGroups := gs.map fun g => (g.1, savedGroup g.2), savedTeams := ts }
  let s2 := unYield (gs.foldl (fun x g => leaveGrow (leaveWalks (leaveWriters x g.1) g.1 u.2.task) g.1) (publishOf gs s1)) (gs.map (·.1))
  let s3 := { s2 with
    groups := s2.groups.filter fun g => !gs.any fun x => x.1 == g.1
    teams := ts.foldl (fun m t => kvDel m t.1) s2.teams }
  gs.foldl (fun x g => checkGrow x (g.1 / 16)) ((vatKeys s3).foldl vatTidy s3)
/-- The state is written; without room in the pool, or where the pool refuses it, the unit runs on. -/
def saveUnit (s : State) (cl : Nat) : State :=
  let cls := unitOf s cl
  let k := (kvFind s.tasks ((kvFind s.clusters cl).getD noCluster).task).getD noTask
  let x := (kvFind s.cmds k.cmd).getD noCmd
  let img := unitImage s k cls
  match (kvFind s.queues x.queue).bind fun q => findArea q (savedAreas s x.queue) img.length with
  | none => abandon (journalCluster s cl) cls
  | some a =>
    match hubAt s x.sid .write a img.length with
    | .miss ps => hubRequest s x.sid .write (.save cl) ps
    | .refused => abandon (journalCluster (hubNote s x.sid .write a img.length) cl) cls
    | .at_ ls => cls.foldl (takeOut a img.length) (writeLocs ls img s)
/-- The save area of a stopped unit is written. -/
def execSaveAreaWrite (cl : Nat) (s : State) : Host.Outcome State Fault Refusal :=
  .next (if saveReady s cl then saveUnit s cl else s)

end Sys2Proof.Machine
end

