-- ==== Sys2Proof/Machine/Hub.lean ====
section
/-! DEFINITION. Claims, doorbells and the packets (11 R206 to R209). -/
set_option Elab.async false
namespace Sys2Proof.Machine

/-- What a party outside reads. -/
def reply (s : State) (m : Master) (ws : List Word) : State := { s with out := s.out ++ [{ dest := m, words := ws }] }

/-! Claims and doorbells (R206, R207). The target of both is the queue (16 R300). -/

/-- A claim's answer (Table 11-1): a refused access reads 0. -/
def claimBy (s : State) (m : Master) (q : Nat) : State :=
  match claim s q with
  | (some i, s1) => reply s1 m [i, 0]
  | (none, s1) => reply s1 m [0, 1]
/-- A read of QCLAIM. -/
def execQclaim (m : Master) (q : Nat) (s : State) : Host.Outcome State Fault Refusal :=
  .next (if linked s m = false then s
    else if barSees m (8 * q) 8 = false ∨ 4096 ≤ q then reply s m [0, 0]
    else if admitted s m 2 q 1 .write = false then reply (denied s (8 * q)) m [0, 0]
    else claimBy s m q)
/-- A write of QDOOR. -/
def execQdoor (m : Master) (v : Word) (s : State) : Host.Outcome State Fault Refusal :=
  let q := v.toNat % 2 ^ 12
  .next (if linked s m = false ∨ barSees m 0x8000 4 = false then s
    else if admitted s m 2 q 1 .write = false then denied s 0x8000
    else ring s q)

/-! LAUNCH, and the log a command is recorded in or replayed against (15 R283, R286). -/

/-- A launch of a queue that is recorded or replayed: the n-th under a request replays the log of the n-th that was recorded. -/
def withLog (s : State) (q c : Nat) : State :=
  match (kvFind s.queues q).bind (·.log) with
  | none => s
  | some a =>
    modCmd (modQueue s q fun y => { y with log := some { a with next := a.next + 1 } }) c fun x =>
      if a.replay then { x with repl := some (loadLog s a a.next) }
      else { x with recd := some { base := a.base, bytes := a.bytes, used := a.used, nth := a.next, streams := [], incomplete := false } }
/-- LAUNCH. -/
def execLaunch (q : Nat) (s : State) : Host.Outcome State Fault Refusal :=
  .next (startPacket s q 1 fun x w s =>
    let (c, s1) := newCmd s q x w true
    nextPacket (newTask (withLog s1 q c) c (pairNat w 4) [] none) q)

/-! COPY. -/

/-- What a packet's copy may not be: SH, scale memories, directions outside Table 8-5, fields out of range. -/
def packetCopyBad (k : CopyD) : Bool :=
  let main (code : Nat) (rs : List Int) : Bool := rs.any fun r => decide (r < 0) || (code == 0 && decide (2 ^ 55 < r.toNat + k.xb))
  (codeOf k.src, codeOf k.dst) != (0, 1) && (codeOf k.src, codeOf k.dst) != (1, 0) || !addrOk false k.src || !addrOk false k.dst || copyMisaligned k ||
    k.xb == 0 || decide (2 ^ 24 < k.bytes) || main (codeOf k.src) k.srcRows || main (codeOf k.dst) k.dstRows
/-- SP rows of a packet's copy that the window or the entries refuse. -/
def packetSpRefused (s : State) (sid code : Nat) (kind : AKind) (rs : List Int) (n : Nat) : Bool :=
  code == 1 && rs.any fun r => !(inWindow s sid r.toNat n && spGrants s sid r.toNat n kind)
/-- Main-memory rows: pages that miss, and a refusal by permission or tag of one that hits. -/
def hubPagesOf (s : State) (sid : Nat) (kind : AKind) (key a n : Nat) : List Nat → List Nat × Bool → List Nat × Bool
  | [], r => r
  | p :: ps, (miss, bad) =>
    match peek s none 1 sid p with
    | none => hubPagesOf s sid kind key a n ps (if miss.contains p then miss else miss ++ [p], bad)
    | some t =>
      let q := pagePart a n p
      hubPagesOf s sid kind key a n ps (miss, bad || !permits t kind || (tagMiss s t key q.1 q.2).isSome)
def hubRows (s : State) (sid code : Nat) (kind : AKind) (key : Nat) (rs : List Int) (n : Nat) : List Nat × Bool :=
  if code = 0 then rs.foldl (fun r a => hubPagesOf s sid kind key a.toNat n (pagesOf a.toNat n) r) ([], false) else ([], false)
/-- A COPY packet, as a `cpy.rel` of the hub without a barrier. -/
def execCopyPacket (q : Nat) (s : State) : Host.Outcome State Fault Refusal :=
  .next (startPacket s q 2 fun x w s =>
    let d := (w.drop 4).take 8
    let k := copyD d
    if packetCopyBad k then nextPacket (rejectPacket s q x w 0x21) q
    else
      let a := hubRows s x.sid (codeOf k.src) .read (keyOf k.src) k.srcRows k.xb
      let b := hubRows s x.sid (codeOf k.dst) .write (keyOf k.dst) k.dstRows k.xb
      if packetSpRefused s x.sid (codeOf k.src) .read k.srcRows k.xb || packetSpRefused s x.sid (codeOf k.dst) .write k.dstRows k.xb ||
          a.2 || b.2 then nextPacket (rejectPacket s q x w 0x27) q
      else
        let (c, s1) := newCmd s q x w false
        let (i, s2) := fresh s1
        let y : Bulk :=
          { kind := .hub, gid := 0, fl := 0, cmd := c, core := 0, team := 0, sid := x.sid, rel := true, res := false, bar := none,
            desc := d, scale := [], x := 0, todo := [(0, 0, k.pieces)], fetched := [], lanes := [], after := [], late := false,
            checked := a.1.isEmpty && b.1.isEmpty }
        let rs := a.1.map (bulkReq i y 0 .read) ++ b.1.map (bulkReq i y 0 .write)
        nextPacket (requestAll 1 rs { s2 with bulks := kvPut s2.bulks i y }) q)

/-! SIGNAL. -/

/-- The combination of Table 3-8 at 64 bits: what is written, if anything. -/
def signalOp (op : Nat) (old v cmp : BitVec 64) : Option (BitVec 64) :=
  match op with
  | 1 => some (old + v)
  | 3 => if old = cmp then some v else none
  | 4 => some (old ||| v)
  | 5 => some (old &&& v)
  | 6 => some (if old.toNat < v.toNat then v else old)
  | _ => some v
/-- A 64-bit value at places. -/
def readPair (s : State) (ls : List Loc) : BitVec 64 := BitVec.ofNat 64 (leNat (readLocs s ls))
def writePair (ls : List Loc) (v : BitVec 64) (s : State) : State := writeLocs ls (leBytes 8 v.toNat) s
/-- A place that must be readable, as `read` says, and writable. -/
def signalAt (s : State) (sid v : Nat) (read : Bool) : HubAt :=
  onBoth (hubAt s sid .write v 8) (if read then hubAt s sid .read v 8 else .at_ []) .miss .refused fun ls _ => .at_ ls
/-- The indivisible action, and the old value stored. -/
def signalDo (s : State) (op : Nat) (a r : List Loc) (v cmp : BitVec 64) : State :=
  let old := readPair s a
  let s1 := match signalOp op old v cmp with
    | some w => writePair a w s
    | none => s
  if r.isEmpty then s1 else writePair r old s1
/-- SIGNAL. -/
def execSignal (q : Nat) (s : State) : Host.Outcome State Fault Refusal :=
  .next (startPacket s q 3 fun x w s =>
    let op := (w.getD 8 0).toNat % 8
    let ret := pairNat w 11
    let noted := hubNote s x.sid .write (pairNat w 4) 8
    let refused := nextPacket (rejectPacket (if ret = 0 then noted else hubNote noted x.sid .write ret 8) q x w 0x27) q
    onBoth (signalAt s x.sid (pairNat w 4) (op != 0 || ret != 0)) (if ret = 0 then HubAt.at_ [] else hubAt s x.sid .write ret 8)
      (hubRequest s x.sid .write (.ring q)) refused fun a r =>
      let (c, s1) := newCmd s q x w false
      nextPacket (okCmd (signalDo s1 op a r (BitVec.ofNat 64 (pairNat w 6)) (BitVec.ofNat 64 (pairNat w 9))) c) q)

/-! WAITVALUE. -/

/-- The condition of a packet on a value. -/
def waitHolds (w : List Word) (v : Nat) : Bool :=
  let x := (BitVec.ofNat 64 v &&& BitVec.ofNat 64 (pairNat w 8)).toNat
  let y := pairNat w 6
  match (w.getD 10 0).toNat % 4 with
  | 0 => x == y
  | 1 => x != y
  | 2 => decide (y ≤ x)
  | _ => decide (x < y)
/-- WAITVALUE starts: its first read comes at once. -/
def execWaitvalue (q : Nat) (s : State) : Host.Outcome State Fault Refusal :=
  .next (startPacket s q 4 fun x w s =>
    let start : State :=
      let (c, s1) := newCmd s q x w false
      nextPacket (modQueue s1 q fun y => { y with wait := some { cmd := c, words := w, next := s.ns } }) q
    onHub (hubAt s x.sid .read (pairNat w 4) 8) (fun _ => start)
      (nextPacket (rejectPacket (hubNote s x.sid .read (pairNat w 4) 8) q x w 0x27) q) fun _ => start)
def pollReady (s : State) (q : Nat) : Bool :=
  (((kvFind s.queues q).bind (·.wait)).map fun v => decide (v.next ≤ s.ns)).getD false && !waitsFor s 1 (.poll q) &&
    !s.power.shutdown && !s.trust.deviceFailed
/-- One read of the word. -/
def pollWait (s : State) (q : Nat) (x : Queue) (v : WaitVal) : State :=
  let refused := endCmd (modQueue (hubNote s x.sid .read (pairNat v.words 4) 8) q fun y => { y with wait := none }) v.cmd 4 0x27
  onHub (hubAt s x.sid .read (pairNat v.words 4) 8) (hubRequest s x.sid .read (.poll q)) refused fun ls =>
    if waitHolds v.words (leNat (readLocs s ls)) then okCmd (modQueue s q fun y => { y with wait := none }) v.cmd
    else modQueue s q fun y => { y with wait := some { v with next := v.next + 256 } }
/-- The read of every 256 control clocks. -/
def execWaitvaluePoll (q : Nat) (s : State) : Host.Outcome State Fault Refusal :=
  match kvFind s.queues q with
  | none => .next s
  | some x =>
    match x.wait with
    | none => .next s
    | some v => .next (if pollReady s q then pollWait s q x v else s)

/-! INVAL. -/

/-- INVAL: a full queue of invalidations holds it. -/
def execInval (q : Nat) (s : State) : Host.Outcome State Fault Refusal :=
  .next (startPacket s q 5 fun x w s =>
    let a := pairNat w 4
    let b := pairNat w 6
    if invalBad a b || bitsOf a 55 9 != 0 || bitsOf b 55 9 != 0 then nextPacket (rejectPacket s q x w 0x21) q
    else if 16 ≤ s.invs.length then s
    else
      let (c, s1) := newCmd s q x w false
      let (n, s2) := startInval s1 x.sid a b
      nextPacket (modCmd s2 c fun y => { y with inval := some n }) q)

/-! CONFIG. -/

/-- A CONFIG packet of one operation. -/
def configPacket (s : State) (q op : Nat) (k : Queue → List Word → State → State) : State :=
  startPacket s q 6 fun x w s => if (w.getD 4 0).toNat % 4 = op then k x w s else s
/-- A queue as it is created. -/
def newQueue (w : List Word) : Queue :=
  let n := (w.getD 8 0).toNat
  { ring := pairNat w 6, logn := n % 2 ^ 5, prio := bitsOf n 8 2, sid := bitsOf n 10 12, priv := bitsOf n 22 1 == 1,
    saveVA := pairNat w 9, saveBytes := (w.getD 11 0).toNat, widx := 0, ridx := 0, door := false, held := none, opened := [],
    wait := none, destroying := none, log := none }
/-- The packet's own command completes OK. -/
def configDone (s : State) (q : Nat) (x : Queue) (w : List Word) (k : State → State) : State :=
  let (c, s1) := newCmd s q x w false
  nextPacket (okCmd (k s1) c) q
/-- CONFIG create. Of a queue that exists, as a destroy of one that is absent or not empty and a skip that does not take place, it is
rejected with cause 0x21: Table 11-6 names none for them (DESIGN CHOICE, log 110). -/
def execConfigCreate (q : Nat) (s : State) : Host.Outcome State Fault Refusal :=
  .next (configPacket s q 0 fun x w s =>
    let n := (w.getD 5 0).toNat % 2 ^ 12
    if (kvFind s.queues n).isSome then nextPacket (rejectPacket s q x w 0x21) q
    else configDone s q x w fun s => { s with queues := kvPut s.queues n (newQueue w) })
/-- CONFIG destroy: the running commands of the queue complete first. -/
def execConfigDestroy (q : Nat) (s : State) : Host.Outcome State Fault Refusal :=
  .next (configPacket s q 1 fun x w s =>
    let n := (w.getD 5 0).toNat % 2 ^ 12
    match kvFind s.queues n with
    | none => nextPacket (rejectPacket s q x w 0x21) q
    | some y =>
      if n = 0 ∨ y.held ≠ none ∨ y.widx ≠ y.ridx ∨ y.destroying ≠ none then nextPacket (rejectPacket s q x w 0x21) q
      else if y.opened.isEmpty then configDone s q x w fun s => { s with queues := kvDel s.queues n }
      else
        let (c, s1) := newCmd s q x w false
        nextPacket (modQueue s1 n fun z => { z with destroying := some c }) q)
/-- CONFIG skip: RIDX rises and nothing starts; the parser loop of the queue runs at its next doorbell (DEDUCED, log 96). -/
def execConfigSkip (q : Nat) (s : State) : Host.Outcome State Fault Refusal :=
  .next (configPacket s q 2 fun x w s =>
    let n := (w.getD 5 0).toNat % 2 ^ 12
    let i := w.getD 6 0
    match kvFind s.queues n with
    | none => nextPacket (rejectPacket s q x w 0x21) q
    | some y =>
      if y.ridx ≠ i then nextPacket (rejectPacket s q x w 0x21) q
      else
        match hubAt s y.sid .read (slotAddr y i) 64 with
        | .miss p => hubRequest s y.sid .read (.ring q) p
        | .refused => nextPacket (rejectPacket (hubNote s y.sid .read (slotAddr y i) 64) q x w 0x27) q
        | .at_ ls =>
          if (wordsOf (readLocs s ls)).getD 1 0 = i + 1 then nextPacket (rejectPacket s q x w 0x21) q
          else configDone s q x w fun s => modQueue s n fun z => { z with ridx := z.ridx + 1 })

end Sys2Proof.Machine
end

