-- ==== Sys2Proof/Machine/Ladders.lean ====
section
/-! DEFINITION. The version unit's events (12 R235 to R248): seal points, waiting choices, waves (14 R264), cuts, pins of the host
and of peers. -/
set_option Elab.async false
namespace Sys2Proof.Machine

/-! Seal points and choices. -/

/-- The ladder of a task. -/
def ladderOfTask (s : State) (t : Nat) : Option Ladder := (kvFind s.tasks t).bind (·.ladder)
/-- The version unit runs a ladder task on its vat. -/
def runsOn (s : State) (t : Nat) (l : Ladder) : Bool := ((kvFind s.vats l.key).map fun v => v.running == some t).getD false
/-- A seal point. -/
def execSealPoint (t : Nat) (s : State) : Host.Outcome State Fault Refusal :=
  match kvFind s.tasks t, ladderOfTask s t with
  | some k, some l => .next (if sealDue s t then sealSequence s t l k.placedNs else s)
  | _, _ => .next s
def choiceReady (s : State) (t : Nat) : Bool :=
  match ladderOfTask s t with
  | some l => l.choosing && l.cutting.isNone && runsOn s t l && (curdChoice s l).isSome
  | none => false
/-- A choice that waited: groups that wait for their first slot go on, or the teams are released. -/
def makeChoice (s : State) (t : Nat) (l : Ladder) : State :=
  let s1 := chooseCurd s t l
  match ladderOfTask s1 t with
  | some l1 =>
    if l.releasing then releaseTeams s1 t (curdPair l1)
    else (groupsOfTask s1 t).foldl (fun x g => modGroup x g.1 fun y => { y with held := false }) s1
  | none => s1
def execCurdSlotChoice (t : Nat) (s : State) : Host.Outcome State Fault Refusal :=
  match ladderOfTask s t with
  | some l => .next (if choiceReady s t then makeChoice s t l else s)
  | none => .next s

/-! Waves (14 R264). -/

/-- Waves of a grid. -/
def waveCount (k : Task) (g : Stagger) : Nat := if g.w = 0 then 1 else (clusterCount k - 1) / g.w + 1
/-- Wave w is the next one and its time has come. -/
def waveDue (s : State) (t w : Nat) : Bool :=
  match kvFind s.tasks t with
  | some k =>
    (match k.stagger with
      | some g => !k.dead && !g.done.contains w && decide (w < waveCount k g) && decide (g.start + w * g.t ≤ s.ns) &&
          (List.range w).all fun i => g.done.contains i
      | none => false)
  | none => false
/-- A wave resumes. -/
def resumeWave (s : State) (t w : Nat) (k : Task) (g : Stagger) : State :=
  let last := decide (waveCount k g ≤ w + 1)
  let s1 := modTask s t fun x => { x with stagger := if last then none else some { g with done := g.done ++ [w] } }
  if g.bySeal then
    releaseSeal t w g.w (match k.ladder with
      | some l => if l.ended then 0 else curdPair l
      | none => 0) (groupsOfTask s1 t) s1
  else
    let s2 := resumeGbar w g.w (groupsOfTask s1 t) s1
    if last then checkGbar s2 t else s2
def execStaggerWave (t w : Nat) (s : State) : Host.Outcome State Fault Refusal :=
  match kvFind s.tasks t with
  | some k =>
    (match k.stagger with
      | some g => .next (if waveDue s t w then resumeWave s t w k g else s)
      | none => .next s)
  | none => .next s

/-! Cuts (R240, R241). -/

/-- The limits apply: the grid is placed, its last seal point is not made, no cut or fault has come. -/
def limitsApply (s : State) (t : Nat) (l : Ladder) : Bool := runsOn s t l && !l.ended && l.cutting.isNone
def timeDue (s : State) (t : Nat) : Bool :=
  match kvFind s.tasks t, ladderOfTask s t with
  | some k, some l => limitsApply s t l && pairNat l.desc 6 != 0 && decide (k.placedNs + pairNat l.desc 6 ≤ s.ns)
  | _, _ => false
def energyDue (s : State) (t : Nat) : Bool :=
  match ladderOfTask s t with
  | some l => limitsApply s t l && l.desc.getD 8 0 != 0 && decide ((l.desc.getD 8 0).toNat * 1000 ≤ l.energy)
  | none => false
/-- Teams of a task. -/
def teamsOfTask (s : State) (t : Nat) : List Nat :=
  (s.teams.filter fun x => ((kvFind s.clusters x.2.cluster).getD noCluster).task == t).map (·.1)
/-- The grid stops, a saved unit of it is discarded, its reductions without their count are gone, and the command ends with CUT; its vat is
still to be ended. -/
def cutGrid (s : State) (t : Nat) : State :=
  let s1 := stopWork s ((groupsOfTask s t).map (·.1)) (teamsOfTask s t)
  let s2 := { s1 with clusters := s1.clusters.filter fun c => !(c.2.task == t && match c.2.pre with
    | .saved _ _ => true
    | _ => false) }
  let s3 := modCmd s2 ((kvFind s.tasks t).getD noTask).cmd fun x => { x with
    ending := some (x.ending.getD { status := 2, cause := 0, tpc := 0, ggid := 0 }) }
  let s4 := { s3 with reds := s3.reds.filter fun r => r.2.task != t }
  modLadder (modTask s4 t fun k => { k with stagger := none, dead := true, queued := false }) t fun l => { l with cutting := some false }
/-- A time limit has passed. -/
def execTimeLimitCut (t : Nat) (s : State) : Host.Outcome State Fault Refusal := .next (if timeDue s t then cutGrid s t else s)
/-- An energy limit is reached. -/
def execEnergyLimitCut (t : Nat) (s : State) : Host.Outcome State Fault Refusal := .next (if energyDue s t then cutGrid s t else s)

/-! Abandoned writes (R241): what they would leave if every one were performed, and each byte old or new. -/

def forceBulk (s : State) (b : Nat) : State :=
  match kvFind s.bulks b with
  | none => s
  | some x => (piecesLeft x).foldl (fun y p =>
    match kvFind y.bulks b with
    | none => y
    | some z =>
      match z.kind with
      | .cpy => deliverCopy y b p.2 z
      | .cpymc => deliverMulticast y b p.2 p.1 z
      | .gath => laneEvent .gath b p.2 y
      | .scat => laneEvent .scat b p.2 y
      | _ => y) s
/-- One operation other than an atomic, as far as it writes memory. -/
def forceOp (s : State) (gid : Nat) (f : Flight) : State :=
  match f.op with
  | .bulk b => forceBulk s b
  | .atomic _ _ _ _ _ _ _ _ _ => s
  | .locks _ _ _ _ => s
  | op =>
    match findOp s gid f.id with
    | some (g, _) => performStore s gid f.id g op
    | none => s
def forceGroup (s : State) (gid : Nat) : State :=
  match kvFind s.groups gid with
  | none => s
  | some g => (g.flight.filter fun f => !f.done).foldl (fun y f => forceOp y gid f) s
/-- The lanes of a group's atomics that take effect, each word whole; which do is a free value (log 31). -/
def settleAtomics (s : State) (gid : Nat) : State :=
  match kvFind s.groups gid with
  | none => s
  | some g => (g.flight.filter fun f => !f.done).foldl (fun y f =>
      match f.op with
      | .atomic _ _ _ _ _ ls _ _ _ => ls.foldl (fun z l =>
          match findOp z gid f.id with
          | some (h, x) => if Config.viewPick s.tick (32 * f.id + l.1) % 2 = 1 then performLane z gid f.id h x.op l.1 else z
          | none => z) y
      | _ => y) s
/-- Keys whose byte differs between two memories. -/
def changedKeys (a b : List Host.Cell) : List Nat :=
  (((a.map (·.1)) ++ b.map (·.1)).eraseDups).filter fun k => kvGet memDefault a k != kvGet memDefault b k
/-- The changed bytes that pass a test take their new value. -/
def takeBytes (p : Nat → Bool) (s : State) (new : List Host.Cell) : State :=
  (changedKeys s.mem new).foldl (fun y k => if p k then putByte y (keyLoc k) (kvGet memDefault new k) else y) s
/-- Each changed byte takes its new value or keeps its old one (log 31). -/
def mixBytes (s : State) (new : List Host.Cell) : State := takeBytes (fun k => Config.viewPick s.tick k % 2 = 1) s new
/-- The abandoned writes of groups settle: an atomic's word by word, all others byte by byte. What they would write is worked out on a
state in which nothing is recorded or replayed. -/
def settleWrites (pub : State → State) (s : State) (gs : List Nat) : State :=
  let plain := { s with cmds := s.cmds.map fun c => (c.1, { c.2 with recd := none, repl := none }) }
  let atoms := gs.foldl settleAtomics plain
  mixBytes (takeBytes (fun _ => true) s atoms.mem) (pub (gs.foldl forceGroup atoms)).mem
/-- Nothing of the grid's groups is in flight any more. -/
def dropFlights (gs ts : List Nat) (s : State) : State :=
  let bs := (s.bulks.filter fun b => gs.contains b.2.gid && b.2.kind != .hub).map (·.1)
  let s1 := bs.foldl (fun y b => dropReqs { y with bulks := kvDel y.bulks b } b) s
  let s2 := gs.foldl (fun y g =>
    let fs := ((kvFind y.groups g).map (·.flight)).getD []
    modGroup (fs.foldl (fun z f => if f.done then z else abandonSample z g f.id) y) g fun x => { x with flight := [], gate := none }) s1
  ts.foldl (fun y t => retireTeam (modTeam y t fun x => { x with seq := x.seq.map fun q => { q with writes := [] } }) t) s2
/-- The writes of a stopped grid settle: pending ones are published, its reductions without their count are discarded. -/
def settleGrid (s : State) (t : Nat) : State :=
  let gs := (groupsOfTask s t).map (·.1)
  let pub (x : State) : State := publishGrid x t
  let s1 := settleWrites pub (pub s) gs
  dropFlights gs (teamsOfTask s t) { s1 with reds := s1.reds.filter fun r => r.2.task != t }
/-- The command's record takes the version of another ladder task of it: of the one that was cut, of the one that faulted. -/
def versionTaken (s : State) (c t : Nat) (fault : Bool) : Bool :=
  match (kvFind s.cmds c).bind (·.ending) with
  | some e => (fault && e.status == 2) || (e.task.map fun u => u != t).getD false
  | none => false
/-- The newest version of a ladder task's vat goes into the command (R242), unless another's stands there. Where none of several ladder
tasks was cut or faulted, a task that is none having faulted, each in turn puts its own there, so that the last one's stays (DESIGN
CHOICE, log 103). -/
def cutVersion (s : State) (c t key : Nat) (fault : Bool) : State := if versionTaken s c t fault then s else takeVersion s c key
/-- The end of a cut or faulted ladder task: its writes settle, its vat ends, the command's other tasks stop, and the command
completes. A ladder task that another's cut stops counts in TASKS as one that ended too (DESIGN CHOICE, log 104). -/
def endCut (s : State) (t : Nat) (k : Task) (l : Ladder) (fault : Bool) : State :=
  if runsOn s t l || l.ended then
    let s1 := cutVersion (endVat (settleGrid s t) t) k.cmd t l.key fault
    let s2 := modLadder (modCmd s1 k.cmd fun x => { x with tasks := x.tasks + 1 }) t fun y => { y with cutting := none }
    if fault then s2
    else
      let s4 := stopCmd s2 k.cmd
      { s4 with tasks := s4.tasks.map fun x => if x.2.cmd = k.cmd ∧ x.1 ≠ t then
          (x.1, { x.2 with ladder := x.2.ladder.map fun y => { y with cutting := some true } }) else x }
  else modLadder s t fun y => { y with cutting := none }
/-- The vat of a cut or faulted grid ends. -/
def execCutVatEnd (t : Nat) (s : State) : Host.Outcome State Fault Refusal :=
  match kvFind s.tasks t with
  | some k =>
    (match k.ladder with
      | some l => match l.cutting with
        | some f => .next (endCut s t k l f)
        | none => .next s
      | none => .next s)
  | none => .next s

/-! VPIN (R248). -/

def noVpin : Vpin := { head := 0, op := 0, slot := 0, seq := 0, qual := 0, rslot := 0, flags := 0, done := false, err := false }
def vpinOf (s : State) (i : Nat) : Vpin := kvGet noVpin s.vpins i
def setVpin (s : State) (i : Nat) (v : Vpin) : State := { s with vpins := kvSet noVpin s.vpins i v }
/-- The instance a master reaches: its host function's, or that of a Holwyn port. -/
def ownVpin (m : Master) (i : Nat) : Bool :=
  match m with
  | .host f => decide (f < 16) && i == f
  | .peer _ => decide (16 ≤ i ∧ i < 28)
  | _ => false
/-- The head a master names: SP, or device-physical HBM. -/
def vpinHead (s : State) (m : Master) (h : Nat) : Option (Option Nat) :=
  let a := vaOf h
  if mainOrSp h = false ∨ a % 1024 ≠ 0 then none
  else if codeOf h = 1 then
    if spRange a 64 = false then none
    else if admitted s m 0 a 64 .read then some (some (locKey (.sp a))) else some none
  else if Config.hbmEnd < a + 64 then none
  else if admitted s m 1 a 64 .read then some (some (locKey (.hbm a))) else some none
/-- The operation itself. -/
def vpinOp (s : State) (i op key : Nat) (v : Vpin) : State :=
  match op with
  | 2 =>
    (match unpin s key v.slot with
      | some s1 => setVpin s1 i { v with done := true }
      | none => setVpin s i { v with done := true, err := true })
  | 3 => setVpin (vatTidy (modVat s key fun x => { x with pins := [] }) key) i { v with done := true }
  | _ =>
    let (r, s1) := pinNewest s key (op == 1)
    setVpin s1 i { v with seq := r.1, qual := r.2.1, rslot := r.2.2.1.toNat % 8, flags := r.2.2.2.setWidth 3, done := true }
/-- GO: the operation runs, or ends with ERR. -/
def vpinGo (s : State) (m : Master) (i op : Nat) : State :=
  let v := { vpinOf s i with op := op, done := false, err := false }
  match vpinHead s m v.head.toNat with
  | some (some key) => vpinOp s i op key v
  | some none => setVpin (denied s (vaOf v.head.toNat)) i { v with done := true, err := true }
  | none => setVpin s i { v with done := true, err := true }
/-- A write of GO with an OP by a master. -/
def vpinWrite (s : State) (m : Master) (i op : Nat) : State :=
  if ownVpin m i = false then s
  else match m with
    | .host _ => barWrite s m 0x8108 4 fun x => vpinGo x m i op
    | _ => vpinGo s m i op
def execVpinRead (m : Master) (i : Nat) (s : State) : Host.Outcome State Fault Refusal := .next (vpinWrite s m i 0)
def execVpinPin (m : Master) (i : Nat) (s : State) : Host.Outcome State Fault Refusal := .next (vpinWrite s m i 1)
def execVpinUnpin (m : Master) (i : Nat) (s : State) : Host.Outcome State Fault Refusal := .next (vpinWrite s m i 2)
def execVpinClear (m : Master) (i : Nat) (s : State) : Host.Outcome State Fault Refusal := .next (vpinWrite s m i 3)

end Sys2Proof.Machine
end

