-- ==== Sys2Proof/Machine/PowerCtl.lean ====
section
/-! DEFINITION. The power controller's events (14 R259 to R266) and the thermal limits (16 R303). -/
set_option Elab.async false
namespace Sys2Proof.Machine

/-! Fields of BOOSTCFG (Table 14-1). -/

def cfgEn (p : Power) : Bool := p.boostcfg.getLsbD 8
def cfgFloor (p : Power) : Nat := bitsOf p.boostcfg.toNat 16 5
def cfgPw (p : Power) : Nat := bitsOf p.boostcfg.toNat 24 8
def cfgMax (p : Power) (c : Nat) : Nat := min 2 (bitsOf p.boostcfg.toNat (2 * c) 2)

/-- A word of the power registers (Tables 14-1 to 14-6). What is left of a lease is given in whole microseconds. -/
def powerWordOf (p : Power) (ns : Nat) (ballast : Bool) : Nat → Word
  | 0 => boostpool p
  | 1 => p.boostcfg
  | 2 => BitVec.ofNat 32 (p.stagW + p.stagT * 2 ^ 16)
  | 3 => BitVec.ofNat 32 ((if p.ballEn then 1 else 0) + p.ballDur * 2 + p.ballDrop * 2 ^ 8 + (if ballast then 2 ^ 15 else 0) +
      p.ballCount % 2 ^ 16 * 2 ^ 16)
  | 4 => BitVec.ofNat 32 (p.cap + (if p.leased then 2 ^ 13 else 0) + (if p.fallen then 2 ^ 14 else 0) + p.fallback * 2 ^ 16)
  | 5 => p.capSeq
  | _ => BitVec.ofNat 32 (if p.leased then (p.leaseEnd - ns) / 1000 else 0)

/-! Grant budgets (R260). -/

/-- A budget after a microsecond of so many milliwatts. -/
def nextBudget (p : Power) (mw b : Nat) : Nat :=
  if p.floor then cfgFloor p
  else if p.cap * 1000 < mw then max (b - 4) (cfgFloor p)
  else if mw + 50000 ≤ p.cap * 1000 then min 24 (b + 4)
  else b
def setBudgets (s : State) (f : Nat → Nat) : State :=
  (List.range 64).foldl (fun x c => modCore x c fun y => { y with
    budget := (List.range 4).foldl (fun m q => kvSet 24 m q (f (kvGet 24 y.budget q))) y.budget }) s
/-- A grid draws energy in this microsecond: it is placed and not pre-empted, and not frozen (12 R240, 15 R274). -/
def drawing (s : State) (t : Nat) (l : Ladder) : Bool :=
  limitsApply s t l && (clustersOf s t).any fun c => !c.2.frozen && match c.2.pre with
    | .saved _ _ => false
    | _ => true
def addEnergy (s : State) : State :=
  { s with tasks := s.tasks.map fun t => match t.2.ladder with
      | some l => if drawing s t.1 l then (t.1, { t.2 with ladder := some { l with energy := l.energy + Config.drawn s.tick t.1 } }) else t
      | none => t }
/-- The update of every microsecond. -/
def execGrantBudgetUpdate (mw : Nat) (s : State) : Host.Outcome State Fault Refusal :=
  .next (if s.ns < s.power.nextUs then s
    else
      let s1 := addEnergy (setBudgets s (nextBudget s.power mw))
      { s1 with power := { s1.power with nextUs := s1.power.nextUs + 1000, meas := (mw :: s1.power.meas).take 4 } })

/-! Boost (R261 to R263). -/

/-- The cluster holds a group that is not exiting, and is not pre-empted. -/
def clusterLive (s : State) (cl : Nat) (c : Cluster) : Bool :=
  (match c.pre with
    | .saved _ _ => false
    | _ => true) && s.groups.any fun g => !g.2.exiting && (teamOf s g.2).cluster == cl
/-- The step a cluster asks for; 0 when it does not ask. -/
def askOf (s : State) (cl : Nat) (c : Cluster) : Nat :=
  if cfgEn s.power && !c.frozen && clusterLive s cl c then cfgMax s.power c.cls else 0
/-- Clusters that ask, in the order of R262. -/
def insertBy {α : Type} (le : α → α → Bool) (x : α) : List α → List α
  | [] => [x]
  | y :: r => if le x y then x :: y :: r else y :: insertBy le x r
/-- Asking clusters in their order (R262); of two of one class and one anchor the earlier one in the list of clusters comes first (DESIGN
CHOICE, log 121). -/
def askOrder (s : State) : List (Nat × Cluster) :=
  let far (c : Cluster) : Nat := (c.anchor + 127 - s.power.rp) % 64
  (s.clusters.filter fun c => decide (0 < askOf s c.1 c.2)).foldr
    (insertBy fun a b => decide (b.2.cls < a.2.cls ∨ (a.2.cls = b.2.cls ∧ far a.2 ≤ far b.2))) []
/-- The progress of the procedure: permits, headroom in mW, the first served, steps by cluster. -/
structure Grants where
  p : Nat
  hd : Int
  first : Option Nat
  steps : List (Nat × Nat × Bool)
def affordable (pw : Nat) (g : Grants) (cost : Nat) : Bool := decide (cost ≤ g.p) && decide (((cost * pw * 1000 : Nat) : Int) ≤ g.hd)
/-- A cluster ran at step 2 by grant in the interval that ends. -/
def gliding (c : Cluster) : Bool := c.step == 2 && c.byGrant
def grantOne (s : State) (g : Grants) (c : Nat × Cluster) : Grants :=
  let pw := cfgPw s.power
  let ask := askOf s c.1 c.2
  let n := if s.power.hold then 0 else if 2 ≤ ask ∧ affordable pw g 2 = true then 2 else if affordable pw g 1 then 1 else 0
  if 0 < n then
    { p := g.p - n, hd := g.hd - (n * pw * 1000 : Nat), first := g.first.or (some c.2.anchor), steps := g.steps ++ [(c.1, n, true)] }
  else if gliding c.2 then { g with steps := g.steps ++ [(c.1, 1, false)] }
  else g
/-- The refill at the end of an interval: permits and HALF. -/
def refill (p : Power) : Power :=
  if p.begun = false then p
  else if p.above then { p with half := false }
  else if p.half then { p with half := false, permits := min p.limit (p.permits + 1) }
  else { p with half := true }
/-- The highest step of the live clusters that hold a core (R259). -/
def coreTarget (s : State) (core : Nat) : Nat :=
  ((s.clusters.filter fun c => c.2.cores.contains core && clusterLive s c.1 c.2).map (·.2.step)).foldl max 0
/-- Cores switch down at once, and up within 500 ns of the interval's start. -/
def setCoreSteps (s : State) : State :=
  (List.range 64).foldl (fun x c =>
    let t := coreTarget x c
    modCore x c fun y => { y with step := min y.step t, rise := if y.step < t then some (t, x.ns + 500) else none }) s
/-- The mean power of the 4 µs before, in mW, rounded up: of its 1 µs measurements, or so many before the first one. -/
def meanPower (s : State) (mw : Nat) : Nat :=
  match s.power.meas with
  | [] => mw
  | l => (l.sum + l.length - 1) / l.length
/-- An interval starts. -/
def startInterval (s : State) (now mw : Nat) : State :=
  let p0 := refill s.power
  let p1 := { p0 with permits := min p0.permits p0.limit }
  let g := (askOrder s).foldl (grantOne s) { p := p1.permits, hd := ((p1.cap * 1000 : Nat) : Int) - meanPower s mw, first := none, steps := [] }
  let others := s.clusters.filter fun c => askOf s c.1 c.2 == 0 && clusterLive s c.1 c.2 && gliding c.2
  let steps := g.steps ++ others.map fun c => (c.1, 1, false)
  let s1 := { s with
    power := { p1 with permits := g.p, rp := g.first.getD p1.rp, nextInt := some (now + 4000), begun := true, above := false }
    clusters := s.clusters.map fun c => match steps.find? fun e => e.1 == c.1 with
      | some e => (c.1, { c.2 with step := e.2.1, byGrant := e.2.2 })
      | none => (c.1, { c.2 with step := 0, byGrant := false }) }
  let s2 := setCoreSteps s1
  { s2 with power := { s2.power with
      rail := ((List.range 64).map (coreTarget s2)).foldl max 0
      above := (List.range 64).any fun c => decide (0 < (coreOf s2 c).step) } }
/-- The start of an interval of 4 µs. -/
def execBoostIntervalStart (mw : Nat) (s : State) : Host.Outcome State Fault Refusal :=
  match s.power.nextInt with
  | some n => .next (if s.ns < n then s else startInterval s n mw)
  | none => .next s
/-- A core switches up. -/
def execClockStepRise (c : Nat) (s : State) : Host.Outcome State Fault Refusal :=
  match (coreOf s c).rise with
  | some (t, _) =>
    let n := min t (coreTarget s c)
    .next { modCore s c fun y => { y with step := n, rise := none } with
      power := { s.power with above := s.power.above || decide (0 < n) } }
  | none => .next s

/-! Ballast (R265). -/

/-- The clocks of every ramp are counted. -/
def countBallast (s : State) : State := (List.range 64).foldl countRamp s
/-- The check of every microsecond: a collapse starts ramps. -/
def checkBallast (s : State) : State :=
  let cs := List.range 64
  let now := (cs.filter fun c => decide (0 < (coreOf s c).issued)).length
  let before := (cs.filter fun c => decide (0 < (coreOf s c).issuedPrev)).length
  let collapse := s.power.ballEn && decide (now + s.power.ballDrop ≤ before)
  let s1 := cs.foldl (fun x c => modCore x c fun y => { y with
    issued := 0, issuedPrev := y.issued
    ramp := if collapse && decide (0 < y.issuedPrev) && y.issued == 0 && y.ramp.isNone && decide (0 < x.power.ballDur) then
      some { start := x.ns, rate := y.issuedPrev, dur := x.power.ballDur, counted := 0 } else y.ramp }) (countBallast s)
  { s1 with power := { s1.power with
      ballCount := if collapse then (s1.power.ballCount + 1) % 2 ^ 16 else s1.power.ballCount
      nextBal := s1.power.nextBal + 1000 } }
def execBallastCheck (s : State) : Host.Outcome State Fault Refusal := .next (if s.ns < s.power.nextBal then s else checkBallast s)
def rampOver (s : State) (c : Nat) : Bool := ((coreOf s c).ramp.map fun r => decide (r.start + r.dur * 1000 ≤ s.ns)).getD false
/-- A ramp reaches zero. -/
def execBallastRampEnd (c : Nat) (s : State) : Host.Outcome State Fault Refusal :=
  .next (if rampOver s c then modCore (countRamp s c) c fun y => { y with ramp := none } else s)

/-! Caps (R266). -/

/-- A sequence number that is newer than the last accepted one. -/
def newerSeq (p : Power) (seq : Word) : Bool :=
  !p.capSeen || decide (1 ≤ (seq - p.capSeq).toNat ∧ (seq - p.capSeq).toNat < 2 ^ 31)
def clampCap (w : Nat) : Nat := min 2900 (max 1200 w)
/-- A cap message. -/
def execCapMessage (seq : Word) (w : Nat) (s : State) : Host.Outcome State Fault Refusal :=
  .next (if newerSeq s.power seq then
    { s with power := { s.power with
        cap := clampCap (w % 2 ^ 16), leased := true, fallen := false, capSeq := seq, capSeen := true, leaseEnd := s.ns + 100000000 } }
   else s)
/-- A lease ends. -/
def execCapLeaseExpiry (s : State) : Host.Outcome State Fault Refusal :=
  .next (if s.power.leased && decide (s.power.leaseEnd ≤ s.ns) then
    { s with power := { s.power with cap := s.power.fallback, leased := false, fallen := true } }
   else s)

/-! Thermal limits (16 R303). -/

/-- At 105 °C no permit is granted. -/
def execThermalBoostHold (on : Bool) (s : State) : Host.Outcome State Fault Refusal :=
  .next { s with power := { s.power with hold := on } }
/-- Every budget is at RFLOOR while that is asked. -/
def holdBudgets (s : State) : State := if s.power.floor then setBudgets s fun _ => cfgFloor s.power else s
/-- At 115 °C every budget is held at RFLOOR. -/
def execThermalBudgetFloor (on : Bool) (s : State) : Host.Outcome State Fault Refusal :=
  .next (holdBudgets { s with power := { s.power with floor := on } })
/-- Every core stops as at a cut, steps 1 and 2 of R241. -/
def haltAll (s : State) : State :=
  let gs := s.groups.map (·.1)
  let ts := s.teams.map (·.1)
  let s1 := settleWrites publishAll (publishAll (stopWork s gs ts)) gs
  dropFlights gs ts { s1 with reds := [] }
/-- The hub's own work stops. -/
def haltHub (s : State) : State :=
  { s with
    bulks := s.bulks.filter fun b => b.2.kind != .hub
    queues := s.queues.map fun q => (q.1, { q.2 with wait := none })
    cmds := s.cmds.map fun c => (c.1, { c.2 with inval := none }) }
/-- The ladder tasks of a command whose vats are to be ended. -/
def endVats (s : State) (c : Nat) : State :=
  (tasksOfCmd s c).foldl (fun x t => match t.2.ladder with
    | some l =>
      if runsOn x t.1 l || l.ended then
        let x1 := cutVersion (endVat x t.1) c t.1 l.key (l.cutting != some false)
        modLadder (modCmd x1 c fun y => { y with tasks := y.tasks + 1 }) t.1 fun y => { y with cutting := none }
      else modLadder x t.1 fun y => { y with cutting := none }
    | none => x) s
/-- The hub's translations of some pages, by walks that end at once: no request waits through a reset. -/
def fillPages (s : State) (sid : Nat) (pages : List Nat) : State :=
  pages.foldl (fun x p => match (walk x 1 sid p).1 with
    | .leaf t => fillL2 x 1 t
    | _ => x) s
/-- A task is a ladder task: its record names a vat, as far as the record can be read. -/
def ladderTask (s : State) (k : Task) : Bool :=
  if k.lr.isEmpty then
    let sid := ((kvFind s.cmds k.cmd).getD noCmd).sid
    let s1 := fillPages s sid (pagesOf k.lraddr 512)
    match hubAt s1 sid .read k.lraddr 512 with
    | .at_ ls => pairNat (wordsOf (readLocs s1 ls)) 11 != 0
    | _ => false
  else vatAddr k != 0
/-- An open command ends: a ladder command with CUT where `cut` says so, every other with ERROR. -/
def endOpen (cut : Bool) (s : State) (c : Nat) : State :=
  match kvFind s.cmds c with
  | none => s
  | some x =>
    if x.launch = false then (if x.closing then s else endCmd s c 6 0)
    else
      let ladder := (tasksOfCmd s c).any fun t => ladderTask s t.2
      let s1 := endVats s c
      let e : EndInfo := { status := if cut && ladder then 2 else 6, cause := 0, tpc := 0, ggid := 0 }
      if x.ending.isNone && x.spawn != 0 then dropTasks (modCmd s1 c fun y => { y with ending := some e }) c else s1
def endAllOpen (cut : Bool) (s : State) : State := s.cmds.foldl (fun x c => endOpen cut x c.1) (haltHub s)
/-- The management port reports. -/
def tellMgmt (s : State) (code : Nat) : State := { s with out := s.out ++ [{ dest := .mgmt, words := [BitVec.ofNat 32 code] }] }
/-- Thermal shutdown. -/
def execThermalShutdown (s : State) : Host.Outcome State Fault Refusal :=
  .next (if s.power.shutdown then s
    else
      let s1 := endAllOpen true (haltAll s)
      tellMgmt (errorRecord { s1 with power := { s1.power with shutdown := true } } 9 0 0 0 0 0 0 0) 9)

end Sys2Proof.Machine
end

