-- ==== Sys2Proof/Machine/Debugger.lean ====
section
/-! DEFINITION. C6's own events: stops (15 R269, R270), snapshots (R275), sampling (R278, R279), gates of a replay (R286); and the
resumption of a stopped unit (R270). -/
set_option Elab.async false
namespace Sys2Proof.Machine

/-! Stops (R269). -/

/-- The tag, sender and extent of a stop under way. -/
def stopAsked (c : Cluster) : Option (Word × Nat × Bool) :=
  match c.stop with
  | .asked t m g => some (t, m, g)
  | _ => none
/-- The clusters of a debug request: one, or every cluster of its grid. -/
def debugUnit (s : State) (cl : Nat) (grid : Bool) : List (Nat × Cluster) :=
  match kvFind s.clusters cl with
  | none => []
  | some c => if grid then clustersOf s c.task else [(cl, c)]
/-- The clusters of the stop that a cluster is asked for. -/
def stopUnit (s : State) (cl : Nat) : List (Nat × Cluster) :=
  match (kvFind s.clusters cl).bind stopAsked with
  | some (t, m, g) => (debugUnit s cl g).filter fun u => stopAsked u.2 == some (t, m, g)
  | none => []
/-- A request that waits on a fault. -/
def parkedFor (s : State) (p : Req → Bool) : Bool :=
  s.dies.any fun d => (parkedReqs d.2).any p
/-- A request of an operation in flight. -/
def isReqOf (gid : Nat) (f : Flight) (r : Req) : Bool :=
  match f.op, r.who with
  | .bulk b, .bulk b2 _ => b == b2
  | .locks _ _ _ _, .locks g i => g == gid && i == f.id
  | _, _ => false
/-- An operation in flight covers only parked fault requests: one is parked, and no other is outstanding. -/
def opParked (s : State) (gid : Nat) (f : Flight) : Bool :=
  f.done || (parkedFor s (isReqOf gid f) &&
    !(s.dies.any fun d => (d.2.port ++ (d.2.miss.filter fun m => !m.stuck).flatMap (·.reqs)).any (isReqOf gid f)))
/-- Every fragment of a group stands, or waits on a fault of its own fetch, and its counters cover parked requests only. -/
def groupStopped (s : State) (g : Nat × Group) : Bool :=
  (groupStill g.2 || parkedFor s fun r => r.who == .grp g.1) && g.2.flight.all (opParked s g.1)
def stopReady (s : State) (cl : Nat) : Bool :=
  ((kvFind s.clusters cl).bind stopAsked).isSome &&
    (unitGroups s (stopUnit s cl)).all (groupStopped s) && seqsStill (unitTeams s (stopUnit s cl))
/-- What C6 reports of a fragment: its group, its PC, the ordinal of the safe point it stopped at. One that waits, or whose word parks its
whole group, stands at its parking word, one held by a split at its resume address, one at a rejoin there. -/
def fragReport (gid : Nat) (g : Group) (f : Frag) : List Word :=
  [BitVec.ofNat 32 gid, reportPc g f, match f.park, f.safe with
    | .safe, some (o, a) => if a = f.pc then BitVec.ofNat 32 (2 ^ 31 + o) else 0
    | _, _ => 0]
def splitReport (gid : Nat) (r : SplitRec) : List (List Word) :=
  (if waitsIn r = 0 then [] else [[BitVec.ofNat 32 gid, rejoinOf r, 0]]) ++
  match r with
  | .hold l _ _ _ pc _ false _ => if l = 0 then [] else [[BitVec.ofNat 32 gid, pc, 0]]
  | _ => []
def groupReport (g : Nat × Group) : List (List Word) :=
  g.2.frags.map (fragReport g.1 g.2) ++ g.2.splits.flatMap (splitReport g.1)
/-- The stop completes: every fragment counts as stopped, C6 reports, the request is answered. -/
def completeStop (s : State) (cl : Nat) : State :=
  match (kvFind s.clusters cl).bind stopAsked with
  | none => s
  | some (tag, sender, _) =>
    let u := stopUnit s cl
    let gs := unitGroups s u
    let s1 := gs.foldl (fun x g => modGroup x g.1 fun y => { y with frags := y.frags.map fun f => { f with halted := true } }) s
    let s2 := u.foldl (fun x c => modCluster x c.1 fun y => { y with stop := .stopped }) s1
    let rs := gs.flatMap groupReport
    u.foldl (fun x c => retireCluster x c.1) (answer (report s2 rs.flatten) sender 8 tag 0 [BitVec.ofNat 32 rs.length])
/-- Every fragment and sequencer of a stop has stopped. -/
def execStopComplete (k : Nat) (s : State) : Host.Outcome State Fault Refusal := .next (if stopReady s k then completeStop s k else s)

/-! Resumption. -/

/-- What was written into a cluster's state is laid over it, image by image. -/
def applyWritten (s : State) (c : Nat × Cluster) : State := c.2.images.foldl (fun x img => applyImage false x [c] img) s
/-- Resumption (R270): what was written takes effect, each fragment goes on or takes up its wait. -/
def resumeUnit (s : State) (u : List (Nat × Cluster)) : State :=
  let s2 := u.foldl (fun x c => modCluster x c.1 fun y => { y with stop := .none, images := [] }) (u.foldl applyWritten s)
  (unitGroups s2 u).foldl (fun x g =>
    if (clusterOf x g.2).pre == .asked then x
    else modGroup x g.1 fun y => { y with frags := y.frags.map (resumeFrag false) }) s2

/-! Snapshots (R275, R276). -/

/-- Fields of SNAPTRIG as written: the enables take the bits, MISSED clears by 1. -/
def snapFields (v : Word) (t : SnapTrig) : SnapTrig :=
  { t with
    arm := v.getLsbD 0, latched := t.latched && !v.getLsbD 0, missed := t.missed && !v.getLsbD 2
    eninsn := v.getLsbD 3, endebug := v.getLsbD 4, enerr := v.getLsbD 5, enhost := v.getLsbD 6 }
/-- A write of SNAPTRIG: its fields, then the trigger of FIRE. -/
def writeSnap (v : Word) (s : State) : State :=
  let s1 := { s with snap := snapFields v s.snap }
  if v.getLsbD 7 then trigger s1 4 0 else s1
/-- A write with ARM 1. -/
def execSnaptrigArm (v : Word) (s : State) : Host.Outcome State Fault Refusal :=
  .next (barWrite s (.host 0) 0x13100 4 (writeSnap (v ||| 1)))
/-- A write with FIRE 1. -/
def execSnaptrigFire (v : Word) (s : State) : Host.Outcome State Fault Refusal :=
  .next (barWrite s (.host 0) 0x13100 4 (writeSnap (v ||| 128)))

/-! Sampling (R278, R279). -/

/-- LEVELs that a bulk command meets. A row is shorter than a slice. -/
def bulkLevels (gid : Nat) (x : Bulk) : List Nat :=
  let k := copyD x.desc
  let rows (code : Nat) (rs : List Int) : List Nat := rs.flatMap fun r => rangeLevels gid x.checked code r.toNat k.xb
  let loc := codeOf (pairNat x.desc 0)
  let lanes : List Nat := x.lanes.flatMap fun m => rangeLevels gid x.checked 0 (vaOf m.va.toNat) 1 ++
    rangeLevels gid x.checked loc (rowAt x.desc m.lane) (rowBytes x.desc)
  match x.kind with
  | .gath => lanes
  | .scat => lanes
  | .cpymc => rows (codeOf k.src) k.srcRows ++ x.todo.map fun e => byteLevel gid true (sliceBase e.1)
  | _ => if x.scale.isEmpty then rows (codeOf k.src) k.srcRows ++ rows (codeOf k.dst) k.dstRows else rangeLevels gid x.checked 0 0 1
/-- LEVEL of an operation. One that parks on a fault has 111 (`sampleParked`). -/
def opLevel (s : State) (gid : Nat) (f : Flight) : Nat :=
  let x := opBytes f.op
  pickLevel s (match f.op with
    | .bulk b => ((kvFind s.bulks b).map (bulkLevels gid)).getD []
    | .locks va n _ pages => [if locksKnown va n pages then 5 else 6]
    | .pin _ head _ => addrLevels gid head.toNat 64
    | _ => x.2.map (byteLevel gid x.1))
/-- A draw of the countdown: uniform over 1 to 2 PERIOD - 1. -/
def drawCount (s : State) (period : Nat) : Nat := Config.sampleDraw s.tick % (2 * 2 ^ period - 1) + 1
/-- The word at which the countdown reached zero is tagged. -/
def tagWord (s : State) (c q : Nat) (y : Sampler) (d : List Word) (gid : Nat) (op : Option Nat) : State :=
  let f := op.bind fun i => (findOp s gid i).map (·.2)
  let ws := match f with
    | some f => d.set 4 (BitVec.ofNat 32 ((if parkedFor s (isReqOf gid f) then 7 else opLevel s gid f) * 2 ^ 16))
    | none => d
  modCore s c fun x => { x with samp := kvPut x.samp q { y with hit := none, sample := some ws, fl := f.map fun f => (gid, f.id) } }
def execSampleTag (c q : Nat) (s : State) : Host.Outcome State Fault Refusal :=
  match kvFind (coreOf s c).samp q with
  | some y => .next (match y.hit with
    | some (d, g, op) => tagWord s c q y d g op
    | none => s)
  | none => .next s
/-- The tagged word is complete, or was abandoned. -/
def sampleReady (s : State) (c q : Nat) : Bool :=
  match kvFind (coreOf s c).samp q with
  | some y => y.sample.isSome && (match y.fl with
      | some (g, i) => (findOp s g i).isNone
      | none => true)
  | none => false
/-- A latency in array clocks, saturated (R279, log 22). -/
def latencyOf (s : State) (i : Nat) : Nat := min 65535 (Config.latency s.tick i)
/-- The record with its latencies; those of an abandoned word's later steps are 0. -/
def fillRecord (s : State) (ws : List Word) : List Word :=
  let late := (ws.getD 7 0).getLsbD 1
  let l (i : Nat) : Nat := if late then 0 else latencyOf s i
  [ws.getD 0 0, ws.getD 1 0, BitVec.ofNat 32 (latencyOf s 0 + latencyOf s 1 * 2 ^ 16), BitVec.ofNat 32 (latencyOf s 2 + l 3 * 2 ^ 16),
    ws.getD 4 0 ||| BitVec.ofNat 32 (l 4), ws.getD 5 0, ws.getD 6 0, ws.getD 7 0]
/-- The record goes into the ring of 64, or is dropped; the next countdown is drawn. -/
def writeSample (s : State) (c q : Nat) (y : Sampler) (ws : List Word) : State :=
  let next (m : Kv Sampler) : Kv Sampler :=
    if y.period = 0 then kvDel m q
    else kvPut m q { y with count := drawCount s y.period, sample := none, fl := none }
  let s1 := modCore s c fun x => { x with samp := next x.samp }
  if 64 ≤ s1.samples.length then count s1 c 13 1 else { s1 with samples := s1.samples ++ [fillRecord s ws] }
def execSampleRecordWrite (c q : Nat) (s : State) : Host.Outcome State Fault Refusal :=
  match kvFind (coreOf s c).samp q with
  | some y => .next (match y.sample with
    | some ws => if sampleReady s c q then writeSample s c q y ws else s
    | none => s)
  | none => .next s

/-! Gates of a replay (R286). -/

/-- The logged accesses an operation of a group still has to make. -/
def loggedBytes : FOp → Bool × List Nat
  | .acq ss _ a => (ssSp ss, [a])
  | .rel ss a _ => (ssSp ss, [a])
  | .atomic _ ss _ _ _ ls _ _ _ => (ssSp ss, ls.map fun x => x.2.1)
  | _ => (false, [])
/-- Banks that hold back an operation of a group. -/
def heldBanks (s : State) (gid : Nat) (g : Group) (f : Flight) : List (Nat × Nat × Nat) :=
  let x := loggedBytes f.op
  if f.done then []
  else ((x.2.map (groupLoc s g x.1)).filterMap fun l => if gateAdmits s (taskOf s g).cmd gid l then none else some (bankOf l)).eraseDups
/-- The waits at gates of a replayed command: group, operation, bank. -/
def gateWaits (s : State) (c : Nat) : List (Nat × Nat × (Nat × Nat × Nat)) :=
  (groupsOfCmd s c).flatMap fun g => g.2.flight.flatMap fun f => (heldBanks s g.1 g.2 f).map fun b => (g.1, f.id, b)
/-- The group that a bank's log names next has a request there. -/
def loggedArrived (s : State) (c : Nat) (b : Nat × Nat × Nat) : Bool :=
  match replaying s c with
  | none => true
  | some r =>
    match kvGet [] r.banks (bankKey b) with
    | e :: _ =>
      (match kvFind s.groups (e.toNat / 2 ^ 20) with
        | some g => g.flight.any fun f => !f.done && ((loggedBytes f.op).2.any fun a => bankOf (groupLoc s g (loggedBytes f.op).1 a) == b)
        | none => false)
    | [] => false
/-- A wait that is a divergence: the bank's log has no entry left, or it has lasted 2^20 clocks of the bank's core and the logged group
has not arrived (log 26). -/
def gateLate (s : State) (c : Nat) (r : Replaying) (e : Nat × Nat × (Nat × Nat × Nat)) : Bool :=
  let key := bankKey e.2.2
  (kvGet [] r.banks key).isEmpty ||
    (!loggedArrived s c e.2.2 && r.gates.any fun x => x.1 == e.1 && x.2.1 == e.2.1 && x.2.2.1 == key &&
      decide (2 ^ 20 ≤ ((coreOf s e.2.2.2.1).clk + 2 ^ 64 - x.2.2.2) % 2 ^ 64))
/-- The first such wait of a command: its group, and the entry it waits behind. -/
def gateTimedOut (s : State) (c : Nat) : Option (Nat × Word) :=
  match replaying s c with
  | none => none
  | some r => ((gateWaits s c).find? (gateLate s c r)).map fun e => (e.1, (kvGet [] r.banks (bankKey e.2.2)).headD 0)
/-- A wait with the clock since which it lasts. -/
def gateSince (s : State) (r : Replaying) (e : Nat × Nat × (Nat × Nat × Nat)) : Nat × Nat × Nat × Nat :=
  match r.gates.find? fun x => x.1 == e.1 && x.2.1 == e.2.1 && x.2.2.1 == bankKey e.2.2 with
  | some x => x
  | none => (e.1, e.2.1, bankKey e.2.2, (coreOf s e.2.2.2.1).clk)
/-- The waits at gates are kept with their clocks. -/
def noteGates (s : State) : State :=
  { s with cmds := s.cmds.map fun c => match replaying s c.1 with
      | none => c
      | some r => (c.1, { c.2 with repl := some { r with gates := (gateWaits s c.1).map (gateSince s r) } }) }
def execReplayGateTimeout (c : Nat) (s : State) : Host.Outcome State Fault Refusal :=
  match gateTimedOut s c with
  | some (g, e) => .next (diverge s c g (((kvFind s.groups g).map (·.evOrd)).getD 0) e (BitVec.ofNat 32 (g * 2 ^ 20 + 1)))
  | none => .next s

/-! What C6 reads for a debugger (R275, R277, R278, R282). Its reports have no format in the spec (log 25). -/

/-- A 48-bit or 64-bit count. -/
def countWords (n : Nat) : List Word := [BitVec.ofNat 32 n, BitVec.ofNat 32 (n / 2 ^ 32)]
/-- The sixteen event counters. -/
def counterWords (m : Kv Nat) : List Word := (List.range 16).flatMap fun i => countWords (kvGet 0 m i)
/-- A miss-handler entry: space and page, its kinds, whether a walker has it, whether its walk has faulted, its requests. -/
def missWords (m : Miss) : List Word :=
  [BitVec.ofNat 32 (m.sid + m.kind.toNat * 2 ^ 12 + (if m.walking then 2 ^ 15 else 0) + (if m.stuck then 2 ^ 16 else 0)),
    BitVec.ofNat 32 m.page, BitVec.ofNat 32 (m.page / 2 ^ 32), BitVec.ofNat 32 m.count]
/-- An entry of the version unit's table: key, running task, pins by slot. -/
def vatWords (e : Nat × Vat) : List Word :=
  countWords e.1 ++ [BitVec.ofNat 32 ((e.2.running.map (· + 1)).getD 0)] ++ (List.range 8).map fun i => BitVec.ofNat 32 (kvGet 0 e.2.pins i)
/-- What the power controller shows of itself: its registers, the measured power, the thermal limits. -/
def powerStatus (p : Power) (ns : Nat) (ballast : Bool) : List Word :=
  ((List.range 7).map (powerWordOf p ns ballast)) ++ (p.meas.map (BitVec.ofNat 32)) ++
    [BitVec.ofNat 32 ((if p.hold then 1 else 0) + (if p.floor then 2 else 0) + (if p.shutdown then 4 else 0) + p.rail * 2 ^ 4)]
/-- A list with its length before it. -/
def counted {α : Type} (l : List α) (k : α → List Word) : List Word := BitVec.ofNat 32 l.length :: l.flatMap k
/-- The latched registers: clocks, event counters, barriers, sequencers, groups, the translation units, queues, the version-unit table, the
power controller. -/
def snapWords (x : Snapshot) : List Word :=
  countWords x.ctl ++ (counted x.clocks fun e => BitVec.ofNat 32 e.1 :: countWords e.2) ++
  (counted x.evc fun e => BitVec.ofNat 32 e.1 :: counterWords e.2) ++
  (counted x.bars fun e => BitVec.ofNat 32 e.1 :: (List.range 16).flatMap fun n => barWords (kvGet noBar e.2 n)) ++
  (counted x.seqs fun e => BitVec.ofNat 32 e.1 :: (e.2.map seqWords).getD []) ++
  (counted x.groups fun e => BitVec.ofNat 32 (e.1 + (if e.2.2.1 then 2 ^ 12 else 0)) :: (e.2.1.map (BitVec.ofNat 32) ++
    counted e.2.2.2 recordImage)) ++
  (counted x.fltstat fun e => [BitVec.ofNat 32 e.1, e.2]) ++ (counted x.misses fun e => BitVec.ofNat 32 e.1 :: counted e.2 missWords) ++
  (counted x.queues fun e => [BitVec.ofNat 32 e.1, e.2.1, e.2.2]) ++ counted x.vats vatWords ++ powerStatus x.power x.ctl x.ballast
/-- One read; the counters may be cleared by it, the ring is drained, a tag fault record is kept no longer. -/
def c6Read (r : C6Read) (s : State) : State :=
  match r with
  | .counters c clear =>
    let s1 := countRamp s c
    let s2 := report s1 (counterWords (coreOf s1 c).evc)
    if clear then modCore s2 c fun x => { x with evc := [] } else s2
  | .samples => report { s with samples := [] } s.samples.flatten
  | .tagRecord sid =>
    let d := debugOf s sid
    report { s with debug := kvPut s.debug sid { d with tagRec := none } } (d.tagRec.getD (List.replicate 16 0))
  | .snapshot => report s ((s.snapshot.map snapWords).getD [])

end Sys2Proof.Machine
end

