-- ==== Sys2Proof/Machine/Firmware.lean ====
section
/-! DEFINITION. Mailboxes (16 R293, R295) and the requests to the firmware cores (R294 Table 16-9). -/
set_option Elab.async false
namespace Sys2Proof.Machine

/-! Mailboxes (Table 16-3). -/

def noBox : Mbox := { send := [], msgs := [], full := false }
def boxAt (s : State) (n : Nat) : Mbox := kvGet noBox s.mbox n
def setBox (s : State) (n : Nat) (b : Mbox) : State := { s with mbox := kvSet noBox s.mbox n b }
/-- SENDER of a master. -/
def senderOf : Master → Option Nat
  | .fw c => if c < 9 then some c else none
  | .host f => if f < 16 then some (16 + f) else none
  | .mgmt => some 32
  | _ => none
/-- The message that SEND holds, with its sender filled in; the reserved bits of word 0 take no write. -/
def sendWords (b : Mbox) (sender : Nat) : List Word :=
  BitVec.ofNat 32 ((kvGet 0 b.send 0).toNat % 2 ^ 8 + sender * 2 ^ 8) :: (List.range 7).map fun i => kvGet 0 b.send (i + 1)
/-- GO: a full mailbox refuses a host's send, and holds up a firmware core's. -/
def sendBox (s : State) (m : Master) (n : Nat) : State :=
  match senderOf m with
  | none => s
  | some x =>
    let b := boxAt s n
    if b.msgs.length < 8 then setBox s n { b with msgs := b.msgs ++ [sendWords b x] }
    else if x < 16 then s
    else setBox s n { b with full := true }
/-- A write of the mailbox block, as an access entry admits it (R300). -/
def boxWrite (s : State) (m : Master) (n off : Nat) (k : State → State) : State :=
  if 16 ≤ n then s else barWrite s m (0x15000 + 0x80 * n + off) 4 k
def execMboxSend (m : Master) (n : Nat) (s : State) : Host.Outcome State Fault Refusal :=
  .next (boxWrite s m n 32 fun x => sendBox x m n)
/-- The first message that waits for a mailbox, and the others. -/
def takeWaiting (n : Nat) : List (Nat × List Word) → Option (List Word × List (Nat × List Word))
  | [] => none
  | (b, m) :: r =>
    if b = n then some (m, r)
    else match takeWaiting n r with
      | some (x, t) => some (x, (b, m) :: t)
      | none => none
/-- The oldest message is discarded, and a message that waited for room takes its place (R295). -/
def popBox (s : State) (n : Nat) : State :=
  let b := boxAt s n
  let ms := b.msgs.drop 1
  match takeWaiting n s.trust.waiting with
  | some (m, r) =>
    if ms.length < 8 then setBox { s with trust := { s.trust with waiting := r } } n { b with msgs := ms ++ [m] }
    else setBox s n { b with msgs := ms }
  | none => setBox s n { b with msgs := ms }
def execMboxPop (m : Master) (n : Nat) (s : State) : Host.Outcome State Fault Refusal :=
  .next (boxWrite s m n 96 fun x => popBox x n)

/-! Requests (Table 16-8). -/

/-- A request: sender, tag, arguments (words 2 to 7). -/
structure FwReq where
  sender : Nat
  tag : Word
  args : List Word
def argN (r : FwReq) (i : Nat) : Nat := (r.args.getD i 0).toNat
/-- A 64-bit argument whose low half is argument i. -/
def argPair (r : FwReq) (i : Nat) : Nat := argN r i + argN r (i + 1) * 2 ^ 32
/-- The types a mailbox knows. -/
def boxTypes : Nat → List Nat
  | 0 => [3]
  | 2 => [1, 2]
  | 5 => [4]
  | 6 => [5, 6, 7, 8, 9, 10, 11, 12, 13, 14]
  | 7 => [15]
  | _ => []
/-- A core carries out the requests of its mailbox in order: C2 still has a SPACE DESTROY to answer (R295). -/
def boxBusy (s : State) (box : Nat) : Bool := box == 2 && !s.trust.destroys.isEmpty
/-- The oldest message of a mailbox, taken as a request of a type. `other` names the event that also takes what is no known
request there: a message of another core, which carries no request (log 25), and an unknown TYPE, which is malformed. -/
def serve (s : State) (box type : Nat) (other : Bool) (bad : FwReq → Bool) (k : FwReq → State → State) : State :=
  if s.trust.booted = false ∨ boxBusy s box = true then s
  else
    match (boxAt s box).msgs with
    | [] => s
    | m :: _ =>
      let w := (m.headD 0).toNat
      let r : FwReq := { sender := bitsOf w 8 8, tag := m.getD 1 0, args := m.drop 2 }
      let t := w % 2 ^ 8
      if r.sender < 16 then (if other then popBox s box else s)
      else if t = type then
        let s1 := popBox s box
        if w / 2 ^ 16 ≠ 0 ∨ bad r = true then answerFrom s1 box r.sender t r.tag 2 [] else k r s1
      else if other ∧ (boxTypes box).contains t = false then answerFrom (popBox s box) box r.sender t r.tag 2 []
      else s
/-- Arguments from i on are zero: they are not named, so they are reserved. -/
def spare (r : FwReq) (i : Nat) : Bool := (r.args.drop i).any fun w => w != 0
/-- Whether the requester owns a space. -/
def owns (s : State) (r : FwReq) (sid : Nat) : Bool := kvFind s.trust.owner sid == some r.sender

/-! C2, C0, C5, C7. -/

/-- The space a SPACE CREATE means: of SID 0 the lowest free one, where Table 16-9 says any (DESIGN CHOICE, log 124). -/
def spaceFor (s : State) (r : FwReq) : Option Nat :=
  let n := argN r 0
  if n = 0 then ((List.range 4096).drop 1).find? fun i => (kvFind s.trust.owner i).isNone
  else if (kvFind s.trust.owner n).isSome then none else some n
/-- A space-table entry (09 R172). What a firmware core reads and writes of HBM for a request asks for no access entry: R300 names no refusal
for it, and C2 builds tables before C5 has written one (DESIGN CHOICE, log 123). -/
def putSpace (s : State) (sid v : Nat) : State := writeBytes s (fun i => .hbm (s.spaceBase + 8 * sid + i)) (leBytes 8 v)
def createBad (r : FwReq) : Bool :=
  decide (2 ^ 12 ≤ argN r 0) || argPair r 1 % 2 ^ 16 != 0 || decide (Config.hbmEnd ≤ argPair r 1) || spare r 3
def execSpaceCreate (s : State) : Host.Outcome State Fault Refusal :=
  .next (serve s 2 1 true createBad fun r s =>
    match spaceFor s r with
    | none => answer s r.sender 1 r.tag 1 []
    | some n =>
      let s1 := putSpace s n (argPair r 1 + 1)
      answer { s1 with trust := { s1.trust with owner := kvPut s1.trust.owner n r.sender } } r.sender 1 r.tag 0 [BitVec.ofNat 32 n])
/-- The entry goes, an invalidation of the whole space starts; the reply follows its completion. -/
def execSpaceDestroy (s : State) : Host.Outcome State Fault Refusal :=
  .next (
    let full := decide (16 ≤ s.invs.length)
    -- the command processor waits for a place in the invalidation queue
    if full then s
    else serve s 2 2 false (fun r => decide (2 ^ 12 ≤ argN r 0) || spare r 1) fun r s =>
      let n := argN r 0
      if owns s r n = false ∨ (s.queues.any fun q => q.2.sid == n) = true then answer s r.sender 2 r.tag 1 []
      else
        let (i, s1) := startInval (putSpace s n 0) n 0 (2 ^ 55)
        { s1 with trust := { s1.trust with
            owner := kvDel s1.trust.owner n, destroys := s1.trust.destroys ++ [(i, r.sender, r.tag, n)] } })
/-- Queue 0 as QUEUE0 INIT gives it: PRIV 1; the spec gives its priority no value (log 11). -/
def queue0 (r : FwReq) : Queue :=
  { ring := argPair r 1, logn := bitsOf (argN r 0) 12 5, prio := 0, sid := argN r 0 % 2 ^ 12, priv := true, saveVA := argPair r 3,
    saveBytes := argN r 5, widx := 0, ridx := 0, door := false, held := none, opened := [], wait := none, destroying := none, log := none }
def queue0Bad (r : FwReq) : Bool :=
  let n := bitsOf (argN r 0) 12 5
  decide (2 ^ 17 ≤ argN r 0) || decide (n < 6 ∨ 16 < n) || argPair r 1 % (64 * 2 ^ n) != 0 || !mainOk (argPair r 1) || !mainOk (argPair r 3)
/-- The mailbox whose oldest message C0's event takes: 0, or one without requests, where every TYPE is unknown. -/
def strayBox (s : State) : Nat :=
  (([0, 1, 3, 4, 8].find? fun n => !(boxAt s n).msgs.isEmpty)).getD 0
def execQueue0Init (s : State) : Host.Outcome State Fault Refusal :=
  .next (
    let box := strayBox s
    -- no TYPE is known to a mailbox other than 0
    serve s box (if box = 0 then 3 else 256) true queue0Bad fun r s =>
      if s.trust.queue0 then answer s r.sender 3 r.tag 1 []
      else answer { s with queues := kvPut s.queues 0 (queue0 r), trust := { s.trust with queue0 := true } } r.sender 3 r.tag 0 [])
/-- An access entry from its words (Table 16-5). -/
def accOf (ws : List Word) : Acc :=
  let w := (ws.getD 4 0).toNat
  { base := pairNat ws 0, limit := pairNat ws 2, mtype := w % 2 ^ 3, mid := bitsOf w 3 12, tkind := bitsOf w 15 2,
    r := bitsOf w 17 1 == 1, w := bitsOf w 18 1 == 1, x := bitsOf w 19 1 == 1, valid := bitsOf w 20 1 == 1 }
/-- The words of an entry. -/
def accWords (e : Acc) : List Word :=
  [BitVec.ofNat 32 e.base, BitVec.ofNat 32 (e.base / 2 ^ 32), BitVec.ofNat 32 e.limit, BitVec.ofNat 32 (e.limit / 2 ^ 32),
    BitVec.ofNat 32 (e.mtype + e.mid * 2 ^ 3 + e.tkind * 2 ^ 15 + (if e.r then 2 ^ 17 else 0) + (if e.w then 2 ^ 18 else 0) +
      (if e.x then 2 ^ 19 else 0) + (if e.valid then 2 ^ 20 else 0)), 0, 0, 0]
def noAcc : Acc := { base := 0, limit := 0, mtype := 0, mid := 0, tkind := 0, r := false, w := false, x := false, valid := false }
def putAcc (s : State) (i : Nat) (e : Acc) : State := { s with acc := kvSet noAcc s.acc i e }
/-- A MID that names no function, peer or core. -/
def midBad (e : Acc) : Bool :=
  match e.mtype with
  | 1 => decide (16 ≤ e.mid)
  | 3 => decide (32 ≤ e.mid)
  | 4 => decide (9 ≤ e.mid)
  | _ => false
def accessBad (r : FwReq) : Bool := decide (2 ^ 12 ≤ argN r 0) || decide (2 ^ 21 ≤ argN r 5) || midBad (accOf (r.args.drop 1))
def execAccessWrite (s : State) : Host.Outcome State Fault Refusal :=
  .next (serve s 5 4 true accessBad fun r s =>
    let e := accOf (r.args.drop 1)
    if e.mtype = 0 ∧ owns s r e.mid = false then answer s r.sender 4 r.tag 1 []
    else answer (putAcc s (argN r 0) e) r.sender 4 r.tag 0 [])
/-- A receiver of Table 16-9. -/
def receiverOk (n : Nat) : Bool := decide (16 ≤ n ∧ n ≤ 32)
def execAssign (s : State) : Host.Outcome State Fault Refusal :=
  .next (serve s 7 15 true (fun r =>
      decide (2 ^ 13 ≤ argN r 0) || decide (argN r 0 % 2 ^ 4 < 9) || !receiverOk (bitsOf (argN r 0) 4 8) || spare r 1) fun r s =>
    if r.sender ≠ 32 then answer s r.sender 15 r.tag 1 []
    else
      let b := argN r 0 % 2 ^ 4
      let errs := bitsOf (argN r 0) 12 1 == 1
      let s1 := { s with trust := { s.trust with
        assign := kvPut s.trust.assign b (bitsOf (argN r 0) 4 8)
        errBox := if errs then some b else if s.trust.errBox = some b then none else s.trust.errBox } }
      answer s1 r.sender 15 r.tag 0 [])

/-! C6. -/

def execDebugEnable (s : State) : Host.Outcome State Fault Refusal :=
  .next (serve s 6 5 true (fun r => decide (2 ^ 13 ≤ argN r 0) || spare r 1) fun r s =>
    let sid := argN r 0 % 2 ^ 12
    if owns s r sid = false then answer s r.sender 5 r.tag 1 []
    else
      let d := debugOf s sid
      answer { s with debug := kvPut s.debug sid { d with enabled := bitsOf (argN r 0) 12 1 == 1 } } r.sender 5 r.tag 0 [])
/-- The log area of a request lies in the HDM window, at a multiple of 2,048. -/
def logBad (s : State) (r : FwReq) : Bool :=
  argPair r 1 % 2048 != 0 || decide (s.trust.hdm < argPair r 1 + argN r 3) || decide (Config.hbmEnd < argPair r 1 + argN r 3)
/-- An area is recorded into anew: what stood in it before is nobody's. -/
def newLog (s : State) (a : LogArea) : State :=
  { s with logOwners := s.logOwners.filter fun e => decide (e.1 < a.base ∨ a.base + a.bytes ≤ e.1) }
/-- RECORD and REPLAY. -/
def logRequest (s : State) (type : Nat) (replay : Bool) (r : FwReq) : State :=
  let q := argN r 0 % 2 ^ 12
  let start := bitsOf (argN r 0) 12 1 == 1
  match kvFind s.queues q with
  | none => answer s r.sender type r.tag 2 []
  | some x =>
    if owns s r x.sid = false then answer s r.sender type r.tag 1 []
    else if start && logBad s r then answer s r.sender type r.tag 2 []
    else
      let a : LogArea := { base := argPair r 1, bytes := argN r 3, used := 0, next := 0, replay := replay }
      answer (modQueue (if start && !replay then newLog s a else s) q fun y => { y with log := if start then some a else none }) r.sender type r.tag 0 []
def execRecord (s : State) : Host.Outcome State Fault Refusal :=
  .next (serve s 6 6 false (fun r => decide (2 ^ 13 ≤ argN r 0) || spare r 4) fun r s => logRequest s 6 false r)
def execReplay (s : State) : Host.Outcome State Fault Refusal :=
  .next (serve s 6 7 false (fun r => decide (2 ^ 13 ≤ argN r 0) || bitsOf (argN r 0) 12 1 == 0 || spare r 4) fun r s => logRequest s 7 true r)
/-- The clusters that a request names by a group; `n` bits of word 2 are used. -/
def unitNamed (s : State) (r : FwReq) : List (Nat × Cluster) :=
  match kvFind s.groups (argN r 0 % 2 ^ 12) with
  | some g => debugUnit s (teamOf s g).cluster (bitsOf (argN r 0) 12 1 == 1)
  | none => []
/-- A request about a unit: one that names no group is malformed. -/
def unitRequest (s : State) (type : Nat) (r : FwReq) (k : List (Nat × Cluster) → State) : State :=
  match unitNamed s r with
  | [] => answer s r.sender type r.tag 2 []
  | u => k u
def isAsked (c : Nat × Cluster) : Bool := (stopAsked c.2).isSome
def isStopped (c : Nat × Cluster) : Bool := c.2.stop == .stopped
/-- Its state stands: it is stopped, or its clocks are gated (15 R270, R273). -/
def isHeld (c : Nat × Cluster) : Bool := isStopped c || c.2.frozen
def isSaved (c : Nat × Cluster) : Bool :=
  match c.2.pre with
  | .saved _ _ => true
  | _ => false
def execStop (s : State) : Host.Outcome State Fault Refusal :=
  .next (serve s 6 8 false (fun r => decide (2 ^ 13 ≤ argN r 0) || spare r 1) fun r s => unitRequest s 8 r fun u =>
    if u.any isAsked then answer s r.sender 8 r.tag 3 []
    else
      let grid := bitsOf (argN r 0) 12 1 == 1
      u.foldl (fun x c => modCluster x c.1 fun y => { y with stop := .asked r.tag r.sender grid }) (haltUnit s u))
def execResume (s : State) : Host.Outcome State Fault Refusal :=
  .next (serve s 6 9 false (fun r => decide (2 ^ 13 ≤ argN r 0) || spare r 1) fun r s => unitRequest s 9 r fun u =>
    if u.any isAsked then answer s r.sender 9 r.tag 3 []
    else answer (u.foldl (fun x c => retireCluster x c.1) (resumeUnit s u)) r.sender 9 r.tag 0 [])
def execFreeze (s : State) : Host.Outcome State Fault Refusal :=
  .next (serve s 6 10 false (fun r => decide (2 ^ 14 ≤ argN r 0) || spare r 1) fun r s => unitRequest s 10 r fun u =>
    let thaw := bitsOf (argN r 0) 13 1 == 1
    let s1 := if thaw then u.foldl (fun x c => modCluster x c.1 fun y => { y with frozen := false }) s
      else u.foldl (fun x c => freezeCluster x c.1 0) s
    answer s1 r.sender 10 r.tag 0 [])
/-- The buffer of STATE READ and STATE WRITE. -/
def bufferBad (s : State) (r : FwReq) : Bool :=
  decide (s.trust.hdm < argPair r 1 + argN r 3) || decide (Config.hbmEnd < argPair r 1 + argN r 3)
/-- The image of a unit that stands, as far as the buffer holds it. -/
def readImage (s : State) (u : List (Nat × Cluster)) (r : FwReq) : State :=
  let k := (kvFind s.tasks ((u.head?.map (·.2.task)).getD 0)).getD noTask
  let img := (unitImage s k u).take (argN r 3)
  answer (writeBytes s (fun i => .hbm (argPair r 1 + i)) img) r.sender 11 r.tag 0 [BitVec.ofNat 32 img.length]
def execStateRead (s : State) : Host.Outcome State Fault Refusal :=
  .next (serve s 6 11 false (fun r => decide (2 ^ 13 ≤ argN r 0) || bufferBad s r || spare r 4) fun r s => unitRequest s 11 r fun u =>
    if u.any isSaved then answer s r.sender 11 r.tag 3 []
    else if u.all isHeld then readImage s u r
    else answer s r.sender 11 r.tag 1 [])
/-- An image written to a stopped unit waits for its resumption, with each of its clusters, behind those written before. -/
def writeImage (s : State) (u : List (Nat × Cluster)) (img : List Byte) : State :=
  (imageParts (img.take 64) u (img.drop 64, s)).foldl (fun x p => modCluster x p.1 fun y => { y with images := y.images ++ [p.2] }) s
def execStateWrite (s : State) : Host.Outcome State Fault Refusal :=
  .next (serve s 6 12 false (fun r => decide (2 ^ 13 ≤ argN r 0) || bufferBad s r || spare r 4) fun r s => unitRequest s 12 r fun u =>
    if u.any isSaved then answer s r.sender 12 r.tag 3 []
    else if u.all isStopped then
      answer (writeImage s u (readBytes s (fun i => .hbm (argPair r 1 + i)) (argN r 3))) r.sender 12 r.tag 0 []
    else answer s r.sender 12 r.tag 1 [])
/-- Words 0 to 3 of a watchpoint that break Table 15-2. -/
def watchBad (r : FwReq) : Bool :=
  let a := argPair r 1
  decide (2 ^ 15 ≤ argN r 0) || codeOf a == 3 || bitsOf a 55 3 != 0 || decide (2 ^ 60 ≤ a) || decide (2 ^ 30 < argN r 3) ||
    decide (4 ≤ argN r 4) || spare r 5
def execWatch (s : State) : Host.Outcome State Fault Refusal :=
  .next (serve s 6 13 false watchBad fun r s =>
    let sid := argN r 0 % 2 ^ 12
    if owns s r sid = false then answer s r.sender 13 r.tag 1 []
    else
      let d := debugOf s sid
      let w : Watch := { base := BitVec.ofNat 64 (argPair r 1), len := argN r 3, rd := bitsOf (argN r 4) 0 1 == 1, wr := bitsOf (argN r 4) 1 1 == 1 }
      answer { s with debug := kvPut s.debug sid { d with watch := kvPut d.watch (bitsOf (argN r 0) 12 3) w } } r.sender 13 r.tag 0 [])
def sampleBad (r : FwReq) : Bool :=
  let n := argN r 0
  bitsOf n 9 7 != 0 || decide (2 ^ 21 ≤ n) || (bitsOf n 8 1 == 1 && decide (bitsOf n 16 5 < 8 ∨ 20 < bitsOf n 16 5)) || spare r 1
/-- Sampling of a quadrant goes on or off; a record under way is still written. -/
def setSampling (s : State) (core quad period : Nat) (on : Bool) : State :=
  let old := kvFind (coreOf s core).samp quad
  let busy := (old.map fun y => y.hit.isSome || y.sample.isSome).getD false
  let y0 : Sampler := old.getD { period := 0, count := 0, hit := none, sample := none, fl := none }
  let next (m : Kv Sampler) : Kv Sampler :=
    if on then kvPut m quad { y0 with period := period, count := if busy then 0 else drawCount s period }
    else if busy then kvPut m quad { y0 with period := 0, count := 0 }
    else kvDel m quad
  modCore s core fun x => { x with samp := next x.samp }
def execSample (s : State) : Host.Outcome State Fault Refusal :=
  .next (serve s 6 14 false sampleBad fun r s =>
    let n := argN r 0
    answer (setSampling s (n % 2 ^ 6) (bitsOf n 6 2) (bitsOf n 16 5) (bitsOf n 8 1 == 1)) r.sender 14 r.tag 0 [])

end Sys2Proof.Machine
end

