-- ==== Sys2Proof/Machine/Mtx.lean ====
section
/-! DEFINITION. The MTX words (03 R56, 06): steps, slots, bindings, barriers and control of a team's matrix sequencer. -/
set_option Elab.async false
namespace Sys2Proof.Machine

/-! Words of a sequencer's stream (06 R114). -/

/-- What a word does. -/
inductive SEff
  /-- It is executed; the next word follows. -/
  | ok (s : State)
  /-- It is executed and control passes to an address (R118). -/
  | jump (s : State) (pc : Word)
  /-- The sequencer stays at the word: a step or slot of it is done, or it waits. -/
  | stay (s : State)
  /-- A sequencer fault before a step; 0 for any other word (05 R104). -/
  | fault (s : State) (c : Cause) (step : Nat)
  /-- It is executed and the sequencer is idle. -/
  | idle (s : State)

def modSeq (s : State) (tid : Nat) (f : Seq → Seq) : State := modTeam s tid fun t => { t with seq := t.seq.map f }
/-- An instruction word is counted toward the limit of R84; a clause header is not (DESIGN CHOICE, log 106). -/
def countWord (q : Seq) : Seq := { q with run := q.run.map (· + 1) }
/-- The word after. -/
def stepOver (q : Seq) : Seq :=
  { countWord q with
    pc := q.pc + 4, stepIdx := 0
    cl := match q.cl with
      | some (c, n) => some (c, n - 1)
      | none => none }
def seqFinish (tid : Nat) (pc : Word) : SEff → State
  | .ok s => modSeq s tid stepOver
  | .jump s a => modSeq s tid fun q => { countWord q with pc := a, cl := none, landed := true, jumped := true, stepIdx := 0 }
  | .stay s => s
  | .fault s c n => seqFault s tid c n pc
  | .idle s => retireTeam (seqIdle s tid) tid
/-- A word of a sequencer: its static limits (R343), its own meaning, what follows. -/
def seqWord (i : Instr) (s : State) (k : Nat → Team → Seq → SEff) : Host.Outcome State Fault Refusal :=
  match s.issue with
  | .seq tid _ =>
    match kvFind s.teams tid with
    | none => .fault .noIssuer
    | some t =>
      match t.seq with
      | none => .fault .noIssuer
      | some q =>
        .next { seqFinish tid q.pc (if wfErr i = none then k tid t q else .fault s .illegal 0) with issue := .none }
  | _ => .fault .noIssuer

/-! Slots and their holders (R110, R111, R117). -/

/-- The global ID of a group of the team. -/
def gidOf (t : Team) (i : Nat) : Nat := t.groups.getD i 0
/-- The group bound to slot n of a quadrant: its ID and state. -/
def accGroup (s : State) (tid : Nat) (t : Team) (q : Seq) (quad n : Nat) : Option (Nat × Group) :=
  match kvFind q.acc (8 * quad + n) with
  | none => none
  | some i => (teamGroup s tid (gidOf t i)).map fun g => (gidOf t i, g)
/-- Condition 1 of R117 for a list of slots. -/
def slotsBound (s : State) (tid : Nat) (t : Team) (q : Seq) (ns : List Nat) : Bool :=
  (List.range 4).all fun quad => ns.all fun n =>
    match accGroup s tid t q quad n with
    | some (_, g) => g.matrix && !g.exiting
    | none => false
/-- A holder of a quadrant that is neither exiting nor released. -/
def holder (s : State) (tid : Nat) (t : Team) (m : Kv Nat) (quad : Nat) : Option Group :=
  match kvFind m quad with
  | none => none
  | some i => (teamGroup s tid (gidOf t i)).filter fun g => !g.exiting
/-- Quadrants whose B-quarter the columns of n tiles use (R112). -/
def bQuads (n : Nat) : Nat := (32 * n + 23) / 24
/-- The checks of a step (R117). -/
def stepCheck (s : State) (tid : Nat) (t : Team) (q : Seq) (base n a b : Nat) : Option Cause :=
  let as := (List.range 4).map (holder s tid t q.ahold)
  let bs := (List.range (bQuads n)).map (holder s tid t q.bhold)
  let past (p : Nat) (h : Option Group) : Bool := (h.map fun g => decide (window g ≤ p + 1)).getD false
  let lent (p : Nat) (h : Option Group) : Bool := (h.map fun g => g.matrix && decide (32 ≤ p)).getD false
  if slotsBound s tid t q ((List.range n).map (base + ·)) = false then some .mode
  else if (as ++ bs).any Option.isNone then some .mode
  else if as.any (past a) || bs.any (past b) then some .regidx
  else if as.any (lent a) || bs.any (lent b) then some .mode
  else none

/-! Reads and writes (R114, R115). -/

/-- A register as the stream sees it: its last write not yet made, else what the group holds. -/
def seqReg (q : Seq) (gid : Nat) (g : Group) (pos l : Nat) : Word :=
  match q.writes.reverse.findSome? fun w => w.cells.findSome? fun c =>
      if c.1 = gid ∧ c.2.1 = pos ∧ c.2.2.1 = l then some c.2.2.2 else none with
  | some v => v
  | none => getPos g pos l
/-- A byte of a scale memory of the team's core, modulo its size. -/
def smByte (s : State) (t : Team) (quad a : Nat) : Nat := (readByte s (.sm (t.cores.headD 0) quad (a % 16384))).toNat
/-- The two words a holder's lane supplies. -/
def laneWords (g : Group) (r l : Nat) : Word × Word := (getV g r l, getV g (r + 1) l)
/-- What a step needs to know. -/
structure StepD where
  base : Nat
  n : Nat
  a : Nat
  b : Nat
  el : Elem
  spare : Bool
  scaled : Bool
  /-- Elements before this step, K·s. -/
  done : Nat
/-- Elements a lane supplies in a step (R112). -/
def perStep (el : Elem) : Nat := 64 / elemBits el
/-- Bytes of a scale entry. -/
def entryBytes (d : StepD) : Nat := if d.spare then 2 else 1
/-- Scale and spare byte of element k, in rows of a height (R115). -/
def scaleOf (s : State) (t : Team) (d : StepD) (quad ptr height r k : Nat) : Option (Nat × Nat) :=
  if d.scaled then
    let a := ptr + entryBytes d * (height * ((d.done + k) / 32) + r)
    some (smByte s t quad a, if d.spare then smByte s t quad (a + 1) else 0)
  else none
/-- The elements of a row and of a column. -/
def rowElems (s : State) (t : Team) (q : Seq) (d : StepD) (g : Group) (quad l : Nat) : List (Nat × FVal) :=
  let w := laneWords g d.a l
  (List.range (perStep d.el)).map fun k =>
    (elemAt d.el w.1 w.2 k, scaledElem d.el d.spare (elemAt d.el w.1 w.2 k) (scaleOf s t d quad q.pa 32 l k))
def colElems (s : State) (t : Team) (q : Seq) (d : StepD) (g : Group) (quad l : Nat) : List (Nat × FVal) :=
  let w := laneWords g d.b l
  (List.range (perStep d.el)).map fun k =>
    (elemAt d.el w.1 w.2 k, scaledElem d.el d.spare (elemAt d.el w.1 w.2 k) (scaleOf s t d quad q.pb 24 l k))
/-- One accumulated element. -/
def accumulate (el : Elem) (acc : Word) (x y : List (Nat × FVal)) : Word × BitVec 5 :=
  if el = .int8 then (stepI acc ((x.zip y).map fun p => (p.1.1, p.2.1)), 0)
  else stepF acc ((x.zip y).map fun p => (p.1.2, p.2.2))
/-- Every element of a step's result. -/
def stepWrite (s : State) (tid : Nat) (t : Team) (q : Seq) (d : StepD) : SeqWrite :=
  let cols := (List.range (32 * d.n)).map fun c =>
    match holder s tid t q.bhold (c / 24) with
    | some g => colElems s t q d g (c / 24) (c % 24)
    | none => []
  let rs := (List.range 4).flatMap fun quad =>
    match holder s tid t q.ahold quad with
    | none => []
    | some ga => (List.range 32).flatMap fun l =>
        let x := rowElems s t q d ga quad l
        cols.zipIdx.filterMap fun y =>
          match accGroup s tid t q quad (d.base + y.2 / 32) with
          | none => none
          | some (gid, g) =>
            let pos := g.wb + 32 + y.2 % 32
            let r := accumulate d.el (seqReg q gid g pos l) x y.1
            some ((gid, pos, l, r.1), r.2)
  { cells := rs.map (·.1), flags := rs.foldl (fun f r => f ||| r.2) 0 }
/-- A matrix clock of the core, and its write in the stream's order. -/
def matrixClock (s : State) (tid : Nat) (t : Team) (w : SeqWrite) (next : Nat) : State :=
  let core := t.cores.headD 0
  modSeq (coreIssues s core) tid fun q =>
    { q with writes := q.writes ++ [w], stepIdx := next }
/-- The format slot of an instruction. -/
def seqSlot (s : State) (t : Team) (f : BitVec 3) : Word := lrWord (taskOfTeam s t) (24 + f.toNat)
/-- `mma` and `mmas`: one step at a time (R115). -/
def stepsWord (i : Instr) (scaled : Bool) (base : BitVec 3) (n : BitVec 2) (a b : BitVec 6) (steps : BitVec 4) (f : BitVec 3)
    (s : State) : Host.Outcome State Fault Refusal :=
  seqWord i s fun tid t q =>
    let fw := seqSlot s t f
    let total := steps.toNat + 1
    match slotElem fw with
    | none => .fault s .illegal 0
    | some el =>
      let k := perStep el
      if scaled && (!slotScaled fw || k * total % 32 != 0) then .fault s .illegal 0
      else
        let j := q.stepIdx
        let d : StepD := { base := base.toNat, n := n.toNat, a := a.toNat + 2 * j, b := b.toNat + 2 * j, el := el,
                           spare := slotSpare fw, scaled := scaled, done := k * j }
        match stepCheck s tid t q d.base d.n d.a d.b with
        | some c => .fault s c j
        | none =>
          let s1 := count (matrixClock s tid t (stepWrite s tid t q d) (j + 1)) (t.cores.headD 0) 2 1
          if j + 1 < total then .stay s1
          else if scaled then
            let e := entryBytes d
            .ok (modSeq s1 tid fun x => { x with
              pa := (x.pa + e * 32 * (k * total) / 32) % 16384
              pb := (x.pb + e * 24 * (k * total) / 32) % 16384 })
          else .ok s1
/-- `mma`. -/
def execMma (base : BitVec 3) (n : BitVec 2) (a b : BitVec 6) (steps : BitVec 4) (f : BitVec 3) (s : State) :
    Host.Outcome State Fault Refusal :=
  stepsWord (.mma base n a b steps f) false base n a b steps f s
/-- `mmas`. -/
def execMmas (base : BitVec 3) (n : BitVec 2) (a b : BitVec 6) (steps : BitVec 4) (f : BitVec 3) (s : State) :
    Host.Outcome State Fault Refusal :=
  stepsWord (.mmas base n a b steps f) true base n a b steps f s

/-! Slots written whole (R116, R340). -/

/-- The cells of a slot in all quadrants, with the value of each. -/
def slotCells (s : State) (tid : Nat) (t : Team) (q : Seq) (n : Nat) (v : Nat → Nat → Nat → Word) :
    List (Nat × Nat × Nat × Word) :=
  (List.range 4).flatMap fun quad =>
    match accGroup s tid t q quad n with
    | none => []
    | some (gid, g) => (List.range 32).flatMap fun r => (List.range 32).map fun l => (gid, g.wb + 32 + r, l, v quad r l)
/-- `mzero`: one slot at a time. -/
def execMzero (base : BitVec 3) (n : BitVec 2) (s : State) : Host.Outcome State Fault Refusal :=
  seqWord (.mzero base n) s fun tid t q =>
    if slotsBound s tid t q ((List.range n.toNat).map (base.toNat + ·)) = false then .fault s .mode 0
    else
      let s1 := matrixClock s tid t
        { cells := slotCells s tid t q (base.toNat + q.stepIdx) fun _ _ _ => 0, flags := 0 } (q.stepIdx + 1)
      if q.stepIdx + 1 < n.toNat then .stay s1 else .ok s1
/-- `mcpy`: both slots are checked; a slot copied to itself then stays as it is (03 R44). -/
def execMcpy (d a : BitVec 3) (s : State) : Host.Outcome State Fault Refusal :=
  seqWord (.mcpy d a) s fun tid t q =>
    if slotsBound s tid t q [d.toNat, a.toNat] = false then .fault s .mode 0
    else if d = a then .ok s
    else
      let read (quad r l : Nat) : Word :=
        match accGroup s tid t q quad a.toNat with
        | some (gid, g) => seqReg q gid g (g.wb + 32 + r) l
        | none => 0
      .ok (matrixClock s tid t { cells := slotCells s tid t q d.toNat read, flags := 0 } 0)

/-! Bindings (R110, R345). -/

/-- Bind a group to a role. -/
def bindRole (r : MRole) (i : Nat) (q : Seq) : Seq :=
  match r with
  | .acc n => { q with acc := kvPut (q.acc.filter fun e => e.2 != i) (8 * (i % 4) + n.toNat) i }
  | .a => { q with ahold := kvPut q.ahold (i % 4) i }
  | .b => { q with bhold := kvPut q.bhold (i % 4) i }
/-- `mmap`. -/
def execMmap (r : MRole) (g : BitVec 6) (s : State) : Host.Outcome State Fault Refusal :=
  seqWord (.mmap r g) s fun tid t _ =>
    if t.groups.length ≤ g.toNat then .fault s .mode 0 else .ok (modSeq s tid (bindRole r g.toNat))

/-! Barriers and control (R118, R339, R341, R342, R348). -/

/-- `mbin`: every earlier write first. -/
def execMbin (n : BitVec 4) (s : State) : Host.Outcome State Fault Refusal :=
  seqWord (.mbin n) s fun tid _ q =>
    if q.writes.isEmpty then .ok (arriveEngine s tid n.toNat) else .stay (modSeq s tid fun x => { x with park := .writes })
/-- %fxen of group 0 as it stands; once group 0 has released, which the spec gives no value for, nothing is enabled (DESIGN CHOICE,
log 92). -/
def teamEnabled (s : State) (tid : Nat) (t : Team) : BitVec 5 :=
  match teamGroup s tid (gidOf t 0) with
  | some g => g.fxen
  | none => 0
/-- `mbwait`; with no group of the team left it faults at once (05 R84). -/
def execMbwait (n : BitVec 4) (s : State) : Host.Outcome State Fault Refusal :=
  seqWord (.mbwait n) s fun tid t q =>
    let b := barOf t n.toNat
    if q.run.isSome then .fault s .mode 0
    else if q.flags &&& teamEnabled s tid t != 0 then .fault s .fpx 0
    else if b.phase != q.sap.getLsbD n.toNat then .ok (modSeq s tid fun x => { x with sap := putBit x.sap n.toNat b.phase })
    else .ok (modSeq s tid fun x => { x with park := .bar n.toNat false })
/-- `mend`: every earlier write, then the team's flags go to group 0 and the sequencer is idle. -/
def execMend (s : State) : Host.Outcome State Fault Refusal :=
  seqWord .mend s fun tid t q =>
    if q.writes.isEmpty then
      let s1 := match teamGroup s tid (gidOf t 0) with
        | some g => if g.exiting then s else modGroup s (gidOf t 0) fun x => { x with fx := x.fx ||| q.flags }
        | none => s
      .idle (modSeq s1 tid fun x => { x with flags := 0 })
    else .stay (modSeq s tid fun x => { x with park := .writes })
/-- `mloop`. -/
def execMloop (k : BitVec 4) (o : BitVec 22) (s : State) : Host.Outcome State Fault Refusal :=
  seqWord (.mloop k o) s fun tid _ q =>
    let v := kvGet 0 q.k k.toNat - 1
    let s1 := modSeq s tid fun x => { x with k := kvSet 0 x.k k.toNat v }
    if v = 0 then .ok s1 else .jump s1 (q.pc + 4 * o.signExtend 32)
/-- `mjmp`. -/
def execMjmp (o : BitVec 22) (s : State) : Host.Outcome State Fault Refusal :=
  seqWord (.mjmp o) s fun _ _ q => .jump s (q.pc + 4 * o.signExtend 32)
/-- `mset`. -/
def execMset (d : MDst) (i : BitVec 16) (s : State) : Host.Outcome State Fault Refusal :=
  seqWord (.mset d i) s fun tid _ _ =>
    .ok (modSeq s tid fun x =>
      match d with
      | .k n => { x with k := kvSet 0 x.k n.toNat i }
      | .pa => { x with pa := i.toNat % 16384 }
      | .pb => { x with pb := i.toNat % 16384 })
/-- `mshare`. -/
def execMshare (v : BitVec 4) (s : State) : Host.Outcome State Fault Refusal :=
  seqWord (.mshare v) s fun tid _ _ => .ok (modSeq s tid fun x => { x with share := v.toNat })

/-! What the sequencer does by itself. -/

/-- Make the cells of a step. -/
def putCells : List (Nat × Nat × Nat × Word) → State → State
  | [], s => s
  | (gid, pos, l, v) :: r, s => putCells r (modGroup s gid fun g => setPos g pos l v)
/-- The clocks of a team's cores are gated (15 R273). -/
def teamFrozen (s : State) (t : Nat) : Bool := ((kvFind s.teams t).map (teamGated s)).getD false
/-- The oldest unwritten step writes, and its flags go to the team's (R114, R344): at this moment, so that an `mbwait` before it does not
find them. R103 gives a moment for variable-latency words and none for steps (DESIGN CHOICE, log 112). -/
def execMatrixStepWrite (t : Nat) (s : State) : Host.Outcome State Fault Refusal :=
  match (kvFind s.teams t).bind (·.seq) with
  | some q =>
    match q.writes with
    | w :: r => if teamFrozen s t then .next s
      else .next (retireTeam (modSeq (putCells w.cells s) t fun x => { x with writes := r, flags := x.flags ||| w.flags }) t)
    | [] => .next s
  | none => .next s
/-- 65,536 words after the last group became exiting, the sequencer stops before the next word (05 R84). -/
def execSequencerRunawayStop (t : Nat) (s : State) : Host.Outcome State Fault Refusal :=
  match (kvFind s.teams t).bind (·.seq) with
  | some q => if q.busy && !teamFrozen s t && ((q.run.map fun n => decide (65536 ≤ n)).getD false) then .next (seqFault s t .mode 0 q.pc) else .next s
  | none => .next s

end Sys2Proof.Machine
end

