-- ==== Sys2Proof/Machine/Shake.lean ====
section
/-! DEFINITION. SHAKE256 (16 R297), which makes digests and measurements: the public sponge of FIPS 202 over bytes. -/
set_option Elab.async false
namespace Sys2Proof.Machine

/-- Lane (x, y) of the 1,600-bit state stands at x + 5 y. -/
abbrev Sponge := List (BitVec 64)
def laneAt (a : Sponge) (x y : Nat) : BitVec 64 := a.getD (x % 5 + 5 * (y % 5)) 0
/-- A state given lane by lane. -/
def spongeOf (f : Nat → Nat → BitVec 64) : Sponge := (List.range 25).map fun i => f (i % 5) (i / 5)
/-- Rotations of the lanes. -/
def laneTurns : List Nat := [0, 1, 62, 28, 27, 36, 44, 6, 55, 20, 3, 10, 43, 25, 39, 41, 45, 15, 21, 8, 18, 2, 61, 56, 14]
def roundConstants : List (BitVec 64) :=
  [0x0000000000000001, 0x0000000000008082, 0x800000000000808A, 0x8000000080008000, 0x000000000000808B, 0x0000000080000001,
   0x8000000080008081, 0x8000000000008009, 0x000000000000008A, 0x0000000000000088, 0x0000000080008009, 0x000000008000000A] ++
  [0x000000008000808B, 0x800000000000008B, 0x8000000000008089, 0x8000000000008003, 0x8000000000008002, 0x8000000000000080,
   0x000000000000800A, 0x800000008000000A, 0x8000000080008081, 0x8000000000008080, 0x0000000080000001, 0x8000000080008008]
/-- The parities of the columns, turned into each lane. -/
def spongeTheta (a : Sponge) : Sponge :=
  let c := (List.range 5).map fun x => (List.range 5).foldl (fun p y => p ^^^ laneAt a x y) 0
  spongeOf fun x y => laneAt a x y ^^^ c.getD ((x + 4) % 5) 0 ^^^ (c.getD ((x + 1) % 5) 0).rotateLeft 1
/-- Each lane turned and moved. -/
def spongePi (a : Sponge) : Sponge :=
  spongeOf fun x y => (laneAt a (x + 3 * y) x).rotateLeft (laneTurns.getD ((x + 3 * y) % 5 + 5 * x) 0)
/-- Each lane with the two after it in its row. -/
def spongeChi (a : Sponge) : Sponge := spongeOf fun x y => laneAt a x y ^^^ (~~~(laneAt a (x + 1) y) &&& laneAt a (x + 2) y)
def spongeRound (a : Sponge) (k : BitVec 64) : Sponge :=
  match spongeChi (spongePi (spongeTheta a)) with
  | l :: r => (l ^^^ k) :: r
  | [] => []
def permute (a : Sponge) : Sponge := roundConstants.foldl spongeRound a
/-- Bytes as a lane, the first one lowest. -/
def laneOf (bs : List (BitVec 8)) : BitVec 64 := BitVec.ofNat 64 (bs.foldr (fun b n => b.toNat + 256 * n) 0)
/-- A block of 136 bytes is taken in. -/
def takeBlock (a : Sponge) (block : List (BitVec 8)) : Sponge :=
  permute (a.zipIdx.map fun e => if e.2 < 17 then e.1 ^^^ laneOf ((block.drop (8 * e.2)).take 8) else e.1)
/-- A message with its padding, as blocks. -/
def paddedBlocks (m : List (BitVec 8)) : List (List (BitVec 8)) :=
  let z := 135 - m.length % 136
  let p := if z = 0 then m ++ [0x9F] else m ++ 0x1F :: (List.replicate (z - 1) 0 ++ [0x80])
  (List.range (p.length / 136)).map fun i => (p.drop (136 * i)).take 136
/-- SHAKE256 with 512 bits out: byte i of the output is bits 8 i and up. -/
def shake256 (m : List (BitVec 8)) : BitVec 512 :=
  let a := (paddedBlocks m).foldl takeBlock (List.replicate 25 0)
  BitVec.ofNat 512 ((a.take 8).foldr (fun l n => l.toNat + 2 ^ 64 * n) 0)

end Sys2Proof.Machine
end

