-- ==== Sys2Proof/Machine/Trust.lean ====
section
/-! DEFINITION. Takeover and failure of firmware cores (16 R296), boot, measurement, attestation, hand-over (R297 to R299), errors and
resets (R302, R303). -/
set_option Elab.async false
namespace Sys2Proof.Machine

/-! Takeover (R296). -/

/-- Quickset takes over from C0, C1 or both. A decision and its effect are one step here, so every journal entry's effect is
present and is skipped; doorbells that would be latched are served when they come (log 21). -/
def execQuicksetTakeover (failed : List Nat) (s : State) : Host.Outcome State Fault Refusal :=
  .next (if s.trust.standbyUsed || failed.isEmpty || !failed.all (fun c => decide (c < 2)) then s
    else { s with trust := { s.trust with standbyUsed := true, failed := failed } })
/-- A later failure of a core ends every open command. -/
def execDeviceFailure (c : Nat) (s : State) : Host.Outcome State Fault Refusal :=
  .next (if s.trust.standbyUsed = false ∨ s.trust.deviceFailed = true ∨ 9 ≤ c then s
    else
      let s1 := { s with trust := { s.trust with deviceFailed := true, failed := c :: s.trust.failed } }
      let s2 := s1.cmds.foldl (fun x k => if k.2.launch then stopCmd x k.1 else x) s1
      tellMgmt (endAllOpen false s2) (10 + c))

/-! Measurement (R297). -/

def bytesOfBits (n : Nat) (v : BitVec (8 * n)) : List Byte := leBytes n v.toNat
/-- MR ← SHAKE256(MR ‖ digest ‖ security version). -/
def extendMr (mr digest : BitVec 512) (ver : Word) : BitVec 512 :=
  shake256 (leBytes 64 mr.toNat ++ leBytes 64 digest.toNat ++ leBytes 4 ver.toNat)
/-- The digest of the n-th image. -/
def digestOf (n : Nat) : BitVec 512 := shake256 (Config.image n)
/-- An image is accepted: its signature verifies and its version is at least the fused minimum. -/
def imageAccepted (fusedMin : Word) (n : Nat) : Bool :=
  Config.verify (digestOf n) (Config.signature n) && decide (fusedMin.toNat ≤ (Config.version n).toNat)
/-- Keys of host, CXL and peer memory, which no reset of the part touches. -/
def outside (c : Host.Cell) : Bool := decide (2 ^ 57 ≤ c.1)
/-- The peer table as C7 writes it at bring-up (R292). -/
def bringUpPeers : Kv (BitVec 12) := (List.range 32).map fun p => (p, Config.peerMask p)
/-- The part after a cold reset whose boot ends with these trust fields. -/
def coldState (s : State) (t : Trust) : State :=
  { State.reset with tick := s.tick, out := s.out, mem := s.mem.filter outside, trust := t }
/-- Cold reset: the boot ROM measures C5's image, then the bundle; a rejected image halts the boot, and the management port reports
it. Images 2 n and 2 n + 1 are those that the reset at tick n finds (log 21). -/
def coldReset (s : State) : State :=
  let a := 2 * s.tick
  let t0 := { Trust.reset with fusedMin := s.trust.fusedMin }
  let m0 := extendMr 0 (digestOf a) (Config.version a)
  let m1 := extendMr 0 (digestOf (a + 1)) (Config.version (a + 1))
  if imageAccepted t0.fusedMin a = false then tellMgmt (coldState s { t0 with halted := true }) 1
  else if imageAccepted t0.fusedMin (a + 1) = false then tellMgmt (coldState s { t0 with halted := true, mr0 := m0 }) 1
  else
    coldState s { t0 with
      booted := true, mr0 := m0, mr1 := m1, actver := Config.version (a + 1), layouts := Config.layouts (a + 1), peers := bringUpPeers }
/-- The images that a cold reset finds are accepted. -/
def boots (s : State) : Bool := imageAccepted s.trust.fusedMin (2 * s.tick) && imageAccepted s.trust.fusedMin (2 * s.tick + 1)
/-- A cold reset whose boot ends as it says; one that says otherwise has no occasion (log 19). -/
def execColdReset (ok : Bool) (s : State) : Host.Outcome State Fault Refusal := .next (if boots s = ok then coldReset s else s)

/-! Warm reset. -/

/-- A command's record is written, or refused with CRFAIL. -/
def recordNow (s : State) (c : Nat) : State :=
  let s0 := closeRecording s c
  match kvFind s0.cmds c with
  | none => s0
  | some x =>
    if x.cr = 0 then s0
    else
      let s1 := fillPages s0 x.sid (pagesOf x.cr 32)
      match hubAt s1 x.sid .write x.cr 32 with
      | .at_ ls => writeLocs ls (bytesOfWords (recordWords x)) s1
      | _ => errorRecord s1 8 0 x.sid 0 x.cr x.queue ((x.ending.map (·.status)).getD 6) x.seq
/-- Every command ends with ERROR and CAUSE 0, unless it has ended already. -/
def endAllNow (s : State) : State :=
  let s1 := endAllOpen false (haltAll s)
  s1.cmds.foldl (fun x c => recordNow x c.1) s1
/-- Keys of SP and SH, which a warm reset clears. -/
def inSpSh (c : Host.Cell) : Bool := decide (2 ^ 44 ≤ c.1 ∧ c.1 < 2 ^ 46)
/-- What a warm reset leaves: fused state, measurements, peer table, and what the spec dates from the cold reset: the number of the last
error record (log 27). -/
def warmTrust (t : Trust) : Trust :=
  { t with
    queue0 := false, waiting := [], journal := [], destroys := [], errRing := [] }
/-- The thermal limits go on with the junction's temperature, which a reset does not change; out of a thermal shutdown it is below both
(R303). -/
def warmPower (p : Power) : Power :=
  { Power.reset with
    hold := p.hold && !p.shutdown, floor := p.floor && !p.shutdown, capSeen := p.capSeen, nextUs := p.nextUs, nextBal := p.nextBal,
    nextInt := p.nextInt, begun := p.begun }
/-- Every register goes to its reset value (00 R5): the cores' clock counts too, which the spec dates from the cold reset without saying
more (DEDUCED, log 27). -/
def warmReset (s0 : State) : State :=
  let s := endAllNow s0
  holdBudgets { State.reset with
    tick := s.tick, nextId := s.nextId, pubs := s.pubs, out := s.out, ns := s.ns, mem := s.mem.filter (fun c => !inSpSh c)
    locks := s.locks, spaceBase := s.spaceBase
    dies := s.dies.map fun d => (d.1, { Die.reset with faultSeq := d.2.faultSeq })
    power := warmPower s.power, trust := warmTrust s.trust }
/-- Warm reset, requested through the management port; in thermal shutdown it is accepted once the junction is below 95 °C. -/
def execWarmReset (s : State) : Host.Outcome State Fault Refusal :=
  .next (if s.trust.booted = false ∨ (s.power.shutdown && !Config.cool s.tick) = true then s else warmReset s)

/-! Hand-over (R299). -/

/-- A bundle arrives and is verified: it becomes pending. -/
def takeBundle (s : State) : State :=
  let n := s.tick
  if s.trust.booted && imageAccepted s.trust.fusedMin n then
    { s with trust := { s.trust with
        pending := true, handover := true, pendver := Config.version n, pendLayouts := (Config.layouts n).take 9
        pendmr := extendMr s.trust.mr1 (digestOf n) (Config.version n) } }
  else s
def execFirmwareUpdate (s : State) : Host.Outcome State Fault Refusal := .next (takeBundle s)
/-- Commands that hold a save area. This part writes layout 1 (11 R228). -/
def savedCmds (s : State) : List Nat :=
  ((s.clusters.filter fun c => match c.2.pre with
    | .saved _ _ => true
    | _ => false).map fun c => ((kvFind s.tasks c.2.task).getD noTask).cmd).eraseDups
/-- A save area that the pending bundle neither writes nor converts. -/
def layoutsRefused (s : State) : Bool := !(savedCmds s).isEmpty && !s.trust.pendLayouts.contains 1
/-- The switch point is journaled, and the pending bundle is the active one (R299); the cores take it up at once. -/
def activate (s : State) : State :=
  let s1 := journal s 8 0 0 0
  let t := s1.trust
  { s1 with trust := { t with
      pending := false, handover := false, mr1 := t.pendmr, pendmr := 0, actver := t.pendver, pendver := 0, layouts := t.pendLayouts
      pendLayouts := [] } }
def execFirmwareActivate (s : State) : Host.Outcome State Fault Refusal :=
  .next (if s.trust.pending = false ∨ layoutsRefused s = true then s else activate s)
/-- A command completes with LAYOUT, and its save areas are freed. -/
def endLayout (s : State) (c : Nat) : State :=
  match kvFind s.cmds c with
  | none => s
  | some x =>
    if x.ending.isSome then s
    else
      let s1 := endVats (modCmd s c fun y => { y with ending := some { status := 5, cause := 0, tpc := 0, ggid := 0 } }) c
      stopCmd s1 c
def execManagementOverride (s : State) : Host.Outcome State Fault Refusal :=
  .next (if s.trust.pending = false then s
    else activate (if layoutsRefused s then (savedCmds s).foldl endLayout s else s))

/-! Reports (R298, R302). -/

/-- Table 16-4. -/
def attestation (s : State) (nonce : List Byte) : List Byte :=
  let t := s.trust
  let flags := (if t.handover then 1 else 0) + (if t.pending then 2 else 0) + (if List.any s.debug (fun d => d.2.enabled) then 4 else 0)
  (nonce ++ List.replicate 32 0).take 32 ++ leBytes 64 t.mr0.toNat ++ leBytes 64 t.mr1.toNat ++ leBytes 64 t.pendmr.toNat ++
    leBytes 4 flags ++ leBytes 4 t.actver.toNat ++ leBytes 4 t.pendver.toNat ++ List.replicate 20 0
/-- Words of bytes, the last filled with zeros. -/
def packWords (bs : List Byte) : List Word := wordsOf (bs ++ List.replicate 3 0)
/-- The report, and its signature after it. -/
def execAttestationRequest (nonce : List Byte) (s : State) : Host.Outcome State Fault Refusal :=
  .next (if s.trust.booted = false ∨ nonce.length ≠ 32 then s
    else reply s .mgmt (packWords (attestation s nonce ++ Config.sign (attestation s nonce))))
/-- Sensors: measured power in W, then the corrected errors by die and cause, as number and count (log 25). -/
def execPldmSensorRead (s : State) : Host.Outcome State Fault Refusal :=
  .next (reply s .mgmt (BitVec.ofNat 32 (s.power.meas.headD 0 / 1000) ::
    s.trust.soft.flatMap fun e => [BitVec.ofNat 32 e.1, BitVec.ofNat 32 e.2]))

/-! Errors (R302). -/

/-- Die and cause of an error source; the fabric and the links have no uncorrectable cause of their own, and count as SRAM
(log 29). -/
def sourceDie : ErrSource → Nat
  | .sram d _ => d
  | .hbm d _ => d
  | .fabric d => d
  | .link _ => 0
def sourceCause : ErrSource → Nat
  | .hbm _ _ => 2
  | _ => 1
/-- The number of a soft-error count. -/
def softKey : ErrSource → Nat
  | .sram d _ => 4 * d
  | .hbm d _ => 4 * d + 1
  | .fabric d => 4 * d + 2
  | .link p => 4 * (16 + p) + 3
/-- A load or atomic that still has to read the failing word: the 32-bit word of SH or SP at the address of the error (log 29). -/
def readsFailing (addr : Nat) (f : Flight) : Bool :=
  !f.done && (match f.op with
    | .vload _ _ _ _ => true
    | .sload _ _ _ => true
    | .acq _ _ _ => true
    | .atomic _ _ _ _ _ _ _ _ _ => true
    | _ => false) && (opBytes f.op).2.any fun a => a / 4 == addr / 4
/-- Loads and atomics of a group that would read the failing word: its data is not delivered, and nothing is written from it. The others
complete (11 R215). -/
def dropLoads (s : State) (gid addr : Nat) : State :=
  match kvFind s.groups gid with
  | none => s
  | some g => (g.flight.filter (readsFailing addr)).foldl (fun x f => opDone x gid f.id) s
/-- Space and group of the context that would consume the data. -/
def consumerOf (s : State) : Consumer → Nat × Nat
  | .nobody => (0, 0)
  | .group g => (((kvFind s.groups g).map (sidOf s)).getD 0, if (kvFind s.groups g).isSome then g else 0)
  | .bulk b => ((kvFind s.bulks b).map fun x => (x.sid, if x.kind = .hub then 0 else x.gid)).getD (0, 0)
  | .command c => (((kvFind s.cmds c).map (·.sid)).getD 0, 0)
/-- The context faults with ERROR, cause 0 and the consuming group; what would read the data is abandoned, so that none of it is
delivered. -/
def consumerFaults (s : State) (addr : Nat) : Consumer → State
  | .nobody => s
  | .group g =>
    match kvFind s.groups g with
    | some x => dropLoads (faultCmd s (taskOf s x).cmd { status := 6, cause := 0, tpc := 0, ggid := g }) g addr
    | none => s
  | .bulk b =>
    match kvFind s.bulks b with
    | some x =>
      let s1 := dropReqs { s with bulks := kvDel s.bulks b } b
      if x.kind = .hub then endCmd s1 x.cmd 6 0
      else opDone (faultCmd s1 x.cmd { status := 6, cause := 0, tpc := 0, ggid := x.gid }) x.gid x.fl
    | none => s
  | .command c =>
    match kvFind s.cmds c with
    | some x =>
      if x.launch then faultCmd s c { status := 6, cause := 0, tpc := 0, ggid := 0 }
      else endCmd { s with queues := s.queues.map fun q => (q.1, { q.2 with wait := q.2.wait.filter fun v => v.cmd != c }) } c 6 0
    | none => s
/-- An uncorrectable error: a record is made, the error triggers, the consuming context faults. -/
def uncorrectable (s : State) (src : ErrSource) (who : Consumer) (addr : Nat) : State :=
  let c := consumerOf s who
  consumerFaults (trigger (errorRecord s (sourceCause src) (sourceDie src) c.1 c.2 addr 0 0 0) 3 0) addr who
def execUncorrectableError (src : ErrSource) (who : Consumer) (addr : Nat) (s : State) : Host.Outcome State Fault Refusal :=
  .next (uncorrectable s src who addr)
/-- A corrected error is counted. -/
def execCorrectedSoftError (src : ErrSource) (s : State) : Host.Outcome State Fault Refusal :=
  .next { s with trust := { s.trust with soft := kvPut s.trust.soft (softKey src) (kvGet 0 s.trust.soft (softKey src) + 1) } }
/-- A port that fails three retrains is removed from every mask (R292). -/
def execPortRetrainFail (p : Nat) (s : State) : Host.Outcome State Fault Refusal :=
  .next { s with trust := { s.trust with removed := putBit s.trust.removed p true } }

end Sys2Proof.Machine
end

