-- ==== Sys2Proof/Machine/Regs.lean ====
section
/-! DEFINITION. Accesses from outside: the access table and the residency window (16 R300, 11 R223), every other register write
and read (00 R5, 16 R291 Table 16-2), the HDM window, requests of peers (16 R292). -/
set_option Elab.async false
namespace Sys2Proof.Machine

/-! ACCTAB (Table 16-5). INDEX selects an entry. Words written are held until word 8 is; the others read and commit as the entry
has them. -/

def isFw5 (m : Master) : Bool := m == .fw 5
/-- Selecting forgets words written and not committed. -/
def selectAcc (v : Word) (s : State) : State := { s with acctab := [(0, BitVec.ofNat 32 (v.toNat % 2 ^ 12))] }
def accIndex (s : State) : Nat := (kvGet 0 s.acctab 0).toNat
/-- Word i, 1 to 8, of the selected entry as the block shows it. -/
def accWord (s : State) (i : Nat) : Word :=
  (kvFind s.acctab i).getD ((accWords (kvGet noAcc s.acc (accIndex s))).getD (i - 1) 0)
/-- A write of word 8 commits the entry. -/
def commitAcc (s : State) : State :=
  putAcc { s with acctab := [(0, kvGet 0 s.acctab 0)] } (accIndex s) (accOf ((List.range 8).map fun i => accWord s (i + 1)))
/-- The writable bits of word i, 1 to 8, of the block: the reserved ones take no write (R4). -/
def accBits (i : Nat) (v : Word) : Word := if i < 5 then v else if i = 5 then v &&& 0x1FFFFF else 0
/-- Only C5 writes entries. -/
def execAcctab (m : Master) (_v : Word) (s : State) : Host.Outcome State Fault Refusal :=
  .next (barWrite s m 0x14020 4 fun x => if isFw5 m then commitAcc x else x)

/-! RESWIN (Table 11-11), in the same manner. -/

def isFw (m : Master) : Bool :=
  match m with
  | .fw c => decide (c < 9)
  | _ => false
/-- The image of a residency entry, with its V. -/
def resImage (valid : Bool) (e : Res) : List Word :=
  [BitVec.ofNat 32 e.va, BitVec.ofNat 32 (e.va / 2 ^ 32), BitVec.ofNat 32 (e.len + e.sid * 2 ^ 17 + if valid then 2 ^ 31 else 0),
    BitVec.ofNat 32 e.sp]
/-- The image of an index of a core's table: its entry, or what was last committed there without V. -/
def resShown (c : Core) (i : Nat) : List Word :=
  match kvFind c.res i with
  | some e => resImage true e
  | none => ((kvFind c.resOff i).map (resImage false)).getD []
def selectRes (v : Word) (s : State) : State := { s with reswin := [(0, BitVec.ofNat 32 (v.toNat % 2 ^ 16))] }
/-- CORE and INDEX. -/
def resIndex (s : State) : Nat × Nat := ((kvGet 0 s.reswin 0).toNat / 2 ^ 10, (kvGet 0 s.reswin 0).toNat % 2 ^ 10)
/-- Word i, 1 to 4, of the selected entry as the block shows it. -/
def resWord (s : State) (i : Nat) : Word :=
  (kvFind s.reswin i).getD ((resShown (coreOf s (resIndex s).1) (resIndex s).2).getD (i - 1) 0)
/-- The writable bits of a word of the image (Table 11-10). -/
def resBits (i : Nat) (v : Word) : Word :=
  match i with
  | 2 => v &&& 0x7FFFFF
  | 3 => v &&& 0x9FFFFFFF
  | 4 => v &&& 0x7FFFFFFF
  | _ => v
/-- The entry that the words hold, word 4 as it is written. -/
def resEntry (s : State) (v : Word) : Res :=
  let n (i : Nat) : Nat := (resWord s i).toNat
  { sid := bitsOf (n 3) 17 12, va := n 1 + n 2 * 2 ^ 32, len := n 3 % 2 ^ 17, sp := (resBits 4 v).toNat }
/-- `resadd` would refuse the entry, or put it in another core's table (08 R167). -/
def resBad (s : State) (core : Nat) (e : Res) : Bool :=
  resOut e.va e.len 256 || resSpOut s e.sid e.sp e.len || homeOf e.sp != core || !spGrants s e.sid e.sp (256 * e.len) .read
/-- The image commits. With V the entry is restored as `resadd` would, at its index, in place of another of the same space and VA;
what `resadd` refuses is not written (DEDUCED, log 97). Without V no entry is left at the index, and reads show the image. -/
def commitRes (v : Word) (s : State) : State :=
  let (core, i) := resIndex s
  let e := resEntry s v
  let s1 := { s with reswin := [(0, kvGet 0 s.reswin 0)] }
  if (resWord s 3).getLsbD 31 = false then modCore s1 core fun x => { x with res := kvDel x.res i, resOff := kvPut x.resOff i e }
  else if resBad s core e then s1
  else modCore s1 core fun x => { x with
    res := kvPut (x.res.filter fun y => !(y.2.sid == e.sid && y.2.va == e.va)) i e, resOff := kvDel x.resOff i }
/-- A write of word 4. Only the firmware cores may write. -/
def execReswin (m : Master) (v : Word) (s : State) : Host.Outcome State Fault Refusal :=
  .next (barWrite s m 0x13010 4 fun x => if isFw m then commitRes v x else x)

/-! Power registers (Tables 14-1 to 14-5). -/

/-- BOOSTCFG as written: RFLOOR is held in 1 to 24. -/
def boostcfgOf (v : Word) : Word :=
  let n := v.toNat
  BitVec.ofNat 32 (n % 2 ^ 9 + min 24 (max 1 (bitsOf n 16 5)) * 2 ^ 16 + bitsOf n 24 8 * 2 ^ 24)
/-- The five power registers by word of their block. -/
def writePower (i : Nat) (v : Word) (p : Power) : Power :=
  let n := v.toNat
  match i with
  | 0 => { p with limit := min 64 (bitsOf n 8 7) }
  | 1 => { p with boostcfg := boostcfgOf v }
  | 2 => { p with stagW := n % 2 ^ 4, stagT := bitsOf n 16 12 }
  | 3 => { p with ballEn := bitsOf n 0 1 == 1, ballDur := min 40 (bitsOf n 1 6), ballDrop := min 64 (max 1 (bitsOf n 8 7)) }
  | 4 => { p with fallback := clampCap (bitsOf n 16 13) }
  | _ => p

/-! Every other register write. -/

/-- The VPIN instance of a function: HEAD, then OP, SLOT and GO. -/
def writeVpin (m : Master) (i word : Nat) (v : Word) (s : State) : State :=
  let x := vpinOf s i
  match word with
  | 0 => setVpin s i { x with head := x.head.extractLsb' 32 32 ++ v }
  | 1 => setVpin s i { x with head := v ++ x.head.extractLsb' 0 32 }
  | 2 =>
    let s1 := setVpin s i { x with op := v.toNat % 4, slot := bitsOf v.toNat 2 3 }
    if v.getLsbD 31 then vpinGo s1 m i (v.toNat % 4) else s1
  | _ => s
/-- FLTBUF: a 1 in VALID of a slot's word 3 frees the slot. -/
def freeSlot (die slot : Nat) (s : State) : State := modDie s die fun d => { d with flt := kvDel d.flt slot }
def writeFltbuf (off : Nat) (v : Word) (s : State) : State :=
  if off % 0x20 = 12 ∧ v.getLsbD 31 = true then freeSlot (off / 0x100) (off % 0x100 / 0x20) s else s
def writeFltstat (die : Nat) (v : Word) (s : State) : State :=
  modDie s die fun d => { d with dropped := d.dropped && !v.getLsbD 8, replayFull := d.replayFull && !v.getLsbD 9 }
/-- INVRANGE words 0 to 3, whose reserved bits take no write, and word 4 with GO. -/
def writeInvrange (word : Nat) (v : Word) (s : State) : State :=
  if word < 4 then { s with invrange := kvSet 0 s.invrange word (if word % 2 = 1 then v &&& 0x7FFFFF else v) }
  else if word = 4 then goInvrange v s
  else s
/-- A mailbox: SEND, GO, POP, FULL. -/
def writeMbox (m : Master) (n word : Nat) (v : Word) (s : State) : State :=
  let b := boxAt s n
  if word < 8 then setBox s n { b with send := kvSet 0 b.send word v }
  else if word = 8 then (if v.getLsbD 0 then sendBox s m n else s)
  else if word = 24 then (if v.getLsbD 0 then popBox s n else s)
  else if word = 25 then setBox s n { b with full := b.full && !v.getLsbD 4 }
  else s
/-- A word of ACCTAB: INDEX by any that is admitted, the entry by C5 alone. -/
def writeAcctab (m : Master) (word : Nat) (v : Word) (s : State) : State :=
  if word = 0 then selectAcc v s
  else if isFw5 m = false then s
  else if word = 8 then commitAcc s
  else { s with acctab := kvPut s.acctab word (accBits word v) }
/-- A word of RESWIN. Every master that is admitted selects with word 0; only the firmware cores write an entry (R223; DESIGN CHOICE, log
119). -/
def writeReswin (m : Master) (word : Nat) (v : Word) (s : State) : State :=
  if word = 0 then selectRes v s
  else if isFw m = false then s
  else if word = 4 then commitRes v s
  else { s with reswin := kvPut s.reswin word (resBits word v) }
/-- The block at an offset of the main BAR (Table 16-2). -/
def writeBlock (m : Master) (off : Nat) (v : Word) (s : State) : State :=
  if 0x8100 ≤ off ∧ off < 0x8120 then
    (match m with
      | .host f => writeVpin m f ((off - 0x8100) / 4) v s
      | _ => s)
  else if 0x10000 ≤ off ∧ off < 0x11000 then writeFltbuf (off - 0x10000) v s
  else if 0x11000 ≤ off ∧ off < 0x11040 then writeFltstat ((off - 0x11000) / 4) v s
  else if 0x11040 ≤ off ∧ off < 0x11080 then
    (if v.getLsbD 0 then feedPort (replayDie s ((off - 0x11040) / 4)) ((off - 0x11040) / 4) else s)
  else if 0x11100 ≤ off ∧ off < 0x1111C then writeInvrange ((off - 0x11100) / 4) v s
  else if 0x12000 ≤ off ∧ off < 0x1201C then { s with power := writePower ((off - 0x12000) / 4) v s.power }
  else if 0x13000 ≤ off ∧ off < 0x13014 then writeReswin m ((off - 0x13000) / 4) v s
  else if off = 0x13100 then writeSnap v s
  else if 0x14000 ≤ off ∧ off < 0x14024 then writeAcctab m ((off - 0x14000) / 4) v s
  else if 0x15000 ≤ off ∧ off < 0x15800 then writeMbox m ((off - 0x15000) / 0x80) ((off - 0x15000) % 0x80 / 4) v s
  else s
/-- A 32-bit write of a register. -/
def registerWrite (m : Master) (off : Nat) (v : Word) (s : State) : State :=
  if off % 4 ≠ 0 ∨ off = 0x8000 then s else barWrite s m off 4 (writeBlock m off v)
def execRegisterWrite (m : Master) (off : Nat) (v : Word) (s : State) : Host.Outcome State Fault Refusal := .next (registerWrite m off v s)

/-! Register reads (00 R5, Table 16-2). -/

/-- A word of VPIN (12 Table 12-6). -/
def vpinWord (x : Vpin) (i : Nat) : Word :=
  match i with
  | 0 => x.head.setWidth 32
  | 1 => x.head.extractLsb' 32 32
  | 2 => BitVec.ofNat 32 (x.op + x.slot * 2 ^ 2)
  | 3 => x.seq
  | 4 => x.qual
  | 5 => BitVec.ofNat 32 (x.rslot + x.flags.toNat * 2 ^ 3 + (if x.done then 2 ^ 6 else 0) + (if x.err then 2 ^ 7 else 0))
  | _ => 0
/-- A word of a fault record (09 Table 9-5). -/
def fltWord (r : FltRec) (i : Nat) : Word :=
  match i with
  | 0 => BitVec.ofNat 32 (r.page * 2 ^ 16)
  | 1 => BitVec.ofNat 32 (r.page / 2 ^ 16)
  | 2 => BitVec.ofNat 32 (r.sid + r.kind.toNat * 2 ^ 12 + (if r.closed then 2 ^ 15 else 0) + r.count * 2 ^ 16)
  | 3 => BitVec.ofNat 32 (r.first + r.eng * 2 ^ 12 + r.level * 2 ^ 15 + 2 ^ 31)
  | 4 => r.seq
  | _ => 0
/-- A word of the FLTBUF blocks: a free slot reads as zero. -/
def fltbufWord (s : State) (off : Nat) : Word :=
  ((kvFind (dieOf s (off / 0x100)).flt (off % 0x100 / 0x20)).map fun r => fltWord r (off % 0x20 / 4)).getD 0
/-- A word of INVRANGE (09 Table 9-8); GO reads as zero. -/
def invrangeWord (s : State) (i : Nat) : Word :=
  if i < 5 then kvGet 0 s.invrange i else if i = 5 then s.invrangeSeq else s.invrangeErr.setWidth 32
/-- A core runs ballast. -/
def ballasting (s : State) : Bool := s.cores.any fun c => c.2.ramp.isSome
/-- A word of the power registers as they stand. -/
def powerWord (s : State) (i : Nat) : Word := powerWordOf s.power s.ns (ballasting s) i
/-- SNAPTRIG (15 Table 15-3). -/
def snaptrigWord (t : SnapTrig) : Word :=
  let b (x : Bool) (i : Nat) : Nat := if x then 2 ^ i else 0
  BitVec.ofNat 32 (b t.arm 0 + b t.latched 1 + b t.missed 2 + b t.eninsn 3 + b t.endebug 4 + b t.enerr 5 + b t.enhost 6 +
    t.ggid * 2 ^ 16 + t.src * 2 ^ 28)
/-- A word of a mailbox (16 Table 16-3): RECV, COUNT and FULL; the others are written only. -/
def mboxWord (b : Mbox) (i : Nat) : Word :=
  if 16 ≤ i ∧ i < 24 then (b.msgs.headD []).getD (i - 16) 0
  else if i = 25 then BitVec.ofNat 32 (b.msgs.length + (if b.full then 2 ^ 4 else 0))
  else 0
/-- The word of the main BAR at an offset; what no block holds, and what is only written, reads as zero. The access table is read by
physical function 0 and by C5, which writes it (R300). -/
def readBlock (m : Master) (off : Nat) (s : State) : Word :=
  if 0x8100 ≤ off ∧ off < 0x8120 then
    (match m with
      | .host f => vpinWord (vpinOf s f) ((off - 0x8100) / 4)
      | _ => 0)
  else if 0x10000 ≤ off ∧ off < 0x11000 then fltbufWord s (off - 0x10000)
  else if 0x11000 ≤ off ∧ off < 0x11040 then fltstat (dieOf s ((off - 0x11000) / 4))
  else if 0x11100 ≤ off ∧ off < 0x1111C then invrangeWord s ((off - 0x11100) / 4)
  else if off = 0x11120 then s.invDone
  else if 0x12000 ≤ off ∧ off < 0x1201C then powerWord s ((off - 0x12000) / 4)
  else if 0x13000 ≤ off ∧ off < 0x13014 then
    (if off = 0x13000 then kvGet 0 s.reswin 0 else resWord s ((off - 0x13000) / 4))
  else if off = 0x13100 then snaptrigWord s.snap
  else if 0x14000 ≤ off ∧ off < 0x14024 then
    (if m != .host 0 && !isFw5 m then 0 else if off = 0x14000 then kvGet 0 s.acctab 0 else accWord s ((off - 0x14000) / 4))
  else if 0x15000 ≤ off ∧ off < 0x15800 then mboxWord (boxAt s ((off - 0x15000) / 0x80)) ((off - 0x15000) % 0x80 / 4)
  else 0
/-- A 32-bit read of a register. A claim is a 64-bit read and has its own event; a read of half a QCLAIM claims nothing (log 98). -/
def barRead (s : State) (m : Master) (off : Nat) : State :=
  if linked s m = false then s
  else if off % 4 ≠ 0 ∨ barSees m off 4 = false then reply s m [0]
  else if barAdmits s m off 4 .read then reply s m [readBlock m off s]
  else reply (denied s off) m [0]

/-! The HDM window (R289, R300). -/

/-- HBM bytes at an address. -/
def hbmBytes (s : State) (a n : Nat) : List Byte := readBytes s (fun i => .hbm (a + i)) n
/-- A host read of as many bytes as `data` has, or a write of them. -/
def hdmAccess (f : Nat) (wr : Bool) (a : Nat) (data : List Byte) (s : State) : State :=
  let n := data.length
  if 16 ≤ f ∨ s.trust.hdm < a + n then (if wr then s else reply s (.host f) (packWords (List.replicate n 0)))
  else if admitted s (.host f) 1 a n (if wr then .write else .read) = false then
    (if wr then denied s a else reply (denied s a) (.host f) (packWords (List.replicate n 0)))
  else if wr then writeBytes s (fun i => .hbm (a + i)) data
  else reply s (.host f) (packWords (hbmBytes s a n))
def execHdmAccess (f : Nat) (wr : Bool) (addr : Nat) (data : List Byte) (s : State) : Host.Outcome State Fault Refusal :=
  .next (if linked s (.host f) then hdmAccess f wr addr data s else s)

/-! Peers (R292, R206, R209, R248). -/

/-- An access of a peer to device-physical HBM is admitted. -/
def peerAdmitted (s : State) (p a n : Nat) (k : AKind) : Bool := decide (a + n ≤ Config.hbmEnd) && admitted s (.peer p) 1 a n k
/-- A peer's 64-bit atomic at HBM, which answers the old value. -/
def peerAtomic (s : State) (p a op : Nat) (v cmp : BitVec 64) : State :=
  let ls := (List.range 8).map fun i => Loc.hbm (a + i)
  if peerAdmitted s p a 8 .read && peerAdmitted s p a 8 .write then
    let old := readPair s ls
    reply (signalDo s op ls [] v cmp) (.peer p) [old.extractLsb' 0 32, old.extractLsb' 32 32]
  else reply (denied s a) (.peer p) [0, 0]
/-- One request of a peer. -/
def peerRequest (s : State) (p : Nat) (r : PeerReq) : State :=
  match r with
  | .read a n =>
    if peerAdmitted s p a n .read then reply s (.peer p) (packWords (hbmBytes s a n))
    else reply (denied s a) (.peer p) (packWords (List.replicate n 0))
  | .write a bs => if peerAdmitted s p a bs.length .write then writeBytes s (fun i => .hbm (a + i)) bs else denied s a
  | .atomic a op v cmp => peerAtomic s p a op v cmp
  | .claim q => if admitted s (.peer p) 2 q 1 .write then claimBy s (.peer p) q else reply (denied s (8 * q)) (.peer p) [0, 0]
  | .doorbell q => if admitted s (.peer p) 2 q 1 .write then ring s q else denied s 0x8000
  | .vpin port word v => if port < 12 then writeVpin (.peer p) (16 + port) word v s else s
  | .vpinRead port word => reply s (.peer p) [if port < 12 then vpinWord (vpinOf s (16 + port)) word else 0]
def execPeerRequest (p : Nat) (r : PeerReq) (s : State) : Host.Outcome State Fault Refusal :=
  .next (if 32 ≤ p then s else peerRequest s p r)

end Sys2Proof.Machine
end

