-- ==== Sys2Proof/Machine/Scalar.lean ====
section
/-! DEFINITION. The SRR and SRI words (03 R46, R47, 18 R358): each reads s(sa), and s(sb) or its immediate, and writes s(sd). -/
set_option Elab.async false
namespace Sys2Proof.Machine

/-- A comparison's result. -/
def truth (b : Bool) : Word := if b then 1 else 0
/-- Shift amounts are taken from b[4:0] (R46). -/
def shiftCount (b : Word) : Nat := (b.extractLsb' 0 5).toNat
/-- The high word of a product. -/
def mulHighI (a b : Word) : Word := (a.signExtend 64 * b.signExtend 64).extractLsb' 32 32
def mulHighN (a b : Word) : Word := (a.setWidth 64 * b.setWidth 64).extractLsb' 32 32
/-- An SRR word: s(sd) ← f(s(sa), s(sb)). -/
def srrWord (i : Instr) (d a b : BitVec 9) (f : Word → Word → Word) (s : State) : Host.Outcome State Fault Refusal :=
  word i s fun c => onGroup s c fun g => setS g d.toNat (f (getS g a.toNat) (getS g b.toNat))
/-- An SRI word: s(sd) ← f(s(sa)). -/
def sriWord (i : Instr) (d a : BitVec 9) (f : Word → Word) (s : State) : Host.Outcome State Fault Refusal :=
  word i s fun c => onGroup s c fun g => setS g d.toNat (f (getS g a.toNat))
/-- imm9 sign-extended (R358). -/
def imm9 (n : BitVec 9) : Word := n.signExtend 32

/-- a + b. -/
def execSadd (d a b : BitVec 9) (s : State) : Host.Outcome State Fault Refusal :=
  srrWord (.sadd d a b) d a b (fun a b => a + b) s
/-- a − b. -/
def execSsub (d a b : BitVec 9) (s : State) : Host.Outcome State Fault Refusal :=
  srrWord (.ssub d a b) d a b (fun a b => a - b) s
/-- a·b, low 32 bits. -/
def execSmul (d a b : BitVec 9) (s : State) : Host.Outcome State Fault Refusal :=
  srrWord (.smul d a b) d a b (fun a b => a * b) s
/-- bits [63:32] of the signed product. -/
def execSmulhiI (d a b : BitVec 9) (s : State) : Host.Outcome State Fault Refusal :=
  srrWord (.smulhiI d a b) d a b (fun a b => mulHighI a b) s
/-- bits [63:32] of the unsigned product. -/
def execSmulhiN (d a b : BitVec 9) (s : State) : Host.Outcome State Fault Refusal :=
  srrWord (.smulhiN d a b) d a b (fun a b => mulHighN a b) s
/-- a AND b. -/
def execSand (d a b : BitVec 9) (s : State) : Host.Outcome State Fault Refusal :=
  srrWord (.sand d a b) d a b (fun a b => a &&& b) s
/-- a OR b. -/
def execSor (d a b : BitVec 9) (s : State) : Host.Outcome State Fault Refusal :=
  srrWord (.sor d a b) d a b (fun a b => a ||| b) s
/-- a XOR b. -/
def execSxor (d a b : BitVec 9) (s : State) : Host.Outcome State Fault Refusal :=
  srrWord (.sxor d a b) d a b (fun a b => a ^^^ b) s
/-- a << b[4:0]. -/
def execSshl (d a b : BitVec 9) (s : State) : Host.Outcome State Fault Refusal :=
  srrWord (.sshl d a b) d a b (fun a b => a <<< shiftCount b) s
/-- a >> b[4:0], zeros in. -/
def execSshr (d a b : BitVec 9) (s : State) : Host.Outcome State Fault Refusal :=
  srrWord (.sshr d a b) d a b (fun a b => a >>> shiftCount b) s
/-- a >> b[4:0], sign copies in. -/
def execSsra (d a b : BitVec 9) (s : State) : Host.Outcome State Fault Refusal :=
  srrWord (.ssra d a b) d a b (fun a b => a.sshiftRight (shiftCount b)) s
/-- signed minimum. -/
def execSminI (d a b : BitVec 9) (s : State) : Host.Outcome State Fault Refusal :=
  srrWord (.sminI d a b) d a b (fun a b => if a.slt b then a else b) s
/-- signed maximum. -/
def execSmaxI (d a b : BitVec 9) (s : State) : Host.Outcome State Fault Refusal :=
  srrWord (.smaxI d a b) d a b (fun a b => if a.slt b then b else a) s
/-- 1 if a = b, else 0. -/
def execSeq (d a b : BitVec 9) (s : State) : Host.Outcome State Fault Refusal :=
  srrWord (.seq d a b) d a b (fun a b => truth (a == b)) s
/-- 1 if a < b signed, else 0. -/
def execSltI (d a b : BitVec 9) (s : State) : Host.Outcome State Fault Refusal :=
  srrWord (.sltI d a b) d a b (fun a b => truth (a.slt b)) s
/-- 1 if a < b unsigned, else 0. -/
def execSltN (d a b : BitVec 9) (s : State) : Host.Outcome State Fault Refusal :=
  srrWord (.sltN d a b) d a b (fun a b => truth (a.ult b)) s
/-- a + i; i is imm9 sign-extended. -/
def execSaddi (d a n : BitVec 9) (s : State) : Host.Outcome State Fault Refusal :=
  sriWord (.saddi d a n) d a (fun a => a + imm9 n) s
/-- i − a; i is imm9 sign-extended. -/
def execSrsubi (d a n : BitVec 9) (s : State) : Host.Outcome State Fault Refusal :=
  sriWord (.srsubi d a n) d a (fun a => imm9 n - a) s
/-- a·i, low 32 bits; i is imm9 sign-extended. -/
def execSmuli (d a n : BitVec 9) (s : State) : Host.Outcome State Fault Refusal :=
  sriWord (.smuli d a n) d a (fun a => a * imm9 n) s
/-- a AND i; i is imm9 sign-extended. -/
def execSandi (d a n : BitVec 9) (s : State) : Host.Outcome State Fault Refusal :=
  sriWord (.sandi d a n) d a (fun a => a &&& imm9 n) s
/-- a OR i; i is imm9 sign-extended. -/
def execSori (d a n : BitVec 9) (s : State) : Host.Outcome State Fault Refusal :=
  sriWord (.sori d a n) d a (fun a => a ||| imm9 n) s
/-- a XOR i; i is imm9 sign-extended. -/
def execSxori (d a n : BitVec 9) (s : State) : Host.Outcome State Fault Refusal :=
  sriWord (.sxori d a n) d a (fun a => a ^^^ imm9 n) s
/-- 1 if a = i, else 0; i is imm9 sign-extended. -/
def execSeqi (d a n : BitVec 9) (s : State) : Host.Outcome State Fault Refusal :=
  sriWord (.seqi d a n) d a (fun a => truth (a == imm9 n)) s
/-- 1 if a < i signed, else 0; i is imm9 sign-extended. -/
def execSltiI (d a n : BitVec 9) (s : State) : Host.Outcome State Fault Refusal :=
  sriWord (.sltiI d a n) d a (fun a => truth (a.slt (imm9 n))) s
/-- 1 if a < i unsigned, else 0; i is imm9 sign-extended. -/
def execSltiN (d a n : BitVec 9) (s : State) : Host.Outcome State Fault Refusal :=
  sriWord (.sltiN d a n) d a (fun a => truth (a.ult (imm9 n))) s
/-- signed minimum of a and i; i is imm9 sign-extended. -/
def execSminiI (d a n : BitVec 9) (s : State) : Host.Outcome State Fault Refusal :=
  sriWord (.sminiI d a n) d a (fun a => if a.slt (imm9 n) then a else imm9 n) s
/-- signed maximum of a and i; i is imm9 sign-extended. -/
def execSmaxiI (d a n : BitVec 9) (s : State) : Host.Outcome State Fault Refusal :=
  sriWord (.smaxiI d a n) d a (fun a => if a.slt (imm9 n) then imm9 n else a) s
/-- a << n; n is imm9 unsigned. -/
def execSshli (d a i : BitVec 9) (s : State) : Host.Outcome State Fault Refusal :=
  sriWord (.sshli d a i) d a (fun a => a <<< i.toNat) s
/-- a >> n, zeros in; n is imm9 unsigned. -/
def execSshri (d a i : BitVec 9) (s : State) : Host.Outcome State Fault Refusal :=
  sriWord (.sshri d a i) d a (fun a => a >>> i.toNat) s
/-- a >> n, sign copies in; n is imm9 unsigned. -/
def execSsrai (d a i : BitVec 9) (s : State) : Host.Outcome State Fault Refusal :=
  sriWord (.ssrai d a i) d a (fun a => a.sshiftRight i.toNat) s
/-- (a >> pos) AND (2^(len + 1) − 1): the field of len + 1 bits from bit pos, zero-extended. -/
def execSbfx (d a : BitVec 9) (pos : BitVec 5) (len : BitVec 4) (s : State) : Host.Outcome State Fault Refusal :=
  sriWord (.sbfx d a pos len) d a (fun a => (a >>> pos.toNat) &&& BitVec.ofNat 32 (2 ^ (len.toNat + 1) - 1)) s

end Sys2Proof.Machine
end

