-- ==== Sys2Proof/Machine/Vec.lean ====
section
/-! DEFINITION. The VEC words (03 R50 to R53, 19 R371 to R386), each within the vector frame. -/
set_option Elab.async false
namespace Sys2Proof.Machine

/-! Shapes. -/

/-- A word that reads va and vb in each lane and writes vd. -/
def binWord (i : Instr) (p : Option Pfx) (x : Ix) (d a : BitVec 6) (b : VB) (op : RMode → Word → Word → Word × BitVec 5)
    (s : State) : Host.Outcome State Fault Refusal :=
  vecWord i s (fun g => [vname g d (ixVd x), vname g a (ixVa x)] ++ vbNames b) fun f g =>
    frame f p (vname g d (ixVd x)) (fun l => op (roundingMode g p) (getN g (vname g a (ixVa x)) l) (getVB g b l)) g
/-- A word that reads va. -/
def unWord (i : Instr) (p : Option Pfx) (x : Ix) (d a : BitVec 6) (op : RMode → Word → Word × BitVec 5) (s : State) :
    Host.Outcome State Fault Refusal :=
  vecWord i s (fun g => [vname g d (ixVd x), vname g a (ixVa x)]) fun f g =>
    frame f p (vname g d (ixVd x)) (fun l => op (roundingMode g p) (getN g (vname g a (ixVa x)) l)) g
/-- A result that raises no flag. -/
def plain (w : Word) : Word × BitVec 5 := (w, 0)

/-! Arithmetic (R373, Table 19-6). -/

/-- An operation by element type: floating-point values of a format, or integers modulo 2^k. -/
def elem2 (t : VT) (fop : Fmt → FVal → FVal → Nat × BitVec 5) (iop : Int → Int → Int) (a b : Nat) : Nat × BitVec 5 :=
  match typeFmt t with
  | some f => fop f (decodeF f a) (decodeF f b)
  | none => (wrapElem t (iop (elemInt t a) (elemInt t b)), 0)
/-- a + b. -/
def execVadd (p : Option Pfx) (t : VT) (x : Ix) (d a : BitVec 6) (b : VB) (s : State) : Host.Outcome State Fault Refusal :=
  binWord (.vadd p t x d a b) p x d a b (fun m => lane2 t (elem2 t (fun f => addF f m) (· + ·))) s
/-- a − b. -/
def execVsub (p : Option Pfx) (t : VT) (x : Ix) (d a : BitVec 6) (b : VB) (s : State) : Host.Outcome State Fault Refusal :=
  binWord (.vsub p t x d a b) p x d a b (fun m => lane2 t (elem2 t (fun f => subF f m) (· - ·))) s
/-- a · b. -/
def execVmul (p : Option Pfx) (t : VT) (x : Ix) (d a : BitVec 6) (b : VB) (s : State) : Host.Outcome State Fault Refusal :=
  binWord (.vmul p t x d a b) p x d a b (fun m => lane2 t (elem2 t (fun f => prodF f m) (· * ·))) s
/-- The addend of `vfma`: vc under VCE, else vd. -/
def addend (g : Group) (p : Option Pfx) (x : Ix) (d : BitVec 6) : Int :=
  match p.bind (·.vc) with
  | some v => vname g v false
  | none => vname g d (ixVd x)
/-- One element of `vfma`. -/
def fmaElem (t : VT) (m : RMode) (a b c : Nat) : Nat × BitVec 5 :=
  match typeFmt t with
  | some f => fmaF f m (decodeF f a) (decodeF f b) (decodeF f c)
  | none => (0, 0)
/-- a · b + c, one rounding. -/
def execVfma (p : Option Pfx) (t : VT) (x : Ix) (d a : BitVec 6) (b : VB) (s : State) : Host.Outcome State Fault Refusal :=
  vecWord (.vfma p t x d a b) s (fun g => [vname g d (ixVd x), vname g a (ixVa x), addend g p x d] ++ vbNames b) fun f g =>
    frame f p (vname g d (ixVd x)) (fun l =>
      lane3 t (fmaElem t (roundingMode g p)) (getN g (vname g a (ixVa x)) l) (getVB g b l) (getN g (addend g p x d) l)) g
/-- The smaller or the larger element. -/
def pickElem (t : VT) (big : Bool) (a b : Nat) : Nat × BitVec 5 :=
  match typeFmt t with
  | some f => pickF f big [a, b]
  | none => (if decide (elemInt t a < elemInt t b) ^^ big then a else b, 0)
/-- Minimum. -/
def execVmin (p : Option Pfx) (t : VT) (x : Ix) (d a : BitVec 6) (b : VB) (s : State) : Host.Outcome State Fault Refusal :=
  binWord (.vmin p t x d a b) p x d a b (fun _ => lane2 t (pickElem t false)) s
/-- Maximum. -/
def execVmax (p : Option Pfx) (t : VT) (x : Ix) (d a : BitVec 6) (b : VB) (s : State) : Host.Outcome State Fault Refusal :=
  binWord (.vmax p t x d a b) p x d a b (fun _ => lane2 t (pickElem t true)) s
/-- The sign bit cleared, or the absolute value modulo 2^k. -/
def absElem (t : VT) (a : Nat) : Nat × BitVec 5 :=
  match typeFmt t with
  | some f => (a % f.signW, 0)
  | none => (wrapElem t (elemInt t a).natAbs, 0)
/-- Absolute value. -/
def execVabs (p : Option Pfx) (t : VT) (x : Ix) (d a : BitVec 6) (s : State) : Host.Outcome State Fault Refusal :=
  unWord (.vabs p t x d a) p x d a (fun _ => lane1 t (absElem t)) s
/-- The sign bit inverted, or (0 − a) modulo 2^k. -/
def negElem (t : VT) (a : Nat) : Nat × BitVec 5 :=
  match typeFmt t with
  | some f => ((a + f.signW) % (2 * f.signW), 0)
  | none => (wrapElem t (-elemInt t a), 0)
/-- Negation. -/
def execVneg (p : Option Pfx) (t : VT) (x : Ix) (d a : BitVec 6) (s : State) : Host.Outcome State Fault Refusal :=
  unWord (.vneg p t x d a) p x d a (fun _ => lane1 t (negElem t)) s
/-- Bits [2k−1:k] of the product. -/
def execVmulhi (p : Option Pfx) (t : VT) (x : Ix) (d a : BitVec 6) (b : VB) (s : State) : Host.Outcome State Fault Refusal :=
  binWord (.vmulhi p t x d a b) p x d a b
    (fun _ => lane2 t fun a b => (wrapElem t (elemInt t a * elemInt t b / 2 ^ elemWidth t), 0)) s

/-! Bit operations (R374). -/

/-- AND. -/
def execVand (p : Option Pfx) (x : Ix) (d a : BitVec 6) (b : VB) (s : State) : Host.Outcome State Fault Refusal :=
  binWord (.vand p x d a b) p x d a b (fun _ a b => plain (a &&& b)) s
/-- OR. -/
def execVor (p : Option Pfx) (x : Ix) (d a : BitVec 6) (b : VB) (s : State) : Host.Outcome State Fault Refusal :=
  binWord (.vor p x d a b) p x d a b (fun _ a b => plain (a ||| b)) s
/-- XOR. -/
def execVxor (p : Option Pfx) (x : Ix) (d a : BitVec 6) (b : VB) (s : State) : Host.Outcome State Fault Refusal :=
  binWord (.vxor p x d a b) p x d a b (fun _ a b => plain (a ^^^ b)) s
/-- NOT. -/
def execVnot (p : Option Pfx) (x : Ix) (d a : BitVec 6) (s : State) : Host.Outcome State Fault Refusal :=
  unWord (.vnot p x d a) p x d a (fun _ a => plain (~~~a)) s
/-- Shifts of an element by the low bits of an element. -/
def shlElem (t : VT) (a b : Nat) : Nat × BitVec 5 := (a * 2 ^ (b % elemWidth t) % 2 ^ elemWidth t, 0)
def shrElem (t : VT) (a b : Nat) : Nat × BitVec 5 := (a / 2 ^ (b % elemWidth t), 0)
def sraElem (t : VT) (a b : Nat) : Nat × BitVec 5 := (wrapElem t (elemInt t a / 2 ^ (b % elemWidth t)), 0)
/-- Left. -/
def execVshl (p : Option Pfx) (t : VT) (x : Ix) (d a : BitVec 6) (b : VB) (s : State) : Host.Outcome State Fault Refusal :=
  binWord (.vshl p t x d a b) p x d a b (fun _ => lane2 t (shlElem t)) s
/-- Right, zeros in. -/
def execVshr (p : Option Pfx) (t : VT) (x : Ix) (d a : BitVec 6) (b : VB) (s : State) : Host.Outcome State Fault Refusal :=
  binWord (.vshr p t x d a b) p x d a b (fun _ => lane2 t (shrElem t)) s
/-- Right, sign copies in. -/
def execVsra (p : Option Pfx) (t : VT) (x : Ix) (d a : BitVec 6) (b : VB) (s : State) : Host.Outcome State Fault Refusal :=
  binWord (.vsra p t x d a b) p x d a b (fun _ => lane2 t (sraElem t)) s
/-- The number of one bits. -/
def execVpopc (p : Option Pfx) (x : Ix) (d a : BitVec 6) (s : State) : Host.Outcome State Fault Refusal :=
  unWord (.vpopc p x d a) p x d a (fun _ a => plain (BitVec.ofNat 32 (laneCount a))) s
/-- Leading zeros. -/
def leadingZeros (a : Word) : Nat := if a = 0 then 32 else 31 - Nat.log2 a.toNat
/-- The number of leading zero bits. -/
def execVclz (p : Option Pfx) (x : Ix) (d a : BitVec 6) (s : State) : Host.Outcome State Fault Refusal :=
  unWord (.vclz p x d a) p x d a (fun _ a => plain (BitVec.ofNat 32 (leadingZeros a))) s

/-! Compare and select (R375, R376). -/

/-- An integer condition. -/
def cmpInt (c : Cond) (a b : Int) : Bool :=
  match c with
  | .eq => decide (a = b)
  | .ne => decide (a ≠ b)
  | .lt => decide (a < b)
  | .le => decide (a ≤ b)
/-- One element's condition and flags. -/
def cmpElem (t : VT) (c : Cond) (a b : Nat) : Bool × BitVec 5 :=
  match typeFmt t with
  | some f => cmpF f c a b
  | none => (cmpInt c (elemInt t a) (elemInt t b), 0)
/-- A lane's condition: that of every element. -/
def cmpLane (t : VT) (c : Cond) (a b : Word) : Bool × BitVec 5 :=
  let rs := (splitLane t a).zipWith (cmpElem t c) (splitLane t b)
  (rs.all (·.1), rs.foldl (fun x r => x ||| r.2) 0)
/-- The effect of `vcmp` on its group. -/
def compareLanes (f : Frag) (p : Option Pfx) (t : VT) (c : Cond) (m : BitVec 3) (a : BitVec 6) (b : VB) (g : Group) : Group :=
  let rs := (lanesOf (execLanes g f p)).map fun l => (l, cmpLane t c (getV g a.toNat l) (getVB g b l))
  let old := getM g m.toNat
  let cleared := old &&& ~~~execLanes g f p &&& ~~~maskOf (zeroLanes g f p)
  { setM g m.toNat (cleared ||| maskOf ((rs.filter fun r => r.2.1).map (·.1))) with
    fx := rs.foldl (fun x r => x ||| r.2.2) g.fx }
/-- Compare into a mask. -/
def execVcmp (p : Option Pfx) (t : VT) (c : Cond) (m : BitVec 3) (a : BitVec 6) (b : VB) (s : State) :
    Host.Outcome State Fault Refusal :=
  vecWord (.vcmp p t c m a b) s (fun g => [vname g a false] ++ vbNames b) fun f g => compareLanes f p t c m a b g
/-- Select by a mask. -/
def execVsel (p : Option Pfx) (m : BitVec 3) (x : Ix) (d a : BitVec 6) (b : VB) (s : State) :
    Host.Outcome State Fault Refusal :=
  vecWord (.vsel p m x d a b) s (fun g => [vname g d (ixVd x), vname g a (ixVa x)] ++ vbNames b) fun f g =>
    frame f p (vname g d (ixVd x)) (fun l =>
      plain (if (getM g m.toNat).getLsbD l then getN g (vname g a (ixVa x)) l else getVB g b l)) g

/-! Moves and lanes (R377, R383). -/

/-- vd ← vb. -/
def execVmov (p : Option Pfx) (x : Ix) (d : BitVec 6) (b : VB) (s : State) : Host.Outcome State Fault Refusal :=
  vecWord (.vmov p x d b) s (fun g => [vname g d (ixVd x)] ++ vbNames b) fun f g =>
    frame f p (vname g d (ixVd x)) (fun l => plain (getVB g b l)) g
/-- vd[l] ← l. -/
def execVidx (p : Option Pfx) (x : Ix) (d : BitVec 6) (s : State) : Host.Outcome State Fault Refusal :=
  vecWord (.vidx p x d) s (fun g => [vname g d (ixVd x)]) fun f g =>
    frame f p (vname g d (ixVd x)) (fun l => plain (BitVec.ofNat 32 l)) g
/-- A lane reads another lane of va, or its own where that one is not active (R98). -/
def fromLane (g : Group) (f : Frag) (p : Option Pfx) (a : BitVec 6) (src l : Nat) : Word :=
  getV g a.toNat (if (execLanes g f p).getLsbD src then src else l)
/-- Broadcast a lane of the subgroup. -/
def execVbcast (p : Option Pfx) (w : SubW) (d a : BitVec 6) (lane : BitVec 5) (s : State) : Host.Outcome State Fault Refusal :=
  vecWord (.vbcast p w d a lane) s (fun g => [vname g d false, vname g a false]) fun f g =>
    frame f p (vname g d false)
      (fun l => plain (fromLane g f p a (subBase (subWidth w) l + lane.toNat % subWidth w) l)) g
/-- s(sd) ← va[lane], active or not. -/
def execVtos (p : Option Pfx) (x : Ix) (d a : BitVec 6) (lane : BitVec 5) (s : State) : Host.Outcome State Fault Refusal :=
  vecWord (.vtos p x d a lane) s (fun g => [vname g a (ixVa x)]) fun _ g =>
    setS g d.toNat (getN g (vname g a (ixVa x)) lane.toNat)
/-- vd[lane] ← s(sa), if that lane is active. -/
def execVins (p : Option Pfx) (x : Ix) (d a : BitVec 6) (lane : BitVec 5) (s : State) : Host.Outcome State Fault Refusal :=
  vecWord (.vins p x d a lane) s (fun g => [vname g d (ixVd x)]) fun f g =>
    frame f p (vname g d (ixVd x))
      (fun l => plain (if l = lane.toNat then getS g a.toNat else getN g (vname g d (ixVd x)) l)) g
/-- A shuffle: the source lane from width, lane and index (Table 5-8). -/
def shuffleWord (i : Instr) (p : Option Pfx) (w : SubW) (d a : BitVec 6) (b : VB) (src : Nat → Nat → Nat → Nat) (s : State) :
    Host.Outcome State Fault Refusal :=
  vecWord i s (fun g => [vname g d false, vname g a false] ++ vbNames b) fun f g =>
    frame f p (vname g d false) (fun l => plain (fromLane g f p a (src (subWidth w) l (getVB g b l).toNat) l)) g
/-- src = b + (v mod w). -/
def execVshfl (p : Option Pfx) (w : SubW) (d a : BitVec 6) (b : VB) (s : State) : Host.Outcome State Fault Refusal :=
  shuffleWord (.vshfl p w d a b) p w d a b (fun w l v => subBase w l + v % w) s
/-- src = l − v within the subgroup. -/
def execVshflup (p : Option Pfx) (w : SubW) (d a : BitVec 6) (b : VB) (s : State) : Host.Outcome State Fault Refusal :=
  shuffleWord (.vshflup p w d a b) p w d a b (fun w l v => if v ≤ l % w then l - v else l) s
/-- src = l + v within the subgroup. -/
def execVshfldn (p : Option Pfx) (w : SubW) (d a : BitVec 6) (b : VB) (s : State) : Host.Outcome State Fault Refusal :=
  shuffleWord (.vshfldn p w d a b) p w d a b (fun w l v => if l % w + v < w then l + v else l) s
/-- src = b + ((l mod w) XOR (v mod w)). -/
def execVshflx (p : Option Pfx) (w : SubW) (d a : BitVec 6) (b : VB) (s : State) : Host.Outcome State Fault Refusal :=
  shuffleWord (.vshflx p w d a b) p w d a b (fun w l v => subBase w l + (l % w ^^^ v % w)) s

/-! Votes (R99, R384), reductions and scans (R385, R386). -/

/-- A subgroup's vote (Table 5-9), from the predicates of its lanes in order. -/
def voteOf (k : VoteKind) (ps : List Bool) : Word :=
  match k with
  | .any => if ps.any id then 1 else 0
  | .all => if ps.all id then 1 else 0
  | .uni => if ps.all id || ps.all (!·) then 1 else 0
  | .ballot => BitVec.ofNat 32 (ps.zipIdx.foldl (fun n x => if x.1 then n + 2 ^ x.2 else n) 0)
/-- Vote. -/
def execVvote (p : Option Pfx) (k : VoteKind) (w : SubW) (d a : BitVec 6) (s : State) : Host.Outcome State Fault Refusal :=
  vecWord (.vvote p k w d a) s (fun g => [vname g d false, vname g a false]) fun f g =>
    frame f p (vname g d false) (fun l => plain (voteOf k ((subLanes (subWidth w) l).map fun j =>
      (execLanes g f p).getLsbD j && getV g a.toNat j != 0))) g
/-- The identity of an empty set (Table 19-17). -/
def identityOf (op : VRedOp) (t : VT) : Nat :=
  let k := elemWidth t
  match typeFmt t, op with
  | some f, .min => f.infCode
  | some f, .max => f.signW + f.infCode
  | none, .min => if signedType t then 2 ^ (k - 1) - 1 else 2 ^ k - 1
  | none, .max => if signedType t then 2 ^ (k - 1) else 0
  | _, .and => 2 ^ k - 1
  | _, _ => 0
/-- The reduction of a set of elements (R386). The minimum and maximum of an F type pass NaN members over, as R386 says; R127's Table 7-3
gives F-typed `vred` and `vscan` the canonical NaN (DESIGN CHOICE between the two, log 113). -/
def redElem (op : VRedOp) (t : VT) (m : RMode) (xs : List Nat) : Nat × BitVec 5 :=
  match xs with
  | [] => (identityOf op t, 0)
  | x :: r =>
    match op, typeFmt t with
    | .add, some f => sumF f m (xs.map (decodeF f))
    | .add, none => (wrapElem t (xs.map (elemInt t)).sum, 0)
    | .min, some f => pickF f false xs
    | .max, some f => pickF f true xs
    | .min, none => (r.foldl (fun a b => (pickElem t false a b).1) x, 0)
    | .max, none => (r.foldl (fun a b => (pickElem t true a b).1) x, 0)
    | .and, _ => (r.foldl (· &&& ·) x, 0)
    | .or, _ => (r.foldl (· ||| ·) x, 0)
    | .xor, _ => (r.foldl (· ^^^ ·) x, 0)
/-- The reduction of a set of lanes, per element. -/
def redLane (op : VRedOp) (t : VT) (m : RMode) (ws : List Word) : Word × BitVec 5 :=
  let rs := (List.range (if packed t then 2 else 1)).map fun e => redElem op t m (ws.map fun w => (splitLane t w).getD e 0)
  (joinLane t (rs.map (·.1)), rs.foldl (fun x r => x ||| r.2) 0)
/-- The contributors of a lane's subgroup that a bound admits. -/
def contributors (g : Group) (f : Frag) (p : Option Pfx) (w : SubW) (a : BitVec 6) (l : Nat) (upTo : Nat → Bool) : List Word :=
  ((subLanes (subWidth w) l).filter fun j => (execLanes g f p).getLsbD j && upTo j).map fun j => getV g a.toNat j
/-- Reduce a subgroup. -/
def execVred (p : Option Pfx) (op : VRedOp) (t : VT) (w : SubW) (d a : BitVec 6) (s : State) : Host.Outcome State Fault Refusal :=
  vecWord (.vred p op t w d a) s (fun g => [vname g d false, vname g a false]) fun f g =>
    frame f p (vname g d false) (fun l => redLane op t (roundingMode g p) (contributors g f p w a l fun _ => true)) g
/-- Reduce the lanes up to each lane. -/
def execVscan (p : Option Pfx) (op : VRedOp) (ex : Bool) (t : VT) (w : SubW) (d a : BitVec 6) (s : State) :
    Host.Outcome State Fault Refusal :=
  vecWord (.vscan p op ex t w d a) s (fun g => [vname g d false, vname g a false]) fun f g =>
    frame f p (vname g d false) (fun l => redLane op t (roundingMode g p)
      (contributors g f p w a l fun j => if ex then decide (j < l) else decide (j ≤ l))) g

/-! Conversions (R134, R135, R378 to R380). -/

/-- The FP8 format of a slot. -/
def slotF8 (w : Word) : Option Fmt :=
  match slotElem w with
  | some .e4m3 => some e4m3
  | some .e5m2 => some e5m2
  | _ => none
/-- A format slot of the grid. -/
def slotWord (s : State) (g : Group) (n : Nat) : Word := lrWord (taskOf s g) (24 + n)
/-- A conversion of one lane (Table 7-8). -/
def cvtLane (c : CvtCode) (nsat : Bool) (f8 : Fmt) (m : RMode) (x : Word) : Word × BitVec 5 :=
  let ofN (r : Nat × BitVec 5) : Word × BitVec 5 := (BitVec.ofNat 32 r.1, r.2)
  let ofI (r : Int × BitVec 5) : Word × BitVec 5 := (BitVec.ofInt 32 r.1, r.2)
  match c with
  | .f32i32 => ofI (toInt m (-2 ^ 31) (2 ^ 31 - 1) x.toNat)
  | .f32n32 => ofI (toInt m 0 (2 ^ 32 - 1) x.toNat)
  | .i32f32 => ofN (ofInt x.toInt)
  | .n32f32 => ofN (ofInt x.toNat)
  | .f32f16 => ofN (convF fp32 fp16 m x.toNat)
  | .f16f32 => ofN (convF fp16 fp32 m (x.toNat % 2 ^ 16))
  | .f32bf16 => ofN (convF fp32 bf16 m x.toNat)
  | .bf16f32 => ofN (convF bf16 fp32 m (x.toNat % 2 ^ 16))
  | .f32f8 => ofN (toF8 f8 nsat m x.toNat)
  | .f8f32 => ofN (convF f8 fp32 m (x.toNat % 2 ^ 8))
  | .i32i8 => plain (BitVec.ofInt 32 (max (-128) (min 127 x.toInt) % 256))
  | .i8i32 => plain ((x.setWidth 8).signExtend 32)
/-- A VEC word whose format slot is checked before its names (R378). -/
def slotWordCheck (i : Instr) (s : State) (ok : Group → Bool) (names : Group → List Int) (k : Frag → Group → Group) :
    Host.Outcome State Fault Refusal :=
  word i s fun c =>
    if ok c.g = false then .trap s .illegal 0
    else
      match nameCheck c.g (names c.g) with
      | some t => .trap s t 0
      | none => onGroup s c (k c.f)
/-- Convert. -/
def execVcvt (p : Option Pfx) (c : CvtCode) (nsat : Bool) (slot : BitVec 3) (x : Ix) (d a : BitVec 6) (s : State) :
    Host.Outcome State Fault Refusal :=
  slotWordCheck (.vcvt p c nsat slot x d a) s (fun g => !c.slotted || (slotF8 (slotWord s g slot.toNat)).isSome)
    (fun g => [vname g d (ixVd x), vname g a (ixVa x)]) fun f g =>
    frame f p (vname g d (ixVd x)) (fun l => cvtLane c nsat ((slotF8 (slotWord s g slot.toNat)).getD e4m3)
      (roundingMode g p) (getN g (vname g a (ixVa x)) l)) g
/-- Quantise a block of 32 lanes (R141). -/
def execVqcvt (p : Option Pfx) (slot : BitVec 3) (x : Ix) (d a : BitVec 6) (s : State) : Host.Outcome State Fault Refusal :=
  slotWordCheck (.vqcvt p slot x d a) s
    (fun g => slotElem (slotWord s g slot.toNat) == some .e2m1 && slotScaled (slotWord s g slot.toNat))
    (fun g => [vname g d (ixVd x), vname g a (ixVa x)]) fun _ g =>
    let q := quantise ((List.range 32).map fun l => (getN g (vname g a (ixVa x)) l).toNat)
    { setLanes (vname g d (ixVd x)).toNat (q.1.zipIdx.map fun e => (e.2, e.1)) g with fx := g.fx ||| q.2 }
/-- One half of `vpack`. -/
def packHalf (t : VT) (m : RMode) (x : Word) : Nat × BitVec 5 :=
  match typeFmt t with
  | some f => convF fp32 f m x.toNat
  | none =>
    if signedType t then ((max (-2 ^ 15) (min (2 ^ 15 - 1) x.toInt) % 2 ^ 16).toNat, 0)
    else (min x.toNat (2 ^ 16 - 1), 0)
/-- Pack two lanes' values into halves. -/
def execVpack (p : Option Pfx) (t : VT) (x : Ix) (d a : BitVec 6) (b : VB) (s : State) : Host.Outcome State Fault Refusal :=
  binWord (.vpack p t x d a b) p x d a b (fun m a b =>
    let u := packHalf t m a
    let v := packHalf t m b
    (BitVec.ofNat 32 (u.1 + v.1 * 2 ^ 16), u.2 ||| v.2)) s
/-- One half widened. -/
def unpackHalf (t : VT) (h : Nat) : Word × BitVec 5 :=
  match typeFmt t with
  | some f => let r := convF f fp32 .rne h
    (BitVec.ofNat 32 r.1, r.2)
  | none => plain (BitVec.ofInt 32 (elemInt t h))
/-- Widen a half. -/
def execVunpk (p : Option Pfx) (t : VT) (hi : Bool) (d a : BitVec 6) (s : State) : Host.Outcome State Fault Refusal :=
  unWord (.vunpk p t hi d a) p .none d a
    (fun _ x => unpackHalf t (if hi then x.toNat / 2 ^ 16 else x.toNat % 2 ^ 16)) s
/-- Byte i of a word as an integer. -/
def byteInt (sg : Bool) (w : Word) (i : Nat) : Int :=
  let b := w.extractLsb' (8 * i) 8
  if sg then b.toInt else b.toNat
/-- vd ← vd + Σ A_i · B_i. -/
def execVdot4 (p : Option Pfx) (t : VT) (x : Ix) (d a : BitVec 6) (b : VB) (s : State) : Host.Outcome State Fault Refusal :=
  vecWord (.vdot4 p t x d a b) s (fun g => [vname g d (ixVd x), vname g a (ixVa x)] ++ vbNames b) fun f g =>
    frame f p (vname g d (ixVd x)) (fun l => plain (BitVec.ofInt 32 ((getN g (vname g d (ixVd x)) l).toNat +
      ((List.range 4).map fun i => byteInt (signedType t) (getN g (vname g a (ixVa x)) l) i *
        byteInt (signedType t) (getVB g b l) i).sum))) g

/-! Special functions (R381). -/

/-- One element. -/
def sfuElem (t : VT) (fn : SfuFn) (m : RMode) (a : Nat) : Nat × BitVec 5 :=
  match typeFmt t with
  | some f => sfuF f fn m a
  | none => (0, 0)
/-- The operation `vsfu` starts: its results, the lanes Z zeroes, its flags, all written when its counter completes. -/
def sfuOp (g : Group) (f : Frag) (p : Option Pfx) (fn : SfuFn) (t : VT) (x : Ix) (d a : BitVec 6) : FOp :=
  let rs := (lanesOf (execLanes g f p)).map fun l =>
    (l, lane1 t (sfuElem t fn (roundingMode g p)) (getN g (vname g a (ixVa x)) l))
  .sfu (g.wb + (vname g d (ixVd x)).toNat) (rs.map (fun r => (r.1, r.2.1)) ++ (zeroLanes g f p).map fun l => (l, 0))
    (rs.foldl (fun z r => z ||| r.2.2) 0)
/-- Special function. -/
def execVsfu (p : Option Pfx) (fn : SfuFn) (t : VT) (x : Ix) (d a : BitVec 6) (s : State) : Host.Outcome State Fault Refusal :=
  word (.vsfu p fn t x d a) s fun c =>
    match nameCheck c.g [vname c.g d (ixVd x), vname c.g a (ixVa x)] with
    | some e => .trap s e 0
    | none =>
      if 63 ≤ counter c.g .sfu then .wait s (.counterFull .sfu)
      else .ok (launchOp s c.gid .sfu (sfuOp c.g c.f p fn t x d a)).2

end Sys2Proof.Machine
end

