-- ==== Sys2Proof/Machine/Dispatch.lean ====
section
/-! DEFINITION. Each step's meaning, one arm per constructor of `Instr`. -/
namespace Sys2Proof.Machine

def exec (i : Instr) (s : State) : Host.Outcome State Fault Refusal :=
  match i with
  | .clauseHeader h => Sys2Proof.Machine.execClauseHeader h s
  | .sadd d a b => Sys2Proof.Machine.execSadd d a b s
  | .ssub d a b => Sys2Proof.Machine.execSsub d a b s
  | .smul d a b => Sys2Proof.Machine.execSmul d a b s
  | .smulhiI d a b => Sys2Proof.Machine.execSmulhiI d a b s
  | .smulhiN d a b => Sys2Proof.Machine.execSmulhiN d a b s
  | .sand d a b => Sys2Proof.Machine.execSand d a b s
  | .sor d a b => Sys2Proof.Machine.execSor d a b s
  | .sxor d a b => Sys2Proof.Machine.execSxor d a b s
  | .sshl d a b => Sys2Proof.Machine.execSshl d a b s
  | .sshr d a b => Sys2Proof.Machine.execSshr d a b s
  | .ssra d a b => Sys2Proof.Machine.execSsra d a b s
  | .sminI d a b => Sys2Proof.Machine.execSminI d a b s
  | .smaxI d a b => Sys2Proof.Machine.execSmaxI d a b s
  | .seq d a b => Sys2Proof.Machine.execSeq d a b s
  | .sltI d a b => Sys2Proof.Machine.execSltI d a b s
  | .sltN d a b => Sys2Proof.Machine.execSltN d a b s
  | .saddi d a i_ => Sys2Proof.Machine.execSaddi d a i_ s
  | .srsubi d a i_ => Sys2Proof.Machine.execSrsubi d a i_ s
  | .smuli d a i_ => Sys2Proof.Machine.execSmuli d a i_ s
  | .sandi d a i_ => Sys2Proof.Machine.execSandi d a i_ s
  | .sori d a i_ => Sys2Proof.Machine.execSori d a i_ s
  | .sxori d a i_ => Sys2Proof.Machine.execSxori d a i_ s
  | .sshli d a i_ => Sys2Proof.Machine.execSshli d a i_ s
  | .sshri d a i_ => Sys2Proof.Machine.execSshri d a i_ s
  | .ssrai d a i_ => Sys2Proof.Machine.execSsrai d a i_ s
  | .seqi d a i_ => Sys2Proof.Machine.execSeqi d a i_ s
  | .sltiI d a i_ => Sys2Proof.Machine.execSltiI d a i_ s
  | .sltiN d a i_ => Sys2Proof.Machine.execSltiN d a i_ s
  | .sminiI d a i_ => Sys2Proof.Machine.execSminiI d a i_ s
  | .smaxiI d a i_ => Sys2Proof.Machine.execSmaxiI d a i_ s
  | .sbfx d a pos len => Sys2Proof.Machine.execSbfx d a pos len s
  | .nop => Sys2Proof.Machine.execNop s
  | .movi d i_ => Sys2Proof.Machine.execMovi d i_ s
  | .movhi d i_ => Sys2Proof.Machine.execMovhi d i_ s
  | .mov d a => Sys2Proof.Machine.execMov d a s
  | .rds d r => Sys2Proof.Machine.execRds d r s
  | .wrs r a => Sys2Proof.Machine.execWrs r a s
  | .br o => Sys2Proof.Machine.execBr o s
  | .bz a o => Sys2Proof.Machine.execBz a o s
  | .bnz a o => Sys2Proof.Machine.execBnz a o s
  | .call k o => Sys2Proof.Machine.execCall k o s
  | .ret => Sys2Proof.Machine.execRet s
  | .split m t r => Sys2Proof.Machine.execSplit m t r s
  | .join => Sys2Proof.Machine.execJoin s
  | .exit => Sys2Proof.Machine.execExit s
  | .waitc p a => Sys2Proof.Machine.execWaitc p a s
  | .barinit n => Sys2Proof.Machine.execBarinit n s
  | .barexp k n a => Sys2Proof.Machine.execBarexp k n a s
  | .barin n => Sys2Proof.Machine.execBarin n s
  | .barwait n => Sys2Proof.Machine.execBarwait n s
  | .barsync n => Sys2Proof.Machine.execBarsync n s
  | .fork => Sys2Proof.Machine.execFork s
  | .rdzv => Sys2Proof.Machine.execRdzv s
  | .yield => Sys2Proof.Machine.execYield s
  | .grow d n => Sys2Proof.Machine.execGrow d n s
  | .shrink n => Sys2Proof.Machine.execShrink n s
  | .setix a i_ => Sys2Proof.Machine.execSetix a i_ s
  | .vadd p t x d a b => Sys2Proof.Machine.execVadd p t x d a b s
  | .vsub p t x d a b => Sys2Proof.Machine.execVsub p t x d a b s
  | .vmul p t x d a b => Sys2Proof.Machine.execVmul p t x d a b s
  | .vfma p t x d a b => Sys2Proof.Machine.execVfma p t x d a b s
  | .vmin p t x d a b => Sys2Proof.Machine.execVmin p t x d a b s
  | .vmax p t x d a b => Sys2Proof.Machine.execVmax p t x d a b s
  | .vabs p t x d a => Sys2Proof.Machine.execVabs p t x d a s
  | .vneg p t x d a => Sys2Proof.Machine.execVneg p t x d a s
  | .vand p x d a b => Sys2Proof.Machine.execVand p x d a b s
  | .vor p x d a b => Sys2Proof.Machine.execVor p x d a b s
  | .vxor p x d a b => Sys2Proof.Machine.execVxor p x d a b s
  | .vnot p x d a => Sys2Proof.Machine.execVnot p x d a s
  | .vshl p t x d a b => Sys2Proof.Machine.execVshl p t x d a b s
  | .vshr p t x d a b => Sys2Proof.Machine.execVshr p t x d a b s
  | .vsra p t x d a b => Sys2Proof.Machine.execVsra p t x d a b s
  | .vmulhi p t x d a b => Sys2Proof.Machine.execVmulhi p t x d a b s
  | .vcmp p t c m a b => Sys2Proof.Machine.execVcmp p t c m a b s
  | .vsel p m x d a b => Sys2Proof.Machine.execVsel p m x d a b s
  | .vmov p x d b => Sys2Proof.Machine.execVmov p x d b s
  | .vbcast p w d a lane => Sys2Proof.Machine.execVbcast p w d a lane s
  | .vidx p x d => Sys2Proof.Machine.execVidx p x d s
  | .vcvt p c nsat slot x d a => Sys2Proof.Machine.execVcvt p c nsat slot x d a s
  | .vqcvt p slot x d a => Sys2Proof.Machine.execVqcvt p slot x d a s
  | .vsfu p f t x d a => Sys2Proof.Machine.execVsfu p f t x d a s
  | .vshfl p w d a b => Sys2Proof.Machine.execVshfl p w d a b s
  | .vshflup p w d a b => Sys2Proof.Machine.execVshflup p w d a b s
  | .vshfldn p w d a b => Sys2Proof.Machine.execVshfldn p w d a b s
  | .vshflx p w d a b => Sys2Proof.Machine.execVshflx p w d a b s
  | .vvote p k w d a => Sys2Proof.Machine.execVvote p k w d a s
  | .vred p op t w d a => Sys2Proof.Machine.execVred p op t w d a s
  | .vscan p op ex t w d a => Sys2Proof.Machine.execVscan p op ex t w d a s
  | .vpopc p x d a => Sys2Proof.Machine.execVpopc p x d a s
  | .vclz p x d a => Sys2Proof.Machine.execVclz p x d a s
  | .vdot4 p t x d a b => Sys2Proof.Machine.execVdot4 p t x d a b s
  | .vtos p x d a lane => Sys2Proof.Machine.execVtos p x d a lane s
  | .vins p x d a lane => Sys2Proof.Machine.execVins p x d a lane s
  | .vpack p t x d a b => Sys2Proof.Machine.execVpack p t x d a b s
  | .vunpk p t hi d a => Sys2Proof.Machine.execVunpk p t hi d a s
  | .lds w d b m => Sys2Proof.Machine.execLds w d b m s
  | .sts w d b m => Sys2Proof.Machine.execSts w d b m s
  | .ldp w d b m => Sys2Proof.Machine.execLdp w d b m s
  | .stp w d b m => Sys2Proof.Machine.execStp w d b m s
  | .sld sp w d b i_ => Sys2Proof.Machine.execSld sp w d b i_ s
  | .sst sp w d b i_ => Sys2Proof.Machine.execSst sp w d b i_ s
  | .atom op ss ret d b => Sys2Proof.Machine.execAtom op ss ret d b s
  | .atoms op ss ret d b => Sys2Proof.Machine.execAtoms op ss ret d b s
  | .ldacq ss d b i_ => Sys2Proof.Machine.execLdacq ss d b i_ s
  | .strel ss d b i_ => Sys2Proof.Machine.execStrel ss d b i_ s
  | .mma base n a b steps f => Sys2Proof.Machine.execMma base n a b steps f s
  | .mmas base n a b steps f => Sys2Proof.Machine.execMmas base n a b steps f s
  | .mzero base n => Sys2Proof.Machine.execMzero base n s
  | .mmap r g => Sys2Proof.Machine.execMmap r g s
  | .mbin n => Sys2Proof.Machine.execMbin n s
  | .mbwait n => Sys2Proof.Machine.execMbwait n s
  | .mloop k o => Sys2Proof.Machine.execMloop k o s
  | .mjmp o => Sys2Proof.Machine.execMjmp o s
  | .mend => Sys2Proof.Machine.execMend s
  | .mset d i_ => Sys2Proof.Machine.execMset d i_ s
  | .mshare v => Sys2Proof.Machine.execMshare v s
  | .mcpy d s_ => Sys2Proof.Machine.execMcpy d s_ s
  | .cpy rel res d bar => Sys2Proof.Machine.execCpy rel res d bar s
  | .cpymc rel d x bar => Sys2Proof.Machine.execCpymc rel d x bar s
  | .cpyred rel d x bar => Sys2Proof.Machine.execCpyred rel d x bar s
  | .gathPark d bar => Sys2Proof.Machine.execGathPark d bar s
  | .gathTol d x bar => Sys2Proof.Machine.execGathTol d x bar s
  | .scat rel d bar => Sys2Proof.Machine.execScat rel d bar s
  | .resadd d => Sys2Proof.Machine.execResadd d s
  | .resdel d => Sys2Proof.Machine.execResdel d s
  | .resq x d => Sys2Proof.Machine.execResq x d s
  | .enq d => Sys2Proof.Machine.execEnq d s
  | .qpost d => Sys2Proof.Machine.execQpost d s
  | .modeM => Sys2Proof.Machine.execModeM s
  | .modeV n => Sys2Proof.Machine.execModeV n s
  | .seal last q d => Sys2Proof.Machine.execSeal last q d s
  | .vpin d v => Sys2Proof.Machine.execVpin d v s
  | .vunpin v sl => Sys2Proof.Machine.execVunpin v sl s
  | .vwait q v => Sys2Proof.Machine.execVwait q v s
  | .phacq sc => Sys2Proof.Machine.execPhacq sc s
  | .phrel sc => Sys2Proof.Machine.execPhrel sc s
  | .fence sc => Sys2Proof.Machine.execFence sc s
  | .trap i_ => Sys2Proof.Machine.execTrap i_ s
  | .brk i_ => Sys2Proof.Machine.execBrk i_ s
  | .tagset d => Sys2Proof.Machine.execTagset d s
  | .snap => Sys2Proof.Machine.execSnap s
  | .gbar => Sys2Proof.Machine.execGbar s
  | .invrg d x => Sys2Proof.Machine.execInvrg d x s
  | .loadComplete g id => Sys2Proof.Machine.execLoadComplete g id s
  | .storePerformed g id => Sys2Proof.Machine.execStorePerformed g id s
  | .atomicPerform g id l => Sys2Proof.Machine.execAtomicPerform g id l s
  | .vsfuResult g id => Sys2Proof.Machine.execVsfuResult g id s
  | .copyDelivery b k => Sys2Proof.Machine.execCopyDelivery b k s
  | .multicastDelivery b k c => Sys2Proof.Machine.execMulticastDelivery b k c s
  | .reductionContribution b => Sys2Proof.Machine.execReductionContribution b s
  | .gatherLaneDelivery b l => Sys2Proof.Machine.execGatherLaneDelivery b l s
  | .scatterRowWrite b l => Sys2Proof.Machine.execScatterRowWrite b l s
  | .pendingWritePublish c a => Sys2Proof.Machine.execPendingWritePublish c a s
  | .matrixStepWrite t => Sys2Proof.Machine.execMatrixStepWrite t s
  | .sequencerRunawayStop t => Sys2Proof.Machine.execSequencerRunawayStop t s
  | .growGrant c q => Sys2Proof.Machine.execGrowGrant c q s
  | .activeSetEntry c q => Sys2Proof.Machine.execActiveSetEntry c q s
  | .groupRelease g => Sys2Proof.Machine.execGroupRelease g s
  | .taskRetire t => Sys2Proof.Machine.execTaskRetire t s
  | .commandComplete c => Sys2Proof.Machine.execCommandComplete c s
  | .qclaim m q => Sys2Proof.Machine.execQclaim m q s
  | .qdoor m v => Sys2Proof.Machine.execQdoor m v s
  | .launch q => Sys2Proof.Machine.execLaunch q s
  | .copyPacket q => Sys2Proof.Machine.execCopyPacket q s
  | .signal q => Sys2Proof.Machine.execSignal q s
  | .waitvalue q => Sys2Proof.Machine.execWaitvalue q s
  | .waitvaluePoll q => Sys2Proof.Machine.execWaitvaluePoll q s
  | .inval q => Sys2Proof.Machine.execInval q s
  | .configCreate q => Sys2Proof.Machine.execConfigCreate q s
  | .configDestroy q => Sys2Proof.Machine.execConfigDestroy q s
  | .configSkip q => Sys2Proof.Machine.execConfigSkip q s
  | .placementStep => Sys2Proof.Machine.execPlacementStep s
  | .preemption cl => Sys2Proof.Machine.execPreemption cl s
  | .saveAreaWrite cl => Sys2Proof.Machine.execSaveAreaWrite cl s
  | .sealPoint t => Sys2Proof.Machine.execSealPoint t s
  | .curdSlotChoice t => Sys2Proof.Machine.execCurdSlotChoice t s
  | .staggerWave t w => Sys2Proof.Machine.execStaggerWave t w s
  | .timeLimitCut t => Sys2Proof.Machine.execTimeLimitCut t s
  | .energyLimitCut t => Sys2Proof.Machine.execEnergyLimitCut t s
  | .cutVatEnd t => Sys2Proof.Machine.execCutVatEnd t s
  | .vpinRead m i_ => Sys2Proof.Machine.execVpinRead m i_ s
  | .vpinPin m i_ => Sys2Proof.Machine.execVpinPin m i_ s
  | .vpinUnpin m i_ => Sys2Proof.Machine.execVpinUnpin m i_ s
  | .vpinClear m i_ => Sys2Proof.Machine.execVpinClear m i_ s
  | .walkStart d => Sys2Proof.Machine.execWalkStart d s
  | .walkEnd d k => Sys2Proof.Machine.execWalkEnd d k s
  | .fltreplay d v => Sys2Proof.Machine.execFltreplay d v s
  | .invalidationPerform n => Sys2Proof.Machine.execInvalidationPerform n s
  | .invalidationComplete n => Sys2Proof.Machine.execInvalidationComplete n s
  | .invrange m v => Sys2Proof.Machine.execInvrange m v s
  | .rangeEntryWrite d i_ img => Sys2Proof.Machine.execRangeEntryWrite d i_ img s
  | .grantBudgetUpdate mw => Sys2Proof.Machine.execGrantBudgetUpdate mw s
  | .boostIntervalStart mw => Sys2Proof.Machine.execBoostIntervalStart mw s
  | .clockStepRise c => Sys2Proof.Machine.execClockStepRise c s
  | .ballastCheck => Sys2Proof.Machine.execBallastCheck s
  | .ballastRampEnd c => Sys2Proof.Machine.execBallastRampEnd c s
  | .capMessage seq w => Sys2Proof.Machine.execCapMessage seq w s
  | .capLeaseExpiry => Sys2Proof.Machine.execCapLeaseExpiry s
  | .thermalBoostHold on => Sys2Proof.Machine.execThermalBoostHold on s
  | .thermalBudgetFloor on => Sys2Proof.Machine.execThermalBudgetFloor on s
  | .thermalShutdown => Sys2Proof.Machine.execThermalShutdown s
  | .stopComplete k => Sys2Proof.Machine.execStopComplete k s
  | .snaptrigArm v => Sys2Proof.Machine.execSnaptrigArm v s
  | .snaptrigFire v => Sys2Proof.Machine.execSnaptrigFire v s
  | .sampleTag c q => Sys2Proof.Machine.execSampleTag c q s
  | .sampleRecordWrite c q => Sys2Proof.Machine.execSampleRecordWrite c q s
  | .replayGateTimeout c => Sys2Proof.Machine.execReplayGateTimeout c s
  | .mboxSend m n => Sys2Proof.Machine.execMboxSend m n s
  | .mboxPop m n => Sys2Proof.Machine.execMboxPop m n s
  | .spaceCreate => Sys2Proof.Machine.execSpaceCreate s
  | .spaceDestroy => Sys2Proof.Machine.execSpaceDestroy s
  | .queue0Init => Sys2Proof.Machine.execQueue0Init s
  | .accessWrite => Sys2Proof.Machine.execAccessWrite s
  | .debugEnable => Sys2Proof.Machine.execDebugEnable s
  | .record => Sys2Proof.Machine.execRecord s
  | .replay => Sys2Proof.Machine.execReplay s
  | .stop => Sys2Proof.Machine.execStop s
  | .resume => Sys2Proof.Machine.execResume s
  | .freeze => Sys2Proof.Machine.execFreeze s
  | .stateRead => Sys2Proof.Machine.execStateRead s
  | .stateWrite => Sys2Proof.Machine.execStateWrite s
  | .watch => Sys2Proof.Machine.execWatch s
  | .sample => Sys2Proof.Machine.execSample s
  | .assign => Sys2Proof.Machine.execAssign s
  | .quicksetTakeover failed => Sys2Proof.Machine.execQuicksetTakeover failed s
  | .coldReset ok => Sys2Proof.Machine.execColdReset ok s
  | .warmReset => Sys2Proof.Machine.execWarmReset s
  | .firmwareUpdate => Sys2Proof.Machine.execFirmwareUpdate s
  | .firmwareActivate => Sys2Proof.Machine.execFirmwareActivate s
  | .managementOverride => Sys2Proof.Machine.execManagementOverride s
  | .attestationRequest nonce => Sys2Proof.Machine.execAttestationRequest nonce s
  | .pldmSensorRead => Sys2Proof.Machine.execPldmSensorRead s
  | .uncorrectableError src who addr => Sys2Proof.Machine.execUncorrectableError src who addr s
  | .portRetrainFail p => Sys2Proof.Machine.execPortRetrainFail p s
  | .peerRequest p r => Sys2Proof.Machine.execPeerRequest p r s
  | .acctab m v => Sys2Proof.Machine.execAcctab m v s
  | .reswin m v => Sys2Proof.Machine.execReswin m v s
  | .registerWrite m off v => Sys2Proof.Machine.execRegisterWrite m off v s
  | .deviceFailure c => Sys2Proof.Machine.execDeviceFailure c s
  | .preemptionAbandon cl => Sys2Proof.Machine.execPreemptionAbandon cl s
  | .correctedSoftError src => Sys2Proof.Machine.execCorrectedSoftError src s
  | .hdmAccess f wr addr data => Sys2Proof.Machine.execHdmAccess f wr addr data s
  | .peerRefusal b => Sys2Proof.Machine.execPeerRefusal b s

end Sys2Proof.Machine
end

