-- ==== Sys2Proof/Machine/Skid.lean ====
section
/-! DEFINITION. Skid buffers (15 R273): the replies and deliveries that arrive for a frozen core wait in arrival order, and come at its
thaw before anything else; and what is tidied before each step. -/
set_option Elab.async false
namespace Sys2Proof.Machine

/-! Arrival at a frozen core. -/

/-- The deliveries of a bulk command that are left, as events. -/
def bulkEvents (b : Nat) (x : Bulk) : List Instr :=
  match x.kind with
  | .cpyred => [.reductionContribution b]
  | .cpymc => (piecesLeft x).map fun p => .multicastDelivery b p.2 p.1
  | .gath => (piecesLeft x).map fun p => .gatherLaneDelivery b p.2
  | .scat => (piecesLeft x).map fun p => .scatterRowWrite b p.2
  | _ => (piecesLeft x).map fun p => .copyDelivery b p.2
/-- Some of the places stand on a core, and no other place's core is frozen. -/
def onlyAt (s : State) (c : Nat) (ls : List Loc) : Bool :=
  ls.any (fun l => locCore l == some c) && ls.all fun l => !locFrozen s l || locCore l == some c
/-- Source bytes that are found, and that the command may read now. -/
def sourceOpen (s : State) (x : Bulk) : Where → Bool
  | .at_ ls => !ls.any (sourceHeld s x)
  | _ => false
/-- The reply of a load, or a delivery, arrives at a core: nothing but the core's own freeze holds it up. -/
def arrivesAt (s : State) (c : Nat) : Instr → Bool
  | .loadComplete g id =>
    decide (coreOfGid g = c) && match findOp s g id with
      | some (x, f) => loadDue s g x f.op && opReaches s x f
      | none => false
  | .copyDelivery b k =>
    (match kvFind s.bulks b with
      | some x =>
        let (src, dst, n) := pieceOf x k
        hasPiece x 0 k && relDone s x && sourceOpen s x (findBytes s x .read src.1 src.2.1 src.2.2 n) &&
          (match pieceDst s x k dst n with
            | .at_ ls => onlyAt s c ls
            | _ => false)
      | none => false)
  | .multicastDelivery b k c1 =>
    (match kvFind s.bulks b with
      | some x =>
        let (src, _, n) := pieceOf x k
        decide (c1 = c) && hasPiece x c1 k && relDone s x &&
          ((kvFind x.fetched k).isSome || sourceOpen s x (findBytes s x .read src.1 src.2.1 src.2.2 n))
      | none => false)
  | .gatherLaneDelivery b l =>
    (match kvFind s.bulks b with
      | some x =>
        hasPiece x 0 l && relDone s x && onlyAt s c (locBytes s x l (rowBytes x.desc)) &&
          x.lanes.any fun m => m.lane == l && sourceOpen s x (laneBytesAt s x m .read (rowBytes x.desc))
      | none => false)
  | _ => false
/-- What may arrive. -/
def replies (s : State) : List Instr :=
  (s.groups.flatMap fun g => g.2.flight.map fun f => .loadComplete g.1 f.id) ++ s.bulks.flatMap fun b => bulkEvents b.1 b.2
/-- It arrives at a frozen core, whose buffer has 256 entries, and is not in it yet. -/
def heldBack (s : State) (c : Nat) (i : Instr) : Bool :=
  coreFrozen s c && decide ((coreOf s c).skid.length < 256) && !(coreOf s c).skid.contains i && arrivesAt s c i
/-- Cores whose clocks are gated. -/
def frozenCores (s : State) : List Nat := ((s.clusters.filter fun k => k.2.frozen).flatMap (·.2.cores)).eraseDups
/-- The arrivals that may come. -/
def arrivals (s : State) : List Act :=
  (frozenCores s).flatMap fun c => ((replies s).filter (heldBack s c)).map (.arrive c)
/-- A reply or delivery enters the buffer, or waits in the fabric. -/
def arriveHeld (s : State) (c : Nat) (i : Instr) : State :=
  if heldBack s c i then modCore s c fun x => { x with skid := x.skid ++ [i] } else s

/-! The thaw. -/

/-- A held reply or delivery comes. -/
def heldEvent (s : State) : Instr → Host.Outcome State Fault Refusal
  | .loadComplete g id => execLoadComplete g id s
  | .copyDelivery b k => execCopyDelivery b k s
  | .multicastDelivery b k c => execMulticastDelivery b k c s
  | .gatherLaneDelivery b l => execGatherLaneDelivery b l s
  | _ => .next s
/-- The state after it; each takes a moment of its own for what is the part's own choice. -/
def deliverHeld (s : State) (i : Instr) : State :=
  match heldEvent { s with tick := s.tick + 1 } i with
  | .next t => t
  | _ => s
/-- Entries come oldest first; where one of them freezes the core again, as one that meets a watchpoint does (R272), the others stay in
their order. -/
def emptySkid (c : Nat) : List Instr → State → State
  | [], s => s
  | i :: r, s => if coreFrozen s c then modCore s c fun x => { x with skid := (i :: r) ++ x.skid } else emptySkid c r (deliverHeld s i)
/-- The buffer of a core that runs again is emptied. -/
def thawCore (s : State) (c : Nat) : State :=
  let l := (coreOf s c).skid
  if l.isEmpty || coreFrozen s c then s else emptySkid c l (modCore s c fun x => { x with skid := [] })

/-! Before a step. -/

/-- What a step finds done: groups that have stopped being ready are waited for no more (11 R226), parked requests of commands that have
ended are gone (11 R215), requests at a port have taken the entries that are free (09 R178), vats that nothing uses have left the
version unit's table (12 R244), and what a thawed core's buffer held has come. -/
def settle (s : State) : State :=
  let s1 := dropEnded (unwait s)
  let s2 := s1.dies.foldl (fun x d => feedPort x d.1) s1
  let s3 := (vatKeys s2).foldl vatTidy s2
  s3.cores.foldl (fun x c => thawCore x c.1) s3

end Sys2Proof.Machine
end

