-- ==== Sys2Proof/Machine/Sched.lean ====
section
/-! DEFINITION. Which step comes next (log 2): what stands on the agenda, else what is due at this moment, else one of the steps that
may happen now. -/
set_option Elab.async false
namespace Sys2Proof.Machine

/-! Time (log 5). -/

/-- Thousandths of an array clock in a nanosecond at a step (14 R259). -/
def clockRate (step : Nat) : Nat := if step = 0 then 1050 else if step = 1 then 1200 else 1350
/-- One nanosecond of a core: its clocks stand while its cluster is frozen. -/
def tickCore (s : State) (c : Nat) : State :=
  if coreFrozen s c then s
  else
    let x := coreOf s c
    let n := x.sub + clockRate (min x.step (coreTarget s c))
    modCore s c fun y => { y with
      sub := n % 1000, clk := (y.clk + n / 1000) % 2 ^ 64, evc := kvSet 0 y.evc 0 ((kvGet 0 y.evc 0 + n / 1000) % 2 ^ 48) }
/-- One nanosecond of control-clock time. -/
def tickTime (s : State) : State :=
  noteGates ((List.range 64).foldl tickCore { s with ns := s.ns + 1 })

/-! What is due: events that come at their moment, cuts before seal points (12 R243). -/

/-- Quadrants with a resident group. -/
def quadsOf (s : State) : List Nat := (s.groups.map fun g => g.1 / 16).eraseDups
/-- The waves of a task that may be due. -/
def nextWave (t : Nat) (k : Task) : List (Nat × Nat) := (k.stagger.map fun g => [(t, g.done.length)]).getD []
def dueList (s : State) : List (Bool × Instr) :=
  let ts := s.tasks.map (·.1)
  [ (s.tasks.filter fun t => energyDue s t.1).map fun t => (true, .energyLimitCut t.1),
    (s.tasks.filter fun t => timeDue s t.1).map fun t => (true, .timeLimitCut t.1),
    ts.map fun t => (sealDue s t, .sealPoint t),
    ts.map fun t => (choiceReady s t, .curdSlotChoice t),
    s.tasks.flatMap fun t => (nextWave t.1 t.2).map fun w => (waveDue s w.1 w.2, .staggerWave w.1 w.2),
    [(decide (s.power.nextUs ≤ s.ns), .grantBudgetUpdate (Config.measured s.tick)),
      ((s.power.nextInt.map fun n => decide (n ≤ s.ns)).getD false, .boostIntervalStart (Config.measured s.tick)),
      (decide (s.power.nextBal ≤ s.ns), .ballastCheck),
      (s.power.leased && decide (s.power.leaseEnd ≤ s.ns), .capLeaseExpiry)],
    s.cores.map fun c => (rampOver s c.1, .ballastRampEnd c.1),
    s.cores.map fun c => ((c.2.rise.map fun r => decide (r.2 ≤ s.ns)).getD false, .clockStepRise c.1),
    quadsOf s |>.map fun q => (growReady s q, .growGrant (q / 4) (q % 4)),
    s.cmds.map fun c => ((gateTimedOut s c.1).isSome, .replayGateTimeout c.1),
    s.queues.map fun q => (pollReady s q.1, .waitvaluePoll q.1)].flatten
/-- The first event that is due. -/
def dueEvent (s : State) : Option Instr := ((dueList s).find? (·.1)).map (·.2)

/-! What may happen now. -/

/-- An event if it may happen. -/
def may (b : Bool) (i : Instr) : List Act := if b then [.ev i] else []
/-- The words and steps that may issue. -/
def issueActs (s : State) : List Act :=
  ((s.groups.filter fun g => groupOpen s g.1 g.2 && (pickFrag s g.1 g.2).isSome).map fun g => .grp g.1) ++
  ((s.teams.filter fun t => (t.2.seq.map (seqOpen s t.1 t.2)).getD false).map fun t => .seq t.1)
/-- The events of one operation in flight: its parts one by one (02 R28), its end. -/
def opActs (s : State) (gid : Nat) (g : Group) (f : Flight) : List Act :=
  (if !f.done && opFree s g f then (earlyParts f.op).map fun l => .lane gid f.id l else []) ++
  match f.op with
  | .sfu _ _ _ => may (!f.done && opFree s g f) (.vsfuResult gid f.id)
  | .atomic _ _ _ _ _ ls _ _ _ =>
    ls.flatMap (fun l => may (atomicReady s gid f.id l.1) (.atomicPerform gid f.id l.1)) ++ may (loadReady s gid f.id) (.loadComplete gid f.id)
  | _ => may (loadReady s gid f.id) (.loadComplete gid f.id) ++ may (storeReady s gid f.id) (.storePerformed gid f.id)
def flightActs (s : State) : List Act := s.groups.flatMap fun g => g.2.flight.flatMap (opActs s g.1 g.2)
/-- The deliveries of one bulk command. -/
def bulkActs (s : State) (b : Nat) (x : Bulk) : List Act :=
  may (usesPeer s x) (.peerRefusal b) ++
    if relDone s x then (bulkEvents b x).map .ev else []
/-- The engines, the scratchpad and the sequencers' writes. -/
def memoryActs (s : State) : List Act :=
  (s.bulks.flatMap fun b => bulkActs s b.1 b.2) ++ arrivals s ++
  (s.cores.flatMap fun c => c.2.pend.map fun p => .ev (.pendingWritePublish c.1 p.1)) ++
  (s.teams.flatMap fun t => may ((t.2.seq.map fun q => !q.writes.isEmpty).getD false) (.matrixStepWrite t.1) ++
    may ((t.2.seq.map fun q => q.busy && (q.run.map fun n => decide (65536 ≤ n)).getD false).getD false) (.sequencerRunawayStop t.1))
/-- Translation. -/
def walkActs (s : State) : List Act :=
  (s.dies.flatMap fun d => may (walkStartReady s d.1) (.walkStart d.1) ++
    (d.2.miss.zipIdx.filter fun m => m.1.walking).map fun m => .ev (.walkEnd d.1 m.2)) ++
  (s.invs.flatMap fun v => may (!v.performed) (.invalidationPerform v.n.toNat) ++ may (invalReady s v) (.invalidationComplete v.n.toNat))
/-- The active sets, releases. -/
def groupActs (s : State) : List Act :=
  ((quadsOf s).flatMap fun q => may (activeReady s q) (.activeSetEntry (q / 4) (q % 4))) ++
  (s.groups.flatMap fun g => may (releaseReady s g.1) (.groupRelease g.1))
/-- The event of a packet that was copied out. -/
def packetEvent (q : Nat) (w : List Word) : Instr :=
  match pktType w with
  | 2 => .copyPacket q
  | 3 => .signal q
  | 4 => .waitvalue q
  | 5 => .inval q
  | 6 => (match (w.getD 4 0).toNat % 4 with
      | 1 => .configDestroy q
      | 2 => .configSkip q
      | _ => .configCreate q)
  | _ => .launch q
/-- A queue: its parser loop, its packet. -/
def queueActs (s : State) (q : Nat) (x : Queue) : List Act :=
  if s.power.shutdown || s.trust.deviceFailed || waitsFor s 1 (.ring q) then []
  else match x.held with
    | none => if x.door then [.parse q] else []
    | some w => may (x.wait.isNone && !(pktBarrier w && !x.opened.isEmpty)) (packetEvent q w)
/-- Tasks, commands, placement, pre-emption. -/
def taskActs (s : State) : List Act :=
  [ s.queues.flatMap fun q => queueActs s q.1 q.2,
    s.tasks.flatMap fun t => may (retireReady s t.1) (.taskRetire t.1) ++
      may ((t.2.ladder.map fun l => l.cutting.isSome).getD false) (.cutVatEnd t.1),
    s.cmds.flatMap fun c => may (completeReady s c.1) (.commandComplete c.1),
    may (placementReady s) .placementStep,
    s.clusters.flatMap fun c => may (preemptReady s c.1) (.preemption c.1) ++ may (askedUnit s c.1) (.preemptionAbandon c.1) ++
      may (saveReady s c.1) (.saveAreaWrite c.1) ++ may (stopReady s c.1) (.stopComplete c.1)].flatten
/-- Clock steps, sample records, which C6 drains, the requests to the firmware cores. -/
def firmwareActs (s : State) : List Act :=
  (s.cores.flatMap fun c => may c.2.rise.isSome (.clockStepRise c.1) ++
    c.2.samp.flatMap fun q => may (sampleReady s c.1 q.1) (.sampleRecordWrite c.1 q.1)) ++
  (if s.samples.isEmpty then [] else [.c6 .samples]) ++
  (if s.trust.booted then
    s.mbox.flatMap fun b => if b.2.msgs.isEmpty then [] else
      match b.1 with
      | 2 => [.ev .spaceCreate, .ev .spaceDestroy]
      | 5 => [.ev .accessWrite]
      | 6 => [.ev .debugEnable, .ev .record, .ev .replay, .ev .stop, .ev .resume, .ev .freeze, .ev .stateRead, .ev .stateWrite,
          .ev .watch, .ev .sample]
      | 7 => [.ev .assign]
      | n => if n < 9 then [.ev .queue0Init] else []
  else [])
/-- Everything that may happen by itself. -/
def freeActs (s : State) : List Act :=
  issueActs s ++ flightActs s ++ memoryActs s ++ walkActs s ++ groupActs s ++ taskActs s ++ firmwareActs s

/-! The next step. -/

/-- One act. -/
def planAct (s : State) : Act → Plan
  | .grp g => groupPlan s g
  | .seq t => seqPlan s t
  | .ev i => .run i { s with issue := .none }
  | .lane g id l => .idle (partResult s g id l)
  | .barRead m off => .idle (barRead s m off)
  | .c6 r => .idle (c6Read r s)
  | .arrive c i => .idle (arriveHeld s c i)
  | .parse q => .idle (parse s q)
  | .tick => .idle (tickTime s)
  | .free => .idle s
/-- One of the acts that may happen, or the passing of time: which one is the part's own choice (R6, R90, R102). -/
def planFree (s : State) : Plan :=
  match dueEvent s with
  | some i => planAct s (.ev i)
  | none =>
    match freeActs s with
    | [] => planAct s .tick
    | as => planAct s (as.getD (Config.choice s.tick % (as.length + 1)) .tick)
/-- The next step: the head of the agenda, else a free choice. -/
def plan (s : State) : Plan :=
  let s1 := settle { s with tick := s.tick + 1 }
  match s.agenda with
  | .free :: r => planFree { s1 with agenda := r }
  | a :: r => planAct { s1 with agenda := r } a
  | [] => planFree s1

end Sys2Proof.Machine
end

