-- ==== Sys2Proof/Machine/Step.lean ====
section
/-! DEFINITION. One step of the part, and placing an instruction where it fetches its next one. -/
set_option Elab.async false
namespace Sys2Proof.Machine

/-- One step: what comes next is chosen, a word is fetched and decoded if it is a word, and the instruction acts. -/
def step (s : State) : Host.Outcome State Fault Refusal :=
  match plan s with
  | .idle t => .next t
  | .run i t => exec i t

/-! The host's hook (log 13): a program is loaded by placing its work, as a LAUNCH would: command 0, task 0, cluster 0, team 0 and
group 0 on core 0, whose code is the page of HBM at address 0. -/

/-- A launch record: code at VA 0, 64 KiB of it, one group with 32 registers, no trap handler. -/
def hookRecord : List Word :=
  [0, 0, 0, 0, 0x00010001, 0x00110001, 0x0201, 0, 0, 0, 0xFFFFFFFF, 0, 0, 0x10000]
def hookTask : Task := { noTask with lr := hookRecord, nextCl := 1 }
/-- The page of the code: readable, writable, executable. -/
def hookTlb : Tlb := { sid := 0, page := 0, pages := 1, pte := 0x1F }
/-- The team, with a sequencer in the middle of an MTX clause where the word is one of its. -/
def hookTeam (c : Cls) : Team :=
  { noTeam with
    cluster := 0, cores := [0], groups := [0], bars := (List.range 16).map fun n => (n, { noBar with expl := 32 })
    seq := some (if c = .mtx then { idleSeq with busy := true, cl := some (.mtx, 15) } else idleSeq) }
/-- The group, in the middle of a clause of the word's class. -/
def hookGroup (c : Cls) : Group :=
  { freshGroup hookTask 0 0 0 0 with active := true, frags := [newFrag allLanes 0 (some (c, 15)) false none] }
/-- Place the work and the word. -/
def hookState (s : State) (c : Cls) (bs : List Byte) : State :=
  let s1 := writeBytes s (fun i => .hbm i) bs
  let s2 := modCore s1 0 fun x => { x with l1 := hookTlb :: x.l1 }
  { s2 with
    agenda := (if c = .mtx then .seq 0 else .grp 0) :: s2.agenda
    cmds := kvPut s2.cmds 0 { noCmd with launch := true, spawn := 1, priv := true }
    tasks := kvPut s2.tasks 0 hookTask
    clusters := kvPut s2.clusters 0 { noCluster with cores := [0], teams := [0] }
    teams := kvPut s2.teams 0 (hookTeam c)
    groups := kvPut s2.groups 0 (hookGroup c)
    nextId := max 1 s2.nextId }
/-- The state in which the very next step runs a table word: in the class the decoder finds for it. -/
def State.withFetchWord (s : State) (nbits w : Nat) : State :=
  match decodeFirst (tableBytes nbits w) classOrder with
  | some (c, _) => hookState s c (tableBytes nbits w)
  | none => hookState s .ctl (tableBytes nbits w)

end Sys2Proof.Machine
end

