-- ==== Sys2Proof/Laws/PerInstr.lean ====
section
/-! SUPPORT. Statements per instruction. RoundTrip: the words the encoder gives an instruction decode, in its class, to that instruction with
its switch marker, and all of them are its words. The header and the events have no such word. -/
set_option Elab.async false
namespace Sys2Proof.Laws

/-! Codes give their names back. -/

theorem ofCode_vt (t : VT) : VT.ofCode t.code = t := by cases t <;> rfl
theorem ofCode_sub (t : SubW) : SubW.ofCode t.code = t := by cases t <;> rfl
theorem ofCode_cond (t : Cond) : Cond.ofCode t.code = t := by cases t <;> rfl
theorem ofCode_ix (t : Ix) : Ix.ofCode t.code = t := by cases t <;> rfl
theorem ofCode_rmode (t : RMode) : RMode.ofCode t.code = t := by cases t <;> rfl
theorem ofCode_vote (t : VoteKind) : VoteKind.ofCode t.code = t := by cases t <;> rfl
theorem ofCode_memW (t : MemW) : MemW.ofCode t.code = some t := by cases t <;> rfl
theorem ofCode_scope (t : Scope) : Scope.ofCode t.code = some t := by cases t <;> rfl
theorem ofCode_ss (t : SS) : SS.ofCode t.code = some t := by cases t <;> rfl
theorem ofCode_path (t : Path) : Path.ofCode t.code = some t := by cases t <;> rfl
theorem ofCode_sfu (t : SfuFn) : SfuFn.ofCode t.code = t := by cases t <;> rfl
theorem ofCode_red (t : VRedOp) : VRedOp.ofCode t.code = some t := by cases t <;> rfl
theorem ofCode_cvt (t : CvtCode) : CvtCode.ofCode t.code = some t := by cases t <;> rfl
theorem ofCode_atom (t : AtomOp) : AtomOp.ofCode t.code = some t := by cases t <;> rfl
theorem ofCode_bar (t : BarKind) : BarKind.ofCode t.code = some t := by cases t <;> rfl
theorem ofCode_sreg (t : SReg) : SReg.ofCode t.code = some t := by cases t <;> rfl

/-! Fields of words put together by append. -/

theorem fhi {n m lo k : Nat} {x : BitVec n} {y : BitVec m} (h : m ≤ lo) : (x ++ y).extractLsb' lo k = x.extractLsb' (lo - m) k :=
  BitVec.extractLsb'_append_eq_of_le h
theorem flo {n m lo k : Nat} {x : BitVec n} {y : BitVec m} (h : lo + k ≤ m) : (x ++ y).extractLsb' lo k = y.extractLsb' lo k :=
  BitVec.extractLsb'_append_eq_of_add_le h
theorem fself {n : Nat} {x : BitVec n} : x.extractLsb' 0 n = x := BitVec.extractLsb'_eq_self
theorem ghi {n m i : Nat} {x : BitVec n} {y : BitVec m} (h : m ≤ i) : (x ++ y).getLsbD i = x.getLsbD (i - m) := by
  rw [BitVec.getLsbD_append, if_neg (by omega)]
theorem glo {n m i : Nat} {x : BitVec n} {y : BitVec m} (h : i < m) : (x ++ y).getLsbD i = y.getLsbD i := by
  rw [BitVec.getLsbD_append, if_pos h]
theorem gbit (b : Bool) : (bit1 b).getLsbD 0 = b := by cases b <;> rfl

/-- The vb operand and its BS bit. -/
theorem decVB_enc (w : Word) (b : VB) (h : w.extractLsb' 5 7 = encVB b) : decVB w = b := by
  have e5 : bitOf w 5 = (encVB b).getLsbD 0 := by rw [← h]; simp
  have e6 : fld w 6 6 = (encVB b).extractLsb' 1 6 := by
    rw [← h]; apply BitVec.eq_of_getLsbD_eq; intro i hi
    simp only [fld, BitVec.getLsbD_extractLsb']
    have h1 : 1 + i < 7 := by omega
    simp [hi, h1, show 5 + (1 + i) = 6 + i by omega]
  unfold decVB
  rw [e5, e6]
  cases b with
  | reg v =>
    have h1 : (encVB (.reg v)).getLsbD 0 = false := by simp (disch := decide) only [encVB, glo]; rfl
    have h2 : (encVB (.reg v)).extractLsb' 1 6 = v := by simp (disch := decide) only [encVB, fhi, Nat.sub_self, fself]
    rw [h1, h2]; rfl
  | sc v =>
    have h1 : (encVB (.sc v)).getLsbD 0 = true := by simp (disch := decide) only [encVB, glo]; rfl
    have h2 : (encVB (.sc v)).extractLsb' 1 6 = v := by simp (disch := decide) only [encVB, fhi, Nat.sub_self, fself]
    rw [h1, h2]; rfl

/-- The vb operand of a VEC word. -/
theorem dvb (s : Bool) (op : BitVec 7) (d a : BitVec 6) (b : VB) (t : BitVec 3) (x : BitVec 2) :
    decVB (bit1 s ++ (op ++ d ++ a ++ encVB b ++ t ++ x)) = b :=
  decVB_enc _ _ (by simp (disch := decide) only [fhi, flo, fself, Nat.sub_self])

theorem limits_ok {i : Instr} (h : wfErr i = none) : limits (.ok i) = .ok i := by simp only [limits, h]

/-- The prefix word gives its fields back. -/
theorem decPfx_enc (p : Pfx) : isPrefix (encPfx p) = true ∧ decPfx (encPfx p) = .ok p := by
  obtain ⟨m, z, r, v⟩ := p
  constructor
  · cases r <;> cases v <;> simp (disch := decide) only [isPrefix, encPfx, fld, fhi, flo] <;> rfl
  · cases r <;> cases v <;> simp (disch := decide) only [decPfx, encPfx, fld, bitOf, fhi, flo, fself, Nat.sub_self, ghi, glo, gbit,
      ofCode_rmode] <;> rfl

/-- From the decoding of an instruction's own word to that of its words. -/
theorem round_trip {i : Instr} {c : Cls} {b : BitVec 31} (he : encBody i = some (c, b)) (hp : c = .vec ∨ pfxOf i = none)
    (ho : c = .vec → ∀ s, isPrefix (bit1 s ++ b) = false) (hw : wfErr i = none)
    (hd : ∀ s, decClass c (pfxOf i) (bit1 s ++ b) = .ok i) (s : Bool) :
    decodeList c (encode s i) = .ok ⟨i, s, (encode s i).length⟩ := by
  have hs : bitOf (bit1 s ++ b) 31 = s := by
    have : (bit1 s ++ b).getLsbD 31 = (bit1 s).getLsbD 0 := by simp (disch := decide) only [ghi, Nat.sub_self]
    exact this.trans (gbit s)
  cases hpf : pfxOf i with
  | none =>
    have hd1 := hd s
    rw [hpf] at hd1
    have hn : ¬(c = .vec ∧ isPrefix (bit1 s ++ b) = true) := fun h => by simp [ho h.1 s] at h
    simp only [encode, he, hpf, decodeList, decodeWords, if_neg hn, hd1, limits_ok hw, hs, List.length]
  | some p =>
    have hc : c = .vec := by
      rcases hp with h | h
      · exact h
      · simp [hpf] at h
    subst hc
    have hd1 : decVec (some p) (bit1 s ++ b) = .ok i := by have := hd s; rwa [hpf] at this
    simp only [encode, he, hpf, decodeList, decodeWords, (decPfx_enc p).1, (decPfx_enc p).2, and_self, if_true, ho rfl s, hd1,
      limits_ok hw, hs, List.length]
    rfl

/-- What an instruction's words decode to. -/
def RoundTrip.Statement (i : Instr) : Prop :=
  ∀ c b, encBody i = some (c, b) → i.WellFormed → ∀ s, decodeList c (encode s i) = .ok ⟨i, s, (encode s i).length⟩

/-- For a class other than VEC the instruction's own word decides. -/
theorem RoundTrip.flat {i : Instr} {c : Cls} {b : BitVec 31} (he : encBody i = some (c, b)) (hc : c ≠ .vec) (hp : pfxOf i = none)
    (hd : i.WellFormed → ∀ s, decClass c none (bit1 s ++ b) = .ok i) : Statement i := by
  intro c2 b2 h hw s
  rw [he] at h
  cases h
  exact round_trip he (.inr hp) (fun h => absurd h hc) hw (fun s => by rw [hp]; exact hd hw s) s

/-- In class VEC too, since no op code of the table is the prefix's. -/
theorem RoundTrip.vec {i : Instr} {b : BitVec 31} (he : encBody i = some (.vec, b)) (ho : ∀ s, isPrefix (bit1 s ++ b) = false)
    (hd : ∀ s, decVec (pfxOf i) (bit1 s ++ b) = .ok i) : Statement i := by
  intro c2 b2 h hw s
  rw [he] at h
  cases h
  exact round_trip he (.inl rfl) (fun _ => ho) hw hd s

namespace RoundTrip

theorem clauseHeader (h : Word) : Statement (.clauseHeader h) := fun _ _ h => nomatch h
theorem sadd (d a b : BitVec 9) : Statement (.sadd d a b) :=
  flat (c := .srr) rfl (by decide) rfl fun _ s => by
    simp (disch := decide) only [decClass, decSrr, fld, fhi, flo, fself, Nat.sub_self]; rfl
theorem ssub (d a b : BitVec 9) : Statement (.ssub d a b) :=
  flat (c := .srr) rfl (by decide) rfl fun _ s => by
    simp (disch := decide) only [decClass, decSrr, fld, fhi, flo, fself, Nat.sub_self]; rfl
theorem smul (d a b : BitVec 9) : Statement (.smul d a b) :=
  flat (c := .srr) rfl (by decide) rfl fun _ s => by
    simp (disch := decide) only [decClass, decSrr, fld, fhi, flo, fself, Nat.sub_self]; rfl
theorem smulhiI (d a b : BitVec 9) : Statement (.smulhiI d a b) :=
  flat (c := .srr) rfl (by decide) rfl fun _ s => by
    simp (disch := decide) only [decClass, decSrr, fld, fhi, flo, fself, Nat.sub_self]; rfl
theorem smulhiN (d a b : BitVec 9) : Statement (.smulhiN d a b) :=
  flat (c := .srr) rfl (by decide) rfl fun _ s => by
    simp (disch := decide) only [decClass, decSrr, fld, fhi, flo, fself, Nat.sub_self]; rfl
theorem sand (d a b : BitVec 9) : Statement (.sand d a b) :=
  flat (c := .srr) rfl (by decide) rfl fun _ s => by
    simp (disch := decide) only [decClass, decSrr, fld, fhi, flo, fself, Nat.sub_self]; rfl
theorem sor (d a b : BitVec 9) : Statement (.sor d a b) :=
  flat (c := .srr) rfl (by decide) rfl fun _ s => by
    simp (disch := decide) only [decClass, decSrr, fld, fhi, flo, fself, Nat.sub_self]; rfl
theorem sxor (d a b : BitVec 9) : Statement (.sxor d a b) :=
  flat (c := .srr) rfl (by decide) rfl fun _ s => by
    simp (disch := decide) only [decClass, decSrr, fld, fhi, flo, fself, Nat.sub_self]; rfl
theorem sshl (d a b : BitVec 9) : Statement (.sshl d a b) :=
  flat (c := .srr) rfl (by decide) rfl fun _ s => by
    simp (disch := decide) only [decClass, decSrr, fld, fhi, flo, fself, Nat.sub_self]; rfl
theorem sshr (d a b : BitVec 9) : Statement (.sshr d a b) :=
  flat (c := .srr) rfl (by decide) rfl fun _ s => by
    simp (disch := decide) only [decClass, decSrr, fld, fhi, flo, fself, Nat.sub_self]; rfl
theorem ssra (d a b : BitVec 9) : Statement (.ssra d a b) :=
  flat (c := .srr) rfl (by decide) rfl fun _ s => by
    simp (disch := decide) only [decClass, decSrr, fld, fhi, flo, fself, Nat.sub_self]; rfl
theorem sminI (d a b : BitVec 9) : Statement (.sminI d a b) :=
  flat (c := .srr) rfl (by decide) rfl fun _ s => by
    simp (disch := decide) only [decClass, decSrr, fld, fhi, flo, fself, Nat.sub_self]; rfl
theorem smaxI (d a b : BitVec 9) : Statement (.smaxI d a b) :=
  flat (c := .srr) rfl (by decide) rfl fun _ s => by
    simp (disch := decide) only [decClass, decSrr, fld, fhi, flo, fself, Nat.sub_self]; rfl
theorem seq (d a b : BitVec 9) : Statement (.seq d a b) :=
  flat (c := .srr) rfl (by decide) rfl fun _ s => by
    simp (disch := decide) only [decClass, decSrr, fld, fhi, flo, fself, Nat.sub_self]; rfl
theorem sltI (d a b : BitVec 9) : Statement (.sltI d a b) :=
  flat (c := .srr) rfl (by decide) rfl fun _ s => by
    simp (disch := decide) only [decClass, decSrr, fld, fhi, flo, fself, Nat.sub_self]; rfl
theorem sltN (d a b : BitVec 9) : Statement (.sltN d a b) :=
  flat (c := .srr) rfl (by decide) rfl fun _ s => by
    simp (disch := decide) only [decClass, decSrr, fld, fhi, flo, fself, Nat.sub_self]
theorem saddi (d a i_ : BitVec 9) : Statement (.saddi d a i_) :=
  flat (c := .sri) rfl (by decide) rfl fun _ s => by
    simp (disch := decide) only [decClass, decSri, fld, fhi, flo, fself, Nat.sub_self]; rfl
theorem srsubi (d a i_ : BitVec 9) : Statement (.srsubi d a i_) :=
  flat (c := .sri) rfl (by decide) rfl fun _ s => by
    simp (disch := decide) only [decClass, decSri, fld, fhi, flo, fself, Nat.sub_self]; rfl
theorem smuli (d a i_ : BitVec 9) : Statement (.smuli d a i_) :=
  flat (c := .sri) rfl (by decide) rfl fun _ s => by
    simp (disch := decide) only [decClass, decSri, fld, fhi, flo, fself, Nat.sub_self]; rfl
theorem sandi (d a i_ : BitVec 9) : Statement (.sandi d a i_) :=
  flat (c := .sri) rfl (by decide) rfl fun _ s => by
    simp (disch := decide) only [decClass, decSri, fld, fhi, flo, fself, Nat.sub_self]; rfl
theorem sori (d a i_ : BitVec 9) : Statement (.sori d a i_) :=
  flat (c := .sri) rfl (by decide) rfl fun _ s => by
    simp (disch := decide) only [decClass, decSri, fld, fhi, flo, fself, Nat.sub_self]; rfl
theorem sxori (d a i_ : BitVec 9) : Statement (.sxori d a i_) :=
  flat (c := .sri) rfl (by decide) rfl fun _ s => by
    simp (disch := decide) only [decClass, decSri, fld, fhi, flo, fself, Nat.sub_self]; rfl
theorem sshli (d a i_ : BitVec 9) : Statement (.sshli d a i_) :=
  flat (c := .sri) rfl (by decide) rfl fun _ s => by
    simp (disch := decide) only [decClass, decSri, fld, fhi, flo, fself, Nat.sub_self]; rfl
theorem sshri (d a i_ : BitVec 9) : Statement (.sshri d a i_) :=
  flat (c := .sri) rfl (by decide) rfl fun _ s => by
    simp (disch := decide) only [decClass, decSri, fld, fhi, flo, fself, Nat.sub_self]; rfl
theorem ssrai (d a i_ : BitVec 9) : Statement (.ssrai d a i_) :=
  flat (c := .sri) rfl (by decide) rfl fun _ s => by
    simp (disch := decide) only [decClass, decSri, fld, fhi, flo, fself, Nat.sub_self]; rfl
theorem seqi (d a i_ : BitVec 9) : Statement (.seqi d a i_) :=
  flat (c := .sri) rfl (by decide) rfl fun _ s => by
    simp (disch := decide) only [decClass, decSri, fld, fhi, flo, fself, Nat.sub_self]; rfl
theorem sltiI (d a i_ : BitVec 9) : Statement (.sltiI d a i_) :=
  flat (c := .sri) rfl (by decide) rfl fun _ s => by
    simp (disch := decide) only [decClass, decSri, fld, fhi, flo, fself, Nat.sub_self]; rfl
theorem sltiN (d a i_ : BitVec 9) : Statement (.sltiN d a i_) :=
  flat (c := .sri) rfl (by decide) rfl fun _ s => by
    simp (disch := decide) only [decClass, decSri, fld, fhi, flo, fself, Nat.sub_self]; rfl
theorem sminiI (d a i_ : BitVec 9) : Statement (.sminiI d a i_) :=
  flat (c := .sri) rfl (by decide) rfl fun _ s => by
    simp (disch := decide) only [decClass, decSri, fld, fhi, flo, fself, Nat.sub_self]; rfl
theorem smaxiI (d a i_ : BitVec 9) : Statement (.smaxiI d a i_) :=
  flat (c := .sri) rfl (by decide) rfl fun _ s => by
    simp (disch := decide) only [decClass, decSri, fld, fhi, flo, fself, Nat.sub_self]; rfl
theorem sbfx (d a : BitVec 9) (pos : BitVec 5) (len : BitVec 4) : Statement (.sbfx d a pos len) :=
  flat (c := .sri) rfl (by decide) rfl fun _ s => by
    simp (disch := decide) only [decClass, decSri, fld, fhi, flo, fself, Nat.sub_self]; rfl
theorem nop : Statement (.nop) :=
  flat (c := .ctl) rfl (by decide) rfl fun _ s => by
    simp (disch := decide) only [decClass, decCtl, fld, fhi, flo, fself, Nat.sub_self]; rfl
theorem movi (d : BitVec 9) (i_ : BitVec 16) : Statement (.movi d i_) :=
  flat (c := .ctl) rfl (by decide) rfl fun _ s => by
    simp (disch := decide) only [decClass, decCtl, fld, fhi, flo, fself, Nat.sub_self]; rfl
theorem movhi (d : BitVec 9) (i_ : BitVec 16) : Statement (.movhi d i_) :=
  flat (c := .ctl) rfl (by decide) rfl fun _ s => by
    simp (disch := decide) only [decClass, decCtl, fld, fhi, flo, fself, Nat.sub_self]; rfl
theorem mov (d a : BitVec 9) : Statement (.mov d a) :=
  flat (c := .ctl) rfl (by decide) rfl fun _ s => by
    simp (disch := decide) only [decClass, decCtl, fld, fhi, flo, fself, Nat.sub_self]; rfl
theorem rds (d : BitVec 9) (r : SReg) : Statement (.rds d r) :=
  flat (c := .ctl) rfl (by decide) rfl fun _ s => by
    simp (disch := decide) only [decClass, decCtl, fld, fhi, flo, fself, Nat.sub_self, ofCode_sreg]; rfl
theorem wrs (r : SReg) (a : BitVec 9) : Statement (.wrs r a) :=
  flat (c := .ctl) rfl (by decide) rfl fun _ s => by
    simp (disch := decide) only [decClass, decCtl, fld, fhi, flo, fself, Nat.sub_self, ofCode_sreg]; rfl
theorem br (o : BitVec 25) : Statement (.br o) :=
  flat (c := .ctl) rfl (by decide) rfl fun _ s => by
    simp (disch := decide) only [decClass, decCtl, fld, fhi, flo, fself, Nat.sub_self]; rfl
theorem bz (a : BitVec 9) (o : BitVec 16) : Statement (.bz a o) :=
  flat (c := .ctl) rfl (by decide) rfl fun _ s => by
    simp (disch := decide) only [decClass, decCtl, fld, fhi, flo, fself, Nat.sub_self]; rfl
theorem bnz (a : BitVec 9) (o : BitVec 16) : Statement (.bnz a o) :=
  flat (c := .ctl) rfl (by decide) rfl fun _ s => by
    simp (disch := decide) only [decClass, decCtl, fld, fhi, flo, fself, Nat.sub_self]; rfl
theorem call (k : BitVec 3) (o : BitVec 22) : Statement (.call k o) :=
  flat (c := .ctl) rfl (by decide) rfl fun _ s => by
    simp (disch := decide) only [decClass, decCtl, fld, fhi, flo, fself, Nat.sub_self]; rfl
theorem ret : Statement (.ret) :=
  flat (c := .ctl) rfl (by decide) rfl fun _ s => by
    simp (disch := decide) only [decClass, decCtl, fld, fhi, flo, fself, Nat.sub_self]; rfl
theorem split (m : BitVec 3) (t r : BitVec 11) : Statement (.split m t r) :=
  flat (c := .ctl) rfl (by decide) rfl fun _ s => by
    simp (disch := decide) only [decClass, decCtl, fld, fhi, flo, fself, Nat.sub_self]; rfl
theorem join : Statement (.join) :=
  flat (c := .ctl) rfl (by decide) rfl fun _ s => by
    simp (disch := decide) only [decClass, decCtl, fld, fhi, flo, fself, Nat.sub_self]; rfl
theorem exit : Statement (.exit) :=
  flat (c := .ctl) rfl (by decide) rfl fun _ s => by
    simp (disch := decide) only [decClass, decCtl, fld, fhi, flo, fself, Nat.sub_self]; rfl
theorem waitc (p : Path) (a : BitVec 9) : Statement (.waitc p a) :=
  flat (c := .ctl) rfl (by decide) rfl fun _ s => by
    simp (disch := decide) only [decClass, decCtl, fld, fhi, flo, fself, Nat.sub_self, ofCode_path]; rfl
theorem barinit (n : BitVec 4) : Statement (.barinit n) :=
  flat (c := .ctl) rfl (by decide) rfl fun _ s => by
    simp (disch := decide) only [decClass, decCtl, fld, fhi, flo, fself, Nat.sub_self]; rfl
theorem barexp (k : BarKind) (n : BitVec 4) (a : BitVec 9) : Statement (.barexp k n a) :=
  flat (c := .ctl) rfl (by decide) rfl fun _ s => by
    simp (disch := decide) only [decClass, decCtl, fld, fhi, flo, fself, Nat.sub_self, ofCode_bar]; rfl
theorem barin (n : BitVec 4) : Statement (.barin n) :=
  flat (c := .ctl) rfl (by decide) rfl fun _ s => by
    simp (disch := decide) only [decClass, decCtl, fld, fhi, flo, fself, Nat.sub_self]; rfl
theorem barwait (n : BitVec 4) : Statement (.barwait n) :=
  flat (c := .ctl) rfl (by decide) rfl fun _ s => by
    simp (disch := decide) only [decClass, decCtl, fld, fhi, flo, fself, Nat.sub_self]; rfl
theorem barsync (n : BitVec 4) : Statement (.barsync n) :=
  flat (c := .ctl) rfl (by decide) rfl fun _ s => by
    simp (disch := decide) only [decClass, decCtl, fld, fhi, flo, fself, Nat.sub_self]; rfl
theorem fork : Statement (.fork) :=
  flat (c := .ctl) rfl (by decide) rfl fun _ s => by
    simp (disch := decide) only [decClass, decCtl, fld, fhi, flo, fself, Nat.sub_self]; rfl
theorem rdzv : Statement (.rdzv) :=
  flat (c := .ctl) rfl (by decide) rfl fun _ s => by
    simp (disch := decide) only [decClass, decCtl, fld, fhi, flo, fself, Nat.sub_self]; rfl
theorem yield : Statement (.yield) :=
  flat (c := .ctl) rfl (by decide) rfl fun _ s => by
    simp (disch := decide) only [decClass, decCtl, fld, fhi, flo, fself, Nat.sub_self]; rfl
theorem grow (d : BitVec 9) (n : BitVec 4) : Statement (.grow d n) :=
  flat (c := .ctl) rfl (by decide) rfl fun _ s => by
    simp (disch := decide) only [decClass, decCtl, fld, fhi, flo, fself, Nat.sub_self]; rfl
theorem shrink (n : BitVec 4) : Statement (.shrink n) :=
  flat (c := .ctl) rfl (by decide) rfl fun _ s => by
    simp (disch := decide) only [decClass, decCtl, fld, fhi, flo, fself, Nat.sub_self]; rfl
theorem setix (a : BitVec 9) (i_ : BitVec 16) : Statement (.setix a i_) :=
  flat (c := .ctl) rfl (by decide) rfl fun _ s => by
    simp (disch := decide) only [decClass, decCtl, fld, fhi, flo, fself, Nat.sub_self]; rfl
theorem vadd (p : Option Pfx) (t : VT) (x : Ix) (d a : BitVec 6) (b : VB) : Statement (.vadd p t x d a b) :=
  vec rfl (fun s => by simp (disch := decide) only [isPrefix, vecWord, fld, fhi, flo, fself, Nat.sub_self]; rfl) fun s => by
    simp (disch := decide) only [decVec, vecWord, pfxOf, fld, bitOf, fhi, flo, fself, Nat.sub_self, ghi, glo, ofCode_ix, ofCode_vt, dvb]; rfl
theorem vsub (p : Option Pfx) (t : VT) (x : Ix) (d a : BitVec 6) (b : VB) : Statement (.vsub p t x d a b) :=
  vec rfl (fun s => by simp (disch := decide) only [isPrefix, vecWord, fld, fhi, flo, fself, Nat.sub_self]; rfl) fun s => by
    simp (disch := decide) only [decVec, vecWord, pfxOf, fld, bitOf, fhi, flo, fself, Nat.sub_self, ghi, glo, ofCode_ix, ofCode_vt, dvb]; rfl
theorem vmul (p : Option Pfx) (t : VT) (x : Ix) (d a : BitVec 6) (b : VB) : Statement (.vmul p t x d a b) :=
  vec rfl (fun s => by simp (disch := decide) only [isPrefix, vecWord, fld, fhi, flo, fself, Nat.sub_self]; rfl) fun s => by
    simp (disch := decide) only [decVec, vecWord, pfxOf, fld, bitOf, fhi, flo, fself, Nat.sub_self, ghi, glo, ofCode_ix, ofCode_vt, dvb]; rfl
theorem vfma (p : Option Pfx) (t : VT) (x : Ix) (d a : BitVec 6) (b : VB) : Statement (.vfma p t x d a b) :=
  vec rfl (fun s => by simp (disch := decide) only [isPrefix, vecWord, fld, fhi, flo, fself, Nat.sub_self]; rfl) fun s => by
    simp (disch := decide) only [decVec, vecWord, pfxOf, fld, bitOf, fhi, flo, fself, Nat.sub_self, ghi, glo, ofCode_ix, ofCode_vt, dvb]; rfl
theorem vmin (p : Option Pfx) (t : VT) (x : Ix) (d a : BitVec 6) (b : VB) : Statement (.vmin p t x d a b) :=
  vec rfl (fun s => by simp (disch := decide) only [isPrefix, vecWord, fld, fhi, flo, fself, Nat.sub_self]; rfl) fun s => by
    simp (disch := decide) only [decVec, vecWord, pfxOf, fld, bitOf, fhi, flo, fself, Nat.sub_self, ghi, glo, ofCode_ix, ofCode_vt, dvb]; rfl
theorem vmax (p : Option Pfx) (t : VT) (x : Ix) (d a : BitVec 6) (b : VB) : Statement (.vmax p t x d a b) :=
  vec rfl (fun s => by simp (disch := decide) only [isPrefix, vecWord, fld, fhi, flo, fself, Nat.sub_self]; rfl) fun s => by
    simp (disch := decide) only [decVec, vecWord, pfxOf, fld, bitOf, fhi, flo, fself, Nat.sub_self, ghi, glo, ofCode_ix, ofCode_vt, dvb]; rfl
theorem vabs (p : Option Pfx) (t : VT) (x : Ix) (d a : BitVec 6) : Statement (.vabs p t x d a) :=
  vec rfl (fun s => by simp (disch := decide) only [isPrefix, vecWord, fld, fhi, flo, fself, Nat.sub_self]; rfl) fun s => by
    simp (disch := decide) only [decVec, vecWord, pfxOf, fld, bitOf, fhi, flo, fself, Nat.sub_self, ghi, glo, ofCode_ix, ofCode_vt]; rfl
theorem vneg (p : Option Pfx) (t : VT) (x : Ix) (d a : BitVec 6) : Statement (.vneg p t x d a) :=
  vec rfl (fun s => by simp (disch := decide) only [isPrefix, vecWord, fld, fhi, flo, fself, Nat.sub_self]; rfl) fun s => by
    simp (disch := decide) only [decVec, vecWord, pfxOf, fld, bitOf, fhi, flo, fself, Nat.sub_self, ghi, glo, ofCode_ix, ofCode_vt]; rfl
theorem vand (p : Option Pfx) (x : Ix) (d a : BitVec 6) (b : VB) : Statement (.vand p x d a b) :=
  vec rfl (fun s => by simp (disch := decide) only [isPrefix, vecWord, fld, fhi, flo, fself, Nat.sub_self]; rfl) fun s => by
    simp (disch := decide) only [decVec, vecWord, pfxOf, fld, bitOf, fhi, flo, fself, Nat.sub_self, ghi, glo, ofCode_ix, dvb]; rfl
theorem vor (p : Option Pfx) (x : Ix) (d a : BitVec 6) (b : VB) : Statement (.vor p x d a b) :=
  vec rfl (fun s => by simp (disch := decide) only [isPrefix, vecWord, fld, fhi, flo, fself, Nat.sub_self]; rfl) fun s => by
    simp (disch := decide) only [decVec, vecWord, pfxOf, fld, bitOf, fhi, flo, fself, Nat.sub_self, ghi, glo, ofCode_ix, dvb]; rfl
theorem vxor (p : Option Pfx) (x : Ix) (d a : BitVec 6) (b : VB) : Statement (.vxor p x d a b) :=
  vec rfl (fun s => by simp (disch := decide) only [isPrefix, vecWord, fld, fhi, flo, fself, Nat.sub_self]; rfl) fun s => by
    simp (disch := decide) only [decVec, vecWord, pfxOf, fld, bitOf, fhi, flo, fself, Nat.sub_self, ghi, glo, ofCode_ix, dvb]; rfl
theorem vnot (p : Option Pfx) (x : Ix) (d a : BitVec 6) : Statement (.vnot p x d a) :=
  vec rfl (fun s => by simp (disch := decide) only [isPrefix, vecWord, fld, fhi, flo, fself, Nat.sub_self]; rfl) fun s => by
    simp (disch := decide) only [decVec, vecWord, pfxOf, fld, bitOf, fhi, flo, fself, Nat.sub_self, ghi, glo, ofCode_ix]; rfl
theorem vshl (p : Option Pfx) (t : VT) (x : Ix) (d a : BitVec 6) (b : VB) : Statement (.vshl p t x d a b) :=
  vec rfl (fun s => by simp (disch := decide) only [isPrefix, vecWord, fld, fhi, flo, fself, Nat.sub_self]; rfl) fun s => by
    simp (disch := decide) only [decVec, vecWord, pfxOf, fld, bitOf, fhi, flo, fself, Nat.sub_self, ghi, glo, ofCode_ix, ofCode_vt, dvb]; rfl
theorem vshr (p : Option Pfx) (t : VT) (x : Ix) (d a : BitVec 6) (b : VB) : Statement (.vshr p t x d a b) :=
  vec rfl (fun s => by simp (disch := decide) only [isPrefix, vecWord, fld, fhi, flo, fself, Nat.sub_self]; rfl) fun s => by
    simp (disch := decide) only [decVec, vecWord, pfxOf, fld, bitOf, fhi, flo, fself, Nat.sub_self, ghi, glo, ofCode_ix, ofCode_vt, dvb]; rfl
theorem vsra (p : Option Pfx) (t : VT) (x : Ix) (d a : BitVec 6) (b : VB) : Statement (.vsra p t x d a b) :=
  vec rfl (fun s => by simp (disch := decide) only [isPrefix, vecWord, fld, fhi, flo, fself, Nat.sub_self]; rfl) fun s => by
    simp (disch := decide) only [decVec, vecWord, pfxOf, fld, bitOf, fhi, flo, fself, Nat.sub_self, ghi, glo, ofCode_ix, ofCode_vt, dvb]; rfl
theorem vmulhi (p : Option Pfx) (t : VT) (x : Ix) (d a : BitVec 6) (b : VB) : Statement (.vmulhi p t x d a b) :=
  vec rfl (fun s => by simp (disch := decide) only [isPrefix, vecWord, fld, fhi, flo, fself, Nat.sub_self]; rfl) fun s => by
    simp (disch := decide) only [decVec, vecWord, pfxOf, fld, bitOf, fhi, flo, fself, Nat.sub_self, ghi, glo, ofCode_ix, ofCode_vt, dvb]; rfl
theorem vcmp (p : Option Pfx) (t : VT) (c : Cond) (m : BitVec 3) (a : BitVec 6) (b : VB) : Statement (.vcmp p t c m a b) :=
  vec rfl (fun s => by simp (disch := decide) only [isPrefix, vecWord, fld, fhi, flo, fself, Nat.sub_self]; rfl) fun s => by
    simp (disch := decide) only [decVec, vecWord, pfxOf, fld, bitOf, fhi, flo, fself, Nat.sub_self, ghi, glo, ofCode_cond, ofCode_vt, dvb]; rfl
theorem vsel (p : Option Pfx) (m : BitVec 3) (x : Ix) (d a : BitVec 6) (b : VB) : Statement (.vsel p m x d a b) :=
  vec rfl (fun s => by simp (disch := decide) only [isPrefix, vecWord, fld, fhi, flo, fself, Nat.sub_self]; rfl) fun s => by
    simp (disch := decide) only [decVec, vecWord, pfxOf, fld, bitOf, fhi, flo, fself, Nat.sub_self, ghi, glo, ofCode_ix, dvb]; rfl
theorem vmov (p : Option Pfx) (x : Ix) (d : BitVec 6) (b : VB) : Statement (.vmov p x d b) :=
  vec rfl (fun s => by simp (disch := decide) only [isPrefix, vecWord, fld, fhi, flo, fself, Nat.sub_self]; rfl) fun s => by
    simp (disch := decide) only [decVec, vecWord, pfxOf, fld, bitOf, fhi, flo, fself, Nat.sub_self, ghi, glo, ofCode_ix, dvb]; rfl
theorem vbcast (p : Option Pfx) (w : SubW) (d a : BitVec 6) (lane : BitVec 5) : Statement (.vbcast p w d a lane) :=
  vec rfl (fun s => by simp (disch := decide) only [isPrefix, vecWord, fld, fhi, flo, fself, Nat.sub_self]; rfl) fun s => by
    simp (disch := decide) only [decVec, vecWord, pfxOf, fld, bitOf, fhi, flo, fself, Nat.sub_self, ghi, glo, ofCode_sub]; rfl
theorem vidx (p : Option Pfx) (x : Ix) (d : BitVec 6) : Statement (.vidx p x d) :=
  vec rfl (fun s => by simp (disch := decide) only [isPrefix, vecWord, fld, fhi, flo, fself, Nat.sub_self]; rfl) fun s => by
    simp (disch := decide) only [decVec, vecWord, pfxOf, fld, bitOf, fhi, flo, fself, Nat.sub_self, ghi, glo, ofCode_ix]; rfl
theorem vcvt (p : Option Pfx) (c : CvtCode) (nsat : Bool) (slot : BitVec 3) (x : Ix) (d a : BitVec 6) : Statement (.vcvt p c nsat slot x d a) :=
  vec rfl (fun s => by simp (disch := decide) only [isPrefix, vecWord, fld, fhi, flo, fself, Nat.sub_self]; rfl) fun s => by
    simp (disch := decide) only [decVec, vecWord, pfxOf, fld, bitOf, fhi, flo, fself, Nat.sub_self, ghi, glo, gbit, ofCode_cvt, ofCode_ix]; rfl
theorem vqcvt (p : Option Pfx) (slot : BitVec 3) (x : Ix) (d a : BitVec 6) : Statement (.vqcvt p slot x d a) :=
  vec rfl (fun s => by simp (disch := decide) only [isPrefix, vecWord, fld, fhi, flo, fself, Nat.sub_self]; rfl) fun s => by
    simp (disch := decide) only [decVec, vecWord, pfxOf, fld, bitOf, fhi, flo, fself, Nat.sub_self, ghi, glo, ofCode_ix]; rfl
theorem vsfu (p : Option Pfx) (f : SfuFn) (t : VT) (x : Ix) (d a : BitVec 6) : Statement (.vsfu p f t x d a) :=
  vec rfl (fun s => by simp (disch := decide) only [isPrefix, vecWord, fld, fhi, flo, fself, Nat.sub_self]; rfl) fun s => by
    simp (disch := decide) only [decVec, vecWord, pfxOf, fld, bitOf, fhi, flo, fself, Nat.sub_self, ghi, glo, ofCode_ix, ofCode_sfu, ofCode_vt]; rfl
theorem vshfl (p : Option Pfx) (w : SubW) (d a : BitVec 6) (b : VB) : Statement (.vshfl p w d a b) :=
  vec rfl (fun s => by simp (disch := decide) only [isPrefix, vecWord, fld, fhi, flo, fself, Nat.sub_self]; rfl) fun s => by
    simp (disch := decide) only [decVec, vecWord, pfxOf, fld, bitOf, fhi, flo, fself, Nat.sub_self, ghi, glo, ofCode_sub, dvb]; rfl
theorem vshflup (p : Option Pfx) (w : SubW) (d a : BitVec 6) (b : VB) : Statement (.vshflup p w d a b) :=
  vec rfl (fun s => by simp (disch := decide) only [isPrefix, vecWord, fld, fhi, flo, fself, Nat.sub_self]; rfl) fun s => by
    simp (disch := decide) only [decVec, vecWord, pfxOf, fld, bitOf, fhi, flo, fself, Nat.sub_self, ghi, glo, ofCode_sub, dvb]; rfl
theorem vshfldn (p : Option Pfx) (w : SubW) (d a : BitVec 6) (b : VB) : Statement (.vshfldn p w d a b) :=
  vec rfl (fun s => by simp (disch := decide) only [isPrefix, vecWord, fld, fhi, flo, fself, Nat.sub_self]; rfl) fun s => by
    simp (disch := decide) only [decVec, vecWord, pfxOf, fld, bitOf, fhi, flo, fself, Nat.sub_self, ghi, glo, ofCode_sub, dvb]; rfl
theorem vshflx (p : Option Pfx) (w : SubW) (d a : BitVec 6) (b : VB) : Statement (.vshflx p w d a b) :=
  vec rfl (fun s => by simp (disch := decide) only [isPrefix, vecWord, fld, fhi, flo, fself, Nat.sub_self]; rfl) fun s => by
    simp (disch := decide) only [decVec, vecWord, pfxOf, fld, bitOf, fhi, flo, fself, Nat.sub_self, ghi, glo, ofCode_sub, dvb]; rfl
theorem vvote (p : Option Pfx) (k : VoteKind) (w : SubW) (d a : BitVec 6) : Statement (.vvote p k w d a) :=
  vec rfl (fun s => by simp (disch := decide) only [isPrefix, vecWord, fld, fhi, flo, fself, Nat.sub_self]; rfl) fun s => by
    simp (disch := decide) only [decVec, vecWord, pfxOf, fld, bitOf, fhi, flo, fself, Nat.sub_self, ghi, glo, ofCode_sub, ofCode_vote]; rfl
theorem vred (p : Option Pfx) (op : VRedOp) (t : VT) (w : SubW) (d a : BitVec 6) : Statement (.vred p op t w d a) :=
  vec rfl (fun s => by simp (disch := decide) only [isPrefix, vecWord, fld, fhi, flo, fself, Nat.sub_self]; rfl) fun s => by
    simp (disch := decide) only [decVec, vecWord, pfxOf, fld, bitOf, fhi, flo, fself, Nat.sub_self, ghi, glo, ofCode_red, ofCode_sub, ofCode_vt]; rfl
theorem vscan (p : Option Pfx) (op : VRedOp) (ex : Bool) (t : VT) (w : SubW) (d a : BitVec 6) : Statement (.vscan p op ex t w d a) :=
  vec rfl (fun s => by simp (disch := decide) only [isPrefix, vecWord, fld, fhi, flo, fself, Nat.sub_self]; rfl) fun s => by
    simp (disch := decide) only [decVec, vecWord, pfxOf, fld, bitOf, fhi, flo, fself, Nat.sub_self, ghi, glo, gbit, ofCode_red, ofCode_sub, ofCode_vt]; rfl
theorem vpopc (p : Option Pfx) (x : Ix) (d a : BitVec 6) : Statement (.vpopc p x d a) :=
  vec rfl (fun s => by simp (disch := decide) only [isPrefix, vecWord, fld, fhi, flo, fself, Nat.sub_self]; rfl) fun s => by
    simp (disch := decide) only [decVec, vecWord, pfxOf, fld, bitOf, fhi, flo, fself, Nat.sub_self, ghi, glo, ofCode_ix]; rfl
theorem vclz (p : Option Pfx) (x : Ix) (d a : BitVec 6) : Statement (.vclz p x d a) :=
  vec rfl (fun s => by simp (disch := decide) only [isPrefix, vecWord, fld, fhi, flo, fself, Nat.sub_self]; rfl) fun s => by
    simp (disch := decide) only [decVec, vecWord, pfxOf, fld, bitOf, fhi, flo, fself, Nat.sub_self, ghi, glo, ofCode_ix]; rfl
theorem vdot4 (p : Option Pfx) (t : VT) (x : Ix) (d a : BitVec 6) (b : VB) : Statement (.vdot4 p t x d a b) :=
  vec rfl (fun s => by simp (disch := decide) only [isPrefix, vecWord, fld, fhi, flo, fself, Nat.sub_self]; rfl) fun s => by
    simp (disch := decide) only [decVec, vecWord, pfxOf, fld, bitOf, fhi, flo, fself, Nat.sub_self, ghi, glo, ofCode_ix, ofCode_vt, dvb]; rfl
theorem vtos (p : Option Pfx) (x : Ix) (d a : BitVec 6) (lane : BitVec 5) : Statement (.vtos p x d a lane) :=
  vec rfl (fun s => by simp (disch := decide) only [isPrefix, vecWord, fld, fhi, flo, fself, Nat.sub_self]; rfl) fun s => by
    simp (disch := decide) only [decVec, vecWord, pfxOf, fld, bitOf, fhi, flo, fself, Nat.sub_self, ghi, glo, ofCode_ix]; rfl
theorem vins (p : Option Pfx) (x : Ix) (d a : BitVec 6) (lane : BitVec 5) : Statement (.vins p x d a lane) :=
  vec rfl (fun s => by simp (disch := decide) only [isPrefix, vecWord, fld, fhi, flo, fself, Nat.sub_self]; rfl) fun s => by
    simp (disch := decide) only [decVec, vecWord, pfxOf, fld, bitOf, fhi, flo, fself, Nat.sub_self, ghi, glo, ofCode_ix]; rfl
theorem vpack (p : Option Pfx) (t : VT) (x : Ix) (d a : BitVec 6) (b : VB) : Statement (.vpack p t x d a b) :=
  vec rfl (fun s => by simp (disch := decide) only [isPrefix, vecWord, fld, fhi, flo, fself, Nat.sub_self]; rfl) fun s => by
    simp (disch := decide) only [decVec, vecWord, pfxOf, fld, bitOf, fhi, flo, fself, Nat.sub_self, ghi, glo, ofCode_ix, ofCode_vt, dvb]; rfl
theorem vunpk (p : Option Pfx) (t : VT) (hi : Bool) (d a : BitVec 6) : Statement (.vunpk p t hi d a) :=
  vec rfl (fun s => by simp (disch := decide) only [isPrefix, vecWord, fld, fhi, flo, fself, Nat.sub_self]; rfl) fun s => by
    simp (disch := decide) only [decVec, vecWord, pfxOf, fld, bitOf, fhi, flo, fself, Nat.sub_self, ghi, glo, gbit, ofCode_vt]; rfl
theorem lds (w : MemW) (d : BitVec 6) (b : BitVec 9) (m : AM) : Statement (.lds w d b m) :=
  flat (c := .mem) rfl (by decide) rfl fun _ s => by
    cases m <;> (simp (disch := decide) only [decClass, decMem, fld, bitOf, fhi, flo, fself, Nat.sub_self, ghi, glo, ofCode_memW, decAM, memWord]; rfl)
theorem sts (w : MemW) (d : BitVec 6) (b : BitVec 9) (m : AM) : Statement (.sts w d b m) :=
  flat (c := .mem) rfl (by decide) rfl fun _ s => by
    cases m <;> (simp (disch := decide) only [decClass, decMem, fld, bitOf, fhi, flo, fself, Nat.sub_self, ghi, glo, ofCode_memW, decAM, memWord]; rfl)
theorem ldp (w : MemW) (d : BitVec 6) (b : BitVec 9) (m : AM) : Statement (.ldp w d b m) :=
  flat (c := .mem) rfl (by decide) rfl fun _ s => by
    cases m <;> (simp (disch := decide) only [decClass, decMem, fld, bitOf, fhi, flo, fself, Nat.sub_self, ghi, glo, ofCode_memW, decAM, memWord]; rfl)
theorem stp (w : MemW) (d : BitVec 6) (b : BitVec 9) (m : AM) : Statement (.stp w d b m) :=
  flat (c := .mem) rfl (by decide) rfl fun _ s => by
    cases m <;> (simp (disch := decide) only [decClass, decMem, fld, bitOf, fhi, flo, fself, Nat.sub_self, ghi, glo, ofCode_memW, decAM, memWord]; rfl)
theorem sld (sp : Bool) (w : MemW) (d b : BitVec 9) (i_ : BitVec 5) : Statement (.sld sp w d b i_) :=
  flat (c := .mem) rfl (by decide) rfl fun hw s => by
    cases w <;> first | (simp (disch := decide) only [decClass, decMem, fld, bitOf, fhi, flo, fself, Nat.sub_self, ghi, glo, gbit]; rfl) | exact absurd hw (by rintro ⟨⟩)
theorem sst (sp : Bool) (w : MemW) (d b : BitVec 9) (i_ : BitVec 5) : Statement (.sst sp w d b i_) :=
  flat (c := .mem) rfl (by decide) rfl fun hw s => by
    cases w <;> first | (simp (disch := decide) only [decClass, decMem, fld, bitOf, fhi, flo, fself, Nat.sub_self, ghi, glo, gbit]; rfl) | exact absurd hw (by rintro ⟨⟩)
theorem atom (op : AtomOp) (ss : SS) (ret : Bool) (d : BitVec 6) (b : BitVec 9) : Statement (.atom op ss ret d b) :=
  flat (c := .mem) rfl (by decide) rfl fun _ s => by
    simp (disch := decide) only [decClass, decMem, fld, bitOf, fhi, flo, fself, Nat.sub_self, ghi, glo, gbit, ofCode_atom, ofCode_ss]; rfl
theorem atoms (op : AtomOp) (ss : SS) (ret : Bool) (d b : BitVec 9) : Statement (.atoms op ss ret d b) :=
  flat (c := .mem) rfl (by decide) rfl fun _ s => by
    simp (disch := decide) only [decClass, decMem, fld, bitOf, fhi, flo, fself, Nat.sub_self, ghi, glo, gbit, ofCode_atom, ofCode_ss]; rfl
theorem ldacq (ss : SS) (d b : BitVec 9) (i_ : BitVec 5) : Statement (.ldacq ss d b i_) :=
  flat (c := .mem) rfl (by decide) rfl fun _ s => by
    simp (disch := decide) only [decClass, decMem, fld, bitOf, fhi, flo, fself, Nat.sub_self, ghi, glo, ofCode_ss]; rfl
theorem strel (ss : SS) (d b : BitVec 9) (i_ : BitVec 5) : Statement (.strel ss d b i_) :=
  flat (c := .mem) rfl (by decide) rfl fun _ s => by
    simp (disch := decide) only [decClass, decMem, fld, bitOf, fhi, flo, fself, Nat.sub_self, ghi, glo, ofCode_ss]; rfl
theorem mma (base : BitVec 3) (n : BitVec 2) (a b : BitVec 6) (steps : BitVec 4) (f : BitVec 3) : Statement (.mma base n a b steps f) :=
  flat (c := .mtx) rfl (by decide) rfl fun _ s => by
    simp (disch := decide) only [decClass, decMtx, fld, fhi, flo, fself, Nat.sub_self]; rfl
theorem mmas (base : BitVec 3) (n : BitVec 2) (a b : BitVec 6) (steps : BitVec 4) (f : BitVec 3) : Statement (.mmas base n a b steps f) :=
  flat (c := .mtx) rfl (by decide) rfl fun _ s => by
    simp (disch := decide) only [decClass, decMtx, fld, fhi, flo, fself, Nat.sub_self]; rfl
theorem mzero (base : BitVec 3) (n : BitVec 2) : Statement (.mzero base n) :=
  flat (c := .mtx) rfl (by decide) rfl fun _ s => by
    simp (disch := decide) only [decClass, decMtx, fld, fhi, flo, fself, Nat.sub_self]; rfl
theorem mmap (r : MRole) (g : BitVec 6) : Statement (.mmap r g) := by
  cases r <;> exact flat (c := .mtx) rfl (by decide) rfl fun _ s => by
    simp (disch := decide) only [decClass, decMtx, fld, fhi, flo, fself, Nat.sub_self]; rfl
theorem mbin (n : BitVec 4) : Statement (.mbin n) :=
  flat (c := .mtx) rfl (by decide) rfl fun _ s => by
    simp (disch := decide) only [decClass, decMtx, fld, fhi, flo, fself, Nat.sub_self]; rfl
theorem mbwait (n : BitVec 4) : Statement (.mbwait n) :=
  flat (c := .mtx) rfl (by decide) rfl fun _ s => by
    simp (disch := decide) only [decClass, decMtx, fld, fhi, flo, fself, Nat.sub_self]; rfl
theorem mloop (k : BitVec 4) (o : BitVec 22) : Statement (.mloop k o) :=
  flat (c := .mtx) rfl (by decide) rfl fun _ s => by
    simp (disch := decide) only [decClass, decMtx, fld, fhi, flo, fself, Nat.sub_self]; rfl
theorem mjmp (o : BitVec 22) : Statement (.mjmp o) :=
  flat (c := .mtx) rfl (by decide) rfl fun _ s => by
    simp (disch := decide) only [decClass, decMtx, fld, fhi, flo, fself, Nat.sub_self]; rfl
theorem mend : Statement (.mend) :=
  flat (c := .mtx) rfl (by decide) rfl fun _ s => by
    simp (disch := decide) only [decClass, decMtx, fld, fhi, flo, fself, Nat.sub_self]; rfl
theorem mset (d : MDst) (i_ : BitVec 16) : Statement (.mset d i_) := by
  cases d <;> exact flat (c := .mtx) rfl (by decide) rfl fun _ s => by
    simp (disch := decide) only [decClass, decMtx, fld, fhi, flo, fself, Nat.sub_self]; rfl
theorem mshare (v : BitVec 4) : Statement (.mshare v) :=
  flat (c := .mtx) rfl (by decide) rfl fun _ s => by
    simp (disch := decide) only [decClass, decMtx, fld, fhi, flo, fself, Nat.sub_self]; rfl
theorem mcpy (d s_ : BitVec 3) : Statement (.mcpy d s_) :=
  flat (c := .mtx) rfl (by decide) rfl fun _ s => by
    simp (disch := decide) only [decClass, decMtx, fld, fhi, flo, fself, Nat.sub_self]; rfl
theorem cpy (rel res : Bool) (d : BitVec 9) (bar : Option (BitVec 4)) : Statement (.cpy rel res d bar) :=
  flat (c := .asy) rfl (by decide) rfl fun _ s => by
    cases bar <;> (simp (disch := decide) only [decClass, decAsy, fld, bitOf, fhi, flo, fself, Nat.sub_self, ghi, glo, gbit, asyWord, encBar, ghi, glo, Nat.sub_self]; rfl)
theorem cpymc (rel : Bool) (d x : BitVec 9) (bar : Option (BitVec 4)) : Statement (.cpymc rel d x bar) :=
  flat (c := .asy) rfl (by decide) rfl fun _ s => by
    cases bar <;> (simp (disch := decide) only [decClass, decAsy, fld, bitOf, fhi, flo, fself, Nat.sub_self, ghi, glo, gbit, asyWord, encBar, ghi, glo, Nat.sub_self]; rfl)
theorem cpyred (rel : Bool) (d x : BitVec 9) (bar : Option (BitVec 4)) : Statement (.cpyred rel d x bar) :=
  flat (c := .asy) rfl (by decide) rfl fun _ s => by
    cases bar <;> (simp (disch := decide) only [decClass, decAsy, fld, bitOf, fhi, flo, fself, Nat.sub_self, ghi, glo, gbit, asyWord, encBar, ghi, glo, Nat.sub_self]; rfl)
theorem gathPark (d : BitVec 9) (bar : Option (BitVec 4)) : Statement (.gathPark d bar) :=
  flat (c := .asy) rfl (by decide) rfl fun _ s => by
    cases bar <;> (simp (disch := decide) only [decClass, decAsy, fld, bitOf, fhi, flo, fself, Nat.sub_self, asyWord, encBar, ghi, glo, Nat.sub_self]; rfl)
theorem gathTol (d x : BitVec 9) (bar : Option (BitVec 4)) : Statement (.gathTol d x bar) :=
  flat (c := .asy) rfl (by decide) rfl fun _ s => by
    cases bar <;> (simp (disch := decide) only [decClass, decAsy, fld, bitOf, fhi, flo, fself, Nat.sub_self, asyWord, encBar, ghi, glo, Nat.sub_self]; rfl)
theorem scat (rel : Bool) (d : BitVec 9) (bar : Option (BitVec 4)) : Statement (.scat rel d bar) :=
  flat (c := .asy) rfl (by decide) rfl fun _ s => by
    cases bar <;> (simp (disch := decide) only [decClass, decAsy, fld, bitOf, fhi, flo, fself, Nat.sub_self, ghi, glo, gbit, asyWord, encBar, ghi, glo, Nat.sub_self]; rfl)
theorem resadd (d : BitVec 9) : Statement (.resadd d) :=
  flat (c := .asy) rfl (by decide) rfl fun _ s => by
    simp (disch := decide) only [decClass, decAsy, fld, bitOf, fhi, flo, fself, Nat.sub_self, glo]; rfl
theorem resdel (d : BitVec 9) : Statement (.resdel d) :=
  flat (c := .asy) rfl (by decide) rfl fun _ s => by
    simp (disch := decide) only [decClass, decAsy, fld, bitOf, fhi, flo, fself, Nat.sub_self, glo]; rfl
theorem resq (x d : BitVec 9) : Statement (.resq x d) :=
  flat (c := .asy) rfl (by decide) rfl fun _ s => by
    simp (disch := decide) only [decClass, decAsy, fld, bitOf, fhi, flo, fself, Nat.sub_self, ghi, glo]; rfl
theorem enq (d : BitVec 9) : Statement (.enq d) :=
  flat (c := .asy) rfl (by decide) rfl fun _ s => by
    simp (disch := decide) only [decClass, decAsy, fld, bitOf, fhi, flo, fself, Nat.sub_self, glo]; rfl
theorem qpost (d : BitVec 9) : Statement (.qpost d) :=
  flat (c := .asy) rfl (by decide) rfl fun _ s => by
    simp (disch := decide) only [decClass, decAsy, fld, bitOf, fhi, flo, fself, Nat.sub_self, glo]; rfl
theorem modeM : Statement (.modeM) :=
  flat (c := .sys) rfl (by decide) rfl fun _ s => by
    simp (disch := decide) only [decClass, decSys, fld, bitOf, fhi, flo, fself, Nat.sub_self, glo]; rfl
theorem modeV (n : BitVec 4) : Statement (.modeV n) :=
  flat (c := .sys) rfl (by decide) rfl fun _ s => by
    simp (disch := decide) only [decClass, decSys, fld, bitOf, fhi, flo, fself, Nat.sub_self, glo]; rfl
theorem vpin (d v : BitVec 9) : Statement (.vpin d v) :=
  flat (c := .sys) rfl (by decide) rfl fun _ s => by
    simp (disch := decide) only [decClass, decSys, fld, bitOf, fhi, flo, fself, Nat.sub_self, glo]; rfl
theorem vunpin (v sl : BitVec 9) : Statement (.vunpin v sl) :=
  flat (c := .sys) rfl (by decide) rfl fun _ s => by
    simp (disch := decide) only [decClass, decSys, fld, bitOf, fhi, flo, fself, Nat.sub_self, glo]; rfl
theorem vwait (q v : BitVec 9) : Statement (.vwait q v) :=
  flat (c := .sys) rfl (by decide) rfl fun _ s => by
    simp (disch := decide) only [decClass, decSys, fld, bitOf, fhi, flo, fself, Nat.sub_self, glo]; rfl
theorem phacq (sc : Scope) : Statement (.phacq sc) :=
  flat (c := .sys) rfl (by decide) rfl fun _ s => by
    simp (disch := decide) only [decClass, decSys, fld, bitOf, fhi, flo, fself, Nat.sub_self, ghi, glo, ofCode_scope]; rfl
theorem phrel (sc : Scope) : Statement (.phrel sc) :=
  flat (c := .sys) rfl (by decide) rfl fun _ s => by
    simp (disch := decide) only [decClass, decSys, fld, bitOf, fhi, flo, fself, Nat.sub_self, ghi, glo, ofCode_scope]; rfl
theorem fence (sc : Scope) : Statement (.fence sc) :=
  flat (c := .sys) rfl (by decide) rfl fun _ s => by
    simp (disch := decide) only [decClass, decSys, fld, bitOf, fhi, flo, fself, Nat.sub_self, ghi, glo, ofCode_scope]; rfl
theorem trap (i_ : BitVec 8) : Statement (.trap i_) :=
  flat (c := .sys) rfl (by decide) rfl fun _ s => by
    simp (disch := decide) only [decClass, decSys, fld, bitOf, fhi, flo, fself, Nat.sub_self, glo]; rfl
theorem brk (i_ : BitVec 8) : Statement (.brk i_) :=
  flat (c := .sys) rfl (by decide) rfl fun _ s => by
    simp (disch := decide) only [decClass, decSys, fld, bitOf, fhi, flo, fself, Nat.sub_self, glo]; rfl
theorem tagset (d : BitVec 9) : Statement (.tagset d) :=
  flat (c := .sys) rfl (by decide) rfl fun _ s => by
    simp (disch := decide) only [decClass, decSys, fld, bitOf, fhi, flo, fself, Nat.sub_self, glo]; rfl
theorem snap : Statement (.snap) :=
  flat (c := .sys) rfl (by decide) rfl fun _ s => by
    simp (disch := decide) only [decClass, decSys, fld, bitOf, fhi, flo, fself, Nat.sub_self, glo]; rfl
theorem gbar : Statement (.gbar) :=
  flat (c := .sys) rfl (by decide) rfl fun _ s => by
    simp (disch := decide) only [decClass, decSys, fld, bitOf, fhi, flo, fself, Nat.sub_self, glo]; rfl
theorem invrg (d x : BitVec 9) : Statement (.invrg d x) :=
  flat (c := .sys) rfl (by decide) rfl fun _ s => by
    simp (disch := decide) only [decClass, decSys, fld, bitOf, fhi, flo, fself, Nat.sub_self, glo]; rfl
theorem loadComplete (g id : Nat) : Statement (.loadComplete g id) := fun _ _ h => nomatch h
theorem storePerformed (g id : Nat) : Statement (.storePerformed g id) := fun _ _ h => nomatch h
theorem atomicPerform (g id l : Nat) : Statement (.atomicPerform g id l) := fun _ _ h => nomatch h
theorem vsfuResult (g id : Nat) : Statement (.vsfuResult g id) := fun _ _ h => nomatch h
theorem copyDelivery (b k : Nat) : Statement (.copyDelivery b k) := fun _ _ h => nomatch h
theorem multicastDelivery (b k c : Nat) : Statement (.multicastDelivery b k c) := fun _ _ h => nomatch h
theorem reductionContribution (b : Nat) : Statement (.reductionContribution b) := fun _ _ h => nomatch h
theorem gatherLaneDelivery (b l : Nat) : Statement (.gatherLaneDelivery b l) := fun _ _ h => nomatch h
theorem scatterRowWrite (b l : Nat) : Statement (.scatterRowWrite b l) := fun _ _ h => nomatch h
theorem pendingWritePublish (c a : Nat) : Statement (.pendingWritePublish c a) := fun _ _ h => nomatch h
theorem matrixStepWrite (t : Nat) : Statement (.matrixStepWrite t) := fun _ _ h => nomatch h
theorem sequencerRunawayStop (t : Nat) : Statement (.sequencerRunawayStop t) := fun _ _ h => nomatch h
theorem growGrant (c q : Nat) : Statement (.growGrant c q) := fun _ _ h => nomatch h
theorem activeSetEntry (c q : Nat) : Statement (.activeSetEntry c q) := fun _ _ h => nomatch h
theorem groupRelease (g : Nat) : Statement (.groupRelease g) := fun _ _ h => nomatch h
theorem taskRetire (t : Nat) : Statement (.taskRetire t) := fun _ _ h => nomatch h
theorem commandComplete (c : Nat) : Statement (.commandComplete c) := fun _ _ h => nomatch h
theorem qclaim (m : Master) (q : Nat) : Statement (.qclaim m q) := fun _ _ h => nomatch h
theorem qdoor (m : Master) (v : Word) : Statement (.qdoor m v) := fun _ _ h => nomatch h
theorem launch (q : Nat) : Statement (.launch q) := fun _ _ h => nomatch h
theorem copyPacket (q : Nat) : Statement (.copyPacket q) := fun _ _ h => nomatch h
theorem signal (q : Nat) : Statement (.signal q) := fun _ _ h => nomatch h
theorem waitvalue (q : Nat) : Statement (.waitvalue q) := fun _ _ h => nomatch h
theorem waitvaluePoll (q : Nat) : Statement (.waitvaluePoll q) := fun _ _ h => nomatch h
theorem inval (q : Nat) : Statement (.inval q) := fun _ _ h => nomatch h
theorem configCreate (q : Nat) : Statement (.configCreate q) := fun _ _ h => nomatch h
theorem configDestroy (q : Nat) : Statement (.configDestroy q) := fun _ _ h => nomatch h
theorem configSkip (q : Nat) : Statement (.configSkip q) := fun _ _ h => nomatch h
theorem placementStep : Statement (.placementStep) := fun _ _ h => nomatch h
theorem preemption (cl : Nat) : Statement (.preemption cl) := fun _ _ h => nomatch h
theorem saveAreaWrite (cl : Nat) : Statement (.saveAreaWrite cl) := fun _ _ h => nomatch h
theorem sealPoint (t : Nat) : Statement (.sealPoint t) := fun _ _ h => nomatch h
theorem curdSlotChoice (t : Nat) : Statement (.curdSlotChoice t) := fun _ _ h => nomatch h
theorem staggerWave (t w : Nat) : Statement (.staggerWave t w) := fun _ _ h => nomatch h
theorem timeLimitCut (t : Nat) : Statement (.timeLimitCut t) := fun _ _ h => nomatch h
theorem energyLimitCut (t : Nat) : Statement (.energyLimitCut t) := fun _ _ h => nomatch h
theorem cutVatEnd (t : Nat) : Statement (.cutVatEnd t) := fun _ _ h => nomatch h
theorem vpinRead (m : Master) (i_ : Nat) : Statement (.vpinRead m i_) := fun _ _ h => nomatch h
theorem vpinPin (m : Master) (i_ : Nat) : Statement (.vpinPin m i_) := fun _ _ h => nomatch h
theorem vpinUnpin (m : Master) (i_ : Nat) : Statement (.vpinUnpin m i_) := fun _ _ h => nomatch h
theorem vpinClear (m : Master) (i_ : Nat) : Statement (.vpinClear m i_) := fun _ _ h => nomatch h
theorem walkStart (d : Nat) : Statement (.walkStart d) := fun _ _ h => nomatch h
theorem walkEnd (d k : Nat) : Statement (.walkEnd d k) := fun _ _ h => nomatch h
theorem fltreplay (d : Nat) (v : Word) : Statement (.fltreplay d v) := fun _ _ h => nomatch h
theorem invalidationPerform (n : Nat) : Statement (.invalidationPerform n) := fun _ _ h => nomatch h
theorem invalidationComplete (n : Nat) : Statement (.invalidationComplete n) := fun _ _ h => nomatch h
theorem invrange (m : Master) (v : Word) : Statement (.invrange m v) := fun _ _ h => nomatch h
theorem rangeEntryWrite (d i_ : Nat) (img : List Word) : Statement (.rangeEntryWrite d i_ img) := fun _ _ h => nomatch h
theorem grantBudgetUpdate (mw : Nat) : Statement (.grantBudgetUpdate mw) := fun _ _ h => nomatch h
theorem boostIntervalStart (mw : Nat) : Statement (.boostIntervalStart mw) := fun _ _ h => nomatch h
theorem clockStepRise (c : Nat) : Statement (.clockStepRise c) := fun _ _ h => nomatch h
theorem ballastCheck : Statement (.ballastCheck) := fun _ _ h => nomatch h
theorem ballastRampEnd (c : Nat) : Statement (.ballastRampEnd c) := fun _ _ h => nomatch h
theorem capMessage (seq : Word) (w : Nat) : Statement (.capMessage seq w) := fun _ _ h => nomatch h
theorem capLeaseExpiry : Statement (.capLeaseExpiry) := fun _ _ h => nomatch h
theorem thermalBoostHold (on : Bool) : Statement (.thermalBoostHold on) := fun _ _ h => nomatch h
theorem thermalBudgetFloor (on : Bool) : Statement (.thermalBudgetFloor on) := fun _ _ h => nomatch h
theorem thermalShutdown : Statement (.thermalShutdown) := fun _ _ h => nomatch h
theorem stopComplete (k : Nat) : Statement (.stopComplete k) := fun _ _ h => nomatch h
theorem snaptrigArm (v : Word) : Statement (.snaptrigArm v) := fun _ _ h => nomatch h
theorem snaptrigFire (v : Word) : Statement (.snaptrigFire v) := fun _ _ h => nomatch h
theorem sampleTag (c q : Nat) : Statement (.sampleTag c q) := fun _ _ h => nomatch h
theorem sampleRecordWrite (c q : Nat) : Statement (.sampleRecordWrite c q) := fun _ _ h => nomatch h
theorem replayGateTimeout (c : Nat) : Statement (.replayGateTimeout c) := fun _ _ h => nomatch h
theorem mboxSend (m : Master) (n : Nat) : Statement (.mboxSend m n) := fun _ _ h => nomatch h
theorem mboxPop (m : Master) (n : Nat) : Statement (.mboxPop m n) := fun _ _ h => nomatch h
theorem spaceCreate : Statement (.spaceCreate) := fun _ _ h => nomatch h
theorem spaceDestroy : Statement (.spaceDestroy) := fun _ _ h => nomatch h
theorem queue0Init : Statement (.queue0Init) := fun _ _ h => nomatch h
theorem accessWrite : Statement (.accessWrite) := fun _ _ h => nomatch h
theorem debugEnable : Statement (.debugEnable) := fun _ _ h => nomatch h
theorem record : Statement (.record) := fun _ _ h => nomatch h
theorem replay : Statement (.replay) := fun _ _ h => nomatch h
theorem stop : Statement (.stop) := fun _ _ h => nomatch h
theorem resume : Statement (.resume) := fun _ _ h => nomatch h
theorem freeze : Statement (.freeze) := fun _ _ h => nomatch h
theorem stateRead : Statement (.stateRead) := fun _ _ h => nomatch h
theorem stateWrite : Statement (.stateWrite) := fun _ _ h => nomatch h
theorem watch : Statement (.watch) := fun _ _ h => nomatch h
theorem sample : Statement (.sample) := fun _ _ h => nomatch h
theorem assign : Statement (.assign) := fun _ _ h => nomatch h
theorem quicksetTakeover (failed : List Nat) : Statement (.quicksetTakeover failed) := fun _ _ h => nomatch h
theorem coldReset (ok : Bool) : Statement (.coldReset ok) := fun _ _ h => nomatch h
theorem warmReset : Statement .warmReset := fun _ _ h => nomatch h
theorem firmwareUpdate : Statement (.firmwareUpdate) := fun _ _ h => nomatch h
theorem firmwareActivate : Statement (.firmwareActivate) := fun _ _ h => nomatch h
theorem managementOverride : Statement (.managementOverride) := fun _ _ h => nomatch h
theorem attestationRequest (nonce : List Byte) : Statement (.attestationRequest nonce) := fun _ _ h => nomatch h
theorem pldmSensorRead : Statement (.pldmSensorRead) := fun _ _ h => nomatch h
theorem uncorrectableError (src : ErrSource) (who : Consumer) (addr : Nat) : Statement (.uncorrectableError src who addr) := fun _ _ h => nomatch h
theorem portRetrainFail (p : Nat) : Statement (.portRetrainFail p) := fun _ _ h => nomatch h
theorem peerRequest (p : Nat) (r : PeerReq) : Statement (.peerRequest p r) := fun _ _ h => nomatch h
theorem acctab (m : Master) (v : Word) : Statement (.acctab m v) := fun _ _ h => nomatch h
theorem reswin (m : Master) (v : Word) : Statement (.reswin m v) := fun _ _ h => nomatch h
theorem registerWrite (m : Master) (off : Nat) (v : Word) : Statement (.registerWrite m off v) := fun _ _ h => nomatch h
theorem deviceFailure (c : Nat) : Statement (.deviceFailure c) := fun _ _ h => nomatch h
theorem preemptionAbandon (cl : Nat) : Statement (.preemptionAbandon cl) := fun _ _ h => nomatch h
theorem correctedSoftError (src : ErrSource) : Statement (.correctedSoftError src) := fun _ _ h => nomatch h
theorem hdmAccess (f : Nat) (wr : Bool) (addr : Nat) (data : List Byte) : Statement (.hdmAccess f wr addr data) := fun _ _ h => nomatch h
theorem peerRefusal (b : Nat) : Statement (.peerRefusal b) := fun _ _ h => nomatch h

end RoundTrip

open RoundTrip in
theorem RoundTrip.seal (last : Bool) (q d : BitVec 9) : Statement (.seal last q d) :=
  flat (c := .sys) rfl (by decide) rfl fun _ s => by
    simp (disch := decide) only [decClass, decSys, fld, bitOf, fhi, flo, fself, Nat.sub_self, ghi, glo, gbit]; rfl

end Sys2Proof.Laws
end

