-- ==== Sys2Proof/Safety.lean ====
section
/-! DEFINITION. The terms the statements use: the canonical form of memory, and what a word leaves unchanged besides its own
effect. -/
set_option Elab.async false
namespace Sys2Proof.Machine

/-- The canonical form of the state's memory. -/
abbrev State.memOk (s : State) : Prop := memWf s.mem

/-- All of a group but where its fragments stand: program counters, clauses, waits, split records, rotation, switch marker and its place; and, at a
marker, which bytes its own deliveries bind it to see (08 R152). -/
def Group.kept (g : Group) : Group := { g with frags := [], splits := [], rot := 0, marked := false, parkPc := 0, own := [], dlv := [] }
/-- All of a core but the counters that issuing itself moves (15 R277, R278, 14 R265). -/
def Core.kept (c : Core) : Core := { c with evc := [], issued := 0, ramp := none, samp := [] }
/-- All of the state but its groups, its cores, and the schedule. -/
def State.kept (s : State) : State := { s with groups := [], cores := [], agenda := [], issue := .none }

/-- Two states that agree but for one group: every byte of memory, every other group, every team, barrier, cluster, task,
command, queue and table, every register of every unit; of a core all that `Core.kept` keeps. -/
structure WordFrame (s t : State) (gid : Nat) : Prop where
  rest : t.kept = s.kept
  cores : ∀ n, (coreOf t n).kept = (coreOf s n).kept
  groups : ∀ x, x ≠ gid → kvFind t.groups x = kvFind s.groups x

/-- `t` is `s` after the bookkeeping of an issued word: the issuing group keeps all that `Group.kept` keeps. -/
structure Follows (s t : State) (gid : Nat) : Prop where
  frame : WordFrame s t gid
  group : ∀ g, kvFind s.groups gid = some g → ∃ h, kvFind t.groups gid = some h ∧ h.kept = g.kept

/-- A fragment issues a word that the static limits allow. -/
abbrev Issues (i : Instr) (s : State) (c : Ctx) : Prop := issueOf s = some c ∧ i.WellFormed

/-- In the middle of a clause the issuing fragment goes on with the word after. -/
def GoesOn (c : Ctx) (t : State) : Prop :=
  ∀ k left, c.f.cl = some (k, left) → c.words < left →
    ∃ g, kvFind t.groups c.gid = some g ∧
      findFrag g c.fid = some { c.f with
        pc := c.f.pc + BitVec.ofNat 32 (4 * c.words), cl := some (k, left - c.words), park := .run, passed := [] }

/-- The word completes: `exec` answers a next state, which is `s1` but for the bookkeeping, and the fragment goes on. -/
def Completes (i : Instr) (s : State) (c : Ctx) (s1 : State) : Prop :=
  ∃ t, exec i s = .next t ∧ Follows s1 t c.gid ∧ GoesOn c t
/-- The word completes and changes its group by `k` alone. -/
def Changes (i : Instr) (s : State) (c : Ctx) (k : Group → Group) : Prop := Completes i s c (modGroup s c.gid k)

/-- The word completes and its fragment goes to a code address: there it stands at a header, unless the address is the rejoin
of a split record that holds its lanes (05 R87). -/
def JumpsTo (i : Instr) (s : State) (c : Ctx) (s1 : State) (pc : Word) : Prop :=
  ∃ t, exec i s = .next t ∧ Follows s1 t c.gid ∧
    (c.g.splits = [] → ∃ g f, kvFind t.groups c.gid = some g ∧ f ∈ g.frags ∧ f.lanes = c.f.lanes ∧ f.pc = pc ∧ f.cl = none)
/-- The word completes and its fragment then waits. -/
def Parks (i : Instr) (s : State) (c : Ctx) (s1 : State) (p : Park) : Prop :=
  ∃ t, exec i s = .next t ∧ Follows s1 t c.gid ∧
    ∃ g f, kvFind t.groups c.gid = some g ∧ findFrag g c.fid = some f ∧ f.park = p ∧
      f.pc = c.f.pc + BitVec.ofNat 32 (4 * c.words)
/-- The word does not issue: it traps (04 R78, 05 R105). -/
def Traps (i : Instr) (s : State) (c : Ctx) (s1 : State) (cause : Cause) (code : Nat) : Prop :=
  exec i s = .next { takeTrap s1 c.gid c.fid cause code c.f.pc with issue := .none }
/-- The word does not issue yet: its fragment waits at it and nothing else changes. -/
def Waits (i : Instr) (s : State) (c : Ctx) (s1 : State) (p : Park) : Prop :=
  exec i s = .next { setPark s1 c.gid c.fid p with issue := .none }

/-! The vector frame (19 R371). -/

/-- The vector registers a word names lie in the window, below v32 in matrix mode (04 R65, 06 R109). -/
abbrev NamesOk (g : Group) (ns : List Int) : Prop := ∀ j ∈ ns, 0 ≤ j ∧ j < window g ∧ (g.matrix = true → j < 32)

/-- The lanes of a fragment that a word with this prefix zeroes: outside E, under Z. -/
abbrev zeroed (g : Group) (f : Frag) (p : Option Pfx) (l : Nat) : Prop :=
  l < 32 ∧ f.lanes.getLsbD l = true ∧ (execLanes g f p).getLsbD l = false ∧ zeroing p = true

/-- A group after a word within the frame: each active lane of vd holds its value, the zeroed lanes 0, every other lane of it and
every other register what it held; the flags of the active lanes are ORed into %fx; nothing else of the group changes. -/
structure LaneResult (f : Frag) (p : Option Pfx) (d : Int) (val : Nat → Word × BitVec 5) (g h : Group) : Prop where
  active : ∀ l, l < 32 → (execLanes g f p).getLsbD l = true → getN h d l = (val l).1
  inactive : ∀ l, zeroed g f p l → getN h d l = 0
  others : ∀ pos l, l < 32 → ¬(pos = g.wb + d.toNat ∧ ((execLanes g f p).getLsbD l = true ∨ zeroed g f p l)) → getPos h pos l = getPos g pos l
  flags : h.fx = (lanesOf (execLanes g f p)).foldl (fun x l => x ||| (val l).2) g.fx
  rest : { h with v := g.v, fx := g.fx } = g

/-- An operation on the elements of two words by integer type, given the width and whether elements are signed (03 R45). -/
def perElem (t : VT) (k : (n : Nat) → Bool → BitVec n → BitVec n → BitVec n) (a b : Word) : Word :=
  match t with
  | .i32 => k 32 true a b
  | .i16x2 => k 16 true (a.extractLsb' 16 16) (b.extractLsb' 16 16) ++ k 16 true (a.extractLsb' 0 16) (b.extractLsb' 0 16)
  | .n16x2 => k 16 false (a.extractLsb' 16 16) (b.extractLsb' 16 16) ++ k 16 false (a.extractLsb' 0 16) (b.extractLsb' 0 16)
  | _ => k 32 false a b
/-- The value of an element. -/
def elemVal {n : Nat} (signed : Bool) (x : BitVec n) : Int := if signed then x.toInt else x.toNat

/-- The word completes and changes its group as the frame says. -/
def LaneChanges (i : Instr) (s : State) (c : Ctx) (p : Option Pfx) (d : Int) (val : Nat → Word × BitVec 5) : Prop :=
  ∃ k, Changes i s c k ∧ LaneResult c.f p d val c.g (k c.g)

/-! Words of a sequencer (06 R114). -/

/-- A team's sequencer issues a word that the static limits allow. -/
def SeqIssues (i : Instr) (s : State) (tid : Nat) (t : Team) (q : Seq) : Prop :=
  (∃ sw, s.issue = .seq tid sw) ∧ kvFind s.teams tid = some t ∧ t.seq = some q ∧ i.WellFormed
/-- The sequencer's registers change to `q2` and nothing else of the part changes. -/
def SeqBecomes (i : Instr) (s : State) (tid : Nat) (q2 : Seq) : Prop :=
  exec i s = .next { modTeam s tid fun t => { t with seq := some q2 } with issue := .none }
/-- The sequencer past its word. -/
def seqPast (q : Seq) : Seq :=
  { q with pc := q.pc + 4, cl := q.cl.map fun e => (e.1, e.2 - 1), stepIdx := 0, run := q.run.map (· + 1) }
/-- The sequencer after a transfer. -/
def seqAt (q : Seq) (pc : Word) : Seq := { q with pc := pc, cl := none, landed := true, jumped := true, stepIdx := 0, run := q.run.map (· + 1) }
/-- The sequencer stops before its word with a fault (05 R104). -/
def SeqFaults (i : Instr) (s : State) (tid : Nat) (q : Seq) (cause : Cause) (step : Nat) : Prop :=
  exec i s = .next { Machine.seqFault s tid cause step q.pc with issue := .none }

/-! Direct accesses (08 R146). -/

/-- A direct access of a fragment may issue: its counter has room, its checks pass, and no watchpoint of the space is on (15 R272). -/
structure MayAccess (s : State) (c : Ctx) (path : Path) (dsp : DSpace) (kinds : List AKind) (al n : Nat) (as : List Nat) : Prop where
  room : counter c.g path < 63
  legal : directCheck s c.g dsp kinds al n as = none
  quiet : (debugOf s (sidOf s c.g)).enabled = false

/-! Events. -/

/-- The bytes of memory after a list of writes made in order: the last one to a place stays, every other byte is unchanged. -/
def Written (s t : State) (ws : List (Loc × Byte)) : Prop :=
  ∀ l, readByte t l = ((ws.reverse.find? fun x => locKey x.1 == locKey l).map (·.2)).getD (readByte s l)
/-- A group's operation counts as complete. -/
def OpIsDone (s t : State) (gid id : Nat) : Prop :=
  ∀ g, kvFind s.groups gid = some g → ∃ h, kvFind t.groups gid = some h ∧ ∀ f ∈ h.flight, f.id = id → f.done = true
/-- Bytes arrived at a barrier of a team, and its check followed (05 R92). -/
def BytesArrived (s t : State) (tid : Nat) (bar : Option Nat) (n : Nat) : Prop :=
  ∀ m x, bar = some m → kvFind s.teams tid = some x → ∃ y, kvFind t.teams tid = some y ∧
    kvFind y.bars m = some (barCheck { kvGet noBar x.bars m with arrb := min (2 ^ 25 - 1) ((kvGet noBar x.bars m).arrb + n) }).2

end Sys2Proof.Machine

namespace Sys2Proof

/-- The words and events that may write memory: stores, releases and drains that publish, engines, deliveries, records, resets. -/
def Instr.mayWrite : Instr → Bool
  | .atom .. | .atomicPerform .. | .atoms .. | .barin .. | .barsync .. | .call .. | .coldReset .. | .commandComplete ..
  | .copyDelivery .. | .curdSlotChoice .. | .cutVatEnd .. | .deviceFailure .. | .enq .. | .exit | .fence .. | .gatherLaneDelivery ..
  | .gbar | .hdmAccess .. | .loadComplete .. | .managementOverride | .modeV .. | .multicastDelivery .. | .peerRequest ..
  | .pendingWritePublish .. | .phrel .. | .placementStep | .qpost .. | .reductionContribution .. | .resume | .saveAreaWrite ..
  | .scatterRowWrite .. | .seal .. | .sealPoint .. | .shrink .. | .signal .. | .spaceCreate | .spaceDestroy | .stateRead
  | .storePerformed .. | .strel .. | .taskRetire .. | .thermalShutdown | .warmReset => true
  | _ => false

end Sys2Proof
end

