-- ==== Sys2Proof/Certificates/Slice0/Obligations.lean ====
section
/-! DEFINITION. The statements for the provers. -/
set_option Elab.async false
open Sys2Proof Sys2Proof.Machine

/-- After a cold reset memory lists nothing in its canonical form, every table is empty, the power registers hold the values of Tables 14-1
to 14-6, SNAPTRIG and the access, mailbox and residency windows hold 0, and no image has been measured (11 R205, 14, 15 Table 15-3, 16 R297). What
an unlisted byte reads as, and the moment at which SNAPTRIG last fired, a field of the model alone, are the model's choices (logs 1, 11). -/
def Obligations.ResetLeavesTheStatedValues : Prop :=
  State.reset.memOk ∧ (∀ l, readByte State.reset l = memDefault) ∧
  (let s := State.reset
   s.groups = [] ∧ s.teams = [] ∧ s.clusters = [] ∧ s.tasks = [] ∧ s.cmds = [] ∧ s.queues = [] ∧ s.bulks = [] ∧ s.vats = [] ∧ s.acc = [] ∧
   s.locks = [] ∧ s.samples = [] ∧ s.invSeq = 0 ∧ (∀ i, kvGet 0 s.acctab i = 0 ∧ kvGet 0 s.reswin i = 0 ∧ kvGet 0 s.invrange i = 0) ∧
   (∀ n, (boxAt s n).msgs = [] ∧ (boxAt s n).full = false) ∧ (∀ d, (dieOf s d).flt = [] ∧ (dieOf s d).dropped = false) ∧
   (∀ c, (coreOf s c).clk = 0 ∧ (coreOf s c).l1 = [] ∧ (coreOf s c).res = []) ∧ (∀ i, (vpinOf s i).head = 0) ∧
   s.snap = { arm := false, latched := false, missed := false, eninsn := false, endebug := false, enerr := false, enhost := false, ggid := 0, src := 0, firedNs := 0 } ∧
   s.power.boostcfg = 0x0C0801A4 ∧ s.power.permits = 64 ∧ s.power.limit = 64 ∧ s.power.stagW = 4 ∧ s.power.stagT = 200 ∧
   s.power.ballEn = true ∧ s.power.ballDur = 40 ∧ s.power.ballDrop = 16 ∧ s.power.cap = 2900 ∧ s.power.leased = false ∧
   s.power.fallback = 1800 ∧ s.power.shutdown = false ∧ s.trust.mr0 = 0 ∧ s.trust.mr1 = 0 ∧ s.trust.booted = false ∧ s.trust.errRing = [])

/-- A step at a group's turn fetches the words at its fragment's program counter and runs exactly the instruction they decode to in the class of
the clause, with its switch marker; a word that does not decode traps ILLEGAL; a prefix that breaks its own conditions traps before the word
after it is fetched, and a failure of that fetch stands at the word fetched (19 R372, 09 R185); a header is taken where a clause ends; a
sequencer's turn likewise; an event at the head of the agenda is run as it stands; an empty agenda leaves the choice to the part. The agenda and
the choice, and what is settled before each step, are the model's (logs 2, 10, 24); so is that a `mjmp` or `mloop` landing on a header of another
class faults with ILLEGAL, as R21 and R26 have it, or with TARGET, as R342 has it, neither of them settled (log 102). -/
def Obligations.StepRunsTheDecodedInstruction : Prop :=
  (∀ (s : State) (gid : Nat) (rest : List Act) (g : Group) (f : Frag), s.agenda = .grp gid :: rest →
    let s0 := { settle { s with tick := s.tick + 1 } with agenda := rest }
    let s1 := modGroup s0 gid fun g => { g with marked := false }
    let fetches (u : State) (pc : Word) : Fetched := fetchWord u (coreOfGid gid) (taskOf s1 g) (sidOf s1 g) pc
      (fetchReq (.grp gid) 4 (sidOf s1 g) gid (coreOfGid gid) pc)
    let fid := fidOf f.lanes
    kvFind s0.groups gid = some g → groupOpen s0 gid g = true → pickFrag s0 gid g = some f → endsWait f.park = false →
    (∀ c, f.cl ≠ some (c, 0)) →
    (fetches s1 f.pc = .off → step s = .next (takeTrap s1 gid fid .target 0 f.pc)) ∧
    (∀ u, fetches s1 f.pc = .perm u → step s = .next (faultGroup u gid 11 f.pc)) ∧
    (∀ u, fetches s1 f.pc = .miss u → step s = .next u) ∧
    ∀ w u, fetches s1 f.pc = .word w u →
      let runs (c : Cls) (left : Nat) (w2 : Word) (v : State) : Prop :=
        (∀ x, decodeWords c left w w2 = .ok x → step s = exec x.instr { v with issue := .frag gid fid x.s x.words }) ∧
        (∀ e, decodeWords c left w w2 = .error e → step s = .next (takeTrap v gid fid .illegal 0 f.pc))
      (f.cl = none →
        (isHeader w = true → step s = exec (.clauseHeader w) { u with issue := .frag gid fid false 1 }) ∧
        (isHeader w = false → step s = .next (takeTrap u gid fid (if f.landed then .target else .illegal) 0 f.pc))) ∧
      ∀ c left, f.cl = some (c, left) →
        (¬(c = .vec ∧ isPrefix w = true) → runs c left 0 u) ∧
        (c = .vec → isPrefix w = true →
          (prefixBad left w = true → step s = .next (takeTrap u gid fid .illegal 0 f.pc)) ∧
          (prefixBad left w = false →
            (fetches u (f.pc + 4) = .off → step s = .next (takeTrap u gid fid .target 0 (f.pc + 4))) ∧
            (∀ v, fetches u (f.pc + 4) = .perm v → step s = .next (faultGroup v gid 11 (f.pc + 4))) ∧
            (∀ v, fetches u (f.pc + 4) = .miss v → step s = .next v) ∧
            ∀ w2 v, fetches u (f.pc + 4) = .word w2 v → runs c left w2 v))) ∧
  (∀ (s : State) (tid : Nat) (rest : List Act) (t : Team) (q : Seq), s.agenda = .seq tid :: rest →
    let s0 := { settle { s with tick := s.tick + 1 } with agenda := rest }
    let k := taskOfTeam s0 t
    let sid := ((kvFind s0.cmds k.cmd).getD noCmd).sid
    let core := t.cores.headD 0
    kvFind s0.teams tid = some t → t.seq = some q → seqOpen s0 tid t q = true → ∀ w u,
      fetchWord s0 core k sid q.pc (fetchReq (.seq tid) 5 sid t.lead core q.pc) = .word w u →
      (q.cl = none → isHeader w = true →
        (strays q w = false → step s = exec (.clauseHeader w) { u with issue := .seq tid false }) ∧
        (strays q w = true → ∃ x, (x = .illegal ∨ x = .target) ∧ step s = .next (Machine.seqFault u tid x 0 q.pc))) ∧
      (q.cl = none → isHeader w = false → step s = .next (Machine.seqFault u tid (if q.landed then .target else .illegal) 0 q.pc)) ∧
      ∀ c left, q.cl = some (c, left) → 0 < left →
        (∀ x, decodeWords c left w 0 = .ok x → step s = exec x.instr { u with issue := .seq tid x.s }) ∧
        (∀ e, decodeWords c left w 0 = .error e → step s = .next (Machine.seqFault u tid .illegal 0 q.pc))) ∧
  (∀ (s : State) (i : Instr) (rest : List Act), s.agenda = .ev i :: rest →
    step s = exec i { settle { s with tick := s.tick + 1 } with agenda := rest, issue := .none }) ∧
  ∀ (s : State), s.agenda = [] →
    let s0 := settle { s with tick := s.tick + 1 }
    (∀ i, dueEvent s0 = some i → step s = exec i { s0 with issue := .none }) ∧
    (dueEvent s0 = none → ∃ a, (a = .tick ∨ a ∈ freeActs s0) ∧ step s = match planAct s0 a with
      | .idle t => .next t
      | .run i t => exec i t)

/-- Words that the spec writes out beside their assembly text, field by field (02, 04, 05, 14 and the examples of 17 to 19), decode to those
instructions; op codes outside a class's table do not decode, whatever the word's other fields hold (03 R47 to R50, R54 to R58). -/
def Obligations.WordsWrittenOutDecode : Prop :=
  decodeWords .srr 15 0x08140C07 0 = .ok ⟨.ssub 5 6 7, false, 1⟩ ∧ decodeWords .sri 15 0x701C0483 0 = .ok ⟨.sbfx 7 2 8 3, false, 1⟩ ∧
  decodeWords .ctl 15 0x3207FFF8 0 = .ok ⟨.setix 7 0xFFF8, false, 1⟩ ∧ decodeWords .ctl 15 0x0A070020 0 = .ok ⟨.wrs .ix 7, false, 1⟩ ∧
  decodeWords .ctl 15 0x02010001 0 = .ok ⟨.movi 1 1, false, 1⟩ ∧ decodeWords .ctl 15 0x16402807 0 = .ok ⟨.split 1 5 7, false, 1⟩ ∧
  decodeWords .vec 15 0x1214005E 0 = .ok ⟨.vmov none .vd 5 (.reg 1), false, 1⟩ ∧
  decodeWords .vec 15 0x7F563C00 0x03184140 = .ok ⟨.vfma (some { mask := 2, z := true, rnd := some .rz, vc := some 7 }) .f32 .none 6 4 (.reg 5), false, 2⟩ ∧
  decodeWords .mem 15 0x0CA0634B 0 = .ok ⟨.stp .b32 10 12 (.wrap 2 3), false, 1⟩ ∧
  decodeWords .mem 15 0x10280CE2 0 = .ok ⟨.sld true .b64 20 12 2, false, 1⟩ ∧
  decodeWords .mem 15 0x240A02B0 0 = .ok ⟨.strel .spDev 5 2 16, false, 1⟩ ∧
  decodeWords .mem 15 0x1C14028B 0 = .ok ⟨.atoms .exch .spDev true 10 2, false, 1⟩ ∧
  decodeWords .asy 15 0x80308000 0 = .ok ⟨.cpy false true 24 none, true, 1⟩ ∧
  decodeWords .asy 15 0x10410000 0 = .ok ⟨.scat true 32 none, false, 1⟩ ∧
  decodeWords .ctl 15 0x1E000003 0 = .ok ⟨.barinit 3, false, 1⟩ ∧ decodeWords .sys 15 0 0 = .ok ⟨.modeM, false, 1⟩ ∧
  decodeHeader 0xB2400000 = .ok { count := 2, cls := .ctl, waitp := 0, wb := none, stop := false, ord := 0 } ∧
  ∀ (left : Nat) (w w2 : Word),
    let refused (c : Cls) : Prop := decodeWords c left w w2 = .error .unassigned
    let op (lo n : Nat) : Nat := (w.extractLsb' lo n).toNat
    (op 27 4 = 15 → refused .sri) ∧ (26 ≤ op 25 6 → refused .ctl) ∧ (0x26 ≤ op 24 7 → op 24 7 < 0x7F → refused .vec) ∧
    (10 ≤ op 26 5 → refused .mem ∧ refused .asy) ∧ (12 ≤ op 26 5 → refused .mtx) ∧ (15 ≤ op 26 5 → refused .sys)

/-- The words of every well-formed instruction, whatever its operands and its switch marker, decode in its class to that instruction and its
marker, and only an instruction within the static limits is ever decoded; a header's word gives the header back (02 R20, R21, R35, 03 R42 to
R59). -/
def Obligations.DecodeGivesBackWhatIsEncoded : Prop :=
  (∀ i : Instr, Laws.RoundTrip.Statement i) ∧
  (∀ (c : Cls) (left : Nat) (w w2 : Word) (x : Decoded), decodeWords c left w w2 = .ok x →
    x.instr.WellFormed ∧ (x.words = 1 ∧ x.s = w.getLsbD 31 ∨ c = .vec ∧ isPrefix w = true ∧ 2 ≤ left ∧ x.words = 2 ∧ x.s = w2.getLsbD 31)) ∧
  ∀ h : Header, h.count ≠ 0 → (h.stop = false → h.ord = 0) → decodeHeader (encodeHeader h) = .ok h

/-- Memory keeps its canonical form: in every state in which it has it, whatever comes next, every next state has it too. The form and what
it takes an unlisted byte to read as are the model's (log 1). -/
def Obligations.EveryStepKeepsMemoryCanonical : Prop :=
  ∀ s t : State, s.memOk → step s = .next t → t.memOk

/-- Memory changes only through the words and events that the spec lets write it: every other one, in every state and with every operand, leaves
every byte as it was (10 R192 to R199, 15 R286, 16 R303). That moments of performance and publication are events of their own is log 3. -/
def Obligations.OnlyWritersChangeMemory : Prop :=
  ∀ (i : Instr) (s t : State), i.mayWrite = false → exec i s = .next t → t.mem = s.mem

/-- Every SRR word is an instruction, op by op as Table 3-2 names them, and writes its result to s(sd) (03 R46, 18 R358 Table 18-22). -/
def Obligations.SrrWordsDecodeAndWriteTheirResult : Prop :=
  (∀ w : Word, ∃ i, decodeWords .srr 1 w 0 = .ok ⟨i, w.getLsbD 31, 1⟩ ∧ encode (w.getLsbD 31) i = [w] ∧
    let d := w.extractLsb' 18 9
    let a := w.extractLsb' 9 9
    let b := w.extractLsb' 0 9
    [.sadd d a b, .ssub d a b, .smul d a b, .smulhiI d a b, .smulhiN d a b, .sand d a b, .sor d a b, .sxor d a b, .sshl d a b,
      .sshr d a b, .ssra d a b, .sminI d a b, .smaxI d a b, .seq d a b, .sltI d a b, .sltN d a b][(w.extractLsb' 27 4).toNat]? = some i) ∧
  ∀ (s : State) (c : Ctx) (d a b : BitVec 9), issueOf s = some c →
    let x := getS c.g a.toNat
    let y := getS c.g b.toNat
    let n := y.toNat % 32
    let gives (i : Instr) (v : Word) : Prop := Changes i s c fun g => setS g d.toNat v
    gives (.sadd d a b) (x + y) ∧ gives (.ssub d a b) (x - y) ∧ gives (.smul d a b) (x * y) ∧
    gives (.smulhiI d a b) (BitVec.ofInt 32 (x.toInt * y.toInt / 2 ^ 32)) ∧
    gives (.smulhiN d a b) (BitVec.ofNat 32 (x.toNat * y.toNat / 2 ^ 32)) ∧
    gives (.sand d a b) (x &&& y) ∧ gives (.sor d a b) (x ||| y) ∧ gives (.sxor d a b) (x ^^^ y) ∧
    gives (.sshl d a b) (x <<< n) ∧ gives (.sshr d a b) (x >>> n) ∧ gives (.ssra d a b) (x.sshiftRight n) ∧
    gives (.sminI d a b) (if x.toInt ≤ y.toInt then x else y) ∧ gives (.smaxI d a b) (if x.toInt ≤ y.toInt then y else x) ∧
    gives (.seq d a b) (if x = y then 1 else 0) ∧ gives (.sltI d a b) (if x.toInt < y.toInt then 1 else 0) ∧
    gives (.sltN d a b) (if x.toNat < y.toNat then 1 else 0)

/-- Every SRI word but op 15, a shift past 31 and an `sbfx` past bit 31, which are ILLEGAL, is an instruction as Table 3-2 names it, and writes its
result to s(sd), the immediate sign-extended but for shifts and `sbfx` (03 R47, 18 R358 Table 18-22). -/
def Obligations.SriWordsWriteTheirResult : Prop :=
  (∀ w : Word,
    let op := (w.extractLsb' 27 4).toNat
    let d := w.extractLsb' 18 9
    let a := w.extractLsb' 9 9
    let i := w.extractLsb' 0 9
    let illegal := op = 15 ∨ (op = 6 ∨ op = 7 ∨ op = 8) ∧ 31 < i.toNat ∨ op = 14 ∧ 32 < i.toNat / 16 + i.toNat % 16 + 1
    (illegal → ∃ e, decodeWords .sri 1 w 0 = .error e) ∧
    (¬illegal → ∃ x, decodeWords .sri 1 w 0 = .ok ⟨x, w.getLsbD 31, 1⟩ ∧
      [.saddi d a i, .srsubi d a i, .smuli d a i, .sandi d a i, .sori d a i, .sxori d a i, .sshli d a i, .sshri d a i, .ssrai d a i,
        .seqi d a i, .sltiI d a i, .sltiN d a i, .sminiI d a i, .smaxiI d a i,
        .sbfx d a (w.extractLsb' 4 5) (w.extractLsb' 0 4)][op]? = some x)) ∧
  ∀ (s : State) (c : Ctx) (d a i : BitVec 9), issueOf s = some c →
    let x := getS c.g a.toNat
    let y : Word := i.signExtend 32
    let gives (i : Instr) (v : Word) : Prop := Changes i s c fun g => setS g d.toNat v
    gives (.saddi d a i) (x + y) ∧ gives (.srsubi d a i) (y - x) ∧ gives (.smuli d a i) (x * y) ∧
    gives (.sandi d a i) (x &&& y) ∧ gives (.sori d a i) (x ||| y) ∧ gives (.sxori d a i) (x ^^^ y) ∧
    gives (.seqi d a i) (if x = y then 1 else 0) ∧ gives (.sltiI d a i) (if x.toInt < y.toInt then 1 else 0) ∧
    gives (.sltiN d a i) (if x.toNat < y.toNat then 1 else 0) ∧
    gives (.sminiI d a i) (if x.toInt ≤ y.toInt then x else y) ∧ gives (.smaxiI d a i) (if x.toInt ≤ y.toInt then y else x) ∧
    (i.toNat ≤ 31 → gives (.sshli d a i) (x <<< i.toNat) ∧ gives (.sshri d a i) (x >>> i.toNat) ∧ gives (.ssrai d a i) (x.sshiftRight i.toNat)) ∧
    (31 < i.toNat → Traps (.sshli d a i) s c s .illegal 0 ∧ Traps (.sshri d a i) s c s .illegal 0 ∧ Traps (.ssrai d a i) s c s .illegal 0) ∧
    ∀ (pos : BitVec 5) (len : BitVec 4),
      (pos.toNat + len.toNat + 1 ≤ 32 →
        gives (.sbfx d a pos len) (BitVec.ofNat 32 (x.toNat / 2 ^ pos.toNat % 2 ^ (len.toNat + 1)))) ∧
      (32 < pos.toNat + len.toNat + 1 → Traps (.sbfx d a pos len) s c s .illegal 0)

/-- `nop`, the moves and `setix`: each completes and changes no more than the register it names (04 R70, 18 R347, R349).
`rds`: every special register reads as Tables 3-4 and 4-4 say, %curd and %codeva into an even/odd pair (18 R353, 04 R77).
That %vseq reads 0 outside a ladder task, and %curd 0 there and while its slot is chosen, is the model's choice (log 38). -/
def Obligations.MovesAndSpecialRegisterReads : Prop :=
  (∀ (s : State) (c : Ctx) (d a : BitVec 9) (i : BitVec 16), issueOf s = some c →
     Changes .nop s c (fun g => g) ∧
     Changes (.movi d i) s c (fun g => setS g d.toNat (BitVec.ofNat 32 i.toNat)) ∧
     Changes (.movhi d i) s c (fun g => setS g d.toNat (BitVec.ofNat 32 (i.toNat * 2 ^ 16 + (getS c.g d.toNat).toNat % 2 ^ 16))) ∧
     Changes (.mov d a) s c (fun g => setS g d.toNat (getS c.g a.toNat)) ∧
     Changes (.setix a i) s c (fun g => { g with ix := getS c.g a.toNat + i.signExtend 32 })) ∧
  (∀ (s : State) (c : Ctx) (d : BitVec 9), issueOf s = some c →
     let g := c.g
     let t := teamOf s g
     let k := taskOf s g
     let clk := (coreOf s (c.gid / 64)).clk
     let dims := (lrWord k 4).toNat
     let reads (r : SReg) (v : Word) : Prop := Changes (.rds d r) s c fun g => setS g d.toNat v
     let pair (r : SReg) (v : BitVec 64) : Prop := d.toNat % 2 = 0 → Changes (.rds d r) s c fun g => setPair g d.toNat v
     reads .lane c.f.lanes ∧ reads .grp (BitVec.ofNat 32 g.idx) ∧ reads .quad (BitVec.ofNat 32 (c.gid % 64 / 16)) ∧
     reads .core (BitVec.ofNat 32 (c.gid / 64)) ∧
     reads .teamX (BitVec.ofNat 32 t.x) ∧ reads .teamY (BitVec.ofNat 32 t.y) ∧ reads .teamZ (BitVec.ofNat 32 t.z) ∧
     reads .gridX (BitVec.ofNat 32 (dims % 2 ^ 16)) ∧ reads .gridY (BitVec.ofNat 32 (dims / 2 ^ 16)) ∧
     reads .gridZ (BitVec.ofNat 32 ((lrWord k 5).toNat % 2 ^ 16)) ∧
     reads .nteam (BitVec.ofNat 32 (dims % 2 ^ 16 * (dims / 2 ^ 16) * ((lrWord k 5).toNat % 2 ^ 16))) ∧
     reads .clus (BitVec.ofNat 32 (clusterOf s g).idx) ∧
     reads .fx (g.fx.setWidth 32) ∧ reads .fxen (g.fxen.setWidth 32) ∧ reads .fpm (g.fpm.setWidth 32) ∧
     reads .ix g.ix ∧ reads .wb (BitVec.ofNat 32 g.wb) ∧ reads .alloc (BitVec.ofNat 32 (g.alloc / 16)) ∧
     reads .clk (BitVec.ofNat 32 clk) ∧ reads .clkhi (BitVec.ofNat 32 (clk / 2 ^ 32)) ∧
     reads .cpystat (g.cpystat.setWidth 32) ∧ reads .tcause g.tcause ∧ reads .tpc g.tpc ∧ reads .mpc g.mpc ∧
     (k.ladder = none → reads .vseq 0 ∧ pair .curd 0) ∧
     (∀ l, k.ladder = some l → reads .vseq l.counter ∧ (l.curd = none → pair .curd 0) ∧
       ∀ j, l.curd = some j → pair .curd (BitVec.ofNat 64 (codeOf (pairNat l.desc 2) * 2 ^ 58 + slotBase l.desc j))) ∧
     pair .codeva (BitVec.ofNat 64 (codeVa k % 2 ^ 55)))

/-- `wrs`: its illegal encodings are refused, and it writes as Table 19-23 states (19 R390). -/
def Obligations.SpecialRegistersWrite : Prop :=
  (∀ (left : Nat) (w : Word), (w.extractLsb' 25 6).toNat = 5 →
    w.extractLsb' 10 6 ≠ 0 ∨ SReg.ofCode (w.extractLsb' 0 10) = none ∨
      (∃ r, SReg.ofCode (w.extractLsb' 0 10) = some r ∧ r ∉ [.fx, .fxen, .fpm, .ix, .cpystat]) →
    ∃ e, decodeWords .ctl left w 0 = .error e) ∧
  ∀ (s : State) (c : Ctx) (a : BitVec 9), issueOf s = some c →
    let v := getS c.g a.toNat
    Changes (.wrs .fx a) s c (fun g => { g with fx := g.fx &&& ~~~(v.setWidth 5) }) ∧
    Changes (.wrs .fxen a) s c (fun g => { g with fxen := v.setWidth 5 }) ∧
    Changes (.wrs .fpm a) s c (fun g => { g with fpm := v.setWidth 2 }) ∧
    Changes (.wrs .ix a) s c (fun g => { g with ix := v }) ∧
    Changes (.wrs .cpystat a) s c (fun g => { g with cpystat := g.cpystat &&& ~~~(v.setWidth 3) })

/-- Branches go to the address of the word and four times their signed offset, or on (02 R25, 17 R313). -/
def Obligations.BranchesGoToTheirTarget : Prop :=
  ∀ (s : State) (c : Ctx) (a : BitVec 9) (o : BitVec 16) (b : BitVec 25), issueOf s = some c →
    JumpsTo (.br b) s c s (c.f.pc + BitVec.ofInt 32 (4 * b.toInt)) ∧
    (getS c.g a.toNat = 0 →
      JumpsTo (.bz a o) s c s (c.f.pc + BitVec.ofInt 32 (4 * o.toInt)) ∧ Changes (.bnz a o) s c fun g => g) ∧
    (getS c.g a.toNat ≠ 0 →
      JumpsTo (.bnz a o) s c s (c.f.pc + BitVec.ofInt 32 (4 * o.toInt)) ∧ Changes (.bz a o) s c fun g => g)

/-- `call` and `ret` trap MODE with a lane outside the fragment or in matrix mode. With the new window resident and a link entry
free, `call k` pushes its link entry, moves the window by 8k registers and leaves every register written in it as it was under its
new name; `ret` takes the newest entry back (04 R64, R66, 17 R314, 18 R357). Otherwise `call` traps SPILL where the areas would overlap, and else writes
its blocks, and the oldest link entry of a full stack, to the spill stack as R67 lays them out, and no other byte; `ret` with no resident entry
takes the one at LinkBottom, and reads the blocks below LO back as the issuing core sees them. That spilled bytes are published at once, that
of an entry overwritten there the low three bits of k count, and that WB stops at 0 are the model's choices (log 40, 41). -/
def Obligations.CallAndReturnMoveTheWindow : Prop :=
  ∀ (s : State) (c : Ctx) (k : BitVec 3) (o : BitVec 22), issueOf s = some c →
    (c.g.matrix = true ∨ ~~~c.g.dead ≠ c.f.lanes → Traps (.call k o) s c s .mode 0 ∧ Traps .ret s c s .mode 0) ∧
    (c.g.matrix = false → ~~~c.g.dead = c.f.lanes →
      (c.g.wb + 8 * k.toNat + window c.g ≤ c.g.lo + c.g.alloc → c.g.link.length < 16 → c.g.regTop ≤ c.g.linkBot →
        ∃ h, JumpsTo (.call k o) s c (modGroup s c.gid fun _ => h) (c.f.pc + BitVec.ofInt 32 (4 * o.toInt)) ∧
          h.wb = c.g.wb + 8 * k.toNat ∧ h.link = (c.f.pc + 4, k.toNat) :: c.g.link ∧
          (∀ j l, l < 32 → j + 8 * k.toNat < window c.g → getV h j l = getV c.g (j + 8 * k.toNat) l) ∧
          { h with v := c.g.v, wb := c.g.wb, link := c.g.link } = c.g) ∧
      (c.g.link = [] → c.g.spillSize ≤ c.g.linkBot → Traps .ret s c s .target 0) ∧
      ∀ e r, c.g.link = e :: r → c.g.lo ≤ c.g.wb - 8 * e.2 →
        JumpsTo .ret s c (modGroup s c.gid fun g => { g with link := r, wb := g.wb - 8 * e.2 }) e.1) ∧
    (c.g.matrix = false → ~~~c.g.dead = c.f.lanes →
      let g := c.g
      let W := window g
      let n := (g.wb + 8 * k.toNat + W - (g.lo + g.alloc) + 7) / 8
      let full := decide (16 ≤ g.link.length)
      let bot := if full then g.linkBot - 8 else g.linkBot
      let inBlocks (m : Loc) : Prop := ∃ i, i < 1024 * n ∧ locKey m = locKey (.sp (g.spillBase + g.regTop + i))
      let inLink (m : Loc) : Prop := full = true ∧ ∃ i, i < 8 ∧ locKey m = locKey (.sp (g.spillBase + (g.linkBot - 8) + i))
      (g.linkBot < g.regTop + 1024 * n + (if full then 8 else 0) → Traps (.call k o) s c s .spill 0) ∧
      (g.regTop + 1024 * n + (if full then 8 else 0) ≤ g.linkBot →
        ∃ u h, JumpsTo (.call k o) s c u (c.f.pc + BitVec.ofInt 32 (4 * o.toInt)) ∧ kvFind u.groups c.gid = some h ∧
          h.wb = g.wb + 8 * k.toNat ∧ h.lo = g.lo + 8 * n ∧ h.regTop = g.regTop + 1024 * n ∧ h.linkBot = bot ∧
          h.link = (c.f.pc + 4, k.toNat) :: (if full then g.link.dropLast else g.link) ∧
          (∀ p l, p < g.wb + W → l < 32 → getPos h p l = getPos g p l) ∧
          (∀ i, i < 1024 * n → readByte u (.sp (g.spillBase + g.regTop + i)) =
            (bytesOf (getPos g (g.lo + i / 128) (i % 128 / 4))).getD (i % 4) 0) ∧
          (full = true → ∀ e, g.link.getLast? = some e → ∀ i, i < 8 →
            readByte u (.sp (g.spillBase + (g.linkBot - 8) + i)) = (bytesOf e.1 ++ bytesOf (BitVec.ofNat 32 e.2)).getD i 0) ∧
          (∀ m, ¬inBlocks m → ¬inLink m → readByte u m = readByte s m) ∧
          { h with v := g.v, wb := g.wb, lo := g.lo, regTop := g.regTop, linkBot := g.linkBot, link := g.link, own := g.own } = g ∧
          (∀ x, x ≠ c.gid → (kvFind u.groups x).map (fun y => { y with own := [] }) = (kvFind s.groups x).map fun y => { y with own := [] }) ∧
          { u with mem := s.mem, pubs := s.pubs, spHist := s.spHist, cores := s.cores, groups := s.groups } = s) ∧
      let word (a : Nat) : Word := wordOf (peekSp s (c.gid / 64) a) (peekSp s (c.gid / 64) (a + 1)) (peekSp s (c.gid / 64) (a + 2))
        (peekSp s (c.gid / 64) (a + 3))
      ∀ (e : Word × Nat) (r : List (Word × Nat)) (top : Nat),
        (g.link = e :: r ∧ top = g.linkBot) ∨ (g.link = [] ∧ r = [] ∧ g.linkBot < g.spillSize ∧ top = g.linkBot + 8 ∧
          e = (word (g.spillBase + g.linkBot), (word (g.spillBase + g.linkBot + 4)).toNat % 8)) →
        let b := g.wb - 8 * e.2
        let n := (g.lo - b + 7) / 8
        8 * e.2 ≤ g.wb → 8 * n ≤ g.lo → 1024 * n ≤ g.regTop →
          ∃ h, JumpsTo .ret s c (modGroup s c.gid fun _ => h) e.1 ∧ h.wb = b ∧ h.lo = g.lo - 8 * n ∧ h.regTop = g.regTop - 1024 * n ∧
            h.link = r ∧ h.linkBot = top ∧
            (∀ p l, l < 32 → getPos h p l = if g.lo - 8 * n ≤ p ∧ p < g.lo
              then word (g.spillBase + (g.regTop - 1024 * n) + 128 * (p - (g.lo - 8 * n)) + 4 * l) else getPos g p l) ∧
            { h with v := g.v, wb := g.wb, lo := g.lo, regTop := g.regTop, link := g.link, linkBot := g.linkBot } = g)

/-- `split` with an empty side uses no entry; with both sides and no open record the taken lanes stand at the target and the others
after the word, under a new entry whose rejoin is the other target. `join` arrives at the rejoin of the innermost record, and the
parent lanes go on there once all have; without a record it traps. The fragments of the group have no lane in common
(02 R25, 05 R85 to R87, 18 R332). -/
def Obligations.SplitAndJoin : Prop :=
  ∀ (s : State) (c : Ctx) (m : BitVec 3) (t r : BitVec 11), issueOf s = some c →
    let taken := c.f.lanes &&& getM c.g m.toNat
    let rest := c.f.lanes &&& ~~~getM c.g m.toNat
    let goal (o : BitVec 11) := c.f.pc + BitVec.ofInt 32 (4 * o.toInt)
    (taken = 0 → Changes (.split m t r) s c fun g => g) ∧
    (taken ≠ 0 → rest = 0 → JumpsTo (.split m t r) s c s (goal t)) ∧
    (taken ≠ 0 → rest ≠ 0 → c.g.splits = [] → goal t ≠ goal r → (∀ x ∈ c.g.frags, x = c.f ∨ x.lanes &&& c.f.lanes = 0) →
      ∀ k left, c.f.cl = some (k, left) → c.words < left →
      ∃ u h, exec (.split m t r) s = .next u ∧ Follows s u c.gid ∧ kvFind u.groups c.gid = some h ∧
        h.splits = [.entry c.f.lanes 0 (goal r) c.f.safe] ∧
        (∃ x ∈ h.frags, x.lanes = taken ∧ x.pc = goal t ∧ x.cl = none) ∧
        ∃ x ∈ h.frags, x.lanes = rest ∧ x.pc = c.f.pc + BitVec.ofNat 32 (4 * c.words) ∧ x.cl = some (k, left - c.words)) ∧
    (∀ parent arrived rejoin safe, c.g.splits = [.entry parent arrived rejoin safe] → parent &&& c.f.lanes ≠ 0 →
      ∃ u h, exec .join s = .next u ∧ Follows s u c.gid ∧ kvFind u.groups c.gid = some h ∧
        (arrived ||| c.f.lanes ≠ parent →
          h.splits = [.entry parent (arrived ||| c.f.lanes) rejoin safe] ∧ ∀ x ∈ h.frags, fidOf x.lanes ≠ c.fid) ∧
        (arrived ||| c.f.lanes = parent → h.splits = [] ∧ ∃ x ∈ h.frags, x.lanes = parent ∧ x.pc = rejoin ∧ x.cl = none)) ∧
    (innermost c.f.lanes c.g.splits = none → Traps .join s c s .target 0)

/-- Outside matrix mode, with nothing due and no recording, `exit` retires the lanes of its fragment; in matrix mode it traps, and an
enabled flag traps FPX before it acts. Lanes that retire are dead from then on, a group without live lanes is exiting, and its registers stay, where
the team's sequencer is idle (05 R89, R103, R105, 17 R322). -/
def Obligations.ExitRetiresItsLanes : Prop :=
  (∀ (s : State) (c : Ctx), issueOf s = some c →
     (c.g.matrix = true → Traps .exit s c s .mode 0) ∧
     (c.g.matrix = false → pendingSeq s c.g = none → c.g.fx &&& c.g.fxen ≠ 0 → Traps .exit s c s .fpx 0) ∧
     (c.g.matrix = false → dueAt s c.g = .nothing → digested s c.g = false →
       ∃ t, exec .exit s = .next t ∧ Follows (retire s c.gid c.f.lanes) t c.gid)) ∧
  (∀ (s : State) (gid : Nat) (g : Group) (m : Mask), kvFind s.groups gid = some g →
     (∀ t q, kvFind s.teams g.team = some t → t.seq = some q → q.busy = false) →
     ∃ h, kvFind (retire s gid m).groups gid = some h ∧ h.dead = g.dead ||| m ∧
       (~~~(g.dead ||| m) = 0 → h.exiting = true ∧ h.active = false) ∧ h.s = g.s ∧ h.v = g.v ∧ h.m = g.m)

/-- The barrier check of 05 R92: counts that reach what is expected are taken off, the phase turns once for each completion, and after
it some count is below what is expected; a barrier that expects nothing completes once. -/
def Obligations.BarrierCheckCompletes : Prop :=
  ∀ b : Bar, b.arrl < 2 ^ 26 → b.arrb < 2 ^ 26 → b.arre < 2 ^ 26 →
    let n := (barCheck b).1
    let r := (barCheck b).2
    r.expl = b.expl ∧ r.expb = b.expb ∧ r.expe = b.expe ∧ r.phase = (b.phase ^^ decide (n % 2 = 1)) ∧
    (b.expl = 0 ∧ b.expb = 0 ∧ b.expe = 0 → n = 1 ∧ r.arrl = b.arrl ∧ r.arrb = b.arrb ∧ r.arre = b.arre) ∧
    (¬(b.expl = 0 ∧ b.expb = 0 ∧ b.expe = 0) →
      b.arrl = r.arrl + n * b.expl ∧ b.arrb = r.arrb + n * b.expb ∧ b.arre = r.arre + n * b.expe ∧
      (r.arrl < r.expl ∨ r.arrb < r.expb ∨ r.arre < r.expe))

/-- `barinit`, `barexp` and `barin`, with nothing due, no recording and the release's counters at zero: the barrier's event, and for
`barin` the release, AP and APV of the group. `barexp` traps BOUNDS past its limit. An enabled flag traps FPX first, at `barin` once its
release, for which it waits, has its counters at zero (05 R93, R103, 10 R194, 17 R311). -/
def Obligations.BarrierWordsApplyTheirEvent : Prop :=
  ∀ (s : State) (c : Ctx) (n : BitVec 4) (a : BitVec 9), issueOf s = some c →
    let tid := c.g.team
    let v := (getS c.g a.toNat).toNat
    (pendingSeq s c.g = none → c.g.fx &&& c.g.fxen ≠ 0 →
      Traps (.barinit n) s c s .fpx 0 ∧ (∀ k, Traps (.barexp k n a) s c s .fpx 0) ∧
      (counter c.g .ld = 0 → counter c.g .st = 0 → Traps (.barin n) s c s .fpx 0)) ∧
    (counter c.g .ld ≠ 0 ∨ counter c.g .st ≠ 0 → Waits (.barin n) s c s (.drain [.ld, .st] .hold)) ∧
    (dueAt s c.g = .nothing →
      (∃ t, exec (.barinit n) s = .next t ∧
        Follows (barEvent s tid n.toNat fun b =>
          { b with expl := 32 * (teamOf s c.g).groups.length, expb := 0, expe := 0, arrl := 0, arrb := 0, arre := 0 }) t c.gid) ∧
      (v ≤ 2048 → ∃ t, exec (.barexp .lanes n a) s = .next t ∧ Follows (barEvent s tid n.toNat fun b => { b with expl := v }) t c.gid) ∧
      (v ≤ 2 ^ 24 → ∃ t, exec (.barexp .bytes n a) s = .next t ∧ Follows (barEvent s tid n.toNat fun b => { b with expb := v }) t c.gid) ∧
      (v ≤ 15 → ∃ t, exec (.barexp .eng n a) s = .next t ∧ Follows (barEvent s tid n.toNat fun b => { b with expe := v }) t c.gid) ∧
      (2048 < v → Traps (.barexp .lanes n a) s c s .bounds 0) ∧ (2 ^ 24 < v → Traps (.barexp .bytes n a) s c s .bounds 0) ∧
      (15 < v → Traps (.barexp .eng n a) s c s .bounds 0) ∧
      (counter c.g .ld = 0 → counter c.g .st = 0 → digested s c.g = false →
        ∃ t, exec (.barin n) s = .next t ∧
          Follows (barEvent (modGroup (publishScope s c.g c.gid .team) c.gid fun g =>
              { g with ap := putBit g.ap n.toNat (barOf (teamOf s c.g) n.toNat).phase, apv := putBit g.apv n.toNat true })
            tid n.toNat fun b => { b with arrl := min 4095 (b.arrl + laneCount c.f.lanes) }) t c.gid))

/-- `barwait` with nothing due: with APV set it ends at once where the phase has turned, clearing APV, and parks where it has not; with APV
clear it takes the phase as AP and parks (05 R94); that APV stays clear then is the model's choice (log 74). Its end acquires at team scope, as
soon as the ld counter is zero (10 R194, R197). `barsync` that brings the last expected lanes to a barrier that expects lanes only, in a group
without a fragment that waits on it: the phase turns, the count starts again, and the word goes on (05 R92 to R94). `waitc` goes on at once if the
counter is at most s(sa), and otherwise parks its fragment until it is (19 R389). -/
def Obligations.WaitsForBarriersAndCounters : Prop :=
  (∀ (s : State) (c : Ctx) (n : BitVec 4), issueOf s = some c → dueAt s c.g = .nothing →
     let phase := (barOf (teamOf s c.g) n.toNat).phase
     let ap := c.g.ap.getLsbD n.toNat
     let apv := c.g.apv.getLsbD n.toNat
     let ended := modGroup s c.gid fun g => { g with apv := putBit g.apv n.toNat false }
     (apv = true → phase ≠ ap →
       (counter c.g .ld = 0 → Completes (.barwait n) s c (acquireNow ended c.gid (some n.toNat) .team)) ∧
       (counter c.g .ld ≠ 0 → Parks (.barwait n) s c ended (.acq (some n.toNat) .team .point))) ∧
     (apv = true → phase = ap → Parks (.barwait n) s c s (.bar n.toNat)) ∧
     (apv = false → Parks (.barwait n) s c (modGroup s c.gid fun g => { g with ap := putBit g.ap n.toNat phase }) (.bar n.toNat))) ∧
  (∀ (s : State) (c : Ctx) (t : Team) (n : BitVec 4), issueOf s = some c → dueAt s c.g = .nothing → digested s c.g = false →
     counter c.g .ld = 0 → counter c.g .st = 0 → kvFind s.teams c.g.team = some t →
     let b := barOf t n.toNat
     0 < b.expl → b.expl < 4096 → b.expb = 0 → b.expe = 0 → b.arrl + laneCount c.f.lanes = b.expl →
     c.g.frags.any (waitsOn n.toNat) = false →
     ∃ u, exec (.barsync n) s = .next u ∧ GoesOn c u ∧
       (kvFind u.teams c.g.team).map (fun x => (barOf x n.toNat).phase) = some !b.phase ∧
       (kvFind u.teams c.g.team).map (fun x => (barOf x n.toNat).arrl) = some 0) ∧
  (∀ (s : State) (c : Ctx) (p : Path) (a : BitVec 9), issueOf s = some c →
     let t := (getS c.g a.toNat).toNat
     (counter c.g p ≤ t → Changes (.waitc p a) s c fun g => g) ∧
     (t < counter c.g p → Parks (.waitc p a) s c s (.count p t) ∧
       ∀ g f, f.park = .count p t → (settleWait g f).park = if counter g p ≤ t then .run else .count p t))

/-- `fork` traps MODE, nothing changed, in the three cases of 05 R96; otherwise the sequencer has the state of Table 6-2, and the
writes of steps done before a fault are still to come. `rdzv`, with no
sequencer fault to take, parks while the sequencer is not idle and else goes on (05 R96, R97, 17 R324, 18 R354). -/
def Obligations.ForkAndRendezvous : Prop :=
  ∀ (s : State) (c : Ctx), issueOf s = some c →
    let t := teamOf s c.g
    (c.g.idx ≠ 0 ∨ t.seq = none ∨ (∃ q, t.seq = some q ∧ q.busy = true) → Traps .fork s c s .mode 0) ∧
    (∀ q, c.g.idx = 0 → t.seq = some q → q.busy = false → ∃ z, Completes .fork s c (modTeam s c.g.team fun x => { x with seq := some z }) ∧
      z.busy = true ∧ z.pc = lrWord (taskOf s c.g) 3 ∧ z.k = [] ∧ z.acc = [] ∧ z.ahold = [] ∧ z.bhold = [] ∧ z.writes = q.writes ∧ z.share = 2 ∧ z.pa = 0 ∧ z.pb = 0 ∧
      z.flags = 0 ∧ z.cl = none ∧ z.park = .run ∧ z.run = none ∧
      ∀ n, n < 16 → z.sap.getLsbD n = (barOf t n).phase) ∧
    (pendingSeq s c.g = none →
      ((∃ q, t.seq = some q ∧ q.busy = true) → Parks .rdzv s c s .rdzv) ∧
      (t.seq = none ∨ (∃ q, t.seq = some q ∧ q.busy = false) → Changes .rdzv s c fun g => g))

/-- `yield` with no ready inactive group of its quadrant has no effect; with one, its group leaves the active set until those groups have
entered or stopped being ready (11 R226, 19 R392). `grow` past 256 registers is denied at once with 0 in s(sd); otherwise its group parks and is
queued behind the requests of its quadrant, after which the deadlock check runs (04 R71, R72). `shrink`: MODE in matrix mode, REGIDX below 32
registers left, a wait while loads or special functions are in flight; else, with the window still resident, it returns its granules, and
positions at or past the new end are lost (04 R73, 18 R362). -/
def Obligations.YieldGrowAndShrink : Prop :=
  (∀ (s : State) (c : Ctx), issueOf s = some c →
     let rs := readyInactive s c.gid
     (∀ x, x ∈ rs ↔ ∃ g, (x, g) ∈ s.groups ∧ x / 16 = c.gid / 16 ∧ x ≠ c.gid ∧ g.active = false ∧ groupReady s x g = true) ∧
     (rs = [] → Changes .yield s c fun g => g) ∧
     (rs ≠ [] → Changes .yield s c fun g => { g with active := false, yielded := rs })) ∧
  (∀ (s : State) (c : Ctx) (d : BitVec 9) (n : BitVec 4), Issues (.grow d n) s c →
     (256 < c.g.alloc + 16 * n.toNat → Changes (.grow d n) s c fun g => setS g d.toNat 0) ∧
     (c.g.alloc + 16 * n.toNat ≤ 256 →
       let quad := c.gid / 16
       ∃ t, exec (.grow d n) s = .next t ∧
         Follows (checkGrow (setGrowQueue (modGroup s c.gid fun g => { g with park := .grow d.toNat n.toNat c.fid }) quad
           (growQueue s quad ++ [c.gid])) quad) t c.gid)) ∧
  (∀ (s : State) (c : Ctx) (n : BitVec 4), Issues (.shrink n) s c →
     let a := c.g.alloc - 16 * n.toNat
     (c.g.matrix = true → Traps (.shrink n) s c s .mode 0) ∧
     (c.g.matrix = false → c.g.alloc < 16 * n.toNat + 32 → Traps (.shrink n) s c s .regidx 0) ∧
     (c.g.matrix = false → 16 * n.toNat + 32 ≤ c.g.alloc →
       (counter c.g .ld ≠ 0 ∨ counter c.g .sfu ≠ 0 → Waits (.shrink n) s c s (.drain [.ld, .sfu] .plain)) ∧
       (counter c.g .ld = 0 → counter c.g .sfu = 0 → c.g.wb + min 64 a ≤ c.g.lo + a → c.g.regTop ≤ c.g.linkBot →
         ∃ h, Changes (.shrink n) s c (fun _ => h) ∧ h.alloc = a ∧ { h with v := c.g.v, alloc := c.g.alloc } = c.g ∧
           ∀ p l, l < 32 → getPos h p l = if p < c.g.lo + a then getPos c.g p l else 0)))

/-- What is read after a write: scalars, mask registers (m0 reads as all ones whatever is written), lanes of vector registers, pairs
(04 R61, R63, R64).
A byte of memory reads as it was last written, and every other byte as before (00 R2, 08 R145). -/
def Obligations.RegistersAndMemoryReadBack : Prop :=
  (∀ (g : Group), (∀ r q v, getS (setS g r v) q = if q = r then v else getS g q) ∧
     (∀ n q v, getM (setM g n v) q = if q = 0 then 0xFFFFFFFF else if q = n then v else getM g q) ∧
     (∀ i j l k v, l < 32 → k < 32 → getV (setV g i l v) j k = if j = i ∧ k = l then v else getV g j k) ∧
     (∀ r v, getPair (setPair g r v) r = v ∧ getS (setPair g r v) r = v.setWidth 32 ∧ getS (setPair g r v) (r + 1) = v.extractLsb' 32 32) ∧
     ∀ i l v, { setV g i l v with v := g.v } = g) ∧
  (∀ (s : State) (l m : Loc) (b : Byte), readByte (writeByte s l b) m = if locKey m = locKey l then b else readByte s m)

/-- Integer arithmetic, shifts, bit operations, moves and lane words of vectors: in each active lane, element by element, modulo 2^k; the rest by
the frame, and no flag (19 R371, R373, R374, R376, R377). -/
def Obligations.VectorIntegerBitAndMoveWords : Prop :=
  (∀ (s : State) (c : Ctx) (p : Option Pfx) (t : VT) (x : Ix) (d a : BitVec 6) (b : VB),
     let g := c.g
     let vd := vname g d (ixVd x)
     let va := vname g a (ixVa x)
     let bin (i : Instr) (k : (n : Nat) → Bool → BitVec n → BitVec n → BitVec n) : Prop :=
       Issues i s c → LaneChanges i s c p vd fun l => (perElem t k (getN g va l) (getVB g b l), 0)
     let un (i : Instr) (k : (n : Nat) → BitVec n → BitVec n) : Prop :=
       Issues i s c → LaneChanges i s c p vd fun l => (perElem t (fun n _ y _ => k n y) (getN g va l) 0, 0)
     NamesOk g ([vd, va] ++ vbNames b) →
       (t.isI = true →
         bin (.vadd p t x d a b) (fun _ _ y z => y + z) ∧ bin (.vsub p t x d a b) (fun _ _ y z => y - z) ∧
         bin (.vmul p t x d a b) (fun _ _ y z => y * z) ∧
         bin (.vmulhi p t x d a b) (fun n sg y z => BitVec.ofInt n (elemVal sg y * elemVal sg z / 2 ^ n)) ∧
         bin (.vmin p t x d a b) (fun _ sg y z => if elemVal sg y ≤ elemVal sg z then y else z) ∧
         bin (.vmax p t x d a b) (fun _ sg y z => if elemVal sg y ≤ elemVal sg z then z else y) ∧
         un (.vneg p t x d a) (fun _ y => -y) ∧ un (.vabs p t x d a) (fun _ y => if y.toInt < 0 then -y else y)) ∧
       bin (.vshl p t x d a b) (fun n _ y z => y <<< (z.toNat % n)) ∧ bin (.vshr p t x d a b) (fun n _ y z => y >>> (z.toNat % n)) ∧
       bin (.vsra p t x d a b) (fun n _ y z => y.sshiftRight (z.toNat % n))) ∧
  (∀ (s : State) (c : Ctx) (p : Option Pfx) (x : Ix) (d a : BitVec 6) (b : VB) (m : BitVec 3) (w : SubW) (lane : BitVec 5),
     let g := c.g
     let vd := vname g d (ixVd x)
     let va := vname g a (ixVa x)
     let A := getN g va
     let B := getVB g b
     let gives (i : Instr) (k : Nat → Word) : Prop := Issues i s c → LaneChanges i s c p vd fun l => (k l, 0)
     (NamesOk g ([vd, va] ++ vbNames b) →
       gives (.vand p x d a b) (fun l => A l &&& B l) ∧ gives (.vor p x d a b) (fun l => A l ||| B l) ∧ gives (.vxor p x d a b) (fun l => A l ^^^ B l) ∧
       gives (.vnot p x d a) (fun l => ~~~A l) ∧ gives (.vpopc p x d a) (fun l => BitVec.ofNat 32 ((List.range 32).countP fun i => (A l).getLsbD i)) ∧
       gives (.vclz p x d a) (fun l => BitVec.clz (A l)) ∧
       gives (.vsel p m x d a b) (fun l => if (getM g m.toNat).getLsbD l then A l else B l)) ∧
     (NamesOk g ([vd] ++ vbNames b) →
       gives (.vmov p x d b) B ∧ gives (.vidx p x d) (fun l => BitVec.ofNat 32 l) ∧
       gives (.vins p x d a lane) (fun l => if l = lane.toNat then getS g a.toNat else getN g vd l)) ∧
     (NamesOk g [va] → Issues (.vtos p x d a lane) s c →
       Changes (.vtos p x d a lane) s c fun h => setS h d.toNat (A lane.toNat)) ∧
     (NamesOk g [(d.toNat : Int), (a.toNat : Int)] → Issues (.vbcast p w d a lane) s c →
       LaneChanges (.vbcast p w d a lane) s c p (d.toNat : Int) fun l =>
         let src := l - l % subWidth w + lane.toNat % subWidth w
         (getV g a.toNat (if (execLanes g c.f p).getLsbD src then src else l), 0)))

/-- Floating-point arithmetic of vectors: the operation of the format on each element, rounded once by the mode of the word, as O23 gives it; `vabs` and
`vneg` change the sign bits alone; the addend of `vfma` is vc or vd (19 R371, R373). -/
def Obligations.VectorFloatWordsComputeByElement : Prop :=
  ∀ (s : State) (c : Ctx) (p : Option Pfx) (t : VT) (fmt : Fmt) (x : Ix) (d a : BitVec 6) (b : VB),
    let g := c.g
    let vd := vname g d (ixVd x)
    let va := vname g a (ixVa x)
    let el := decodeF fmt
    let m := roundingMode g p
    let bin (i : Instr) (k : Nat → Nat → Nat × BitVec 5) : Prop :=
      Issues i s c → LaneChanges i s c p vd fun l => lane2 t k (getN g va l) (getVB g b l)
    typeFmt t = some fmt → NamesOk g ([vd, va] ++ vbNames b) →
      bin (.vadd p t x d a b) (fun y z => addF fmt m (el y) (el z)) ∧ bin (.vsub p t x d a b) (fun y z => subF fmt m (el y) (el z)) ∧
      bin (.vmul p t x d a b) (fun y z => prodF fmt m (el y) (el z)) ∧
      bin (.vmin p t x d a b) (fun y z => pickF fmt false [y, z]) ∧ bin (.vmax p t x d a b) (fun y z => pickF fmt true [y, z]) ∧
      (Issues (.vabs p t x d a) s c → LaneChanges (.vabs p t x d a) s c p vd fun l =>
        (getN g va l &&& (if t = .f32 then 0x7FFFFFFF else 0x7FFF7FFF), 0)) ∧
      (Issues (.vneg p t x d a) s c → LaneChanges (.vneg p t x d a) s c p vd fun l =>
        (getN g va l ^^^ (if t = .f32 then 0x80000000 else 0x80008000), 0)) ∧
      ∀ vc, vc = (match p.bind (·.vc) with
          | some v => (v.toNat : Int)
          | none => vd) →
        NamesOk g ([vd, va, vc] ++ vbNames b) → Issues (.vfma p t x d a b) s c →
          LaneChanges (.vfma p t x d a b) s c p vd fun l =>
            lane3 t (fun y z w => fmaF fmt m (el y) (el z) (el w)) (getN g va l) (getVB g b l) (getN g vc l)

/-- Rounding a magnitude x · 2^e to a multiple w of 2^q (07 R128): to nearest, ties to the even multiple; toward zero; down and up by
the sign; and it is inexact exactly if the value changed. So rounded once, with the exponents of the format and the flags of Table 7-6, are the
exact sum, difference, product and product-sum of vector words and atomics, a conversion to a floating-point format or an integer, and one to FP8 by
Table 7-9; NaNs, infinities, invalid operations and the signs of zeros are as in 07 R126 to R128, R134, R135 and Table 7-3; a minimum or maximum is
one of its operands, −0 below +0, a NaN only of NaNs. UF for a result that rounds to zero is the model's reading, and a NaN addend beside 0 · ∞
is left out (logs 14, 125). -/
def Obligations.RoundingFollowsItsMode : Prop :=
  (∀ (neg : Bool) (x : Nat) (e q : Int), e < q →
    let u := 2 ^ (q - e).toNat
    let w (m : RMode) := (roundAt (.mode m) neg x e false q).1
    let toZero (n : Nat) : Prop := n * u ≤ x ∧ x < (n + 1) * u
    let away (n : Nat) : Prop := x ≤ n * u ∧ n * u < x + u
    (2 * (w .rne * u) ≤ 2 * x + u ∧ 2 * x ≤ 2 * (w .rne * u) + u ∧
      (2 * (w .rne * u) = 2 * x + u ∨ 2 * x = 2 * (w .rne * u) + u → w .rne % 2 = 0)) ∧
    toZero (w .rz) ∧ (if neg then away (w .rdn) ∧ toZero (w .rup) else toZero (w .rdn) ∧ away (w .rup)) ∧
    ∀ m, (roundAt (.mode m) neg x e false q).2 = decide (w m * u ≠ x)) ∧
  (∀ (m : RMode) (neg : Bool) (x : Nat) (e q : Int), q ≤ e → roundAt (.mode m) neg x e false q = (x * 2 ^ (e - q).toNat, false)) ∧
  let least (f : Fmt) : Int := 2 - 2 ^ (f.ebits - 1) - f.mbits
  let inf (f : Fmt) : Nat := (2 ^ f.ebits - 1) * 2 ^ f.mbits
  let nan (f : Fmt) : Nat := if f = e4m3 then 0x7F else inf f + 2 ^ (f.mbits - 1)
  let code (f : Fmt) (neg : Bool) (n : Nat) : Nat := if neg then 2 ^ (f.ebits + f.mbits) + n else n
  -- the value that a code stands for
  (∀ f ∈ [fp32, fp16, bf16, e5m2, e4m3], ∀ (neg : Bool) (n : Nat), n < 2 ^ (f.ebits + f.mbits) →
    let ex := n / 2 ^ f.mbits
    let man := n % 2 ^ f.mbits
    decodeF f (code f neg n) =
      if f = e4m3 ∧ n = 0x7F then .nan false
      else if f ≠ e4m3 ∧ inf f < n then .nan (decide (n < nan f))
      else if f ≠ e4m3 ∧ n = inf f then .inf neg
      else if ex = 0 then .fin neg man (least f)
      else .fin neg (man + 2 ^ f.mbits) (least f + ex - 1)) ∧
  ∀ (m : RMode),
    -- the rounded magnitude in units of the smallest subnormal, and what lands there
    let q0 (f : Fmt) (x : Nat) (e : Int) : Int := (Nat.log2 x : Int) + e - f.mbits
    let at_ (f : Fmt) (neg : Bool) (x : Nat) (e : Int) : Nat × Bool := roundAt (.mode m) neg x e false (max (q0 f x e) (least f))
    let mag (f : Fmt) (neg : Bool) (x : Nat) (e : Int) : Nat := (at_ f neg x e).1 * 2 ^ (max (q0 f x e) (least f) - least f).toNat
    let tiny (f : Fmt) (neg : Bool) (x : Nat) (e : Int) : Prop :=
      q0 f x e < least f ∧ (roundAt (.mode m) neg x e false (q0 f x e)).1 < 2 ^ (least f + f.mbits - q0 f x e).toNat
    let lands (f : Fmt) (neg : Bool) (x : Nat) (e : Int) (r : Nat × BitVec 5) : Prop :=
      ∃ (n j : Nat) (i : Int), n < 2 ^ (f.ebits + f.mbits) ∧ r.1 = code f neg n ∧ decodeF f r.1 = .fin neg j i ∧
        j * 2 ^ (i - least f).toNat = mag f neg x e ∧ ((at_ f neg x e).2 = false → r.2 = 0) ∧
        ((at_ f neg x e).2 = true → (tiny f neg x e → r.2 = 24) ∧ (¬tiny f neg x e → r.2 = 16))
    let rounds (f : Fmt) (neg : Bool) (x : Nat) (e : Int) (r : Nat × BitVec 5) : Prop :=
      (mag f neg x e < 2 ^ (2 ^ f.ebits - 2 + f.mbits) → lands f neg x e r) ∧
      (2 ^ (2 ^ f.ebits - 2 + f.mbits) ≤ mag f neg x e → r = (code f neg (match m with
        | .rne => inf f
        | .rz => inf f - 1
        | .rdn => if neg then inf f else inf f - 1
        | .rup => if neg then inf f - 1 else inf f), 20))
    let exact (f : Fmt) (n e : Int) (zero : Bool) (r : Nat × BitVec 5) : Prop :=
      (n = 0 → r = (code f zero 0, 0)) ∧ (n ≠ 0 → rounds f (decide (n < 0)) n.natAbs e r)
    let isNan (v : FVal) : Prop := ∃ b, v = .nan b
    let nv (vs : List FVal) (b : BitVec 5) : Prop := (.nan true ∈ vs → b = 1) ∧ (.nan true ∉ vs → b = 0)
    let value (q : Int) (v : FVal) : Int := match v with
      | .fin neg n e => (if neg then -(n : Int) else n) * 2 ^ (e - q).toNat
      | _ => 0
    let minus (v : FVal) : Bool := match v with
      | .fin neg _ _ => neg
      | .inf neg => neg
      | .nan _ => false
    let sums (f : Fmt) (xs : List FVal) (r : Nat × BitVec 5) : Prop :=
      ((∃ v ∈ xs, isNan v) → r.1 = nan f ∧ nv xs r.2) ∧
      ((¬∃ v ∈ xs, isNan v) →
        (.inf false ∈ xs → .inf true ∈ xs → r = (nan f, 1)) ∧
        (∀ g, .inf g ∈ xs → .inf (!g) ∉ xs → r = (code f g (inf f), 0)) ∧
        ((∀ g, .inf g ∉ xs) → ∃ n q : Int, (∀ g j e, .fin g j e ∈ xs → q ≤ e) ∧ n = (xs.map (value q)).sum ∧
          exact f n q (if ∀ v ∈ xs, minus v = true then true else if ∀ v ∈ xs, minus v = false then false else m == .rdn) r))
    let zeroInf (a b : FVal) : Prop := ∃ g h e, (a = .inf g ∧ b = .fin h 0 e) ∨ (b = .inf g ∧ a = .fin h 0 e)
    -- a product that is neither a NaN nor invalid
    let times (a b p : FVal) : Prop := ¬zeroInf a b ∧
      ((∃ g j e h k i, a = .fin g j e ∧ b = .fin h k i ∧ p = .fin (g != h) (j * k) (e + i)) ∨
        ((∃ g, a = .inf g ∨ b = .inf g) ∧ p = .inf (minus a != minus b)))
    (∀ f ∈ [fp32, fp16, bf16],
      (∀ (a b c : FVal),
        sums f [a, b] (addF f m a b) ∧
        sums f [a, match b with
          | .fin g j e => .fin (!g) j e
          | .inf g => .inf (!g)
          | .nan s => .nan s] (subF f m a b) ∧
        (isNan a ∨ isNan b → (prodF f m a b).1 = nan f ∧ nv [a, b] (prodF f m a b).2) ∧
        (zeroInf a b → prodF f m a b = (nan f, 1) ∧ (¬isNan c → fmaF f m a b c = (nan f, 1))) ∧
        (isNan a ∨ isNan b → (fmaF f m a b c).1 = nan f ∧ nv [a, b, c] (fmaF f m a b c).2) ∧
        ∀ p, ¬isNan a → ¬isNan b → times a b p → sums f [p, c] (fmaF f m a b c) ∧
          (∀ g, p = .inf g → prodF f m a b = (code f g (inf f), 0)) ∧
          ∀ g j e, p = .fin g j e → exact f (if g then -(j : Int) else j) e g (prodF f m a b)) ∧
      (∀ (big : Bool) (xs : List Nat), xs ≠ [] → (∀ x ∈ xs, x < 2 ^ (f.ebits + f.mbits + 1)) →
        let r := pickF f big xs
        let top := 2 ^ (f.ebits + f.mbits)
        let key (x : Nat) : Int := if x < top then x else -((x - top : Nat) : Int) - 1
        let good (x : Nat) : Prop := x % top ≤ inf f
        nv (xs.map (decodeF f)) r.2 ∧ ((∀ x ∈ xs, ¬good x) → r.1 = nan f) ∧
          ((∃ x ∈ xs, good x) → r.1 ∈ xs ∧ good r.1 ∧ ∀ x ∈ xs, good x → if big then key x ≤ key r.1 else key r.1 ≤ key x)) ∧
      (∀ g x, match decodeF g x with
        | .nan s => convF g f m x = (nan f, if s then 1 else 0)
        | .inf n => convF g f m x = (code f n (inf f), 0)
        | .fin n j e => exact f (if n then -(j : Int) else j) e n (convF g f m x))) ∧
    (∀ v : Int, m = .rne → exact fp32 v 0 false (ofInt v)) ∧
    (∀ (lo hi : Int) (x : Nat), match decodeF fp32 x with
      | .nan _ => toInt m lo hi x = (0, 1)
      | .inf n => toInt m lo hi x = (if n then lo else hi, 1)
      | .fin n j e =>
        let w := roundAt (.mode m) n j e false 0
        let v : Int := if n then -(w.1 : Int) else w.1
        (v < lo → toInt m lo hi x = (lo, 1)) ∧ (lo ≤ v → hi < v → toInt m lo hi x = (hi, 1)) ∧
          (lo ≤ v → v ≤ hi → toInt m lo hi x = (v, if w.2 then 16 else 0))) ∧
    ∀ (f : Fmt) (ns : Bool) (x max_ : Nat), (f, max_) ∈ [(e4m3, 0x7E), (e5m2, 0x7B)] →
      let beyond (n : Bool) (fl out : BitVec 5) (r : Nat × BitVec 5) : Prop :=
        r = if ns = false then (code f n max_, fl) else if f = e4m3 then (0x7F, out) else (code f n 0x7C, if out = 1 then 0 else out)
      match decodeF fp32 x with
      | .nan s => toF8 f ns m x = (nan f, if s then 1 else 0)
      | .inf n => beyond n 16 1 (toF8 f ns m x)
      | .fin n j e => (j = 0 → toF8 f ns m x = (code f n 0, 0)) ∧
          (j ≠ 0 → mag f n j e ≤ 7 * 2 ^ (if f = e4m3 then 15 else 29) → lands f n j e (toF8 f ns m x)) ∧
          (j ≠ 0 → 7 * 2 ^ (if f = e4m3 then 15 else 29) < mag f n j e → beyond n 20 20 (toF8 f ns m x))

/-- `vcmp`: the mask bits of the active lanes are the condition, those that Z zeroes are 0, every other bit stays; m0 stays all ones; the
flags of the active lanes are ORed in and nothing else changes. Integers compare by type; floats with −0 and +0 equal, a NaN making eq, lt and le
false and ne true, NV for a signalling one, and for any one in lt and le; packed types hold in both elements (04 R63, 07 Table 7-3, 19 R375). -/
def Obligations.VectorCompareWritesItsMask : Prop :=
  ∀ (s : State) (c : Ctx) (p : Option Pfx) (t : VT) (q : Cond) (m : BitVec 3) (a : BitVec 6) (b : VB),
    let g := c.g
    let A := getV g a.toNat
    let B := getVB g b
    let E := execLanes g c.f p
    let res (l : Nat) : Bool × BitVec 5 := cmpLane t q (A l) (B l)
    Issues (.vcmp p t q m a b) s c → NamesOk g ([(a.toNat : Int)] ++ vbNames b) →
      (∃ h, Changes (.vcmp p t q m a b) s c (fun _ => h) ∧
        (∀ n, n ≠ m.toNat → getM h n = getM g n) ∧
        (m.toNat ≠ 0 → ∀ l, l < 32 → (getM h m.toNat).getLsbD l =
          if E.getLsbD l then (res l).1 else if c.f.lanes.getLsbD l && zeroing p then false else (getM g m.toNat).getLsbD l) ∧
        (m.toNat = 0 → getM h 0 = 0xFFFFFFFF) ∧
        h.fx = (lanesOf E).foldl (fun x l => x ||| (res l).2) g.fx ∧ { h with m := g.m, fx := g.fx } = g) ∧
      (∀ l, t = .i32 → res l = (match q with
          | .eq => decide (A l = B l)
          | .ne => decide (A l ≠ B l)
          | .lt => decide ((A l).toInt < (B l).toInt)
          | .le => decide ((A l).toInt ≤ (B l).toInt), 0)) ∧
      (∀ l, t = .n32 → res l = (match q with
          | .eq => decide (A l = B l)
          | .ne => decide (A l ≠ B l)
          | .lt => decide ((A l).toNat < (B l).toNat)
          | .le => decide ((A l).toNat ≤ (B l).toNat), 0)) ∧
      let k := if t = .f16x2 ∨ t = .bf16x2 ∨ t = .i16x2 ∨ t = .n16x2 then 16 else 32
      let isF := decide (t = .f32 ∨ t = .f16x2 ∨ t = .bf16x2)
      let inf := if t = .f32 then 0x7F800000 else if t = .f16x2 then 0x7C00 else 0x7F80
      let quiet := if t = .f32 then 0x400000 else if t = .f16x2 then 0x200 else 0x40
      let mag (x : Nat) : Nat := x % 2 ^ (k - 1)
      let nan (x : Nat) : Prop := isF = true ∧ inf < mag x
      let signalling (x : Nat) : Prop := nan x ∧ mag x < inf + quiet
      let val (x : Nat) : Int :=
        if x < 2 ^ (k - 1) then x else if isF then -(mag x : Int) else if t = .i32 ∨ t = .i16x2 then (x : Int) - 2 ^ k else x
      let pairs (l : Nat) : List (Nat × Nat) :=
        if k = 16 then [((A l).toNat % 2 ^ 16, (B l).toNat % 2 ^ 16), ((A l).toNat / 2 ^ 16, (B l).toNat / 2 ^ 16)]
        else [((A l).toNat, (B l).toNat)]
      let holds (e : Nat × Nat) : Prop := match q with
        | .eq => ¬nan e.1 ∧ ¬nan e.2 ∧ val e.1 = val e.2
        | .ne => nan e.1 ∨ nan e.2 ∨ val e.1 ≠ val e.2
        | .lt => ¬nan e.1 ∧ ¬nan e.2 ∧ val e.1 < val e.2
        | .le => ¬nan e.1 ∧ ¬nan e.2 ∧ val e.1 ≤ val e.2
      let raises (e : Nat × Nat) : Prop := match q with
        | .eq | .ne => signalling e.1 ∨ signalling e.2
        | .lt | .le => nan e.1 ∨ nan e.2
      ∀ l, ((res l).1 = true ↔ ∀ e ∈ pairs l, holds e) ∧
        ((∃ e ∈ pairs l, raises e) → (res l).2 = 1) ∧ ((¬∃ e ∈ pairs l, raises e) → (res l).2 = 0)

/-- Shuffles read the lane of Table 5-8, or their own where that one is not active; votes give Table 5-9 (05 R98, R99, 19 R383, R384). -/
def Obligations.ShufflesAndVotes : Prop :=
  ∀ (s : State) (c : Ctx) (p : Option Pfx) (w : SubW) (d a : BitVec 6) (b : VB),
    let g := c.g
    let n := subWidth w
    let E := execLanes g c.f p
    let from_ (src l : Nat) : Word := getV g a.toNat (if E.getLsbD src then src else l)
    let B (l : Nat) : Nat := (getVB g b l).toNat
    let on (l i : Nat) : Bool := E.getLsbD (l - l % n + i) && decide (getV g a.toNat (l - l % n + i) ≠ 0)
    let gives (i : Instr) (k : Nat → Word) : Prop := Issues i s c → LaneChanges i s c p (d.toNat : Int) fun l => (k l, 0)
    NamesOk g ([(d.toNat : Int), (a.toNat : Int)] ++ vbNames b) →
      gives (.vshfl p w d a b) (fun l => from_ (l - l % n + B l % n) l) ∧
      gives (.vshflup p w d a b) (fun l => from_ (if B l ≤ l % n then l - B l else l) l) ∧
      gives (.vshfldn p w d a b) (fun l => from_ (if l % n + B l < n then l + B l else l) l) ∧
      gives (.vshflx p w d a b) (fun l => from_ (l - l % n + (l % n ^^^ B l % n)) l) ∧
      gives (.vvote p .any w d a) (fun l => if ∃ i, i < n ∧ on l i = true then 1 else 0) ∧
      gives (.vvote p .all w d a) (fun l => if ∀ i, i < n → on l i = true then 1 else 0) ∧
      gives (.vvote p .uni w d a) (fun l => if ∀ i, i < n → on l i = on l 0 then 1 else 0) ∧
      (Issues (.vvote p .ballot w d a) s c → ∃ f : Nat → Word, LaneChanges (.vvote p .ballot w d a) s c p (d.toNat : Int) (fun l => (f l, 0)) ∧
        ∀ l i, i < 32 → (f l).getLsbD i = (decide (i < n) && on l i))

/-- Reductions and scans: each active lane receives the reduction of the active lanes of its subgroup, of those up to it, or of those below
it: bit operations over the set, integers' sum modulo 2^k and least or greatest by type, floats' exact sum rounded once with its NaNs, infinities and
signs of zero, and their least or greatest with NaNs passed over, as R386 has it where 07 Table 7-3 gives the canonical NaN (log 113), per element;
the identity for an empty set (19 R385, R386). -/
def Obligations.ReductionsAndScans : Prop :=
  ∀ (s : State) (c : Ctx) (p : Option Pfx) (op : VRedOp) (ex : Bool) (t : VT) (w : SubW) (d a : BitVec 6),
    let g := c.g
    let n := subWidth w
    let E := execLanes g c.f p
    let ws (l : Nat) (ok : Nat → Bool) : List Word :=
      (((List.range n).map fun i => l - l % n + i).filter fun j => E.getLsbD j && ok j).map fun j => getV g a.toNat j
    let red (l : Nat) (ok : Nat → Bool) : Word × BitVec 5 := redLane op t (roundingMode g p) (ws l ok)
    NamesOk g [(d.toNat : Int), (a.toNat : Int)] →
      (Issues (.vred p op t w d a) s c → LaneChanges (.vred p op t w d a) s c p (d.toNat : Int) fun l => red l fun _ => true) ∧
      (Issues (.vscan p op ex t w d a) s c → LaneChanges (.vscan p op ex t w d a) s c p (d.toNat : Int) fun l =>
        red l fun j => if ex then decide (j < l) else decide (j ≤ l)) ∧
      ∀ l ok, (op = .add → t = .i32 ∨ t = .n32 → red l ok = ((ws l ok).foldl (· + ·) 0, 0)) ∧
        (op = .and → t = .b32 → red l ok = ((ws l ok).foldl (· &&& ·) 0xFFFFFFFF, 0)) ∧
        (op = .or → t = .b32 → red l ok = ((ws l ok).foldl (· ||| ·) 0, 0)) ∧
        (op = .xor → t = .b32 → red l ok = ((ws l ok).foldl (· ^^^ ·) 0, 0)) ∧
        (op = .max → t = .n32 → red l ok = ((ws l ok).foldl (fun y z => if y.toNat ≤ z.toNat then z else y) 0, 0)) ∧
        (op = .min → t = .n32 → red l ok = ((ws l ok).foldl (fun y z => if y.toNat ≤ z.toNat then y else z) 0xFFFFFFFF, 0)) ∧
        let k := if t = .f16x2 ∨ t = .bf16x2 ∨ t = .i16x2 ∨ t = .n16x2 then 16 else 32
        let inf := if t = .f32 then 0x7F800000 else if t = .f16x2 then 0x7C00 else 0x7F80
        let quiet := if t = .f32 then 0x400000 else if t = .f16x2 then 0x200 else 0x40
        let top := 2 ^ (k - 1)
        let mag (x : Nat) : Nat := x % top
        let nan (x : Nat) : Prop := inf < mag x
        let signalling (x : Nat) : Prop := inf < mag x ∧ mag x < inf + quiet
        -- −0 orders below +0
        let key (x : Nat) : Int := if x < top then x else -(mag x : Int) - 1
        let sgn := decide (t = .i32 ∨ t = .i16x2)
        let int (x : Nat) : Int := if sgn = true ∧ top ≤ x then (x : Int) - 2 ^ k else x
        -- a finite value as a multiple of 2^q, for a q that is low enough
        let value (q : Int) (v : FVal) : Int := match v with
          | .fin neg n e => (if neg then -(n : Int) else n) * 2 ^ (e - q).toNat
          | _ => 0
        let ints (xs : List Nat) (r : Nat × BitVec 5) : Prop :=
          r.2 = 0 ∧ (op = .add → (r.1 : Int) = (xs.map int).sum % 2 ^ k) ∧
          (op = .min → (xs = [] → r.1 = if sgn then top - 1 else 2 ^ k - 1) ∧ (xs ≠ [] → r.1 ∈ xs ∧ ∀ x ∈ xs, int r.1 ≤ int x)) ∧
          (op = .max → (xs = [] → r.1 = if sgn then top else 0) ∧ (xs ≠ [] → r.1 ∈ xs ∧ ∀ x ∈ xs, int x ≤ int r.1))
        let floats (f : Fmt) (xs : List Nat) (r : Nat × BitVec 5) : Prop :=
          let nv : Prop := ((∃ x ∈ xs, signalling x) → r.2 = 1) ∧ ((¬∃ x ∈ xs, signalling x) → r.2 = 0)
          (op = .add → (xs = [] → r = (0, 0)) ∧ ((∃ x ∈ xs, nan x) → r.1 = inf + quiet ∧ nv) ∧
            ((¬∃ x ∈ xs, nan x) →
              (inf ∈ xs → top + inf ∈ xs → r = (inf + quiet, 1)) ∧ (inf ∈ xs → top + inf ∉ xs → r = (inf, 0)) ∧
              (inf ∉ xs → top + inf ∈ xs → r = (top + inf, 0)) ∧
              (inf ∉ xs → top + inf ∉ xs → xs ≠ [] → ∃ n q : Int,
                (∀ x ∈ xs, ∀ neg j e, decodeF f x = .fin neg j e → q ≤ e) ∧ n = (xs.map fun x => value q (decodeF f x)).sum ∧
                (n ≠ 0 → r = roundF f (roundingMode g p) (decide (n < 0)) n.natAbs q) ∧
                (n = 0 → ((∀ x ∈ xs, top ≤ x) → r = (top, 0)) ∧ ((∀ x ∈ xs, x < top) → r = (0, 0)) ∧
                  ((∃ x ∈ xs, top ≤ x) → (∃ x ∈ xs, x < top) → r = (if roundingMode g p = .rdn then top else 0, 0)))))) ∧
          (op = .min ∨ op = .max → (xs = [] → r = (if op = .min then inf else top + inf, 0)) ∧
            (xs ≠ [] → nv ∧ ((∀ x ∈ xs, nan x) → r.1 = inf + quiet) ∧
              ((∃ x ∈ xs, ¬nan x) → r.1 ∈ xs ∧ ¬nan r.1 ∧ ∀ x ∈ xs, ¬nan x →
                if op = .min then key r.1 ≤ key x else key x ≤ key r.1)))
        let element (w : Word) (i : Nat) : Nat := if k = 16 then w.toNat / 2 ^ (16 * i) % 2 ^ 16 else w.toNat
        (t ≠ .b32 → op = .add ∨ op = .min ∨ op = .max → ∃ r : Nat → Nat × BitVec 5,
          (∀ i, i < 32 / k → (typeFmt t = none → ints ((ws l ok).map (element · i)) (r i)) ∧
            ∀ f, typeFmt t = some f → floats f ((ws l ok).map (element · i)) (r i)) ∧
          red l ok = if k = 16 then (BitVec.ofNat 32 ((r 0).1 % 2 ^ 16 + (r 1).1 % 2 ^ 16 * 2 ^ 16), (r 0).2 ||| (r 1).2)
            else (BitVec.ofNat 32 (r 0).1, (r 0).2))

/-- Conversions, packing and the byte dot product (07 R134, R135, R141, 19 R378 to R380): integer results in full, floating-point ones by the
conversion between the formats, whose results O23 gives; `vcvt` with a slot and `vqcvt` trap ILLEGAL on a slot of another format; the
quantisation of R141 in full, and the special inputs of 19 Table 19-13.
`vsfu` starts an operation of the sfu counter that holds the results, the lanes to zero and the flags, and waits while the counter is
full (08 R151, 19 R381); what it delivers within the bracket of 19 R382 is a free value, and underflow of a result that rounds to zero is the model's reading (logs 8, 14). -/
def Obligations.ConversionsPackingAndSpecialFunctions : Prop :=
  (∀ (s : State) (c : Ctx) (p : Option Pfx) (t : VT) (ns hi : Bool) (sl : BitVec 3) (x : Ix) (d a : BitVec 6) (b : VB),
     let g := c.g
     let vd := vname g d (ixVd x)
     let A := getN g (vname g a (ixVa x))
     let B := getVB g b
     let m := roundingMode g p
     let slot := lrWord (taskOf s g) (24 + sl.toNat)
     let fl (r : Nat × BitVec 5) : Word × BitVec 5 := (BitVec.ofNat 32 r.1, r.2)
     let i8 (w : Word) (i : Nat) : Int := (w.extractLsb' (8 * i) 8).toInt
     let n8 (w : Word) (i : Nat) : Int := (w.extractLsb' (8 * i) 8).toNat
     let dot (f : Word → Nat → Int) (l : Nat) : Int :=
       f (A l) 0 * f (B l) 0 + f (A l) 1 * f (B l) 1 + f (A l) 2 * f (B l) 2 + f (A l) 3 * f (B l) 3
     let cvt (k : CvtCode) (f : Nat → Word × BitVec 5) : Prop :=
       Issues (.vcvt p k ns sl x d a) s c → LaneChanges (.vcvt p k ns sl x d a) s c p vd f
     let clamp (lo top v : Int) : Int := max lo (min top v)
     NamesOk g ([vd, vname g a (ixVa x)] ++ vbNames b) →
       cvt .f32i32 (fun l => ((BitVec.ofInt 32 (toInt m (-2 ^ 31) (2 ^ 31 - 1) (A l).toNat).1, (toInt m (-2 ^ 31) (2 ^ 31 - 1) (A l).toNat).2))) ∧
       cvt .f32n32 (fun l => ((BitVec.ofInt 32 (toInt m 0 (2 ^ 32 - 1) (A l).toNat).1, (toInt m 0 (2 ^ 32 - 1) (A l).toNat).2))) ∧
       cvt .i32f32 (fun l => fl (ofInt (A l).toInt)) ∧ cvt .n32f32 (fun l => fl (ofInt (A l).toNat)) ∧
       cvt .f32f16 (fun l => fl (convF fp32 fp16 m (A l).toNat)) ∧ cvt .f16f32 (fun l => fl (convF fp16 fp32 m ((A l).toNat % 2 ^ 16))) ∧
       cvt .f32bf16 (fun l => fl (convF fp32 bf16 m (A l).toNat)) ∧ cvt .bf16f32 (fun l => fl (convF bf16 fp32 m ((A l).toNat % 2 ^ 16))) ∧
       cvt .i32i8 (fun l => ((BitVec.ofInt 8 (clamp (-128) 127 (A l).toInt)).setWidth 32, 0)) ∧
       cvt .i8i32 (fun l => (((A l).setWidth 8).signExtend 32, 0)) ∧
       (∀ f8, slotF8 slot = some f8 → cvt .f32f8 (fun l => fl (toF8 f8 ns m (A l).toNat)) ∧
         cvt .f8f32 (fun l => fl (convF f8 fp32 m ((A l).toNat % 2 ^ 8)))) ∧
       (slotF8 slot = none → ∀ k, k = .f32f8 ∨ k = .f8f32 → Issues (.vcvt p k ns sl x d a) s c → Traps (.vcvt p k ns sl x d a) s c s .illegal 0) ∧
       (slotElem slot ≠ some .e2m1 ∨ slotScaled slot = false → Issues (.vqcvt p sl x d a) s c → Traps (.vqcvt p sl x d a) s c s .illegal 0) ∧
       (slotElem slot = some .e2m1 → slotScaled slot = true → Issues (.vqcvt p sl x d a) s c →
         let q := quantise ((List.range 32).map fun l => (A l).toNat)
         ∃ h, Changes (.vqcvt p sl x d a) s c (fun _ => h) ∧ h.fx = g.fx ||| q.2 ∧ { h with v := g.v, fx := g.fx } = g ∧
           (∀ l, l < 32 → getN h vd l = q.1.getD l 0) ∧ ∀ pos l, l < 32 → pos ≠ g.wb + vd.toNat → getPos h pos l = getPos g pos l) ∧
       (Issues (.vpack p t x d a b) s c → LaneChanges (.vpack p t x d a b) s c p vd fun l =>
         match typeFmt t with
         | some f => (BitVec.ofNat 32 ((convF fp32 f m (A l).toNat).1 + (convF fp32 f m (B l).toNat).1 * 2 ^ 16),
             (convF fp32 f m (A l).toNat).2 ||| (convF fp32 f m (B l).toNat).2)
         | none => if t = .i16x2 then
             (BitVec.ofInt 16 (clamp (-32768) 32767 (B l).toInt) ++ BitVec.ofInt 16 (clamp (-32768) 32767 (A l).toInt), 0)
           else (BitVec.ofNat 16 (min (B l).toNat 65535) ++ BitVec.ofNat 16 (min (A l).toNat 65535), 0)) ∧
       (x = .none → Issues (.vunpk p t hi d a) s c → LaneChanges (.vunpk p t hi d a) s c p vd fun l =>
         let h16 : BitVec 16 := if hi then (A l).extractLsb' 16 16 else (A l).extractLsb' 0 16
         match typeFmt t with
         | some f => fl (convF f fp32 .rne h16.toNat)
         | none => (if t = .i16x2 then h16.signExtend 32 else h16.setWidth 32, 0)) ∧
       (Issues (.vdot4 p t x d a b) s c → LaneChanges (.vdot4 p t x d a b) s c p vd fun l =>
         (getN g vd l + BitVec.ofInt 32 (dot (if t = .i32 then i8 else n8) l), 0))) ∧
  (∀ (s : State) (c : Ctx) (p : Option Pfx) (fn : SfuFn) (t : VT) (x : Ix) (d a : BitVec 6), Issues (.vsfu p fn t x d a) s c →
     NamesOk c.g [vname c.g d (ixVd x), vname c.g a (ixVa x)] →
       (63 ≤ counter c.g .sfu → Waits (.vsfu p fn t x d a) s c s (.counterFull .sfu)) ∧
       (counter c.g .sfu < 63 → ∃ res fl,
         Completes (.vsfu p fn t x d a) s c (launchOp s c.gid .sfu (.sfu (c.g.wb + (vname c.g d (ixVd x)).toNat) res fl)).2 ∧
         (∀ l v, (l, v) ∈ res ↔ (l < 32 ∧ (execLanes c.g c.f p).getLsbD l = true ∧
             v = (lane1 t (sfuElem t fn (roundingMode c.g p)) (getN c.g (vname c.g a (ixVa x)) l)).1) ∨ (zeroed c.g c.f p l ∧ v = 0)) ∧
         fl = (lanesOf (execLanes c.g c.f p)).foldl
           (fun z l => z ||| (lane1 t (sfuElem t fn (roundingMode c.g p)) (getN c.g (vname c.g a (ixVa x)) l)).2) 0)) ∧
  -- the special inputs of 19 Table 19-13
  (∀ (t : VT) (f : Fmt) (m : RMode) (x : Nat), (t, f) ∈ [(VT.f32, fp32), (.f16x2, fp16)] →
    let gives (fn : SfuFn) (r : Nat × BitVec 5) : Prop := sfuElem t fn m x = r
    let inf := (2 ^ f.ebits - 1) * 2 ^ f.mbits
    let nan := inf + 2 ^ (f.mbits - 1)
    let power (k : Int) : Nat := (k + 2 ^ (f.ebits - 1) - 1).toNat * 2 ^ f.mbits
    let code (neg : Bool) (n : Nat) : Nat := if neg then 2 ^ (f.ebits + f.mbits) + n else n
    match decodeF f x with
    | .nan b => ∀ fn, gives fn (nan, if b then 1 else 0)
    | .inf g => gives .rcp (code g 0, 0) ∧ gives .rsq (if g then (nan, 1) else (0, 0)) ∧ gives .sqrt (if g then (nan, 1) else (inf, 0)) ∧
        gives .ex2 (if g then 0 else inf, 0) ∧ gives .lg2 (if g then (nan, 1) else (inf, 0)) ∧ gives .sin (nan, 1) ∧ gives .cos (nan, 1) ∧
        gives .tanh (code g (power 0), 0)
    | .fin g j e =>
        (j = 0 → gives .rcp (code g inf, 2) ∧ gives .rsq (code g inf, 2) ∧ gives .sqrt (code g 0, 0) ∧ gives .ex2 (power 0, 0) ∧
          gives .lg2 (code true inf, 2) ∧ gives .sin (code g 0, 0) ∧ gives .cos (power 0, 0) ∧ gives .tanh (code g 0, 0)) ∧
        (j ≠ 0 → g = true → gives .rsq (nan, 1) ∧ gives .sqrt (nan, 1) ∧ gives .lg2 (nan, 1)) ∧
        (∀ k : Int, (if g then -(j : Int) else j) * 2 ^ e.toNat = k * 2 ^ (-e).toNat → 2 - 2 ^ (f.ebits - 1) ≤ k → k < 2 ^ (f.ebits - 1) →
          gives .ex2 (power k, 0)) ∧
        ∀ p : Nat, g = false → j = 2 ^ p → ∃ (r : Nat) (n : Bool) (i : Nat × Int), gives .lg2 (r, 0) ∧ decodeF f r = .fin n i.1 i.2 ∧
          (if n then -(i.1 : Int) else i.1) * 2 ^ i.2.toNat = (p + e) * 2 ^ (-i.2).toNat) ∧
  -- 07 R141, in units of 2^-149, the smallest subnormal of the inputs
  ∀ (xs : List Nat), xs.length = 32 → (∀ x ∈ xs, x < 2 ^ 32) →
    let finite (x : Nat) : Prop := x % 2 ^ 31 < 0x7F800000
    let r := quantise xs
    ((∃ x ∈ xs, ¬finite x) → r = ((List.range 32).map fun l => if l = 4 then 0xFF else 0, 1)) ∧
    ((∀ x ∈ xs, finite x) → ∃ (e : Int) (c : Nat → Nat) (sp : Nat),
      let value (v : FVal) (q : Nat) : Int := match v with
        | .fin neg n i => (if neg then -(n : Int) else n) * 2 ^ (i + q).toNat
        | _ => 0
      let X (j : Nat) : Int := value (decodeF fp32 (xs.getD j 0)) 149
      let half : Nat := 2 ^ (e + 148).toNat
      let twice (k : Nat) : Int := (if k / 8 = 1 then -1 else 1) * (([0, 1, 2, 3, 4, 6, 8, 12].getD (k % 8) 0 : Nat) : Int)
      let err (j k : Nat) : Nat := (X j - twice k * half).natAbs
      let spare (k : Nat) : Int := value (decodeF e4m3 k) 9 * 2 ^ (e + 140).toNat
      let words (d : Nat → Nat) : Prop := r.1.length = 32 ∧ (∀ j, j < 32 → (r.1.getD (j / 8) 0).toNat / 16 ^ (j % 8) % 16 = d j) ∧
        r.1.getD 4 0 = BitVec.ofNat 32 (sp * 256 + (e + 127).toNat) ∧ ∀ l, 5 ≤ l → r.1.getD l 0 = 0
      -- the smallest scale under which no element saturates
      e ≤ 127 ∧ -127 ≤ e ∧ (∀ j, j < 32 → (X j).natAbs ≤ 12 * half) ∧ (-127 < e → ∃ j, j < 32 ∧ 6 * half < (X j).natAbs) ∧
      -- the nearest code of each element, the even one of two, 0000b for every zero
      (∀ j, j < 32 → c j < 16 ∧ c j ≠ 8 ∧
        ∀ k, k < 16 → err j (c j) ≤ err j k ∧ (err j (c j) = err j k → twice k ≠ twice (c j) → c j % 2 = 0)) ∧
      ((∀ j, j < 32 → err j (c j) = 0) → sp = 0 ∧ r.2 = 0 ∧ words c) ∧
      ∀ i, i < 32 → err i (c i) ≠ 0 → (∀ j, j < 32 → err j (c j) ≤ err i (c i)) → (∀ j, j < i → err j (c j) < err i (c i)) →
        let far (k : Nat) : Nat := (X i - spare k).natAbs
        sp < 256 ∧ sp % 128 ≠ 127 ∧ (sp / 128 = 1 ↔ X i < 0) ∧
        (∀ k, k < 256 → k % 128 ≠ 127 → far sp ≤ far k ∧ (far sp = far k → spare k ≠ spare sp → sp % 2 = 0)) ∧
        words (fun j => if j = i then 8 else c j) ∧
        ((far sp ≠ 0 ∨ ∃ j, j < 32 ∧ j ≠ i ∧ err j (c j) ≠ 0) → r.2 = 16) ∧
        (far sp = 0 → (∀ j, j < 32 → j ≠ i → err j (c j) = 0) → r.2 = 0))

/-- The checks of a direct access in their order (08 R146, 12 R236): ALIGN by address; BOUNDS byte by byte, against the team's SH
allocation or the intervals of the context's SP entries; PERM by entry; WRITESET. That one access may lie in the window of several entries
together, while its permission goes by one that covers it, is the model's reading of 16 R300 (log 34). -/
def Obligations.DirectAccessesAreChecked : Prop :=
  ∀ (s : State) (g : Group) (dsp : DSpace) (kinds : List AKind) (al n : Nat) (as : List Nat), 0 < n → n ≤ 16 →
    let r := directCheck s g dsp kinds al n as
    let misaligned := ∃ a ∈ as, a % al ≠ 0
    let windows := entriesOf s (.ctx (sidOf s g)) 0
    let inside (b : Nat) : Prop := b < 2 ^ 31 ∧ b % 0x8000000 < 0x6000000 ∧ ∃ e ∈ windows, e.base ≤ b ∧ b < e.limit
    let out := ∃ a ∈ as, ∃ i, i < n ∧ match dsp with
      | .sh => (teamOf s g).sh ≤ a + i
      | .sp => ¬inside (a + i)
    let denied := dsp = .sp ∧ ∃ a ∈ as, ∃ k ∈ kinds, ¬∃ e ∈ windows, e.base ≤ a ∧ a + n ≤ e.limit ∧ grants e k = true
    let forbidden := dsp = .sp ∧ .write ∈ kinds ∧ ∃ l, (taskOf s g).ladder = some l ∧ ∃ a ∈ as, ∃ i, i < n ∧
      ¬∃ e ∈ writeSetSp s (clusterOf s g).task l, e.1 ≤ a + i ∧ a + i < e.2
    (r = some .align ↔ misaligned) ∧ (r = some .bounds ↔ ¬misaligned ∧ out) ∧ (r = some .perm ↔ ¬misaligned ∧ ¬out ∧ denied) ∧
      (r = some .writeset ↔ ¬misaligned ∧ ¬out ∧ ¬denied ∧ forbidden) ∧
      (r = none ↔ ¬misaligned ∧ ¬out ∧ ¬denied ∧ ¬forbidden)

/-- A lane's address is that of 08 Table 8-2, for the lanes of the fragment; a load or store waits for room in its counter, checks its
names, the conditions of a wrap pair and its lanes, and then its operation is in flight with what it needs, register by register (02 R28);
AM 011 moves sbase, at issue by the model's choice (log 43), as are its exact sum before mod L and its address for ALIGN where L is 0 (logs 115,
116). A load changes no byte of memory and no register but sbase yet (08 R147 to R151,
18 R335, R336, R363). -/
def Obligations.LoadsAreStarted : Prop :=
  ∀ (s : State) (c : Ctx) (w : MemW) (d : BitVec 6) (b : BitVec 9) (m : AM),
    let as := laneAddrs c m b w
    let n := widthBytes w
    let o := (getS c.g b.toNat).toNat
    let parts := lanePartsOf w as
    (∀ k e, (k, e) ∈ parts ↔ ∃ l a i, (l, a) ∈ as ∧ i < (n + 3) / 4 ∧ k = 32 * i + l ∧ e = a + 4 * i) ∧
    (∀ l a, (l, a) ∈ as ↔ l < 32 ∧ c.f.lanes.getLsbD l = true ∧ (a : Int) = (match m with
      | .imm i => ((o + i.toNat * n + l * n : Nat) : Int)
      | .vec v => ((o + (getV c.g v.toNat l).toNat : Nat) : Int)
      | .ix => o + c.g.ix.toInt * n + (l * n : Nat)
      | .wrap k _ => (((getS c.g (496 + 2 * k.toNat)).toNat + (o + l * n) % (getS c.g (497 + 2 * k.toNat)).toNat : Nat) : Int)) % 2 ^ 32) ∧
    ∀ i dsp, (i, dsp) ∈ [(Instr.lds w d b m, DSpace.sh), (Instr.ldp w d b m, DSpace.sp)] → Issues i s c → NamesOk c.g (accessNames w d m) →
      (63 ≤ counter c.g .ld → Waits i s c s (.counterFull .ld)) ∧
      (counter c.g .ld < 63 → wrapOk c.g m n = true → ∀ k, directCheck s c.g dsp [.read] n n (as.map (·.2)) = some k → Traps i s c s k 0) ∧
      (counter c.g .ld < 63 → wrapOk c.g m n = false → (∀ a ∈ as, a.2 % n = 0) → Traps i s c s .bounds 0) ∧
      (wrapOk c.g m n = true → MayAccess s c .ld dsp [.read] n n (as.map (·.2)) →
        Completes i s c (modGroup (launchOp s c.gid .ld (.vload (dsp == .sp) (if n ≤ 4 then w else .b32) (c.g.wb + d.toNat) parts)).2 c.gid (wrapStep m b)))

/-- Stores: as loads, with the bytes of the lanes read at issue, lanes ascending, and their words counted in the digest. The address
stored to is `laneAddr` of each lane (08 R147, R148, 18 R336, R337). That the digest of 15 R285 takes them at issue, that AM 011 moves sbase
then, and its sums are the model's choices (logs 44, 43, 115, 116). -/
def Obligations.StoresAreStarted : Prop :=
  ∀ (s : State) (c : Ctx) (w : MemW) (d : BitVec 6) (b : BitVec 9) (m : AM),
    let as := laneAddrs c m b w
    let n := widthBytes w
    ∀ i dsp, (i, dsp) ∈ [(Instr.sts w d b m, DSpace.sh), (Instr.stp w d b m, DSpace.sp)] → Issues i s c → NamesOk c.g (accessNames w d m) →
      let bs := as.map fun a => (a.2, laneBytes c.g w d.toNat a.1)
      (∀ x ∈ bs, x.2.length = n) ∧
      (63 ≤ counter c.g .st → Waits i s c s (.counterFull .st)) ∧
      (counter c.g .st < 63 → wrapOk c.g m n = true → ∀ k, directCheck s c.g dsp [.write] n n (as.map (·.2)) = some k → Traps i s c s k 0) ∧
      (counter c.g .st < 63 → wrapOk c.g m n = false → (∀ a ∈ as, a.2 % n = 0) → Traps i s c s .bounds 0) ∧
      (wrapOk c.g m n = true → MayAccess s c .st dsp [.write] n n (as.map (·.2)) →
        Completes i s c (modGroup
          (digestStore (launchOp s c.gid .st (.store (dsp == .sp) (bs.flatMap fun x => placed x.1 x.2))).2 c.gid
            (bs.flatMap fun x => digestWords (dsp == .sp) x.1 x.2)) c.gid (wrapStep m b)))

/-- Scalar loads and stores at s(sB) + imm5 · w, acquire loads and release stores (08 R149, 10 R195, 18 R363): the checks, then the
operation in flight; a release store above scope grp waits for its counters and publishes first, an acquire load above it closes the
gate of the group. That the digest of 15 R285 takes the stores at issue is the model's choice (log 44). -/
def Obligations.ScalarAccessesAreStarted : Prop :=
  ∀ (s : State) (c : Ctx) (sp : Bool) (w : MemW) (d b : BitVec 9) (i : BitVec 5) (ss : SS),
    let a (n : Nat) : Nat := ((getS c.g b.toNat).toNat + i.toNat * n) % 2 ^ 32
    let n := widthBytes w
    let bs := scalarBytes c.g w d.toNat
    let v := getS c.g d.toNat
    let ready := pendingPaths c.g (relPaths (ssScope ss)) = false
    let load := launchOp s c.gid .ld (.acq ss d.toNat (a 4))
    let rel := (launchOp (publishScope s c.g c.gid (ssScope ss)) c.gid .st (.rel ss (a 4) v)).2
    (Issues (.sld sp w d b i) s c →
      (∀ k, counter c.g .ld < 63 → directCheck s c.g (spaceOf sp) [.read] n n [a n] = some k → Traps (.sld sp w d b i) s c s k 0) ∧
      (MayAccess s c .ld (spaceOf sp) [.read] n n [a n] →
        Completes (.sld sp w d b i) s c (launchOp s c.gid .ld (.sload sp (if n ≤ 4 then w else .b32)
          ((List.range ((n + 3) / 4)).map fun j => (d.toNat + j, a n + 4 * j)))).2)) ∧
    (Issues (.sst sp w d b i) s c →
      (∀ k, counter c.g .st < 63 → directCheck s c.g (spaceOf sp) [.write] n n [a n] = some k → Traps (.sst sp w d b i) s c s k 0) ∧
      (MayAccess s c .st (spaceOf sp) [.write] n n [a n] →
        Completes (.sst sp w d b i) s c (digestStore (launchOp s c.gid .st (.store sp (placed (a n) bs))).2 c.gid (digestWords sp (a n) bs)))) ∧
    (Issues (.ldacq ss d b i) s c → MayAccess s c .ld (spaceOf (ssSp ss)) [.read] 4 4 [a 4] →
      Completes (.ldacq ss d b i) s c (if ssScope ss = .grp then load.2 else modGroup load.2 c.gid fun g =>
        { g with gate := some (load.1, ssScope ss) })) ∧
    (Issues (.strel ss d b i) s c → MayAccess s c .st (spaceOf (ssSp ss)) [.write] 4 4 [a 4] →
      (¬ready → Waits (.strel ss d b i) s c s (.drain (relPaths (ssScope ss)) .hold)) ∧
      (ready → Completes (.strel ss d b i) s c (digestStore rel c.gid (digestWords (ssSp ss) (a 4) (bytesOf v)))))

/-- `atom` and `atoms` (17 R306, R307): their addresses, operands and compare values read at issue, the checks with read and write, the
leading release above scope grp, then the operation in flight on ld with a return and st without; a returning one above scope grp closes
the gate of the group. That the digest of 15 R285 keeps its place at issue is the model's choice (log 44). -/
def Obligations.AtomicsAreStarted : Prop :=
  ∀ (s : State) (c : Ctx) (op : AtomOp) (ss : SS) (ret : Bool) (vd : BitVec 6) (d b : BitVec 9),
    let sc := ssScope ss
    let path : Path := if ret then .ld else .st
    let lanes := (lanesOf c.f.lanes).map fun l =>
      (l, ((getS c.g b.toNat).toNat + (getV c.g vd.toNat l).toNat) % 2 ^ 32, getV c.g (vd.toNat + 1) l, getV c.g (vd.toNat + 2) l)
    let one := [(0, (getS c.g b.toNat).toNat, getS c.g d.toNat, getS c.g (d.toNat + 1))]
    let start (vec : Bool) (dst : Nat) (ls : List (Nat × Nat × Word × Word)) : State :=
      let x := launchOp (publishScope s c.g c.gid sc) c.gid path (.atomic op ss ret vec dst ls [] [] 0)
      let y := digestHold x.2 c.gid x.1
      if ret = true ∧ sc ≠ .grp then modGroup y c.gid fun g => { g with gate := some (x.1, sc) } else y
    let effect (i : Instr) (vec : Bool) (dst : Nat) (ls : List (Nat × Nat × Word × Word)) : Prop :=
      Issues i s c →
      (∀ k, counter c.g path < 63 → directCheck s c.g (spaceOf (ssSp ss)) [.read, .write] 4 4 (ls.map (·.2.1)) = some k → Traps i s c s k 0) ∧
      (MayAccess s c path (spaceOf (ssSp ss)) [.read, .write] 4 4 (ls.map (·.2.1)) →
        (pendingPaths c.g (relPaths sc) = true → Waits i s c s (.drain (relPaths sc) .hold)) ∧
        (pendingPaths c.g (relPaths sc) = false → Completes i s c (start vec dst ls)))
    effect (.atoms op ss ret d b) false d.toNat one ∧
    (NamesOk c.g ((List.range (if op = .cas then 3 else 2)).map fun i => ((vd.toNat + i : Nat) : Int)) →
      effect (.atom op ss ret vd b) true (c.g.wb + vd.toNat + 1) lanes)

/-- The control words change the sequencer's registers as Table 6-3 states and nothing else of the part; `mbin` and `mend` wait for the
earlier writes, `mbwait` for its barrier, after the FPX check (06 R110, R118, 18 R339, R341, R342, R345, R348). That the S marker has no effect in
a sequencer's stream, and that no flag is enabled once group 0 has released, is the model's choice (logs 50, 92). -/
def Obligations.SequencerControlWords : Prop :=
  ∀ (s : State) (tid : Nat) (t : Team) (q : Seq) (n k sh : BitVec 4) (o : BitVec 22) (i : BitVec 16) (slot : BitVec 3) (g : BitVec 6),
    let runs (x : Instr) (q2 : Seq) : Prop := SeqIssues x s tid t q → SeqBecomes x s tid q2
    let p := seqPast q
    let v := kvGet 0 q.k k.toNat - 1
    let b := barOf t n.toNat
    runs (.mset (.k k) i) { p with k := kvSet 0 q.k k.toNat i } ∧ runs (.mset .pa i) { p with pa := i.toNat % 2 ^ 14 } ∧
    runs (.mset .pb i) { p with pb := i.toNat % 2 ^ 14 } ∧ runs (.mshare sh) { p with share := sh.toNat } ∧
    runs (.mjmp o) (seqAt q (q.pc + BitVec.ofInt 32 (4 * o.toInt))) ∧
    runs (.mloop k o) (if v = 0 then { p with k := kvSet 0 q.k k.toNat v }
      else { seqAt q (q.pc + BitVec.ofInt 32 (4 * o.toInt)) with k := kvSet 0 q.k k.toNat v }) ∧
    (g.toNat < t.groups.length →
      runs (.mmap .a g) { p with ahold := kvPut q.ahold (g.toNat % 4) g.toNat } ∧
      runs (.mmap .b g) { p with bhold := kvPut q.bhold (g.toNat % 4) g.toNat } ∧
      runs (.mmap (.acc slot) g) { p with
        acc := kvPut (q.acc.filter fun e => e.2 != g.toNat) (8 * (g.toNat % 4) + slot.toNat) g.toNat }) ∧
    (t.groups.length ≤ g.toNat → ∀ r, SeqIssues (.mmap r g) s tid t q → SeqFaults (.mmap r g) s tid q .mode 0) ∧
    (q.writes ≠ [] → runs (.mbin n) { q with park := .writes } ∧ runs .mend { q with park := .writes }) ∧
    (q.writes = [] → SeqIssues (.mbin n) s tid t q → exec (.mbin n) s =
      .next { modTeam (barEvent s tid n.toNat fun b => { b with arre := min 15 (b.arre + 1) }) tid fun x =>
        { x with seq := x.seq.map seqPast } with issue := .none }) ∧
    (q.run = none → q.flags &&& teamEnabled s tid t = 0 →
      (b.phase ≠ q.sap.getLsbD n.toNat → runs (.mbwait n) { p with sap := putBit q.sap n.toNat b.phase }) ∧
      (b.phase = q.sap.getLsbD n.toNat → runs (.mbwait n) { p with park := .bar n.toNat false })) ∧
    (q.run = none → q.flags &&& teamEnabled s tid t ≠ 0 → SeqIssues (.mbwait n) s tid t q → SeqFaults (.mbwait n) s tid q .fpx 0) ∧
    (q.writes = [] → SeqIssues .mend s tid t q → ∃ u, exec .mend s = .next u ∧
      (∀ x, teamGroup s tid (gidOf t 0) = some x → x.exiting = false →
        ∃ h, kvFind u.groups (gidOf t 0) = some h ∧ h.fx = x.fx ||| q.flags) ∧
      ∀ x, kvFind u.teams tid = some x →
        x.seq = some { q with flags := 0, busy := false, park := .run, run := none, cl := none, stepIdx := 0 })

/-- One step of `mma` or `mmas`, one slot of `mzero`, one `mcpy`: the check first, a failing one stops the stream before it with MODE or
REGIDX and the step's number; else the cells it writes are queued in the stream's order, each element accumulated from the row and column
elements, and the last step ends the word (06 R111 to R117, 18 R340, R343, R344). That each step and slot is a step of the machine, and its
writes an event after it, is the model's choice, as what of ballast is counted at an issue is, and that `mcpy` of a slot that no group holds to
itself stops like another (logs 80, 60, 15). -/
def Obligations.MatrixStepsQueueTheirCells : Prop :=
  ∀ (s : State) (tid : Nat) (t : Team) (q : Seq) (base src : BitVec 3) (n : BitVec 2) (a b : BitVec 6) (steps : BitVec 4) (f : BitVec 3)
    (el : Elem) (scaled : Bool),
    let i : Instr := if scaled then .mmas base n a b steps f else .mma base n a b steps f
    let fw := lrWord (taskOfTeam s t) (24 + f.toNat)
    let kk := 64 / elemBits el
    let j := q.stepIdx
    let d : StepD := { base := base.toNat, n := n.toNat, a := a.toNat + 2 * j, b := b.toNat + 2 * j, el := el,
                       spare := slotSpare fw, scaled := scaled, done := kk * j }
    let e := if slotSpare fw then 2 else 1
    let total := kk * (steps.toNat + 1)
    let core := t.cores.headD 0
    let end_ (x : Instr) (w : SeqWrite) (c2 : State → State) (z : Seq) : Prop :=
      exec x s = .next { modTeam (c2 (coreIssues s core)) tid fun y => { y with seq := some { z with writes := q.writes ++ [w] } } with
        issue := .none }
    (SeqIssues i s tid t q →
      (slotElem fw = none → SeqFaults i s tid q .illegal 0) ∧
      (slotElem fw = some el → scaled = true → slotScaled fw = false ∨ total % 32 ≠ 0 → SeqFaults i s tid q .illegal 0) ∧
      (slotElem fw = some el → (scaled = true → slotScaled fw = true ∧ total % 32 = 0) →
        (∀ c, stepCheck s tid t q d.base d.n d.a d.b = some c → SeqFaults i s tid q c j) ∧
        (stepCheck s tid t q d.base d.n d.a d.b = none →
          end_ i (stepWrite s tid t q d) (fun x => count x core 2 1) (if j < steps.toNat then { q with stepIdx := j + 1 }
            else if scaled then { seqPast q with pa := (q.pa + e * 32 * total / 32) % 16384, pb := (q.pb + e * 24 * total / 32) % 16384 }
            else seqPast q) ∧
          ∀ x, x ∈ (stepWrite s tid t q d).cells ↔ ∃ quad l c gid g ga gb, quad < 4 ∧ l < 32 ∧ c < 32 * d.n ∧
            accGroup s tid t q quad (d.base + c / 32) = some (gid, g) ∧ holder s tid t q.ahold quad = some ga ∧
            holder s tid t q.bhold (c / 24) = some gb ∧
            x = (gid, g.wb + 32 + c % 32, l, (accumulate el (seqReg q gid g (g.wb + 32 + c % 32) l)
              (rowElems s t q d ga quad l) (colElems s t q d gb (c / 24) (c % 24))).1)))) ∧
    (SeqIssues (.mzero base n) s tid t q →
      (slotsBound s tid t q ((List.range n.toNat).map (base.toNat + ·)) = false → SeqFaults (.mzero base n) s tid q .mode 0) ∧
      (slotsBound s tid t q ((List.range n.toNat).map (base.toNat + ·)) = true →
        end_ (.mzero base n) { cells := slotCells s tid t q (base.toNat + j) fun _ _ _ => 0, flags := 0 } (fun x => x)
          (if j + 1 < n.toNat then { q with stepIdx := j + 1 } else seqPast q))) ∧
    (SeqIssues (.mcpy base src) s tid t q →
      (slotsBound s tid t q [base.toNat, src.toNat] = false → SeqFaults (.mcpy base src) s tid q .mode 0) ∧
      (base = src → slotsBound s tid t q [base.toNat, src.toNat] = true → SeqBecomes (.mcpy base src) s tid (seqPast q)) ∧
      (base ≠ src → slotsBound s tid t q [base.toNat, src.toNat] = true → ∃ v : Nat → Nat → Nat → Word,
        end_ (.mcpy base src) { cells := slotCells s tid t q base.toNat v, flags := 0 } (fun x => x) (seqPast q) ∧
        ∀ quad r l gid g, accGroup s tid t q quad src.toNat = some (gid, g) → v quad r l = seqReg q gid g (g.wb + 32 + r) l))

/-- `cpy`, `cpymc` and `cpyred` (08 R154 to R161, 17 R316 to R319): they wait for room in the counter and the engine, make their checks in
order on the descriptor, and then their command is in the copy engine with its pieces and the counter cpy is raised; missing pages are
asked for. A copy to scale memories reads its layout record first, and then moves byte by byte. That a page that hits and lacks its permission
traps PERM where others miss, that each piece is translated again at its delivery, and that each row is one access, which one access entry has to
admit, is the model's choice (logs 73, 36, 34). -/
def Obligations.CopiesAreStarted : Prop :=
  ∀ (s : State) (c : Ctx) (rel res : Bool) (d x : BitVec 9) (bar : Option (BitVec 4)),
    let ws := descOf c.g d.toNat
    let k := copyD ws
    let core := c.gid / 64
    let sid := sidOf s c.g
    let room := counter c.g .cpy < 63 ∧ engineLoad s core < 64
    let a := lookSide s core sid (codeOf k.src) .read (keyOf k.src) k.srcRows k.xb
    let b := lookSide a.2 core sid (codeOf k.dst) .write (keyOf k.dst) k.dstRows k.xb
    let r := lookRecord s core sid k
    let layout := wordsOf ((List.range 32).map fun i => ((r.1.at (vaOf k.src + i)).map (readByte r.2)).getD 0)
    let m := scaleD layout
    let e := lookElements r.2 core sid false m
    let words : List Instr := [.cpy rel res d bar, .cpymc rel d x bar, .cpyred rel d x bar]
    let slices (n : Nat) : List Int := k.dstRows.map fun y => y + (sliceBase n : Int)
    let mask := getPair c.g x.toNat
    let v := (getS c.g x.toNat).toNat
    (∀ i ∈ words, Issues i s c →
      (63 ≤ counter c.g .cpy → Waits i s c s (.counterFull .cpy)) ∧
      (counter c.g .cpy < 63 → 64 ≤ engineLoad s core → Waits i s c s .engineFull)) ∧
    (Issues (.cpy rel res d bar) s c → room → codeOf k.src ≠ 0 ∨ codeOf k.dst ≠ 3 →
      (copyMisaligned k = true → Traps (.cpy rel res d bar) s c s .align 0) ∧
      (copyMisaligned k = false → copyOut s c.g k res = true → Traps (.cpy rel res d bar) s c s .bounds 0) ∧
      (copyMisaligned k = false → copyOut s c.g k res = false → rowsDenied s c.g (codeOf k.src) .read k.srcRows k.xb = false →
        rowsDenied s c.g (codeOf k.dst) .write k.dstRows k.xb = false →
        (a.1.perm = true ∨ b.1.perm = true → Traps (.cpy rel res d bar) s c b.2 .perm 0) ∧
        (a.1.perm = false → b.1.perm = false → a.1.tag = none → b.1.tag = none →
          (rowsForbidden b.2 c.g (codeOf k.dst) k.dstRows k.xb = true → Traps (.cpy rel res d bar) s c b.2 .writeset 0) ∧
          (rowsForbidden b.2 c.g (codeOf k.dst) k.dstRows k.xb = false →
            Completes (.cpy rel res d bar) s c (startBulk b.2 c .cpy { bulkOf c b.2 .cpy rel res bar ws with todo := [(0, 0, k.pieces)] }
              (a.1.miss.map (fun p => (0, .read, p)) ++ b.1.miss.map fun p => (0, .write, p))).2)))) ∧
    (Issues (.cpy rel false d bar) s c → room → codeOf k.dst = 3 → codeOf k.src = 0 → addrOk false k.src = true → addrOk false k.dst = true →
      copyMisaligned k = false → ws.drop 4 = [0, 0, 0, 0] → vaOf k.src + 32 ≤ 2 ^ 55 → r.1.miss = [] → r.1.perm = false → r.1.tag = none →
      r.1.reach r.2 = .yes → watchHits r.2 sid 0 [.read] [(vaOf k.src, 32)] = [] → scaleOk layout = true → (∀ y ∈ m.ranges, y.1 + y.2 ≤ 2 ^ 55) → e.1.perm = false →
      e.1.tag = none →
        Completes (.cpy rel false d bar) s c (startBulk e.2 c .cpy { bulkOf c e.2 .cpy rel false bar ws with
            scale := layout, todo := [(0, 0, m.rows * m.nblk * m.e)] }
          (e.1.miss.map fun p => (0, .read, p))).2) ∧
    (Issues (.cpymc rel d x bar) s c → room → copyMisaligned k = false →
      (mask = 0 ∨ (∃ n, n < 64 ∧ mask.getLsbD n = true ∧ n ∉ (clusterOf s c.g).cores) → Traps (.cpymc rel d x bar) s c s .async 0) ∧
      (mask ≠ 0 → (∀ n, n < 64 → mask.getLsbD n = true → n ∈ (clusterOf s c.g).cores ∧ rowsOut s c.g 1 (slices n) k.xb = false ∧
          rowsDenied s c.g 1 .write (slices n) k.xb = false ∧ rowsForbidden a.2 c.g 1 (slices n) k.xb = false) →
        codeOf k.src ≤ 1 → codeOf k.dst = 1 → addrOk false k.src = true → addrOk false k.dst = true → 0 < k.xb → k.bytes ≤ 2 ^ 24 →
        rowsOut s c.g (codeOf k.src) k.srcRows k.xb = false → rowsDenied s c.g (codeOf k.src) .read k.srcRows k.xb = false →
        (∀ y ∈ k.dstRows, 0 ≤ y ∧ y + k.xb ≤ 0x1800000) → a.1.perm = false → a.1.tag = none →
          Completes (.cpymc rel d x bar) s c (startBulk a.2 c .cpy { bulkOf c a.2 .cpymc rel false bar ws with
            x := mask, todo := (coresOfMask mask).map fun n => (n, 0, k.pieces) } (a.1.miss.map fun p => (0, .read, p))).2)) ∧
    (Issues (.cpyred rel d x bar) s c → room → copyMisaligned k = false → codeOf k.src = 1 ∨ codeOf k.src = 2 → codeOf k.dst = 1 →
      homeOf (vaOf k.dst) ∈ (clusterOf s c.g).cores → addrOk (spanning (teamOf s c.g)) k.src = true → addrOk false k.dst = true →
      0 < k.xb → k.bytes ≤ 2 ^ 24 → rowsOut s c.g (codeOf k.src) k.srcRows k.xb = false → rowsOut s c.g 1 k.dstRows k.xb = false →
      v < 2 ^ 19 → 1 ≤ v / 2 ^ 12 → v / 2 ^ 12 ≤ 64 → rowsDenied s c.g (codeOf k.src) .read k.srcRows k.xb = false →
      rowsDenied s c.g 1 .write k.dstRows k.xb = false → rowsForbidden s c.g 1 k.dstRows k.xb = false →
        Completes (.cpyred rel d x bar) s c
          (startBulk s c .cpy { bulkOf c s .cpyred rel false bar ws with x := BitVec.ofNat 64 v, todo := [(0, 0, 1)] } []).2) ∧
    (∀ path y miss, let t := (startBulk s c path y miss).2
      kvFind t.bulks s.nextId = some { y with fl := s.nextId + 1, checked := y.checked && miss.isEmpty } ∧
      ∀ g, kvFind s.groups c.gid = some g → ∃ h, kvFind t.groups c.gid = some h ∧
        counter h path = counter g path + 1 ∧ ∀ p, p ≠ path → counter h p = counter g p)

/-- `gath.park`, `gath.tol` and `scat` with room and their checks passed (08 R163 to R166, 17 R325, R326, 18 R359): a parking gather
starts its lanes and parks its group; a tolerant one starts the lanes whose pages all hit, asks for the pages of the others and returns
their mask; a scatter starts its lanes. A gather's lane whose pages all hit keeps the places that it found (17 R327). A word without lanes has no
other effect. -/
def Obligations.GathersAndScattersAreStarted : Prop :=
  ∀ (s : State) (c : Ctx) (rel : Bool) (d x : BitVec 9) (bar : Option (BitVec 4)),
    let ws := descOf c.g d.toNat
    let ms := movesOf c ws
    let core := c.gid / 64
    let sid := sidOf s c.g
    let looks (k : AKind) := lookLanes core sid k (rowBytes ws) ms s
    let r := looks .read
    let w := looks .write
    let hit := r.1.filter fun e => e.2.miss.isEmpty
    let lost := r.1.filter fun e => !e.2.miss.isEmpty
    let kept (e : LaneMove × Look) : LaneMove :=
      { e.1 with tr := some ((List.range (rowBytes ws)).filterMap fun i => e.2.at (vaOf e.1.va.toNat + i)) }
    let room := counter c.g .gth < 63 ∧ engineLoad s core < 64
    let fine (l : List (LaneMove × Look)) : Prop := ∀ e ∈ l, e.2.perm = false ∧ e.2.tag = none
    (∀ l, (∃ m ∈ ms, m.lane = l) ↔ l < 32 ∧ c.f.lanes.getLsbD l = true ∧ (ws.getD 5 0).getLsbD l = true) ∧
    (∀ i ∈ [Instr.gathPark d bar, .gathTol d x bar, .scat rel d bar], Issues i s c →
      (63 ≤ counter c.g .gth → Waits i s c s (.counterFull .gth)) ∧
      (counter c.g .gth < 63 → 64 ≤ engineLoad s core → Waits i s c s .engineFull)) ∧
    (room → ∀ t, laneChecks s c ws .write = some t →
      (Issues (.gathPark d bar) s c → Traps (.gathPark d bar) s c s t 0) ∧ (Issues (.gathTol d x bar) s c → Traps (.gathTol d x bar) s c s t 0)) ∧
    (room → ∀ t, laneChecks s c ws .read = some t → Issues (.scat rel d bar) s c → Traps (.scat rel d bar) s c s t 0) ∧
    (room → laneChecks s c ws .write = none → fine hit → rowsAtForbidden c ws r.2 = false →
      (Issues (.gathPark d bar) s c →
        (ms = [] → Completes (.gathPark d bar) s c s) ∧
        (ms ≠ [] →
          let y := startBulk r.2 c .gth { bulkOf c r.2 .gath false false bar ws with
              lanes := r.1.map fun e => if e.2.miss.isEmpty then kept e else e.1, todo := laneTodo (r.1.map (·.1)) }
            (laneMisses r.1 .read)
          Completes (.gathPark d bar) s c (modGroup y.2 c.gid fun g => { g with park := .gath y.1, parkPc := c.f.pc }))) ∧
      (Issues (.gathTol d x bar) s c →
        let bulk := { bulkOf c r.2 .gath false false bar ws with
          lanes := hit.map kept
          todo := laneTodo (hit.map (·.1)) }
        let y := if hit = [] then r.2 else (startBulk r.2 c .gth bulk []).2
        Completes (.gathTol d x bar) s c
          (modGroup (requestAll (dieOfCore core) (tolReqs c sid lost) (count y core 10 lost.length)) c.gid fun g =>
            setS g x.toNat (maskOf (lost.map fun e => e.1.lane))))) ∧
    (room → laneChecks s c ws .read = none → fine w.1 →
      rowsForbidden w.2 c.g 0 (ms.map fun m => ((vaOf m.va.toNat : Nat) : Int)) (rowBytes ws) = false →
      Issues (.scat rel d bar) s c →
        (ms = [] → Completes (.scat rel d bar) s c s) ∧
        (ms ≠ [] → Completes (.scat rel d bar) s c
          (startBulk w.2 c .gth { bulkOf c w.2 .scat rel false bar ws with lanes := w.1.map (·.1), todo := laneTodo (w.1.map (·.1)) }
            (laneMisses w.1 .write)).2))

/-- The residency words (08 R167, 18 R355): `resadd` puts its entry into the table of the slice's core, in place of one with its space and VA,
else at the lowest free index, else it sets RESFULL; `resdel` removes the entries of the space that overlap, in every core; `resq` starts
a search whose result is the first entry that covers the range, of the issuing core's table and then of its die's. That the bytes of the SP range
are one access, which one access entry has to admit, is the model's reading of 16 R300 (log 34). -/
def Obligations.ResidencyWords : Prop :=
  ∀ (s : State) (c : Ctx) (d x : BitVec 9),
    let va := (getPair c.g d.toNat).toNat
    let n := (getS c.g (d.toNat + 2)).toNat
    let a := (getS c.g (d.toNat + 3)).toNat
    let sid := sidOf s c.g
    let bad (al : Nat) : Prop := va % al ≠ 0 ∨ 2 ^ 55 ≤ va ∨ n = 0 ∨ 65536 < n
    let e : Res := { sid := sid, va := va, len := n, sp := a }
    let table := (coreOf s (homeOf a)).res
    let put (i : Nat) : State := modCore s (homeOf a) fun y => { y with res := kvPut y.res i e, resOff := kvDel y.resOff i }
    (Issues (.resadd d) s c →
      (bad 256 ∨ a % 256 ≠ 0 ∨ inWindow s sid a (256 * n) = false ∨ homeOf a ≠ homeOf (a + 256 * n - 1) → Traps (.resadd d) s c s .bounds 0) ∧
      (¬bad 256 → a % 256 = 0 → inWindow s sid a (256 * n) = true → homeOf a = homeOf (a + 256 * n - 1) → spGrants s sid a (256 * n) .read = true →
        (∀ i y, table.find? (fun z => z.2.sid == sid && z.2.va == va) = some (i, y) → Completes (.resadd d) s c (put i)) ∧
        ((∀ z ∈ table, z.2.sid = sid → z.2.va ≠ va) →
          (∀ i, i < 1024 → kvFind table i = none → (∀ j, j < i → kvFind table j ≠ none) → Completes (.resadd d) s c (put i)) ∧
          ((∀ i, i < 1024 → kvFind table i ≠ none) →
            Changes (.resadd d) s c fun g => { g with cpystat := g.cpystat ||| 2 })))) ∧
    (Issues (.resdel d) s c →
      (bad 256 → Traps (.resdel d) s c s .bounds 0) ∧
      (¬bad 256 → ∃ t, Completes (.resdel d) s c t ∧ { t with cores := s.cores } = s ∧
        ∀ m, { coreOf t m with res := (coreOf s m).res } = coreOf s m ∧ ∀ i y, (i, y) ∈ (coreOf t m).res ↔
          (i, y) ∈ (coreOf s m).res ∧ ¬(y.sid = sid ∧ y.va < va + 256 * n ∧ va < y.va + 256 * y.len))) ∧
    (Issues (.resq x d) s c →
      (63 ≤ counter c.g .ld → Waits (.resq x d) s c s (.counterFull .ld)) ∧
      (counter c.g .ld < 63 → bad 4 → Traps (.resq x d) s c s .bounds 0) ∧
      (counter c.g .ld < 63 → ¬bad 4 → Completes (.resq x d) s c (launchOp s c.gid .ld (.resq x.toNat va n)).2))

/-- `enq` and `qpost`: the waits and publication of a release at sys scope come first; ALIGN, then BOUNDS, then PERM. `enq` writes
STATE 1 in a control block whose PRED is not zero and 2 in one whose PRED is zero, whose task is then ready, and raises the counter of the
spawn tree, and it stalls before its checks while that is at its limit. `qpost` returns the claimed index with the image in its slot and the
doorbell rung, or at once all ones where the queue is absent or full (11 R213, R216, 17 R320, R321, 18 R351). That a claim is refused while a
destroy waits for the queue's commands is the model's choice (log 91). -/
def Obligations.TasksAndPacketsArePosted : Prop :=
  ∀ (s : State) (c : Ctx) (d : BitVec 9),
    let ready := pendingPaths c.g (relPaths .sys) = false
    let s1 := publishScope s c.g c.gid .sys
    let sid := sidOf s1 c.g
    let v := (getPair c.g d.toNat).toNat
    let k := taskOf s1 c.g
    let n := d.toNat
    let w := (getS c.g n).toNat
    let a := (getS c.g (n + 2)).toNat
    let q := w % 2 ^ 12
    let image := wordsOf ((List.range 64).map fun i => peekSp s1 (c.gid / 64) (a + i))
    let back (i : Word) (g : Group) : Group := setS g (n + 3) i
    (∀ i ∈ [Instr.enq d, .qpost d], Issues i s c → ¬ready → Waits i s c s (.drain [.ld, .st, .cpy, .gth] .hold)) ∧
    (Issues (.enq d) s c → ready →
      (2 ^ 24 - 1 ≤ (cmdOf s1 c.g).spawn → Waits (.enq d) s c s1 .spawnFull) ∧
      ((cmdOf s1 c.g).spawn < 2 ^ 24 - 1 →
        (vaOf v % 128 ≠ 0 → Traps (.enq d) s c s1 .align 0) ∧ (vaOf v % 128 = 0 → mainOrSp v = false → Traps (.enq d) s c s1 .bounds 0)) ∧
      (∀ ls ls2, vaOf v % 128 = 0 → mainOrSp v = true → (codeOf v = 1 → inWindow s1 sid (vaOf v) 128 = true) →
        (codeOf v = 0 → vaOf v + 128 ≤ 2 ^ 55) → hubAt s1 sid .read v 128 = .at_ ls → hubAt s1 sid .write v 128 = .at_ ls2 →
        let ws := wordsOf (readLocs s1 ls)
        let pred := (ws.getD 0 0).toNat % 2 ^ 16
        let s2 := modCmd (writeLocs (ls.drop 4) (bytesOf (if pred = 0 then 2 else 1)) s1) k.cmd fun y => { y with spawn := y.spawn + 1 }
        ((cmdOf s1 c.g).spawn < 2 ^ 24 - 1 → tcbBad ws = true → Traps (.enq d) s c s1 .bounds 0) ∧
        ((cmdOf s1 c.g).spawn < 2 ^ 24 - 1 → tcbBad ws = false → Completes (.enq d) s c
          (if pred = 0 then newTask s2 k.cmd (pairNat ws 2) ((ws.drop 18).take 8) (some (BitVec.ofNat 64 v)) else s2)))) ∧
    (Issues (.qpost d) s c → ready →
      (a % 64 ≠ 0 → Traps (.qpost d) s c s1 .align 0) ∧
      (a % 64 = 0 → 2 ^ 18 ≤ w ∨ getS c.g (n + 1) ≠ 0 ∨ inWindow s1 sid a 64 = false → Traps (.qpost d) s c s1 .bounds 0) ∧
      (a % 64 = 0 → w < 2 ^ 17 → getS c.g (n + 1) = 0 → inWindow s1 sid a 64 = true → admitted s1 (.ctx sid) 0 a 64 .read = true →
        (admitted s1 (.ctx sid) 2 q 1 .write = false → Traps (.qpost d) s c s1 .perm 0) ∧
        (admitted s1 (.ctx sid) 2 q 1 .write = true →
          ((claim s1 q).1 = none ↔ ∀ y, kvFind s1.queues q = some y →
            y.widx - y.ridx = BitVec.ofNat 32 (2 ^ y.logn) ∨ s1.power.shutdown = true ∨ y.destroying ≠ none) ∧
          ((claim s1 q).1 = none → Completes (.qpost d) s c (modGroup s1 c.gid (back 0xFFFFFFFF))) ∧
          ∀ y ls, kvFind s1.queues q = some y → hubAt s1 y.sid .write (slotAddr y y.widx) 64 = .at_ ls →
            ∀ i t, claim s1 q = (some i, t) → i = y.widx ∧ Completes (.qpost d) s c
              (modGroup (ring (writeLocs ls (bytesOfWords (image.set 1 (i + 1))) t) q) c.gid (back i)))))

/-- `mode.m` and `mode.v` (06 R107, R108): MODE where the mode, the team, the lanes or the allocation do not fit; `mode.m` waits for loads and
special functions and then lends the registers; `mode.v` arrives at its barrier, with the publication at team scope, the lanes' event and AP
and APV, and waits for its completion, at whose end it acquires (05 R93, R94, 10 R197); released by one with an engine, the group is in vector
mode and in no slot of the map; by another it traps MODE after the word, still lent. -/
def Obligations.ModesChangeAtTheirPoints : Prop :=
  ∀ (s : State) (c : Ctx) (n : BitVec 4), issueOf s = some c →
    let t := teamOf s c.g
    let misfit := c.g.matrix = true ∨ t.seq = none ∨ c.f.lanes ≠ 0xFFFFFFFF ∨ c.g.alloc < 64
    (misfit → Traps .modeM s c s .mode 0) ∧
    (¬misfit → (counter c.g .ld ≠ 0 ∨ counter c.g .sfu ≠ 0 → Waits .modeM s c s (.drain [.ld, .sfu] .plain)) ∧
      (counter c.g .ld = 0 → counter c.g .sfu = 0 → Changes .modeM s c fun g => { g with matrix := true })) ∧
    (c.g.matrix = false ∨ c.f.lanes ≠ ~~~c.g.dead → Traps (.modeV n) s c s .mode 0) ∧
    (c.g.matrix = true → c.f.lanes = ~~~c.g.dead →
      (counter c.g .ld ≠ 0 ∨ counter c.g .st ≠ 0 → Waits (.modeV n) s c s (.drain [.ld, .st] .point)) ∧
      (counter c.g .ld = 0 → counter c.g .st = 0 → pendingSeq s c.g = none → c.g.fx &&& c.g.fxen ≠ 0 → Traps (.modeV n) s c s .fpx 0) ∧
      (counter c.g .ld = 0 → counter c.g .st = 0 → dueAt s c.g = .nothing → digested s c.g = false →
        (∀ f ∈ c.g.frags, waitsOn n.toNat f = false) → kvFind s.teams c.g.team = some t →
        let b := barOf t n.toNat
        let arrival (x : Bar) : Bar := { x with arrl := min 4095 (x.arrl + laneCount c.f.lanes) }
        let after := (barCheck (arrival b)).2
        let arrived := barEvent (modGroup (publishScope s c.g c.gid .team) c.gid fun g =>
          { g with ap := putBit g.ap n.toNat b.phase, apv := putBit g.apv n.toNat true }) c.g.team n.toNat arrival
        (∃ g, kvFind arrived.groups c.gid = some g ∧ g.matrix = true) ∧
        (∃ x, kvFind arrived.teams c.g.team = some x ∧ barOf x n.toNat = after) ∧
        (after.phase = b.phase → Parks (.modeV n) s c arrived (.modeV n.toNat)) ∧
        (after.phase ≠ b.phase → Parks (.modeV n) s c
          (acquireNow (modGroup arrived c.gid fun g => { g with apv := putBit g.apv n.toNat false }) c.gid (some n.toNat) .team)
          (.modeRel (after.expe != 0))))) ∧
    (∀ gid fid g f, kvFind s.groups gid = some g → findFrag g fid = some f →
      (∃ h, kvFind (endModeV s gid fid g f true).groups gid = some h ∧ h.matrix = false ∧ h.v = g.v ∧ h.s = g.s ∧
        ∀ x q, kvFind (endModeV s gid fid g f true).teams g.team = some x → x.seq = some q → ∀ y ∈ q.acc, y.2 ≠ g.idx) ∧
      endModeV s gid fid g f false =
        takeTrap (modGroup s gid fun y => modFrag y fid fun z => { z with park := .run }) gid fid .mode 0 f.pc)

/-- `seal` (12 R237): MODE outside a ladder task or after its last seal point; a release at sys scope; the quality joins the pass's minimum,
`last` is kept, the lanes have sealed and the fragment parks. `vpin`, `vunpin` and `vwait` (12 R245 to R247) at a readable head: a pin is
started on ld behind the gate; an unpin lowers the slot's count, and traps BOUNDS at 0; a wait ends at once where the vat has ended or holds
the quality, and parks otherwise. That a wait with a full vat table waits for an entry is the model's choice (log 49). -/
def Obligations.VersionWords : Prop :=
  ∀ (s : State) (c : Ctx) (last : Bool) (q d v sl : BitVec 9),
    let k := taskOf s c.g
    let head := (getPair c.g v.toNat).toNat
    let paths : List Path := [.ld, .st, .cpy, .gth]
    (Issues (.seal last q d) s c → k.ladder = none → Traps (.seal last q d) s c s .mode 0) ∧
    (Issues (.seal last q d) s c → ∀ l, k.ladder = some l →
      (l.ended = true → Traps (.seal last q d) s c s .mode 0) ∧
      (l.ended = false →
        (pendingPaths c.g paths = true → Waits (.seal last q d) s c s (.drain paths .hold)) ∧
        (pendingPaths c.g paths = false → dueAt s c.g = .nothing → digested s c.g = false →
          let qual := (getS c.g q.toNat)
          let s2 := publishScope s c.g c.gid .sys
          Parks (.seal last q d) s c (modGroup (modTask s2 (clusterOf s c.g).task fun x => { x with ladder := x.ladder.map fun y =>
              { y with q := if qual.toNat < y.q.toNat then qual else y.q, l := y.l || last, someSeal := true } })
            c.gid fun g => { g with sealed := g.sealed ||| c.f.lanes }) (.seal d.toNat)))) ∧
    (∀ x, headAt s c head = .bad x →
      (Issues (.vunpin v sl) s c → Traps (.vunpin v sl) s c s x 0) ∧ (Issues (.vwait q v) s c → Traps (.vwait q v) s c s x 0) ∧
      (Issues (.vpin d v) s c → counter c.g .ld < 63 → Traps (.vpin d v) s c s x 0)) ∧
    (∀ key s1, headAt s c head = .at_ key s1 →
      (counter c.g .ld < 63 → Issues (.vpin d v) s c →
        let x := launchOp s1 c.gid .ld (.pin d.toNat (getPair c.g v.toNat) key)
        Completes (.vpin d v) s c (modGroup x.2 c.gid fun g => { g with gate := some (x.1, .sys) })) ∧
      (Issues (.vunpin v sl) s c →
        let slot := (getS c.g sl.toNat).toNat % 8
        let n := pinCount s1 key slot
        (n = 0 → Traps (.vunpin v sl) s c s1 .bounds 0) ∧
        (n ≠ 0 → ∃ t, Completes (.vunpin v sl) s c t ∧ pinCount t key slot = n - 1 ∧
          (∀ k2 n2, (k2 ≠ key ∨ n2 ≠ slot) → pinCount t k2 n2 = pinCount s1 k2 n2) ∧ { t with vats := s1.vats } = s1)) ∧
      (Issues (.vwait q v) s c →
        let want := getS c.g q.toNat
        let isOver := headEnded s1 key = true ∨ (headMagic s1 key = true ∧ newSeq s1 key ≠ 0 ∧ want.toNat ≤ (newQual s1 key).toNat)
        (vatRoom s1 = false → Waits (.vwait q v) s c s1 .vatFull) ∧
        (vatRoom s1 = true → isOver → Completes (.vwait q v) s c s1) ∧
        (vatRoom s1 = true → ¬isOver → Parks (.vwait q v) s c
          { s1 with vats := if (kvFind s1.vats key).isSome then s1.vats else kvPut s1.vats key noVat } (.vwait want key head))))

/-- `phacq`, `phrel` and `fence` of every scope (10 R191, R194): they wait for the scope's counters, with nothing due they then refresh the
core's view of the homes covered, publish the core's pending writes to them, or publish and then refresh. An enabled flag traps FPX.
The scratchpad (10 R193): publication gives a byte the core's pending write and takes that write away, for the homes it covers and for
them alone; a plain load returns the core's pending write, or the published value, or an earlier one that the core's view still allows
(which one is a free value, log 6). Once published, a store is seen by the later loads of its group (08 R150), and by all of its core if one
has returned it. -/
def Obligations.PhasesFencesAndTheScratchpad : Prop :=
  (∀ (s : State) (c : Ctx) (sc : Scope), issueOf s = some c →
     let core := c.gid / 64
     let covers := scopeCovers (teamOf s c.g) (clusterOf s c.g) sc
     let homes := (List.range 64).filter covers
     let rel : List Path := if sc = .grp then [] else if sc = .team then [.ld, .st] else [.ld, .st, .cpy, .gth]
     let acq : List Path := if sc = .grp then [] else [.ld]
     let zero (ps : List Path) : Prop := ∀ p ∈ ps, counter c.g p = 0
     (∀ h, h < 64 → (covers h = true ↔ (sc = .team ∧ h ∈ (teamOf s c.g).cores) ∨ (sc = .clus ∧ h ∈ (clusterOf s c.g).cores) ∨ sc = .dev ∨ sc = .sys)) ∧
     (¬zero acq → Waits (.phacq sc) s c s (.drain acq .point)) ∧
     (¬zero rel → Waits (.phrel sc) s c s (.drain rel .point) ∧ Waits (.fence sc) s c s (.drain rel .point)) ∧
     (pendingSeq s c.g = none → c.g.fx &&& c.g.fxen ≠ 0 →
       (zero acq → Traps (.phacq sc) s c s .fpx 0) ∧ (zero rel → Traps (.phrel sc) s c s .fpx 0 ∧ Traps (.fence sc) s c s .fpx 0)) ∧
     (dueAt s c.g = .nothing →
       (zero acq → Completes (.phacq sc) s c (refreshHomes s core homes)) ∧
       (zero rel → Completes (.phrel sc) s c (publishHomes s core covers) ∧
         Completes (.fence sc) s c (refreshHomes (publishHomes s core covers) core homes)))) ∧
  (∀ (s : State) (c placed a : Nat) (own : List (Nat × Nat × Nat)) (covers : Nat → Bool),
     let p := kvFind (coreOf s c).pend a
     let t := publishHomes s c covers
     readByte t (.sp a) = (if covers (homeOf a) then (p.map (·.val)).getD (readByte s (.sp a)) else readByte s (.sp a)) ∧
     kvFind (coreOf t c).pend a = (if covers (homeOf a) then none else p) ∧
     (∀ l, locKey l < 2 ^ 44 ∨ 2 ^ 45 ≤ locKey l → (∀ x ∈ (coreOf s c).pend, x.1 < 2 ^ 31) → readByte t l = readByte s l) ∧
     (∀ e, p = some e → covers (homeOf a) = true → (∀ x ∈ s.spHist, x.2.2 ≤ s.pubs) →
       (∀ gid ∈ e.writers, ∀ g, kvFind s.groups gid = some g →
         ∃ h, kvFind t.groups gid = some h ∧ (loadSp t c placed h.own a).1 = e.val) ∧
       (e.loaded = true → (loadSp t c placed own a).1 = e.val)) ∧
     let v := (loadSp s c placed own a).1
     (∀ e, p = some e → v = e.val) ∧
     (p = none → v = readByte s (.sp a) ∨ ∃ u, (a, v, u) ∈ s.spHist ∧ viewFloor s c placed own a < u))

/-- Taking a trap (04 R78, 05 R105, 12 R236): with a handler installed, %tcause holds the cause and the code, %tpc the address and %mpc 0, the
fragment alone goes on at the handler, every other lane of the group is dead, no split is open, and the registers stay as they were. Without a
handler, and for WRITESET, the command ends with ERROR, or with FAULTED where the task is a ladder task, the cause, the address and the
group, unless it had ended. `trap` takes TRAP and, with debugging of the space off, `brk` takes BRK, with its code; with it on, `brk` freezes its
cluster and goes on at the thaw, which a mark in the state says, the model's choice (log 72). -/
def Obligations.TrapsGoToTheHandler : Prop :=
  ∀ (s : State) (gid fid code : Nat) (g : Group) (f : Frag) (cause : Cause) (pc : Word), kvFind s.groups gid = some g → findFrag g fid = some f →
    let k := taskOf s g
    let t := takeTrap s gid fid cause code pc
    (∀ h, handlerOf k = some h → cause ≠ .writeset → f.lanes ≠ 0 → f.lanes &&& g.dead = 0 →
      ∃ u, kvFind t.groups gid = some u ∧ u.tcause = BitVec.ofNat 32 (causeCode cause + 256 * code) ∧ u.tpc = pc ∧ u.mpc = 0 ∧
        u.frags = [newFrag f.lanes h none true f.safe] ∧ u.splits = [] ∧ u.dead = ~~~f.lanes ∧
        u.s = g.s ∧ u.v = g.v ∧ u.m = g.m ∧ u.wb = g.wb ∧ u.lo = g.lo ∧ u.link = g.link ∧ u.alloc = g.alloc ∧ u.ix = g.ix ∧
        u.fx = g.fx ∧ u.fxen = g.fxen ∧ u.fpm = g.fpm ∧ u.cpystat = g.cpystat ∧ u.flight = g.flight ∧ u.matrix = g.matrix) ∧
    (handlerOf k = none ∨ cause = .writeset → ∀ x, kvFind s.cmds k.cmd = some x → x.ending = none →
      ∃ y, kvFind t.cmds k.cmd = some y ∧ y.ending =
        some { status := if k.ladder = none then 6 else 3, cause := causeCode cause, tpc := pc, ggid := gid
               task := if k.ladder = none then none else some (clusterOf s g).task }) ∧
    ∀ (c : Ctx) (i : BitVec 8), issueOf s = some c →
      Traps (.trap i) s c s .trap i.toNat ∧
      (c.f.passed.contains 8 = false → (debugOf s (sidOf s c.g)).enabled = false → Traps (.brk i) s c s .brk i.toNat) ∧
      (c.f.passed.contains 8 = true → Changes (.brk i) s c fun g => g) ∧
      ((debugOf s (sidOf s c.g)).enabled = true → c.f.passed.contains 8 = false → ∃ u, exec (.brk i) s = .next u ∧
        (∀ x, kvFind s.clusters (teamOf s c.g).cluster = some x → kvFind u.clusters (teamOf s c.g).cluster = some { x with frozen := true }) ∧
        ∃ g2 f2, kvFind u.groups c.gid = some g2 ∧ findFrag g2 c.fid = some f2 ∧ f2.pc = c.f.pc ∧ f2.passed = c.f.passed ++ [8])

/-- `tagset`, `snap`, `gbar` and `invrg` (05 R101, 09 R186, 14 R264, 15 R276, R281, 18 R368): the checks in their order, then the locks' operation on
st with its missing pages asked for; the trigger; a release at dev scope, then the arrival and the park, which every other group's having
arrived or being exiting ends for the whole grid: at once for its first wave, the acquire at dev scope made; the invalidation's number and its
place in the queue. An END of 2^55 is refused by the letter of the rule, and the page requests of
`tagset` carry ENG 0, the model's readings (logs 75, 76). -/
def Obligations.SystemWords : Prop :=
  ∀ (s : State) (c : Ctx) (d x : BitVec 9),
    let core := c.gid / 64
    let sid := sidOf s c.g
    let v := (getPair c.g d.toNat).toNat
    let w := (getS c.g (d.toNat + 2)).toNat
    let a := vaOf v
    let n := w % 2 ^ 17
    let start := (getPair c.g d.toNat).toNat
    let stop := (getPair c.g (d.toNat + 2)).toNat
    let space := (getS c.g (d.toNat + 4)).toNat
    (Issues (.tagset d) s c → 63 ≤ counter c.g .st → Waits (.tagset d) s c s (.counterFull .st)) ∧
    (Issues (.tagset d) s c → counter c.g .st < 63 →
      (a % 32 ≠ 0 → Traps (.tagset d) s c s .align 0) ∧
      (a % 32 = 0 → n = 0 ∨ 65536 < w ∨ v / 2 ^ 55 % 32 ≠ 0 ∨ 2 ^ 55 < a + 32 * n → Traps (.tagset d) s c s .bounds 0) ∧
      (a % 32 = 0 → n ≠ 0 → w ≤ 65536 → v / 2 ^ 55 % 32 = 0 → a + 32 * n ≤ 2 ^ 55 →
        let r := lockPages core sid (pagesOf a (32 * n)) ({ miss := [], bad := false, pages := [] }, s)
        (r.1.bad = true → Traps (.tagset d) s c r.2 .perm 0) ∧
        (r.1.bad = false → mayWriteVa r.2 c.g a (32 * n) = false → Traps (.tagset d) s c r.2 .writeset 0) ∧
        (r.1.bad = false → mayWriteVa r.2 c.g a (32 * n) = true →
          let y := launchOp r.2 c.gid .st (.locks a n (BitVec.ofNat 4 (v / 2 ^ 60)) r.1.pages)
          Completes (.tagset d) s c (requestAll (dieOfCore core) (r.1.miss.map fun p =>
            { sid := sid, page := p, kind := .write, who := .locks c.gid y.1, eng := 0, gid := c.gid, core := core, pc := c.f.pc }) y.2)))) ∧
    (issueOf s = some c → Completes .snap s c (trigger s 1 c.gid)) ∧
    (issueOf s = some c →
      let tk := (clusterOf s c.g).task
      let ps : List Path := [.ld, .st, .cpy, .gth]
      (coopOf (taskOf s c.g) = false → exec .gbar s = .next (checkGbar { takeTrap s c.gid c.fid .mode 0 c.f.pc with issue := .none } tk)) ∧
      (coopOf (taskOf s c.g) = true → pendingPaths c.g ps = true →
        exec .gbar s = .next (checkGbar { setPark s c.gid c.fid (.drain ps .point) with issue := .none } tk)) ∧
      (coopOf (taskOf s c.g) = true → pendingPaths c.g ps = false → dueAt s c.g = .nothing → digested s c.g = false → ∃ v,
        exec .gbar s = .next (checkGbar v tk) ∧
        Follows (modGroup (publishScope s c.g c.gid .dev) c.gid fun g => { g with gbarred := g.gbarred ||| c.f.lanes }) v c.gid ∧
        (∃ g f, kvFind v.groups c.gid = some g ∧ findFrag g c.fid = some f ∧ f.park = .gbar ∧ f.pc = c.f.pc + BitVec.ofNat 32 (4 * c.words)) ∧
        let all := (groupsOfTask v tk).all fun e => e.2.exiting || (~~~e.2.dead &&& ~~~e.2.gbarred == 0)
        (all = false → checkGbar v tk = v) ∧
        (all = true → c.f.lanes ≠ 0 →
          let u := checkGbar v tk
          let W := v.power.stagW
          let inFirst (h : Group) : Prop := W = 0 ∨ (clusterOf v h).idx / W = 0
          (∀ x h, kvFind v.groups x = some h → (clusterOf v h).task = tk →
            ∃ h2, kvFind u.groups x = some h2 ∧ h2.gbarred = 0 ∧ (inFirst h → ∀ f ∈ h2.frags, f.park ≠ .gbar)) ∧
          (inFirst c.g → ∃ h f, kvFind u.groups c.gid = some h ∧ findFrag h c.fid = some f ∧ f.park = .run) ∧
          (∀ k, kvFind v.tasks tk = some k →
            let waves : Option Stagger := if W = 0 ∨ clusterCount k ≤ W then none
              else some { start := v.ns, w := W, t := v.power.stagT, bySeal := false, done := [0] }
            kvFind u.tasks tk = some { k with stagger := waves }) ∧
          ∀ l, readByte u l = readByte v l))) ∧
    (Issues (.invrg d x) s c →
      ((cmdOf s c.g).priv = false → Traps (.invrg d x) s c s .priv 0) ∧
      ((cmdOf s c.g).priv = true →
        let good := start % 2 ^ 16 = 0 ∧ stop % 2 ^ 16 = 0 ∧ start < stop ∧ stop ≤ 2 ^ 55 ∧ stop / 2 ^ 55 = 0 ∧ space < 2 ^ 12
        (¬good → Traps (.invrg d x) s c s .bounds 0) ∧
        (good → (16 ≤ s.invs.length → Waits (.invrg d x) s c s .invFull) ∧
          (s.invs.length < 16 →
            let m : Word := if s.invSeq + 1 = 0 then 1 else s.invSeq + 1
            Completes (.invrg d x) s c (modGroup { s with
              invSeq := m, invs := s.invs ++ [{ n := m, sid := space, start := start, stop := stop, performed := false, waits := [], ops := [] }] }
              c.gid fun g => setS g x.toNat m)))))

/-- Clause headers (02 R20 to R22, 15 R269, 11 R227): a word with the signature that breaks R21 traps ILLEGAL, a stop or pre-emption finds its
fragment at the header before its waits, and otherwise the fragment enters the clause with what it waits for; a barrier's wait is that of
`barwait` without the check, with its acquire once the ld counter is zero where no other fragment of the group waits to make one, and in a
sequencer's stream that of `mbwait`. That a header there leaves the count of words without a wait as it was is the model's choice (log 106). -/
def Obligations.HeadersEnterTheirClause : Prop :=
  ∀ (s : State) (h : Word),
    (isHeader h = true ↔ h.toNat / 2 ^ 28 = 11) ∧
    (isHeader h = true → ((∃ e, decodeHeader h = .error e) ↔ (h.extractLsb' 24 4 = 0 ∨
      (h.getLsbD 10 = false ∧ h.extractLsb' 0 10 ≠ 0) ∨ (h.getLsbD 15 = false ∧ h.extractLsb' 11 4 ≠ 0)))) ∧
    (∀ hd, decodeHeader h = .ok hd → hd.count = h.extractLsb' 24 4 ∧ hd.cls.code = h.extractLsb' 21 3 ∧ hd.waitp = h.extractLsb' 16 5 ∧
      hd.wb = (if h.getLsbD 15 then some (h.extractLsb' 11 4) else none) ∧ hd.stop = h.getLsbD 10 ∧ hd.ord = h.extractLsb' 0 10) ∧
    (∀ c, issueOf s = some c →
      (((∃ e, decodeHeader h = .error e) ∨ ∃ hd, decodeHeader h = .ok hd ∧ hd.cls = .mtx) → Traps (.clauseHeader h) s c s .illegal 0) ∧
      ∀ hd, decodeHeader h = .ok hd → hd.cls ≠ .mtx →
        let cl := clusterOf s c.g
        let safe := if hd.stop then some (hd.ord.toNat, c.f.pc) else c.f.safe
        let asks := (cl.stop ≠ .none ∧ hd.stop = true) ∨ cl.pre = .asked
        let ps := (waitPaths hd.waitp).filter fun p => counter c.g p != 0
        (asks → ∃ t g f, exec (.clauseHeader h) s = .next t ∧ Follows s t c.gid ∧ kvFind t.groups c.gid = some g ∧ findFrag g c.fid = some f ∧
          f.park = .safe ∧ f.halted = true ∧ f.pc = c.f.pc ∧ f.cl = c.f.cl ∧ f.safe = safe) ∧
        (¬asks → ∀ now g1, (now, g1) = (match hd.wb with
            | some n => barWaitNow (barOf (teamOf s c.g) n.toNat) n.toNat c.g
            | none => (true, c.g)) →
          (∀ x ∈ c.g.frags, acqOf x = none) →
          let base := modGroup s c.gid fun _ => g1
          let quiet := decide (counter c.g .ld = 0)
          let later : Park := if ps = [] then .run else .hdr ps none
          ∃ t g f, exec (.clauseHeader h) s = .next t ∧
            Follows (match hd.wb with
              | some n => if now && quiet then acquireNow base c.gid (some n.toNat) .team else base
              | none => base) t c.gid ∧
            kvFind t.groups c.gid = some g ∧ findFrag g c.fid = some f ∧ f.pc = c.f.pc + 4 ∧ f.cl = some (hd.cls, hd.count.toNat) ∧
            f.safe = safe ∧ f.park = (match hd.wb with
              | none => later
              | some n => if now = false then .hdr ps (some n.toNat) else if quiet then later else .acq (some n.toNat) .team (.header ps)))) ∧
    (∀ tid sw t q, s.issue = .seq tid sw → kvFind s.teams tid = some t → t.seq = some q → ∀ hd, decodeHeader h = .ok hd →
      let q1 := { q with pc := q.pc + 4, cl := some (hd.cls, hd.count.toNat), landed := false, jumped := false }
      (hd.cls ≠ .mtx ∨ hd.waitp ≠ 0 → SeqFaults (.clauseHeader h) s tid q .illegal 0) ∧
      (hd.cls = .mtx → hd.waitp = 0 →
        (hd.wb = none → SeqBecomes (.clauseHeader h) s tid q1) ∧
        ∀ n, hd.wb = some n → q.run = none →
          let phase := (barOf t n.toNat).phase
          (phase ≠ q.sap.getLsbD n.toNat → SeqBecomes (.clauseHeader h) s tid { q1 with sap := putBit q.sap n.toNat phase }) ∧
          (phase = q.sap.getLsbD n.toNat → SeqBecomes (.clauseHeader h) s tid { q1 with park := .bar n.toNat true })))

/-- Loads, special functions, queries, pins and returning atomics complete: their registers are written and nothing else but the flags of
the operation; an SH load gives the bytes of memory, an SP load bytes that 10 R193 allows, an acquire load the core's pending write over the
published value. A part of a result, a lane's register or one of a scalar load's, may come before the others (02 R28), and a later part of the
load at its address takes the value that it read (18 R336). A counter is then the
number of its path's operations from the oldest not done (08 R148, R151, 10 R195, 17 R307, 19 R381). Completions as events of their own, which
of the allowed bytes a load returns, the parts and the pin's four registers at once are the model's choices (log 3, 6, 39). -/
def Obligations.LoadsAndResultsComplete : Prop :=
  ∀ (s : State) (gid id : Nat) (g : Group), kvFind s.groups gid = some g →
    (∃ h, kvFind (opDone s gid id).groups gid = some h ∧ h.s = g.s ∧ h.v = g.v ∧ h.m = g.m ∧ h.fx = g.fx ∧ h.link = g.link ∧ h.wb = g.wb ∧
      ∀ p, counter h p = (((g.flight.map fun f => if f.id = id then { f with done := true } else f).filter fun f => f.path = p).dropWhile
        fun f => f.done).length) ∧
    ∀ f, findOp s gid id = some (g, f) → opFree s g f = true →
      let t := teamOf s g
      let core := gid / 64
      let ends (i : Instr) (s1 : State) (k : Group → Group) : Prop := exec i s = .next (opDone (modGroup s1 gid k) gid id)
      let load : Instr := .loadComplete gid id
      let early (l : Nat) (s1 : State) (k : Group → Group) (op : FOp) : Prop :=
        planAct s (.lane gid id l) = .idle (setOp (modGroup s1 gid k) gid id op)
      let value (b : Nat → Byte) (a n : Nat) : Word := BitVec.ofNat 32 (leNat ((List.range n).map fun i => b (a + i)))
      let sh (a : Nat) : Byte := readByte s (shLoc t a)
      let allowed (a : Nat) (b : Byte) : Prop := match kvFind (coreOf s core).pend a with
        | some x => b = x.val
        | none => b ∈ (viewChoices s core t.placedAt g.own a).map (·.1)
      -- what a part that came early read at an address, for every later part at the address
      let known (a : Nat) : Option Nat := ((readsOf g id).find? fun e => e.1 == a).map (·.2)
      let part (w : MemW) (b : Nat → Byte) (a : Nat) : Nat := (known a).getD (leNat ((List.range (widthBytes w)).map fun i => b (a + i)))
      let soon (w : MemW) (x : Nat × Nat) (b : Nat → Byte) (s1 : State) (k : Group → Group) (op : FOp) : Prop :=
        planAct s (.lane gid id x.1) = .idle (keepReads (setOp (modGroup s1 gid k) gid id op) gid id [x] [(x.1, part w b x.2)])
      let reads (sp : Bool) (w : MemW) (as : List (Nat × Nat)) (b : Nat → Byte) (s1 : State) : Prop :=
        { s1 with cores := s.cores } = s ∧ ∀ x ∈ as, known x.2 = none → ∀ i, i < widthBytes w →
          if sp then allowed (x.2 + i) (b (x.2 + i)) else b (x.2 + i) = sh (x.2 + i)
      let scalars (w : MemW) (as : List (Nat × Nat)) (b : Nat → Byte) (y z : Group) : Prop :=
        (∀ x ∈ as, getS z x.1 = BitVec.ofNat 32 (part w b x.2)) ∧ (∀ r, (∀ x ∈ as, x.1 ≠ r) → getS z r = getS y r) ∧ { z with s := y.s } = y
      let lanes (w : MemW) (pos : Nat) (as : List (Nat × Nat)) (b : Nat → Byte) (y z : Group) : Prop :=
        (∀ x ∈ as, getPos z (pos + x.1 / 32) (x.1 % 32) = BitVec.ofNat 32 (part w b x.2)) ∧
        (∀ p l, l < 32 → (∀ x ∈ as, 32 * pos + x.1 ≠ 32 * p + l) → getPos z p l = getPos y p l) ∧ { z with v := y.v } = y
      let puts (pos : Nat) (vs : List (Nat × Word)) (y z : Group) : Prop :=
        (∀ x ∈ vs, getPos z pos x.1 = x.2) ∧ (∀ p l, l < 32 → (p ≠ pos ∨ ∀ x ∈ vs, x.1 ≠ l) → getPos z p l = getPos y p l)
      (∀ sp w as, f.op = .sload sp w as → (as.map (·.1)).Nodup →
        (∃ b s1 k, ends load s1 k ∧ reads sp w as b s1 ∧ ∀ y, scalars w as b y (k y)) ∧
        ∀ x ∈ as, ∃ b s1 k, soon w x b s1 k (.sload sp w (as.filter fun y => y.1 != x.1)) ∧ reads sp w [x] b s1 ∧ ∀ y, scalars w [x] b y (k y)) ∧
      (∀ sp w pos as, f.op = .vload sp w pos as → (as.map (·.1)).Nodup →
        (∃ b s1 k, ends load s1 k ∧ reads sp w as b s1 ∧ ∀ y, lanes w pos as b y (k y)) ∧
        ∀ x ∈ as, ∃ b s1 k, soon w x b s1 k (.vload sp w pos (as.filter fun y => y.1 != x.1)) ∧ reads sp w [x] b s1 ∧
          ∀ y, lanes w pos [x] b y (k y)) ∧
      (∀ ss d a, f.op = .acq ss d a → digested s g = false → ∃ s1, { s1 with cores := s.cores } = s ∧
        ends load s1 fun y => setS y d (value (fun x => if ssSp ss then peekSp s core x else sh x) a 4)) ∧
      (∀ d va n, f.op = .resq d va n → ends load s fun y => setS y d (resFind s (sidOf s g) core va (256 * n))) ∧
      (∀ d head key, f.op = .pin d head key →
        let r := pinNewest s key true
        ends load r.2 fun y => setS (setS (setS (setS y d r.1.1) (d + 1) r.1.2.1) (d + 2) r.1.2.2.1) (d + 3) r.1.2.2.2) ∧
      (∀ o ss d olds wrote fl, f.op = .atomic o ss true false d [] olds wrote fl →
        ends load s fun y => { olds.foldl (fun z x => setS z d x.2) y with fx := y.fx ||| fl }) ∧
      (∀ o ss d olds wrote fl, f.op = .atomic o ss true true d [] olds wrote fl → (olds.map (·.1)).Nodup → (∀ x ∈ olds, x.1 < 32) →
        (∃ k, ends load s k ∧ ∀ y, puts d olds y (k y) ∧ (k y).fx = y.fx ||| fl ∧ { k y with v := y.v, fx := y.fx } = y) ∧
        ∀ x ∈ olds, early x.1 s (fun y => setPos y d x.1 x.2) (.atomic o ss true true d [] (olds.filter fun y => y.1 != x.1) wrote fl)) ∧
      (∀ pos res fl, f.op = .sfu pos res fl → (res.map (·.1)).Nodup → (∀ x ∈ res, x.1 < 32) →
        (∃ k, ends (.vsfuResult gid id) s k ∧ ∀ y, puts pos res y (k y) ∧ (k y).fx = y.fx ||| fl ∧ { k y with v := y.v, fx := y.fx } = y) ∧
        ∀ x ∈ res, early x.1 s (fun y => setPos y pos x.1 x.2) (.sfu pos (res.filter fun y => y.1 != x.1) fl))

/-- Stores, lock writes, atomics and publications are performed: the bytes of a store to SH are written, those to SP become the core's
pending writes, a release store's word is published; an atomic acts word by word on the core's pending write over the published value, as
17 Table 17-2 states; of a `tagset` that a cut has abandoned no lock is written; every byte not named keeps its value (08 R150, R151, 10 R193,
R195, 12 R241, 15 R281, R282, 17 R307, R308, 19 R369). That these are events
of their own is the model's (log 3); what a core keeps with a pending write, its groups, whether a load has returned it and its grid, is
bookkeeping of 08 R150 and 10 R193 (log 6, 51). -/
def Obligations.StoresAndAtomicsArePerformed : Prop :=
  (∀ (old d c : Word),
    let rmw (op : AtomOp) (v : Word) : Prop := atomicOp op old d c = (v, true, 0)
    let float (op : AtomOp) (r : Word × BitVec 5) : Prop := atomicOp op old d c = (r.1, true, r.2)
    rmw .add (old + d) ∧ rmw .minI (if d.toInt < old.toInt then d else old) ∧ rmw .maxI (if old.toInt < d.toInt then d else old) ∧
    rmw .minN (if d.toNat < old.toNat then d else old) ∧ rmw .maxN (if old.toNat < d.toNat then d else old) ∧
    rmw .and (old &&& d) ∧ rmw .or (old ||| d) ∧ rmw .xor (old ^^^ d) ∧ rmw .exch d ∧
    atomicOp .cas old d c = (d, decide (old = c), 0) ∧
    float .fadd (lane2 .f32 (fun y z => addF fp32 .rne (decodeF fp32 y) (decodeF fp32 z)) old d) ∧
    float .fmin (lane2 .f32 (fun y z => pickF fp32 false [y, z]) old d) ∧
    float .fmax (lane2 .f32 (fun y z => pickF fp32 true [y, z]) old d)) ∧
  (∀ (s : State) (gid id : Nat) (g : Group) (f : Flight), findOp s gid id = some (g, f) → opFree s g f = true →
    let core := gid / 64
    let loc (sp : Bool) (a : Nat) : Loc := if sp then .sp a else shLoc (teamOf s g) a
    let store : Instr := .storePerformed gid id
    let byte (v : Word) (i : Nat) : Byte := v.extractLsb' (8 * i) 8
    let lastOf (bs : List (Nat × Byte)) (p : Nat → Bool) : Option Byte := (bs.reverse.find? fun x => p x.1).map (·.2)
    let others (t : State) (sp : Bool) (a : Nat) : Prop :=
      ∀ l, (∀ i, i < 4 → locKey l ≠ locKey (loc sp (a + i))) → readByte t l = readByte s l
    (∀ bs, f.op = .store false bs → ∃ t, exec store s = .next (opDone t gid id) ∧ { t with mem := s.mem } = s ∧
      ∀ l, readByte t l = (lastOf bs fun a => locKey (loc false a) == locKey l).getD (readByte s l)) ∧
    (∀ bs, f.op = .store true bs → ∃ t, exec store s = .next (opDone t gid id) ∧ { t with cores := s.cores } = s ∧
      (∀ n, n ≠ core → coreOf t n = coreOf s n) ∧ { coreOf t core with pend := (coreOf s core).pend } = coreOf s core ∧
      ∀ a,
        let old := kvFind (coreOf s core).pend a
        kvFind (coreOf t core).pend a = match lastOf bs fun x => x == a with
          | none => old
          | some v =>
            let groups := gid :: ((old.map (·.writers)).getD []).filter (· != gid)
            some { val := v, writers := groups, loaded := (old.map (·.loaded)).getD false, task := gridOf s gid }) ∧
    (∀ ss a v, f.op = .rel ss a v → a % 4 = 0 → digested s g = false → ∃ t, exec store s = .next (opDone t gid id) ∧
      (∀ i, i < 4 → readByte t (loc (ssSp ss) (a + i)) = byte v i ∧ (ssSp ss = true → kvFind (coreOf t core).pend (a + i) = none)) ∧
      others t (ssSp ss) a ∧ ∀ x, (kvFind t.groups x).map (fun h => { h with own := [] }) = (kvFind s.groups x).map fun h => { h with own := [] }) ∧
    (∀ va n lock pages l, f.op = .locks va n lock pages → (taskOf s g).ladder = some l → l.cutting ≠ none → exec store s = .next s) ∧
    (∀ va n lock pages, f.op = .locks va n lock pages → locksKnown va n pages = true →
      (∀ l, (taskOf s g).ladder = some l → l.cutting = none) →
      let ps := lockPlaces va n pages
      ∃ t, exec store s = .next (opDone t gid id) ∧
      (∀ p ∈ ps, kvGet 0 t.locks p = lock) ∧ (∀ p, p ∉ ps → kvGet 0 t.locks p = kvGet 0 s.locks p) ∧
      (debugOf t (sidOf s g)).hist = ((va, n, lock, gid) :: (debugOf s (sidOf s g)).hist).take 256 ∧
      { t with locks := s.locks, debug := s.debug } = s) ∧
    (∀ o ss ret vec dst lanes olds wrote fl l a d c, f.op = .atomic o ss ret vec dst lanes olds wrote fl →
      laneDue lanes l = some (a, d, c) → a % 4 = 0 → digested s g = false →
      let old : Word := BitVec.ofNat 32 (leNat ((List.range 4).map fun i =>
        if ssSp ss then peekSp s core (a + i) else readByte s (loc false (a + i))))
      let r := atomicOp o old d c
      let rest := lanes.filter fun y => y.1 != l
      ∃ t h, exec (.atomicPerform gid id l) s = .next t ∧ kvFind t.groups gid = some h ∧ h.s = g.s ∧ h.v = g.v ∧ others t (ssSp ss) a ∧
        (∀ i, i < 4 → readByte t (loc (ssSp ss) (a + i)) = byte (if r.2.1 then r.1 else old) i) ∧
        (rest ≠ [] ∨ ret = true → h.fx = g.fx ∧ ∃ w2, h.flight = g.flight.map fun y => if y.id = id then { y with
          op := .atomic o ss ret vec dst rest (olds ++ [(l, old)]) w2 (fl ||| r.2.2) } else y) ∧
        (rest = [] → ret = false → h.fx = g.fx ||| (fl ||| r.2.2) ∧ ∀ y ∈ h.flight, y.id = id → y.done = true))) ∧
  ∀ (s : State) (c a : Nat), coreFrozen s c = false → coreFrozen s (homeOf a) = false → ∃ t, exec (.pendingWritePublish c a) s = .next t ∧
    readByte t (.sp a) = peekSp s c a ∧ kvFind (coreOf t c).pend a = none ∧ (∀ b, b ≠ a → kvFind (coreOf t c).pend b = kvFind (coreOf s c).pend b) ∧
    (∀ n, n ≠ c → coreOf t n = coreOf s n) ∧ ∀ l, locKey l ≠ locKey (.sp a) → readByte t l = readByte s l

/-- A copy's pieces are at most 1 KiB of one row of one plane. A delivery of a copy, of a multicast to one core, of a gather's or scatter's lane: the bytes it reads are written at its places, in
SP published, no other byte changes, its bytes arrive at the command's barrier, and with its last piece the command is gone and its
operation done; a read of a frozen cluster from outside it waits (15 R273). A multicast reads a piece once and drops it where the core's team has retired. A contribution waits where no entry of its
base die's switch and of the destination's buffer is free, joins its reduction, is discarded with MISMATCH or because its grid has been cut, or is the last, and then the sums in
core order are written. A copy to scale memories moves byte by byte. A peer's refusal faults the context (07 R140, 08 R155 to R166, 09 R174,
10 R198, 17 R317 to R319). Pieces and lanes as events, the order of one core's contributions, what a peer refuses, the byte a scale copy moves at
a time, the switch of a core, and that a delivery reads the bytes that its source holds at that moment, where R198 allows older ones, are the
model's choices (log 3, 18, 36, 52, 77, 89, 107); so is that strides which move nothing count for the shape that contributions share (log 114). -/
def Obligations.BulkCommandsDeliver : Prop :=
  ∀ (s : State) (b : Nat) (x : Bulk), kvFind s.bulks b = some x →
    let lost (t : State) (c k : Nat) : Prop :=
      (dropPiece c k x.todo ≠ [] → ∃ y, kvFind t.bulks b = some y ∧ y.todo = dropPiece c k x.todo ∧ y.kind = x.kind ∧ y.desc = x.desc) ∧
      (dropPiece c k x.todo = [] → kvFind t.bulks b = none ∧ (x.kind ≠ .hub → OpIsDone s t x.gid x.fl) ∧
        (x.kind = .hub → ∀ m, kvFind s.cmds x.cmd = some m → kvFind t.cmds x.cmd = some { m with closing := true }))
    let runs (ls : List Loc) : Prop := ∀ l ∈ ls, locFrozen s l = false
    let reads (ls : List Loc) : Prop := ∀ l ∈ ls, sourceHeld s x l = false
    let bit (t : State) (n : Nat) : Prop := ∀ h, kvFind t.groups x.gid = some h → h.cpystat.getLsbD n = true
    (x.scale ≠ [] → ∀ k, let m := scaleD x.scale
      pieceOf x k = ((0, m.key, m.srcByte k), (3, 0, 0), 1) ∧ pieceDst s x k (3, 0, 0) 1 = .at_ [.sm x.core (m.quad (k / m.e)) (m.dstByte k)]) ∧
    (x.scale = [] → ∀ (z y j : Nat), let d := copyD x.desc; y < d.rows → j < (d.xb + 1023) / 1024 →
      let at_ (v zs : Nat) (ys : Int) : Nat := ((vaOf v : Int) + 1024 * zs * z + ys * y).toNat + 1024 * j
      pieceOf x ((z * d.rows + y) * ((d.xb + 1023) / 1024) + j) = ((codeOf d.src, keyOf d.src, at_ d.src d.szs d.sys),
        (codeOf d.dst, keyOf d.dst, at_ d.dst d.dzs d.dys), min 1024 (d.xb - 1024 * j))) ∧
    ((debugOf s x.sid).enabled = false → relDone s x = true →
      (∀ k src dst n from_ to_, x.kind = .cpy ∨ x.kind = .hub → hasPiece x 0 k = true → pieceOf x k = (src, dst, n) →
        findBytes s x .read src.1 src.2.1 src.2.2 n = .at_ from_ → pieceDst s x k dst n = .at_ to_ → reads from_ → runs to_ →
        ∃ t, exec (.copyDelivery b k) s = .next t ∧ Written s t (to_.zip (bulkRead s x from_)) ∧ lost t 0 k ∧
          (x.kind = .cpy → BytesArrived s t x.team x.bar n)) ∧
      (∀ c k src dst n bs, x.kind = .cpymc → hasPiece x c k = true → pieceOf x k = (src, dst, n) →
        (kvFind x.fetched k = some bs ∨ kvFind x.fetched k = none ∧
          ∃ ls, findBytes s x .read src.1 src.2.1 src.2.2 n = .at_ ls ∧ reads ls ∧ bs = bulkRead s x ls) →
        let to_ := (List.range n).map fun i => Loc.sp (sliceBase c + dst.2.2 + i)
        (∀ tid, teamOnCore s x c = some tid → runs to_ → ∃ t, exec (.multicastDelivery b k c) s = .next t ∧ Written s t (to_.zip bs) ∧
          lost t c k ∧ BytesArrived s t tid x.bar n ∧
          ∀ y d, kvFind t.bulks b = some y → d ≠ c → hasPiece x d k = true → kvFind y.fetched k = some bs) ∧
        (teamOnCore s x c = none → ∃ t, exec (.multicastDelivery b k c) s = .next t ∧ t.mem = s.mem ∧ t.teams = s.teams ∧ lost t c k ∧
          (dropPiece c k x.todo = [] → bit t 0))) ∧
      (∀ kind, kind = BulkKind.gath ∨ kind = BulkKind.scat → x.kind = kind → ∀ l m there, hasPiece x 0 l = true →
        x.lanes.find? (fun m => m.lane == l) = some m →
        let rb := rowBytes x.desc
        let here := locBytes s x m.lane rb
        let base (h : LaneMove) : Nat := if kind = .gath then rowAt x.desc h.lane else vaOf h.va.toNat
        let own := (List.range rb).filter fun i => !(x.lanes.any fun h => decide (m.lane < h.lane ∧ base h ≤ base m + i ∧ base m + i < base h + rb))
        let at_ (ls : List Loc) : List Loc := own.map fun i => ls.getD i (.hbm 0)
        laneBytesAt s x m (if kind = .gath then .read else .write) rb = .at_ there → (if kind = .gath then runs here else reads here) →
        ∃ t, exec (if kind = .gath then .gatherLaneDelivery b l else .scatterRowWrite b l) s = .next t ∧ lost t 0 m.lane ∧
          BytesArrived s t x.team x.bar rb ∧
          Written s t (if kind = .gath then (at_ here).zip (bulkRead s x (at_ there)) else (at_ there).zip (bulkRead s x (at_ here)))) ∧
      (x.kind = .cpyred →
        let k := copyD x.desc
        let key := x.sid * 4096 + x.x.toNat % 4096
        let n := x.x.toNat / 4096 % 128
        let from_ := (rowBytesOf k k.srcRows).map fun a => if codeOf k.src = 1 then Loc.sp a else shLoc (bulkTeam s x) a
        let to_ := (rowBytesOf k k.dstRows).map Loc.sp
        let r := (kvFind s.reds key).getD
          { dst := redShape x.desc, count := n, got := [], bar := x.bar, core := homeOf (vaOf k.dst), cmd := x.cmd
            cluster := (bulkTeam s x).cluster
            task := ((kvFind s.clusters (bulkTeam s x).cluster).getD noCluster).task, switches := [], buffered := false }
        let w := x.core / 8 / 2 * 2 + x.core % 8 / 4
        let inSwitch := (s.reds.filter fun e => e.2.switches.contains w).length
        let inBuffer := (s.reds.filter fun e => e.2.buffered && e.2.core == r.core).length
        let taken (q : Red) : Prop :=
          (r.switches.contains w = true → q = r) ∧
          (r.switches.contains w = false → inSwitch < 256 → q = { r with switches := r.switches ++ [w] }) ∧
          (r.switches.contains w = false → 256 ≤ inSwitch → q = { r with buffered := true })
        let room := r.switches.contains w = true ∨ inSwitch < 256 ∨ r.buffered = true ∨ inBuffer < 64
        let got := r.got ++ [(x.core, x.fl, bulkRead s x from_)]
        let ends (t : State) : Prop := exec (.reductionContribution b) s = .next t ∧ kvFind t.bulks b = none ∧ OpIsDone s t x.gid x.fl
        let task := ((kvFind s.clusters (bulkTeam s x).cluster).getD noCluster).task
        let cut : Prop := ∃ k l, kvFind s.tasks task = some k ∧ k.ladder = some l ∧ l.cutting ≠ none
        (cut → ∃ t, ends t ∧ t.mem = s.mem ∧ t.reds = s.reds) ∧
        (¬cut → reads from_ →
          (r.dst ≠ redShape x.desc ∨ r.count ≠ n → ∃ t, ends t ∧ t.mem = s.mem ∧ t.reds = s.reds ∧ bit t 2) ∧
          (r.dst = redShape x.desc → r.count = n → ¬room → exec (.reductionContribution b) s = .next s) ∧
          (r.dst = redShape x.desc → r.count = n → room → got.length < n →
            ∃ t q, ends t ∧ t.mem = s.mem ∧ taken q ∧ kvFind t.reds key = some { q with got := got }) ∧
          (r.dst = redShape x.desc → r.count = n → room → n ≤ got.length → coreFrozen s r.core = false →
            ∀ o : List (Nat × Nat × List Byte), o.Perm got → o.Pairwise (fun a b => a.1 < b.1 ∨ (a.1 = b.1 ∧ a.2.1 < b.2.1)) →
              let rows := o.map fun e => wordsOf e.2.2
              let sum (i : Nat) : Word := match rows.map fun ws => ws.getD i 0 with
                | [] => 0
                | e :: es => es.foldl (fun y z => (lane2 .f32 (fun p q => addF fp32 .rne (decodeF fp32 p) (decodeF fp32 q)) y z).1) e
              ∃ t, ends t ∧ kvFind t.reds key = none ∧
                Written s t (to_.zip (bytesOfWords ((List.range (rows.headD []).length).map sum))) ∧
                ∀ tid, teamIn s r.cluster r.core = some tid → BytesArrived s t tid r.bar k.bytes)))) ∧
    (usesPeer s x = true → ∃ t, exec (.peerRefusal b) s = .next t ∧ kvFind t.bulks b = none ∧
      (x.kind = .hub → ∀ m, kvFind s.cmds x.cmd = some m → ∃ y, kvFind t.cmds x.cmd = some y ∧ y.closing = true ∧
        y.ending = some { status := 4, cause := 0x27, tpc := 0, ggid := 0 }) ∧
      (x.kind ≠ .hub → ∀ g, kvFind s.groups x.gid = some g → ∀ m, kvFind s.cmds (taskOf s g).cmd = some m → m.ending = none →
        ∃ y, kvFind t.cmds (taskOf s g).cmd = some y ∧
          y.ending = some { status := if (taskOf s g).ladder = none then 6 else 3, cause := 11, tpc := 0, ggid := x.gid
                            task := if (taskOf s g).ladder = none then none else some (clusterOf s g).task }))

/-- The oldest unwritten step writes its cells and its flags; a sequencer past its limit stops with MODE and its context faults; the oldest
`grow` is granted when its granules are free; the earliest placed ready group enters the active set, in which parked groups make room; an
exiting group whose counters are zero releases, and its team retires when it is done
(04 R71, R72, R76, 05 R83, R84, R104, 06 R114, 11 R225, R226). That a step's flags join with its write is the model's choice (log 112). -/
def Obligations.StepsGrantsAndReleases : Prop :=
  (∀ (s : State) (tid : Nat) (t : Team) (q : Seq), kvFind s.teams tid = some t → t.seq = some q → teamFrozen s tid = false →
    (∀ w r, q.writes = w :: r → q.busy = true → (∀ e ∈ w.cells, e.2.2.1 < 32) →
      ∃ u, exec (.matrixStepWrite tid) s = .next u ∧
        kvFind u.teams tid = some { t with seq := some { q with writes := r, flags := q.flags ||| w.flags } } ∧
        ∀ gid g, kvFind s.groups gid = some g → ∃ h, kvFind u.groups gid = some h ∧ { h with v := g.v } = g ∧ ∀ pos l, l < 32 →
          getPos h pos l = ((w.cells.reverse.find? fun e => e.1 == gid && e.2.1 == pos && e.2.2.1 == l).map (·.2.2.2)).getD (getPos g pos l)) ∧
    (∀ n, q.busy = true → q.run = some n → 65536 ≤ n →
      ∃ u, exec (.sequencerRunawayStop tid) s = .next u ∧ u = Machine.seqFault s tid .mode 0 q.pc ∧
        (∀ x y, kvFind u.teams tid = some x → x.seq = some y → y.busy = false) ∧
        ((∀ g, teamGroup s tid t.lead = some g → g.exiting = true) →
          ∀ m, kvFind s.cmds (taskOfTeam s t).cmd = some m → m.ending = none → ∃ y, kvFind u.cmds (taskOfTeam s t).cmd = some y ∧
            y.ending = some { status := if (taskOfTeam s t).ladder = none then 6 else 3, cause := 4, tpc := q.pc, ggid := t.lead
                              task := if (taskOfTeam s t).ladder = none then none else some ((kvFind s.clusters t.cluster).getD noCluster).task }))) ∧
  (∀ (s : State) (c q gid d n fid : Nat) (r : List Nat) (g : Group), growQueue s (4 * c + q) = gid :: r → kvFind s.groups gid = some g →
    growOf g = some (d, n, fid) → n ≤ freeGran s (4 * c + q) → groupFrozen s g = false →
    ∃ u h, exec (.growGrant c q) s = .next (checkGrow u (4 * c + q)) ∧ kvFind u.groups gid = some h ∧ u.mem = s.mem ∧ h.alloc = g.alloc + 16 * n ∧
      getS h d = BitVec.ofNat 32 ((g.alloc + 16 * n) / 16) ∧ (∀ x, x ≠ d → getS h x = getS g x) ∧ growOf h = none ∧
      (∀ p l, p < g.wb + window g → l < 32 → getPos h p l = getPos g p l) ∧
      ∀ f k left, findFrag g fid = some f → f.cl = some (k, left) → 1 < left →
        findFrag h fid = some { f with pc := f.pc + 4, cl := some (k, left - 1), park := .run, passed := [] }) ∧
  (∀ (s : State) (c q gid : Nat), nextActive s (4 * c + q) = some gid → activeCount (leaveParked s (4 * c + q)) (4 * c + q) < 8 →
    (∃ g, (gid, g) ∈ s.groups ∧ gid / 16 = 4 * c + q ∧ g.active = false ∧ groupReady s gid g = true ∧ yieldOver s g = true ∧
      ∀ x y, (x, y) ∈ s.groups → x / 16 = 4 * c + q → y.active = false → groupReady s x y = true → yieldOver s y = true → g.order ≤ y.order) ∧
    ∃ u h, exec (.activeSetEntry c q) s = .next u ∧ kvFind u.groups gid = some h ∧ h.active = true ∧ h.yielded = [] ∧
      (∀ x y, x ≠ gid → x / 16 = 4 * c + q → kvFind s.groups x = some y → y.active = true → groupParked s x y = true →
        ∃ z, kvFind u.groups x = some z ∧ z.active = false)) ∧
  ∀ (s : State) (gid : Nat) (g : Group), kvFind s.groups gid = some g → g.exiting = true → (∀ p, counter g p = 0) →
    groupFrozen s g = false → (∀ q, (teamOf s g).seq = some q → ∀ w ∈ q.writes, ∀ e ∈ w.cells, e.1 ≠ gid) →
    ∃ u, exec (.groupRelease gid) s = .next u ∧ kvFind u.groups gid = none ∧
      ∀ x, kvFind s.teams g.team = some x → (∀ n ∈ x.groups, n ≠ gid → teamGroup s g.team n = none) →
        (∀ q, x.seq = some q → q.busy = false ∧ q.writes = []) → ∀ y, kvFind u.teams g.team = some y → y.retired = true

/-- A task whose grid has retired writes RETIRED, lowers PRED of its successors, makes those ready that wait for no other, and lowers the
counter of the command; no pending write of its grid is left (10 R193). A command that is complete publishes the pending writes of the cores
that ran its grids, discards its open reductions and writes its record (11 Table 11-5), or leaves an error record where that is refused
(08 R161, 10 R199, 11 R210, R211, R214, 17 R319). What a refused control block does, where the record of a packet with a misaligned CRADDR
goes, and that a successor becomes a task of the retiring task's command, whichever command's group entered it, are the model's choices (log 61,
63, 94, 108). -/
def Obligations.TasksAndCommandsComplete : Prop :=
  (∀ (s : State) (k : Task) (sid v : Nat) (ls : List Loc) (ws : List Word), blockAt s sid v = .at_ ls ws →
    let w := ws.getD 0 0
    let ready := w.toNat % 2 ^ 16 = 1 ∧ (ws.getD 1 0).toNat % 8 = 1
    (w.toNat % 2 ^ 16 = 0 → decrement s k sid v = (faultCmd s k.cmd { status := 6, cause := 0x40, tpc := 0, ggid := 0 }, false)) ∧
    (w.toNat % 2 ^ 16 ≠ 0 → ∃ u, decrement s k sid v = (u, true) ∧
      Written s u ((ls.take 4).zip (bytesOf (w - 1)) ++ if ready then ((ls.drop 4).take 4).zip (bytesOf 2) else []) ∧
      (ready → ∃ x, kvFind u.tasks s.nextId = some x ∧ x.cmd = k.cmd ∧ x.queued = true ∧ x.lraddr = pairNat ws 2 ∧
        x.args = (ws.drop 18).take 8 ∧ x.tcb = some (BitVec.ofNat 64 v)))) ∧
  (∀ (s : State) (t : Nat) (k : Task), kvFind s.tasks t = some k → k.queued = false → k.dead = false → k.lr ≠ [] →
    clusterCount k ≤ k.gone → waitsFor s 1 (.succ t) = false →
    let sid := ((kvFind s.cmds k.cmd).getD noCmd).sid
    let gone (s1 u : State) : Prop := kvFind u.tasks t = none ∧ ∀ m, kvFind s1.cmds k.cmd = some m → ∃ y, kvFind u.cmds k.cmd = some y ∧
      y.spawn = m.spawn - 1 ∧ y.tasks = m.tasks + 1 ∧ (k.ladder = none → y = { m with spawn := m.spawn - 1, tasks := m.tasks + 1 })
    let forced (u : State) : Prop := ∀ n a p, kvFind (coreOf u n).pend a = some p → p.task ≠ t
    (k.tcb = none → ∃ u, exec (.taskRetire t) s = .next u ∧ gone s u ∧ forced u) ∧
    (∀ v ls ws vs, k.tcb = some v → blockAt s sid v.toNat = .at_ ls ws → successors s sid ws = (vs, none) →
      (∀ x ∈ vs, ∀ ps, blockAt s sid x ≠ .miss ps) →
      let s1 := writeLocs ((ls.drop 4).take 4) (bytesOf 4) s
      Written s s1 (((ls.drop 4).take 4).zip (bytesOf 4)) ∧ ∀ s2 more, decrementAll k sid vs s1 = (s2, more) →
        ∃ u, exec (.taskRetire t) s = .next u ∧ (more = false → u = s2) ∧ (more = true → gone s2 u ∧ forced u))) ∧
  ∀ (s : State) (c : Nat) (x : Command), kvFind s.cmds c = some x → waitsFor s 1 (.record c) = false → x.recd = none →
    (if x.launch then x.spawn = 0 ∨ (x.ending ≠ none ∧ groupsOfCmd s c = [] ∧ teamsOfCmd s c = [] ∧ vatsSettled s c = true)
      else x.closing = true) →
    let s1 := publishRan s x.ran
    let e := x.ending.getD { status := 1, cause := 0, tpc := 0, ggid := 0 }
    ∃ u, exec (.commandComplete c) s = .next u ∧ (∀ r ∈ u.reds, r.2.cmd ≠ c) ∧ (∀ n ∈ x.ran, (coreOf u n).pend = []) ∧
      (x.cr = 0 → kvFind u.cmds c = none ∧ u.mem = s1.mem) ∧
      (∀ ls, x.cr ≠ 0 → hubAt s1 x.sid .write x.cr 32 = .at_ ls → kvFind u.cmds c = none ∧
        Written s1 u (ls.zip (bytesOfWords [BitVec.ofNat 32 (e.status + 256 * e.cause), x.seq, x.vseq, x.vqual, e.tpc, BitVec.ofNat 32 e.ggid,
          BitVec.ofNat 32 x.tasks, 0]))) ∧
      (x.cr ≠ 0 → hubAt s1 x.sid .write x.cr 32 = .refused → kvFind u.cmds c = none ∧ u.mem = s1.mem ∧
        u.trust.errSeq = (hubNote s1 x.sid .write x.cr 32).trust.errSeq + 1 ∧
        ∃ r, u.trust.errRing.getLast? = some r ∧ (r.getD 0 0).toNat % 256 = 8 ∧ r.getD 6 0 = x.seq) ∧
      (∀ ps, x.cr ≠ 0 → hubAt s1 x.sid .write x.cr 32 = .miss ps → ∃ y, kvFind u.cmds c = some y)

/-- A placement step serves the oldest urgent task, or scans priorities downward and each FIFO in order; it rejects a task whose record is
bad and places what the first one that fits has next. A placed group has the state of 04 Table 4-1. A pre-emption is journalled, asks a unit
to stop, finds what is parked stopped, and may be given up; when the unit stands still with its counters at zero its image is written to the
save pool, its pending writes are published and it leaves its cores; a barrier comes back from its image as it was (04 R61, 08 R150, 11 R217,
R218, R220, R227, R228, 16 R296). When a record is checked, the layout of the image and
what stays in the kept copy, the order of saved units, which wait with their task's pass count and urgency, and that C1's entry names the cores by their anchor are the
model's choices (log 21, 28, 30, 57, 70, 118). -/
def Obligations.PlacementAndPreemption : Prop :=
  (∀ (k : Task) (team idx order gid : Nat),
    let g := freshGroup k team idx order gid
    (∀ r, getS g r = k.args.getD r 0) ∧ (∀ p l, getPos g p l = 0) ∧ (∀ n, getM g n = if n = 0 then 0xFFFFFFFF else 0) ∧
    g.alloc = 16 * ((lrWord k 6).toNat / 256 % 32) ∧ g.wb = 0 ∧ g.lo = 0 ∧ g.link = [] ∧ g.ix = 0 ∧ g.fx = 0 ∧ g.fpm = 0 ∧ g.tcause = 0 ∧ g.tpc = 0 ∧
    g.mpc = 0 ∧ g.cpystat = 0 ∧ g.matrix = false ∧ g.dead = 0 ∧ g.splits = [] ∧ (∀ p, counter g p = 0) ∧
    g.spillBase = sliceBase (gid / 64) + (lrWord k 9).toNat + gid % 64 * (lrWord k 8).toNat ∧ g.spillSize = (lrWord k 8).toNat ∧
    ∃ f, g.frags = [f] ∧ f.lanes = 0xFFFFFFFF ∧ f.pc = lrWord k 2 ∧ f.cl = none ∧ f.park = .run) ∧
  (∀ (s : State),
    let ts := waitingTasks s
    (∀ t, ts.find? (fun x => x.2.urgent) = some t → scanOrder s = [t.1]) ∧
    (ts.find? (fun x => x.2.urgent) = none → scanOrder s = ([3, 2, 1, 0].flatMap fun p => ts.filter fun x => x.2.prio == p).map (·.1)) ∧
    ts.Pairwise (fun a b => a.2.order ≤ b.2.order) ∧
    ∀ t r k, scanOrder s = t :: r → s.power.shutdown = false → s.trust.deviceFailed = false → (∀ n, s.lastPlace = some n → n + 8 ≤ s.ns) →
      kvFind s.tasks t = some k → waitsFor s 1 (.task t) = false →
      (∀ s1 k2 s3, checkTask s t k = .ok s1 → kvFind (noteHeld s1 t).tasks t = some k2 → placeNext (noteHeld s1 t) t k2 = some s3 →
        exec .placementStep s = .next (modTask s3 t fun x => { x with pass := 0, urgent := x.urgent && (x.queued || !(savedOf s3 t).isEmpty) })) ∧
      (∀ s1 e, checkTask s t k = .reject s1 e → r = [] →
        exec .placementStep s = .next (faultCmd s1 k.cmd { status := 4, cause := e, tpc := 0, ggid := 0 }))) ∧
  (∀ (b : Bar), b.expl < 2 ^ 12 → b.arrl < 2 ^ 12 → b.expb < 2 ^ 25 → b.arrb < 2 ^ 25 → b.expe < 2 ^ 4 → b.arre < 2 ^ 4 →
    (barWords b).length = 4 ∧ barOfWords (barWords b) = b) ∧
  ∀ (s : State) (cl : Nat) (c : Cluster), kvFind s.clusters cl = some c →
    let cls := unitOf s cl
    let each (u : State) (k : Cluster → Cluster) : Prop := ∀ n d e, (n, d) ∈ cls → kvFind s.clusters n = some e → kvFind u.clusters n = some (k e)
    (c.pre = .none → ((kvFind s.tasks c.task).getD noTask).dead = false → (∀ e ∈ cls, e.2.pre = .none) →
      ∃ u, exec (.preemption cl) s = .next u ∧ each u (fun e => { e with pre := .asked, frozen := false }) ∧ u.mem = s.mem ∧
        u.trust.journal = ((1, c.task, cl, c.anchor) :: s.trust.journal).take 8192 ∧
        ∀ gid g n d, kvFind s.groups gid = some g → (n, d) ∈ cls → (teamOf s g).cluster = n → ∃ h, kvFind u.groups gid = some h ∧
          { h with frags := g.frags } = g ∧ (∀ f ∈ h.frags, ∃ y ∈ g.frags, f = y ∨ f = { y with halted := true }) ∧
          ∀ f ∈ g.frags, f.park ≠ .run ∨ g.park ≠ .none ∨ g.held = true ∨ (g.marked = true ∧ drained g = false) →
            { f with halted := true } ∈ h.frags) ∧
    (c.pre = .asked →
      ∃ u, exec (.preemptionAbandon cl) s = .next u ∧ each u (fun e => { e with pre := .none }) ∧ u.mem = s.mem ∧
        u.trust.journal = ((1, c.task, cl, c.anchor) :: s.trust.journal).take 8192) ∧
    (∀ img a q ls, cls = [(cl, c)] → saveReady s cl = true → img = unitImage s ((kvFind s.tasks c.task).getD noTask) cls →
      let x := (kvFind s.cmds ((kvFind s.tasks c.task).getD noTask).cmd).getD noCmd
      kvFind s.queues x.queue = some q → findArea q (savedAreas s x.queue) img.length = some a → hubAt s x.sid .write a img.length = .at_ ls →
      let gs := s.groups.filter fun g => (teamOf s g.2).cluster == cl
      let s1 := writeLocs ls img s
      ∃ u e, exec (.saveAreaWrite cl) s = .next u ∧ Written s s1 (ls.zip img) ∧ u.mem = (publishOf gs s1).mem ∧
        (∀ l, (∀ a, locKey l ≠ locKey (.sp a)) → readByte u l = readByte s1 l) ∧ kvFind u.clusters cl = some e ∧ e.pre = .saved a img.length ∧
        e.cores = [] ∧ ∀ gid g, kvFind s.groups gid = some g → (teamOf s g).cluster = cl →
          kvFind u.groups gid = none ∧ (∀ b p, kvFind (coreOf u (gid / 64)).pend b = some p → gid ∉ p.writers) ∧
          ∃ h, (gid, h) ∈ e.savedGroups ∧ h.s = g.s ∧ h.v = g.v ∧ h.frags = g.frags)

/-- A claim gives the index and raises WIDX, or reads FULL where the ring is full or absent; a doorbell runs the parser, which copies a
packet out and raises RIDX exactly when its SEQ word is written; a host whose port has not trained reaches neither (16 R297). LAUNCH creates a
command with a counter of 1 and its root task; COPY starts the hub's copy; a packet that breaks its form completes REJECTED with its cause (11
R206, R207, R209, R211). One access entry for each access, the cause of an address with a reserved bit or of another space, and a claim of a
queue whose destroy waits are the model's choices (log 34, 90, 91). -/
def Obligations.QueuesClaimRingAndLaunch : Prop :=
  (∀ (s : State) (m : Master) (q : Nat),
    let answers (s1 : State) (ws : List Word) : Prop := exec (.qclaim m q) s = .next { s1 with out := s1.out ++ [{ dest := m, words := ws }] }
    (linked s m = false → exec (.qclaim m q) s = .next s) ∧
    (linked s m = true → barSees m (8 * q) 8 = false ∨ 4096 ≤ q → answers s [0, 0]) ∧
    (linked s m = true → barSees m (8 * q) 8 = true → q < 4096 → admitted s m 2 q 1 .write = false → answers (denied s (8 * q)) [0, 0]) ∧
    (linked s m = true → barSees m (8 * q) 8 = true → q < 4096 → admitted s m 2 q 1 .write = true →
      (kvFind s.queues q = none → answers s [0, 1]) ∧
      ∀ x, kvFind s.queues q = some x →
        ((x.widx - x.ridx).toNat = 2 ^ x.logn ∨ x.destroying ≠ none → answers s [0, 1]) ∧
        (x.logn < 32 → (x.widx - x.ridx).toNat ≠ 2 ^ x.logn → s.power.shutdown = false → x.destroying = none →
          answers { s with queues := kvPut s.queues q { x with widx := x.widx + 1 } } [x.widx, 0]))) ∧
  (∀ (s : State) (m : Master) (v : Word),
    let q := v.toNat % 4096
    (linked s m = false ∨ barSees m 0x8000 4 = false → exec (.qdoor m v) s = .next s) ∧
    (linked s m = true → barSees m 0x8000 4 = true →
      (admitted s m 2 q 1 .write = false → exec (.qdoor m v) s = .next (denied s 0x8000)) ∧
      (admitted s m 2 q 1 .write = true → exec (.qdoor m v) s = .next (ring s q))) ∧
    ∀ x ls, kvFind s.queues q = some x → x.held = none → s.power.shutdown = false → s.trust.deviceFailed = false →
      hubAt s x.sid .read (x.ring + 64 * (x.ridx.toNat % 2 ^ x.logn)) 64 = .at_ ls →
      let w := wordsOf (readLocs s ls)
      ∃ y, kvFind (ring s q).queues q = some y ∧ (ring s q).mem = s.mem ∧
        (w.getD 1 0 = x.ridx + 1 → y = { x with door := true, ridx := x.ridx + 1, held := some w }) ∧
        (w.getD 1 0 ≠ x.ridx + 1 → y = { x with door := false })) ∧
  ∀ (s : State) (q : Nat) (x : Queue) (w : List Word), kvFind s.queues q = some x → x.held = some w → x.wait = none →
    (pktBarrier w = true → x.opened = []) → waitsFor s 1 (.ring q) = false → s.power.shutdown = false → s.trust.deviceFailed = false →
    let n := s.nextId
    let rejects (i : Instr) (e : Nat) : Prop := ∃ u c, exec i s = .next (nextPacket u q) ∧ kvFind u.cmds n = some c ∧ c.closing = true ∧
      c.launch = false ∧ c.ending = some { status := 4, cause := e, tpc := 0, ggid := 0 } ∧ c.seq = w.getD 1 0 ∧ c.cr = pairNat w 2 ∧ u.mem = s.mem
    (∀ ty i e, (ty, i) ∈ [(1, Instr.launch q), (2, .copyPacket q), (3, .signal q), (4, .waitvalue q), (5, .inval q), (6, .configCreate q),
        (6, .configDestroy q), (6, .configSkip q)] → pktType w = ty → pktCause q x w = some e → rejects i e) ∧
    (pktType w = 0 ∨ 6 < pktType w → rejects (.launch q) 0x20) ∧
    (pktType w = 1 → pktCause q x w = none → ∃ u c k, exec (.launch q) s = .next (nextPacket u q) ∧ u.mem = s.mem ∧
      kvFind u.cmds n = some c ∧ c.launch = true ∧ c.spawn = 1 ∧ c.tasks = 0 ∧ c.ending = none ∧ c.sid = x.sid ∧ c.priv = x.priv ∧
      c.seq = w.getD 1 0 ∧ c.cr = pairNat w 2 ∧ kvFind u.tasks (n + 1) = some k ∧ k.cmd = n ∧ k.lraddr = pairNat w 4 ∧ k.queued = true ∧
      k.prio = x.prio ∧ k.tcb = none) ∧
    (pktType w = 2 → pktCause q x w = none →
      let d := (w.drop 4).take 8
      let k := copyD d
      let a := hubRows s x.sid (codeOf k.src) .read (keyOf k.src) k.srcRows k.xb
      let b := hubRows s x.sid (codeOf k.dst) .write (keyOf k.dst) k.dstRows k.xb
      let refused := packetSpRefused s x.sid (codeOf k.src) .read k.srcRows k.xb = true ∨
        packetSpRefused s x.sid (codeOf k.dst) .write k.dstRows k.xb = true ∨ a.2 = true ∨ b.2 = true
      (packetCopyBad k = true → rejects (.copyPacket q) 0x21) ∧ (packetCopyBad k = false → refused → rejects (.copyPacket q) 0x27) ∧
      (packetCopyBad k = false → ¬refused → ∃ u y c, exec (.copyPacket q) s = .next (nextPacket u q) ∧ kvFind u.bulks (n + 1) = some y ∧
        y.kind = .hub ∧ y.desc = d ∧ y.cmd = n ∧ y.sid = x.sid ∧ y.bar = none ∧
        y.todo = [(0, 0, k.rows * k.planes * ((k.xb + 1023) / 1024))] ∧ kvFind u.cmds n = some c ∧ c.launch = false ∧ c.closing = false ∧
        u.mem = s.mem))

/-- SIGNAL acts on 64 bits by its operation and stores the old value; WAITVALUE holds its queue and reads every 256 clocks until its condition
holds; INVAL queues an invalidation; CONFIG creates, destroys and skips (11 R209). That CONFIG cannot destroy its own queue, the permissions
SIGNAL needs, INVAL's END of 2^55, a refusal by a peer, that a skipped queue's loop runs at its next doorbell, and that a CONFIG which cannot
create, destroy or skip completes with cause 0x21 are the model's choices (log 53, 71, 75, 77, 96, 110). -/
def Obligations.PacketsActOnMemoryAndTables : Prop :=
  (∀ (old v cmp : BitVec 64), signalOp 0 old v cmp = some v ∧ signalOp 1 old v cmp = some (old + v) ∧ signalOp 2 old v cmp = some v ∧
    signalOp 3 old v cmp = (if old = cmp then some v else none) ∧ signalOp 4 old v cmp = some (old ||| v) ∧
    signalOp 5 old v cmp = some (old &&& v) ∧ signalOp 6 old v cmp = some (if old.toNat < v.toNat then v else old)) ∧
  (∀ (s : State) (q : Nat) (x : Queue) (w : List Word), kvFind s.queues q = some x → x.held = some w → x.wait = none →
    (pktBarrier w = true → x.opened = []) → waitsFor s 1 (.ring q) = false → s.power.shutdown = false → s.trust.deviceFailed = false →
    pktCause q x w = none →
    let n := s.nextId
    let starts (i : Instr) (k : State → Command → Prop) : Prop := ∃ u c, exec i s = .next (nextPacket u q) ∧ kvFind u.cmds n = some c ∧
      c.launch = false ∧ c.seq = w.getD 1 0 ∧ c.cr = pairNat w 2 ∧ k u c
    let rejects (i : Instr) (e : Nat) : Prop := starts i fun u c => c.closing = true ∧ u.mem = s.mem ∧
      c.ending = some { status := 4, cause := e, tpc := 0, ggid := 0 }
    let fine (u : State) (c : Command) : Prop := c.closing = true ∧ c.ending = none ∧ u.invs = s.invs
    let qn := (w.getD 5 0).toNat % 4096
    let op := (w.getD 4 0).toNat % 4
    (pktType w = 3 →
      let o := (w.getD 8 0).toNat % 8
      let ret := pairNat w 11
      ∀ a r, hubAt s x.sid .write (pairNat w 4) 8 = .at_ a → (o ≠ 0 ∨ ret ≠ 0 → ∃ b, hubAt s x.sid .read (pairNat w 4) 8 = .at_ b) →
        (ret = 0 ∧ r = [] ∨ ret ≠ 0 ∧ hubAt s x.sid .write ret 8 = .at_ r) →
        let old : BitVec 64 := BitVec.ofNat 64 (leNat (readLocs s a))
        starts (.signal q) fun u c => fine u c ∧ Written s u
          ((match signalOp o old (BitVec.ofNat 64 (pairNat w 6)) (BitVec.ofNat 64 (pairNat w 9)) with
            | some z => a.zip (leBytes 8 z.toNat)
            | none => []) ++ r.zip (leBytes 8 old.toNat))) ∧
    (pktType w = 3 → hubAt s x.sid .write (pairNat w 4) 8 = .refused → rejects (.signal q) 0x27) ∧
    (pktType w = 4 → hubAt s x.sid .read (pairNat w 4) 8 = .refused → rejects (.waitvalue q) 0x27) ∧
    (pktType w = 4 → hubAt s x.sid .read (pairNat w 4) 8 ≠ .refused → starts (.waitvalue q) fun u c => c.closing = false ∧ u.mem = s.mem ∧
      ∃ y, kvFind u.queues q = some y ∧ y.wait = some { cmd := n, words := w, next := s.ns }) ∧
    (pktType w = 5 →
      let good := pairNat w 4 % 2 ^ 16 = 0 ∧ pairNat w 6 % 2 ^ 16 = 0 ∧ pairNat w 4 < pairNat w 6 ∧ pairNat w 6 < 2 ^ 55
      (pairNat w 6 ≤ pairNat w 4 ∨ pairNat w 4 % 2 ^ 16 ≠ 0 ∨ pairNat w 6 % 2 ^ 16 ≠ 0 → rejects (.inval q) 0x21) ∧
      (good → 16 ≤ s.invs.length → exec (.inval q) s = .next s) ∧
      (good → s.invs.length < 16 → starts (.inval q) fun u c => c.closing = false ∧
        let m : Word := if s.invSeq + 1 = 0 then 1 else s.invSeq + 1
        u.invSeq = m ∧ c.inval = some m ∧ u.invs = s.invs ++
          [{ n := m, sid := x.sid, start := pairNat w 4, stop := pairNat w 6, performed := false, waits := [], ops := [] }])) ∧
    (pktType w = 6 → op = 0 →
      ((kvFind s.queues qn).isSome = true → rejects (.configCreate q) 0x21) ∧
      (kvFind s.queues qn = none → starts (.configCreate q) fun u c => fine u c ∧ u.mem = s.mem ∧
        ∃ y, kvFind u.queues qn = some y ∧ y.ring = pairNat w 6 ∧ y.logn = (w.getD 8 0).toNat % 32 ∧ y.prio = (w.getD 8 0).toNat / 2 ^ 8 % 4 ∧
          y.sid = (w.getD 8 0).toNat / 2 ^ 10 % 4096 ∧ y.priv = (w.getD 8 0).getLsbD 22 ∧ y.saveVA = pairNat w 9 ∧
          y.saveBytes = (w.getD 11 0).toNat ∧ y.widx = 0 ∧ y.ridx = 0 ∧ y.held = none ∧ y.opened = [])) ∧
    (pktType w = 6 → op = 1 →
      (kvFind s.queues qn = none → rejects (.configDestroy q) 0x21) ∧
      ∀ y, kvFind s.queues qn = some y →
        (y.held ≠ none ∨ y.widx ≠ y.ridx → rejects (.configDestroy q) 0x21) ∧
        (qn ≠ 0 → y.held = none → y.widx = y.ridx → y.destroying = none →
          (y.opened = [] → starts (.configDestroy q) fun u c => fine u c ∧ kvFind u.queues qn = none) ∧
          (y.opened ≠ [] → starts (.configDestroy q) fun u c => c.closing = false ∧
            kvFind u.queues qn = some { y with destroying := some n }))) ∧
    (pktType w = 6 → op = 2 →
      (kvFind s.queues qn = none → rejects (.configSkip q) 0x21) ∧
      ∀ y, kvFind s.queues qn = some y →
        (y.ridx ≠ w.getD 6 0 → rejects (.configSkip q) 0x21) ∧
        ∀ ls, y.ridx = w.getD 6 0 → hubAt s y.sid .read (y.ring + 64 * (y.ridx.toNat % 2 ^ y.logn)) 64 = .at_ ls →
          ((wordsOf (readLocs s ls)).getD 1 0 = y.ridx + 1 → rejects (.configSkip q) 0x21) ∧
          ((wordsOf (readLocs s ls)).getD 1 0 ≠ y.ridx + 1 → starts (.configSkip q) fun u c => fine u c ∧ u.mem = s.mem ∧
            ∃ z, kvFind u.queues qn = some z ∧ z.ridx = y.ridx + 1 ∧ z.widx = y.widx))) ∧
  ∀ (s : State) (q : Nat) (x : Queue) (v : WaitVal) (ls : List Loc), kvFind s.queues q = some x → x.wait = some v → v.next ≤ s.ns →
    waitsFor s 1 (.poll q) = false → s.power.shutdown = false → s.trust.deviceFailed = false →
    hubAt s x.sid .read (pairNat v.words 4) 8 = .at_ ls →
    let got := (BitVec.ofNat 64 (leNat (readLocs s ls)) &&& BitVec.ofNat 64 (pairNat v.words 8)).toNat
    let want := pairNat v.words 6
    let cond := (v.words.getD 10 0).toNat % 4
    let holds := cond = 0 ∧ got = want ∨ cond = 1 ∧ got ≠ want ∨ cond = 2 ∧ want ≤ got ∨ cond = 3 ∧ got < want
    ∃ u y, exec (.waitvaluePoll q) s = .next u ∧ u.mem = s.mem ∧ kvFind u.queues q = some y ∧
      (holds → y.wait = none ∧ ∀ c, kvFind s.cmds v.cmd = some c → kvFind u.cmds v.cmd = some { c with closing := true }) ∧
      (¬holds → y.wait = some { v with next := v.next + 256 } ∧ u.cmds = s.cmds)

/-- A seal point writes the rind record and the head, advances the pass and the counter, and ends the vat after the last pass or chooses the
next curd slot; a choice takes an EMPTY slot first and else the oldest sealed one with no pin that is not the newest; a release hands the
slot to the waiting groups of its wave, whose acquire at sys scope waits for their ld counters (10 R194); a limit that is reached stops the
grid at once and ends its command with CUT, and the version of another task of the command does not replace the cut or faulted task's (12 R235 to
R242, 14 R264). The moments of a cut's end, of a choice that waits and of a wave are events of their own, what abandoned writes leave is a free
value, which of several versions a record keeps, that each stopped ladder task counts in TASKS, and that the head stays where it was found at placement
are the model's choices (log 3, 31, 38, 66, 103, 104, 117). -/
def Obligations.SealsChoicesWavesAndCuts : Prop :=
  (∀ (s : State) (l : Ladder),
    let k := (l.desc.getD 5 0).toNat % 16
    let st := rindStatus s l.key
    let free (j : Nat) : Prop := j < k ∧ st j = 2 ∧ pinCount s l.key j = 0 ∧ j ≠ newSlot s l.key
    (∀ i, curdChoice s l = some i → i < k ∧ (st i = 0 ∧ (∀ j, j < i → st j ≠ 0) ∨ (∀ j, j < k → st j ≠ 0) ∧ free i ∧
      ((∀ j, j < k → (rindWord s l.key j 0).toNat < 2 ^ 31) → ∀ j, free j → (rindWord s l.key i 0).toNat ≤ (rindWord s l.key j 0).toNat))) ∧
    (curdChoice s l = none ↔ ∀ j, j < k → st j ≠ 0 ∧ ¬free j)) ∧
  ∀ (s : State) (t : Nat) (k : Task) (l : Ladder), kvFind s.tasks t = some k → k.ladder = some l →
    let handed (u : State) (v : BitVec 64) : Prop := ∀ gid g f d, kvFind s.groups gid = some g → (clusterOf s g).task = t →
      (s.power.stagW = 0 ∨ (clusterOf s g).idx / s.power.stagW = 0) → g.frags = [f] → f.park = .seal d →
      ∃ h, kvFind u.groups gid = some h ∧ h.frags = [{ f with park := if counter g .ld = 0 then .run else .acq none .sys .seal }] ∧
        getPair h d = v
    let ladder (u : State) (p : Ladder → Prop) : Prop := ∃ x y, kvFind u.tasks t = some x ∧ x.ladder = some y ∧ p y
    let slot (y : Ladder) : BitVec 64 := BitVec.ofNat 64 (codeOf (pairNat l.desc 2) * 2 ^ 58 + slotBase l.desc (y.curd.getD 0))
    (∀ i, sealDue s t = true → l.curd = some i → i < 8 →
      let n : Word := if l.counter + 1 = 0 then 1 else l.counter + 1
      ∃ u, exec (.sealPoint t) s = .next u ∧
        newSeq u l.key = n ∧ newQual u l.key = l.q ∧ vatWord u l.key 3 = BitVec.ofNat 32 i ∧ vatWord u l.key 4 = BitVec.ofNat 32 (l.pass + 1) ∧
        rindWord u l.key i 0 = n ∧ rindWord u l.key i 1 = l.q ∧ rindStatus u l.key i = 2 ∧ rindWord u l.key i 3 = BitVec.ofNat 32 (l.pass + 1) ∧
        (l.l = true → headEnded u l.key = true ∧ (vatWord u l.key 0).getLsbD 21 = false ∧ handed u 0 ∧
          (∀ v, kvFind u.vats l.key = some v → v.running = none) ∧
          ladder u fun y => y.pass = l.pass + 1 ∧ y.counter = n ∧ y.ended = true ∧ y.curd = none) ∧
        (l.l = false → headEnded u l.key = headEnded s l.key ∧ ladder u fun y => y.pass = l.pass + 1 ∧ y.counter = n ∧ y.ended = false ∧
          (y.choosing = true → y.curd = none ∧ y.releasing = true) ∧
          (y.choosing = false → (∃ j, y.curd = some j ∧ rindStatus u l.key j = 1) ∧ handed u (slot y) ∧ y.q = 0xFFFFFFFF ∧ y.someSeal = false))) ∧
    (∀ i, l.choosing = true → l.cutting = none → runsOn s t l = true → curdChoice s l = some i →
      ∃ u, exec (.curdSlotChoice t) s = .next u ∧ rindStatus u l.key i = 1 ∧
        (ladder u fun y => y.curd = some i ∧ y.choosing = false ∧ (l.releasing = true → handed u (slot y))) ∧
        (l.releasing = false → ∀ gid g, kvFind s.groups gid = some g → (clusterOf s g).task = t →
          ∃ h, kvFind u.groups gid = some h ∧ h.held = false)) ∧
    (∀ g w, k.stagger = some g → k.dead = false → w ∉ g.done → w < waveCount k g → g.start + w * g.t ≤ s.ns → (∀ i, i < w → i ∈ g.done) →
      ∃ u, exec (.staggerWave t w) s = .next u ∧ u.mem = s.mem ∧
        (w + 1 < waveCount k g → ∃ x, kvFind u.tasks t = some x ∧ x.stagger = some { g with done := g.done ++ [w] }) ∧
        ∀ gid y, kvFind s.groups gid = some y → (clusterOf s y).task = t → (g.w = 0 ∨ (clusterOf s y).idx / g.w = w) →
          ∃ h, kvFind u.groups gid = some h ∧ ∀ f ∈ h.frags, if g.bySeal then ∀ d, f.park ≠ .seal d else f.park ≠ .gbar) ∧
    (∀ i, i = Instr.timeLimitCut t ∧ pairNat l.desc 6 ≠ 0 ∧ k.placedNs + pairNat l.desc 6 ≤ s.ns ∨
        i = Instr.energyLimitCut t ∧ l.desc.getD 8 0 ≠ 0 ∧ (l.desc.getD 8 0).toNat * 1000 ≤ l.energy →
      runsOn s t l = true → l.ended = false → l.cutting = none →
      ∃ u x, exec i s = .next u ∧ u.mem = s.mem ∧ kvFind u.tasks t = some x ∧ x.dead = true ∧ x.stagger = none ∧
        (ladder u fun y => y = { l with cutting := some false }) ∧
        (∀ c, kvFind s.cmds k.cmd = some c → ∃ d, kvFind u.cmds k.cmd = some d ∧
          d.ending = some (c.ending.getD { status := 2, cause := 0, tpc := 0, ggid := 0 })) ∧
        ∀ gid g, kvFind s.groups gid = some g → (clusterOf s g).task = t →
          ∃ h, kvFind u.groups gid = some h ∧ h.exiting = true ∧ h.frags = [] ∧ h.active = false) ∧
    (∀ fault, l.cutting = some fault →
      (runsOn s t l = false → l.ended = false → exec (.cutVatEnd t) s = .next (modLadder s t fun y => { y with cutting := none })) ∧
      (runsOn s t l = true ∨ l.ended = true → ∃ u, exec (.cutVatEnd t) s = .next u ∧
        (ladder u fun y => y.cutting = none ∧ y.ended = true) ∧
        (l.ended = false → headEnded u l.key = true ∧ ∀ v, kvFind u.vats l.key = some v → v.running = none) ∧
        ∀ c, kvFind s.cmds k.cmd = some c → ∃ d, kvFind u.cmds k.cmd = some d ∧ d.tasks = c.tasks + 1 ∧
          d.ending = c.ending ∧
          if ∃ e, c.ending = some e ∧ (fault = true ∧ e.status = 2 ∨ ∃ n, e.task = some n ∧ n ≠ t) then d.vseq = c.vseq ∧ d.vqual = c.vqual
          else d.vseq = newSeq u l.key ∧ d.vqual = newQual u l.key))

/-- A pin finds the newest version and counts it, or answers NONE or BUSY; each VPIN instance takes GO from its own master, refuses a bad head
with ERR, and reads, pins, unpins or clears (12 R245, R248); a host whose port has not trained reaches none (16 R297). A held ladder task that
goes before a reader, the numbers of the instances, and that a read without a pin is never BUSY are the model's choices (log 49, 62, 109). -/
def Obligations.PinsAndVpinInstances : Prop :=
  (∀ (s : State) (key : Nat),
    let e : Word := if headEnded s key then 2 else 0
    let n := newSlot s key
    let empty := headMagic s key = false ∨ newSeq s key = 0
    let room := (kvFind s.vats key).isSome = true ∨ vatRoom s = true
    let found : Word × Word × Word × Word := (newSeq s key, newQual s key, BitVec.ofNat 32 n, e)
    (empty → pinNewest s key false = ((0, 0, 0, 1 ||| e), s)) ∧ (¬empty → pinNewest s key false = (found, s)) ∧
    (¬room → pinNewest s key true = ((0, 0, 0, 4 ||| e), s)) ∧
    (room → pinCount s key n = 65535 → (pinNewest s key true).1 = (0, 0, 0, 4 ||| e)) ∧
    (room → pinCount s key n ≠ 65535 → empty → (pinNewest s key true).1 = (0, 0, 0, 1 ||| e)) ∧
    (room → pinCount s key n ≠ 65535 → ¬empty → (pinNewest s key true).1 = found ∧
      ∀ k m, pinCount (pinNewest s key true).2 k m = if k = key ∧ m = n then pinCount s key n + 1 else pinCount s k m) ∧
    { (pinNewest s key true).2 with vats := s.vats } = s) ∧
  ∀ (s : State) (m : Master) (i : Nat),
    let v := vpinOf s i
    let a := vaOf v.head.toNat
    let own := (∃ f, m = .host f ∧ f < 16 ∧ i = f) ∨ (∃ p, m = .peer p ∧ 16 ≤ i ∧ i < 28)
    let lets := (∃ p, m = .peer p) ∨ barAdmits s m 0x8108 4 .write = true
    let go (op : Nat) (j : Instr) : Prop := (op, j) ∈ [(0, Instr.vpinRead m i), (1, .vpinPin m i), (2, .vpinUnpin m i), (3, .vpinClear m i)]
    let bad := mainOrSp v.head.toNat = false ∨ a % 1024 ≠ 0 ∨ (codeOf v.head.toNat = 1 ∧ spRange a 64 = false) ∨
      (codeOf v.head.toNat ≠ 1 ∧ Config.hbmEnd < a + 64)
    (∀ op j, go op j → (¬own ∨ linked s m = false → exec j s = .next s) ∧
      (own → linked s m = true → ¬lets → exec j s = .next (denied s 0x8108)) ∧
      (own → linked s m = true → lets → bad → exec j s = .next (setVpin s i { v with op := op, done := true, err := true }))) ∧
    (∀ op j, go op j → own → linked s m = true → lets → ¬bad → admitted s m (if codeOf v.head.toNat = 1 then 0 else 1) a 64 .read = false →
      ∃ u, exec j s = .next u ∧ vpinOf u i = { v with op := op, done := true, err := true } ∧ u.trust.errSeq = s.trust.errSeq + 1 ∧ u.mem = s.mem) ∧
    (own → linked s m = true → lets → ¬bad → admitted s m (if codeOf v.head.toNat = 1 then 0 else 1) a 64 .read = true →
      let key := locKey (if codeOf v.head.toNat = 1 then .sp a else .hbm a)
      let answers (op : Nat) (r : Word × Word × Word × Word) : Vpin := { v with
        op := op, done := true, err := false, seq := r.1, qual := r.2.1, rslot := r.2.2.1.toNat % 8, flags := r.2.2.2.setWidth 3 }
      exec (.vpinRead m i) s = .next (setVpin s i (answers 0 (pinNewest s key false).1)) ∧
      exec (.vpinPin m i) s = .next (setVpin (pinNewest s key true).2 i (answers 1 (pinNewest s key true).1)) ∧
      (pinCount s key v.slot = 0 → exec (.vpinUnpin m i) s = .next (setVpin s i { v with op := 2, done := true, err := true })) ∧
      (pinCount s key v.slot ≠ 0 → ∃ u, exec (.vpinUnpin m i) s = .next u ∧ vpinOf u i = { v with op := 2, done := true, err := false } ∧
        (∀ k n, pinCount u k n = if k = key ∧ n = v.slot then pinCount s key v.slot - 1 else pinCount s k n) ∧ u.mem = s.mem) ∧
      ∃ u, exec (.vpinClear m i) s = .next u ∧ vpinOf u i = { v with op := 3, done := true, err := false } ∧
        (∀ k n, pinCount u k n = if k = key then 0 else pinCount s k n) ∧ u.mem = s.mem)

/-- A walk starts while fewer than 64 run; a leaf it finds is well formed, covers the page and fills the die's table, an invalid entry makes
a fault record of the allocating request in the lowest free slot, a malformed one fails the requester; FLTREPLAY closes every record; an
invalidation removes exactly the overlapping entries of its space, waits for what was translated before, and INVSEQ advances over the largest
prefix of completed ones; INVRANGE starts one or sets ERR; range entries are written (09 R170 to R189). Where requests wait without a place in
a list, a PEER field that breaks a leaf, a `vwait` that is issued again, what a walk without a leaf caches, and that an event without its
occasion changes nothing are the model's choices (log 10, 19, 87, 93, 101). -/
def Obligations.TranslationEvents : Prop :=
  (∀ (s : State) (d sid page : Nat) (t : Tlb), (walk s d sid page).1 = .leaf t → t.sid = sid ∧ t.page ≤ page ∧ page < t.page + t.pages ∧
    pteV t.pte.toNat = true ∧ pteLeaf t.pte.toNat = true ∧ ∃ lv, 1 ≤ lv ∧ lv ≤ 3 ∧ t.pages = levelPages lv ∧ pteMalformed lv t.pte.toNat = false) ∧
  (∀ (s : State) (d : Nat), (∃ m ∈ (dieOf s d).miss, m.walking = false ∧ m.stuck = false) → walkers (dieOf s d) < 64 →
    ∃ u, exec (.walkStart d) s = .next u ∧ walkers (dieOf u d) = walkers (dieOf s d) + 1 ∧
      { dieOf u d with miss := (dieOf s d).miss } = dieOf s d ∧ { u with dies := s.dies } = s) ∧
  (∀ (s : State) (d k : Nat) (m : Miss), (dieOf s d).miss[k]? = some m → m.walking = true →
    ∃ u, exec (.walkEnd d k) s = .next (feedPort u d) ∧ ((dieOf u d).port = [] → feedPort u d = u) ∧ u.mem = s.mem ∧
      (∀ t, (walk s d m.sid m.page).1 = .leaf t → t ∈ (dieOf u d).l2) ∧
      (∀ lv, (walk s d m.sid m.page).1 = .invalid lv →
        (∀ i, i < 8 → kvFind (dieOf s d).flt i = none → (∀ j, j < i → kvFind (dieOf s d).flt j ≠ none) →
          ∃ x, kvFind (dieOf u d).flt i = some x ∧ x = {
            page := m.page, sid := m.sid, kind := m.kind, closed := false, count := min 65535 m.count
            first := if m.eng = 6 then 0 else m.gid, eng := m.eng, level := lv - 1, seq := (dieOf s d).faultSeq + 1 }) ∧
        ((∀ i, i < 8 → kvFind (dieOf s d).flt i ≠ none) → (dieOf u d).dropped = true)) ∧
      (∀ r gid g c, (walk s d m.sid m.page).1 = .malformed → m.reqs = [r] → r.who = .grp gid → r.eng ≠ 6 → kvFind s.groups gid = some g →
        kvFind s.cmds (taskOf s g).cmd = some c → c.ending = none → u.trust.errSeq = s.trust.errSeq + 1 ∧
        ∃ e, kvFind u.cmds (taskOf s g).cmd = some e ∧
          e.ending = some { status := if (taskOf s g).ladder = none then 6 else 3, cause := 11, tpc := r.pc, ggid := gid
                            task := if (taskOf s g).ladder = none then none else some (clusterOf s g).task })) ∧
  (∀ (s : State) (d : Nat) (v : Word), (v.getLsbD 0 = false → exec (.fltreplay d v) s = .next s) ∧
    (v.getLsbD 0 = true → ∃ u, exec (.fltreplay d v) s = .next u ∧ ∀ i x, kvFind (dieOf u d).flt i = some x → x.closed = true)) ∧
  (∀ (s : State) (n : Nat) (v : Inval),
    let meets (sid page pages : Nat) : Prop := sid = v.sid ∧ page * 2 ^ 16 < v.stop ∧ v.start < (page + pages) * 2 ^ 16
    let covers (va k : Nat) : Prop := codeOf va = 0 ∧ vaOf va < v.stop ∧ v.start < vaOf va + k
    (s.invs.find? (fun x => x.n.toNat == n && !x.performed) = some v → ∃ u, exec (.invalidationPerform n) s = .next u ∧
      (∀ c t, t ∈ (coreOf u c).l1 ↔ t ∈ (coreOf s c).l1 ∧ ¬meets t.sid t.page t.pages) ∧
      (∀ d t, t ∈ (dieOf u d).l2 ↔ t ∈ (dieOf s d).l2 ∧ ¬meets t.sid t.page t.pages) ∧
      (∀ d t, t ∈ (dieOf u d).walkc ↔ t ∈ (dieOf s d).walkc ∧ ¬meets t.sid t.page t.pages) ∧
      (∃ w ∈ u.invs, w.n = v.n ∧ w.performed = true ∧
        (∀ b x m, kvFind s.bulks b = some x → m ∈ x.lanes → m.tr ≠ none → hasPiece x 0 m.lane = true → x.sid = v.sid →
          covers m.va.toNat (rowBytes x.desc) → (b, m.lane) ∈ w.waits) ∧
        ∀ gid g f, kvFind s.groups gid = some g → f ∈ g.flight → f.done = false → sidOf s g = v.sid →
          (∀ d head key, f.op = .pin d head key → covers head.toNat 64 → (gid, f.id) ∈ w.ops) ∧
          ∀ va k lock pages, f.op = .locks va k lock pages → pages ≠ [] → covers va (32 * k) → (gid, f.id) ∈ w.ops) ∧
      (∀ gid g, kvFind s.groups gid = some g → ∃ h, kvFind u.groups gid = some h ∧ { h with frags := g.frags } = g ∧
        h.frags.length = g.frags.length ∧ ∀ (i : Nat) (f : Frag), g.frags[i]? = some f → ∃ y : Frag, h.frags[i]? = some y ∧
          (∀ d k head, f.park = .vwait d k head → sidOf s g = v.sid → covers head 64 →
            y = { f with park := .run, pc := f.pc - 4, cl := f.cl.map fun z => (z.1, z.2 + 1) }) ∧
          ((∀ d k head, f.park = .vwait d k head → sidOf s g = v.sid → ¬covers head 64) → y = f)) ∧
      (∀ k x, kvFind u.vats k = some x → kvFind s.vats k = some x) ∧
      (∀ k x, kvFind s.vats k = some x → x.running ≠ none ∨ x.pins ≠ [] → kvFind u.vats k = some x) ∧
      { u with cores := s.cores, dies := s.dies, invs := s.invs, groups := s.groups, vats := s.vats } = s) ∧
    (s.invs.find? (fun x => x.n.toNat == n) = some v →
      v.performed = false ∨ (∃ p ∈ v.waits, ∃ x, kvFind s.bulks p.1 = some x ∧ hasPiece x 0 p.2 = true) ∨
        (∃ p ∈ v.ops, findOp s p.1 p.2 ≠ none) → exec (.invalidationComplete n) s = .next s) ∧
    (s.invs.find? (fun x => x.n.toNat == n) = some v → v.performed = true →
      (∀ p ∈ v.waits, ∀ x, kvFind s.bulks p.1 = some x → hasPiece x 0 p.2 = false) → (∀ p ∈ v.ops, findOp s p.1 p.2 = none) →
      ∃ u, exec (.invalidationComplete n) s = .next u ∧
      u.invs = s.invs.filter (fun x => x.n != v.n) ∧ (s.invSeq ≠ 0 → u.invDone = s.invSeq ∨ ∃ w ∈ u.invs, w.n = nextSeq u.invDone) ∧
      (∀ w ∈ s.invs, w.n ≠ v.n → w.n = nextSeq s.invDone → u.invDone = s.invDone) ∧
      (s.invs = [v] → s.invSeq = v.n → nextSeq s.invDone = v.n → u.invDone = v.n ∧
        ∀ c x, kvFind s.cmds c = some x → x.inval = some v.n → kvFind u.cmds c = some { x with inval := none, closing := true }))) ∧
  (∀ (s : State) (m : Master) (v : Word),
    let a := invrangeNat s 0
    let b := invrangeNat s 2
    let s1 := { s with invrange := kvSet 0 s.invrange 4 (v &&& 0xFFF) }
    let good := a % 2 ^ 16 = 0 ∧ b % 2 ^ 16 = 0 ∧ a < b ∧ b < 2 ^ 55
    let n : Word := if s.invSeq + 1 = 0 then 1 else s.invSeq + 1
    (linked s m = false ∨ barSees m 0x11110 4 = false → exec (.invrange m v) s = .next s) ∧
    (linked s m = true → barSees m 0x11110 4 = true → barAdmits s m 0x11110 4 .write = false →
      exec (.invrange m v) s = .next (denied s 0x11110)) ∧
    (linked s m = true → barAdmits s m 0x11110 4 .write = true →
      (v.getLsbD 31 = false → exec (.invrange m v) s = .next s1) ∧
      (v.getLsbD 31 = true → a % 2 ^ 16 ≠ 0 ∨ b % 2 ^ 16 ≠ 0 ∨ b ≤ a ∨ 2 ^ 55 < b →
        exec (.invrange m v) s = .next { s1 with invrangeSeq := 0, invrangeErr := 1 }) ∧
      (v.getLsbD 31 = true → good → 16 ≤ s.invs.length → exec (.invrange m v) s = .next { s1 with invrangeSeq := 0, invrangeErr := 2 }) ∧
      (v.getLsbD 31 = true → good → s.invs.length < 16 → exec (.invrange m v) s = .next { s1 with
        invrangeSeq := n, invrangeErr := 0, invSeq := n
        invs := s.invs ++ [{ n := n, sid := v.toNat % 4096, start := a, stop := b, performed := false, waits := [], ops := [] }] }))) ∧
  ∀ (s : State) (d i : Nat) (img : List Word), d < 16 → i < 64 → img.length = 8 →
    let zero := List.replicate 8 (0 : Word)
    let w6 := (img.getD 6 0).toNat
    ∃ u, exec (.rangeEntryWrite d i img) s = .next u ∧
      (∀ j, kvGet zero (dieOf u d).range j = if j = i then img else kvGet zero (dieOf s d).range j) ∧ u.mem = s.mem ∧
      (w6 / 2 ^ 12 % 2 = 0 ∨ rangeFormed img = true → u.trust = s.trust) ∧
      (w6 / 2 ^ 12 % 2 = 1 → rangeFormed img = false → u.trust.errSeq = s.trust.errSeq + 1)

/-- Budgets move by 4 with the measured power, down to RFLOOR and up to 24; the boost interval refills the pool and grants steps in order, by
permits and headroom under the mean of the last four measurements; cores fall at once and rise within 500 ns; a load collapse is counted and
starts ramps, whose clocks are counted; a newer cap message sets a clamped cap and its lease, whose end brings the fallback cap; the thermal
limits hold boost, hold budgets, and stop the part, a ladder command ending with CUT (14 R259 to R266, 15 R277, 16 R303). The measurements and
the rounding of their mean, the clocks of a ramp and its DUR, a core that several clusters share, what abandoned writes leave, the form of the
management report, and that an event without its occasion changes nothing are the model's choices (log 19, 22, 25, 31, 60, 64, 100). -/
def Obligations.PowerAndThermalEvents : Prop :=
  ∀ (s : State),
    let p := s.power
    let floor := p.boostcfg.toNat / 2 ^ 16 % 32
    let pw := p.boostcfg.toNat / 2 ^ 24 % 256
    let budget (x : State) (c q : Nat) : Nat := kvGet 24 (coreOf x c).budget q
    let events (x : State) (c : Nat) : Nat := kvGet 0 (coreOf x c).evc 11
    let clocks (r : Ramp) : Nat :=
      let d := 1000 * max 1 r.dur
      let t := min d (s.ns - r.start)
      r.rate * t * (2 * d - t) / (2 * d * 1000)
    (∀ mw, p.nextUs ≤ s.ns → ∃ u, exec (.grantBudgetUpdate mw) s = .next u ∧ u.mem = s.mem ∧
      u.power = { p with nextUs := p.nextUs + 1000, meas := (mw :: p.meas).take 4 } ∧
      (∀ c q, c < 64 → q < 4 → budget u c q = (if p.floor then floor else if p.cap * 1000 < mw then max (budget s c q - 4) floor
        else if mw + 50000 ≤ p.cap * 1000 then min 24 (budget s c q + 4) else budget s c q)) ∧
      ∀ t k l, kvFind s.tasks t = some k → k.ladder = some l → kvFind u.tasks t = some { k with
        ladder := some (if drawing s t l then { l with energy := l.energy + Config.drawn s.tick t } else l) }) ∧
    (∀ mw, s.ns < p.nextUs → exec (.grantBudgetUpdate mw) s = .next s) ∧
    (∀ (n m : Nat), p.nextInt = some n → n ≤ s.ns →
      let mw : Nat := if p.meas = [] then m else (p.meas.sum + p.meas.length - 1) / p.meas.length
      let full := if p.begun = true ∧ p.above = false ∧ p.half = true then min p.limit (p.permits + 1) else p.permits
      let P := min full p.limit
      let hd : Int := (p.cap * 1000 : Nat) - (mw : Int)
      ∃ u, exec (.boostIntervalStart m) s = .next u ∧ u.mem = s.mem ∧ u.power.nextInt = some (n + 4000) ∧ u.power.begun = true ∧
        u.power.half = (if p.begun then (!p.above && !p.half) else p.half) ∧
        (∀ c, c < 64 → (coreOf u c).step = min (coreOf s c).step (coreTarget u c) ∧
          (coreOf u c).rise = if (coreOf s c).step < coreTarget u c then some (coreTarget u c, s.ns + 500) else none) ∧
        (u.power.above = true ↔ ∃ c, c < 64 ∧ 0 < (coreOf u c).step) ∧
        (askOrder s = [] → u.power.permits = P ∧ u.power.rp = p.rp) ∧
        ∀ cl c, askOrder s = [(cl, c)] → (∀ d, (cl, d) ∈ s.clusters → d = c) →
          let fits (k : Nat) : Prop := k ≤ P ∧ ((k * pw * 1000 : Nat) : Int) ≤ hd
          (p.hold = true ∨ ¬fits 1 → u.power.permits = P ∧ u.power.rp = p.rp ∧
            kvFind u.clusters cl = some { c with step := if c.step = 2 ∧ c.byGrant = true then 1 else 0, byGrant := false }) ∧
          (p.hold = false → fits 1 → (2 ≤ askOf s cl c ∧ fits 2 → u.power.permits = P - 2 ∧ u.power.rp = c.anchor ∧
              kvFind u.clusters cl = some { c with step := 2, byGrant := true }) ∧
            (¬(2 ≤ askOf s cl c ∧ fits 2) → u.power.permits = P - 1 ∧ u.power.rp = c.anchor ∧
              kvFind u.clusters cl = some { c with step := 1, byGrant := true }))) ∧
    (∀ c t due, (coreOf s c).rise = some (t, due) → ∃ u, exec (.clockStepRise c) s = .next u ∧
      coreOf u c = { coreOf s c with step := min t (coreTarget s c), rise := none } ∧ (∀ n, n ≠ c → coreOf u n = coreOf s n) ∧
      u.power = { p with above := p.above || decide (0 < min t (coreTarget s c)) } ∧ u.mem = s.mem) ∧
    (p.nextBal ≤ s.ns →
      let now := (List.range 64).countP fun c => decide (0 < (coreOf s c).issued)
      let before := (List.range 64).countP fun c => decide (0 < (coreOf s c).issuedPrev)
      let collapse := p.ballEn = true ∧ now + p.ballDrop ≤ before
      ∃ u, exec .ballastCheck s = .next u ∧ u.mem = s.mem ∧
        u.power = { p with nextBal := p.nextBal + 1000, ballCount := if collapse then (p.ballCount + 1) % 2 ^ 16 else p.ballCount } ∧
        ∀ c, c < 64 → (coreOf u c).issued = 0 ∧ (coreOf u c).issuedPrev = (coreOf s c).issued ∧
          ((coreOf s c).ramp = none → events u c = events s c ∧
            (coreOf u c).ramp = if collapse ∧ 0 < (coreOf s c).issuedPrev ∧ (coreOf s c).issued = 0 ∧ 0 < p.ballDur
              then some { start := s.ns, rate := (coreOf s c).issuedPrev, dur := p.ballDur, counted := 0 } else none) ∧
          ∀ r, (coreOf s c).ramp = some r → events u c = (events s c + (clocks r - r.counted)) % 2 ^ 48 ∧
            (coreOf u c).ramp = some { r with counted := clocks r }) ∧
    (∀ c r, (coreOf s c).ramp = some r → r.start + r.dur * 1000 ≤ s.ns → ∃ u, exec (.ballastRampEnd c) s = .next u ∧
      events u c = (events s c + (clocks r - r.counted)) % 2 ^ 48 ∧ coreOf u c = { coreOf s c with ramp := none, evc := (coreOf u c).evc } ∧
      (∀ e, e ≠ 11 → kvGet 0 (coreOf u c).evc e = kvGet 0 (coreOf s c).evc e) ∧ (∀ k, k ≠ c → coreOf u k = coreOf s k) ∧
      { u with cores := s.cores } = s) ∧
    (∀ seq w,
      let newer := p.capSeen = false ∨ (1 ≤ (seq - p.capSeq).toNat ∧ (seq - p.capSeq).toNat < 2 ^ 31)
      (¬newer → exec (.capMessage seq w) s = .next s) ∧
      (newer → exec (.capMessage seq w) s = .next { s with power := { p with
        cap := min 2900 (max 1200 (w % 2 ^ 16)), leased := true, fallen := false, capSeq := seq, capSeen := true,
        leaseEnd := s.ns + 100000000 } })) ∧
    (p.leased = true → p.leaseEnd ≤ s.ns →
      exec .capLeaseExpiry s = .next { s with power := { p with cap := p.fallback, leased := false, fallen := true } }) ∧
    (∀ on, exec (.thermalBoostHold on) s = .next { s with power := { p with hold := on } } ∧
      ∃ u, exec (.thermalBudgetFloor on) s = .next u ∧ u.power = { p with floor := on } ∧ u.mem = s.mem ∧
        ∀ c q, c < 64 → q < 4 → budget u c q = if on then floor else budget s c q) ∧
    (p.shutdown = true → exec .thermalShutdown s = .next s) ∧
    (p.shutdown = false → ∃ u r, exec .thermalShutdown s = .next u ∧ u.power.shutdown = true ∧
      u.out.getLast? = some { dest := .mgmt, words := [9] } ∧ u.trust.errRing.getLast? = some r ∧ (r.getD 0 0).toNat % 256 = 9 ∧
      (∀ gid g, kvFind s.groups gid = some g → ∃ h, kvFind u.groups gid = some h ∧ h.exiting = true ∧ h.frags = [] ∧ h.flight = []) ∧
      ∀ c m, kvFind s.cmds c = some m → ∃ y, kvFind u.cmds c = some y ∧
        let ends (k : Nat) : Prop := y.ending = some { status := k, cause := 0, tpc := 0, ggid := 0 }
        (m.launch = false → y.closing = true ∧ if m.closing then y.ending = m.ending else ends 6) ∧
        (m.launch = true → ∀ e, m.ending = some e → y.ending = some e) ∧
        (m.launch = true → m.spawn ≠ 0 → m.ending = none →
          let ks := s.tasks.filter fun k => k.2.cmd == c
          ((∃ k ∈ ks, k.2.lr ≠ [] ∧ vatAddr k.2 ≠ 0) → ends 2) ∧ ((∀ k ∈ ks, k.2.lr ≠ [] ∧ vatAddr k.2 = 0) → ends 6)))

/-- A stop completes when everything of its unit stands, and C6 reports each fragment at its parking word; a snapshot is taken by the first
trigger that SNAPTRIG arms, in the order of R276 within a control clock, and MISSED is set by the others; a tagged word makes a record that
enters the ring of 64 or is dropped and counted; C6 drains the ring and reads and clears counters and tag fault records; a replay whose gate
times out diverges, freezes and is reported; SEND appends a message with its sender and POP discards the oldest (15 R269, R275 to R279, R282,
R286, 16 R293, R295). The form of C6's reports, the latencies, when a gate has timed out, and that a trigger which another of its clock comes
before is taken over by it are the model's choices (log 22, 25, 26, 58). -/
def Obligations.DebugEventsAndMailboxes : Prop :=
  (∀ (s : State) (cl : Nat) (c : Cluster) (tag : Word) (sender : Nat) (grid : Bool), kvFind s.clusters cl = some c →
    c.stop = .asked tag sender grid → stopReady s cl = true → ∃ u, exec (.stopComplete cl) s = .next u ∧
      (∀ n d e, (n, d) ∈ stopUnit s cl → kvFind u.clusters n = some e → e.stop = .stopped) ∧
      u.out = s.out ++ [{ dest := .fw 6, words := ((unitGroups s (stopUnit s cl)).flatMap groupReport).flatten }] ∧
      (∀ gid g n d, kvFind s.groups gid = some g → (n, d) ∈ stopUnit s cl → (teamOf s g).cluster = n →
        ∃ h, kvFind u.groups gid = some h ∧ ∀ f ∈ h.frags, f.halted = true) ∧ u.mem = s.mem) ∧
  (∀ (gid : Nat) (g : Group) (f : Frag), f ∈ g.frags →
    let after := f.park = .rdzv ∨ f.park = .gbar ∨ (∃ n, f.park = .bar n ∨ f.park = .modeV n) ∨ (∃ e, f.park = .modeRel e) ∨
      (∃ d, f.park = .seal d) ∨ (∃ p t, f.park = .count p t) ∨ (∃ ps b, f.park = .hdr ps b) ∨ (∃ b sc e, f.park = .acq b sc e) ∨
      ∃ q k h, f.park = .vwait q k h
    let whole := ((g.marked = true ∧ drained g = false) ∨ ∃ b, g.park = .gath b) ∧ f.park = .run ∧ f.lanes.getLsbD g.rot = true
    ∃ x ∈ groupReport (gid, g), ∃ o, (after → x = [BitVec.ofNat 32 gid, f.pc - 4, o]) ∧ (whole → x = [BitVec.ofNat 32 gid, g.parkPc, o]) ∧
      (¬after → ¬whole → x = [BitVec.ofNat 32 gid, f.pc, o])) ∧
  (∀ (s : State) (src gid : Nat), src = 1 ∨ src = 2 ∨ src = 3 ∨ src = 4 →
    let t := s.snap
    let on := src = 1 ∧ t.eninsn = true ∨ src = 2 ∧ t.endebug = true ∨ src = 3 ∧ t.enerr = true ∨ src = 4 ∧ t.enhost = true
    let rank (x : Nat) : Nat := if x = 3 then 0 else if x = 2 then 1 else if x = 4 then 2 else 3
    let id := if src = 1 ∨ src = 2 then gid else 0
    let sooner := t.firedNs = s.ns ∧ (rank src < rank t.src ∨ src = t.src ∧ id < t.ggid)
    let fires (missed : Bool) : State := { s with
      snap := { t with latched := true, arm := false, missed := missed, src := src, ggid := id, firedNs := s.ns }
      snapshot := some (snapshotOf s) }
    (¬on → trigger s src gid = s) ∧
    (on → t.latched = true → ¬sooner → trigger s src gid = { s with snap := { t with missed := true } }) ∧
    (on → t.latched = true → sooner → trigger s src gid = fires true) ∧
    (on → t.latched = false → t.arm = false → trigger s src gid = s) ∧
    (on → t.latched = false → t.arm = true → trigger s src gid = fires t.missed)) ∧
  (∀ (s : State) (v : Word),
    let t := s.snap
    let fields (arm : Bool) : SnapTrig := { t with
      arm := arm, latched := t.latched && !arm, missed := t.missed && !v.getLsbD 2, eninsn := v.getLsbD 3, endebug := v.getLsbD 4,
      enerr := v.getLsbD 5, enhost := v.getLsbD 6 }
    let lets := barAdmits s (.host 0) 0x13100 4 .write = true
    (s.trust.halted = true → exec (.snaptrigArm v) s = .next s ∧ exec (.snaptrigFire v) s = .next s) ∧
    (s.trust.halted = false → (¬lets → exec (.snaptrigArm v) s = .next (denied s 0x13100) ∧ exec (.snaptrigFire v) s = .next (denied s 0x13100)) ∧
    (lets → v.getLsbD 7 = false → exec (.snaptrigArm v) s = .next { s with snap := fields true }) ∧
    (lets → v.getLsbD 7 = true → exec (.snaptrigArm v) s = .next (trigger { s with snap := fields true } 4 0)) ∧
    (lets → exec (.snaptrigFire v) s = .next (trigger { s with snap := fields (v.getLsbD 0) } 4 0)))) ∧
  (∀ (s : State),
    let reports (u : State) (ws : List Word) : State := { u with out := u.out ++ [{ dest := .fw 6, words := ws }] }
    let two (n : Nat) : List Word := [BitVec.ofNat 32 n, BitVec.ofNat 32 (n / 2 ^ 32)]
    planAct s (.c6 .samples) = .idle (reports { s with samples := [] } s.samples.flatten) ∧
    (∀ c clear,
      let s1 := countRamp s c
      ∃ u, planAct s (.c6 (.counters c clear)) = .idle (reports u ((List.range 16).flatMap fun i => two (kvGet 0 (coreOf s1 c).evc i))) ∧
        { u with cores := s.cores } = s ∧ ∀ i, kvGet 0 (coreOf u c).evc i = if clear then 0 else kvGet 0 (coreOf s1 c).evc i) ∧
    (∀ sid, ∃ u, planAct s (.c6 (.tagRecord sid)) =
        .idle (reports u ((debugOf s sid).tagRec.getD (List.replicate 16 0))) ∧ { u with debug := s.debug } = s ∧
        debugOf u sid = { debugOf s sid with tagRec := none } ∧ ∀ x, x ≠ sid → debugOf u x = debugOf s x) ∧
    (∀ x, s.snapshot = some x → planAct s (.c6 .snapshot) = .idle (reports s (snapWords x)))) ∧
  (∀ (s : State) (c q : Nat) (y : Sampler), kvFind (coreOf s c).samp q = some y →
    (∀ d gid op, y.hit = some (d, gid, op) → ∃ u z, exec (.sampleTag c q) s = .next u ∧ kvFind (coreOf u c).samp q = some z ∧ z.hit = none ∧
      (∃ ws, z.sample = some ws ∧ ∀ i, i ≠ 4 → ws.getD i 0 = d.getD i 0) ∧ z.period = y.period ∧ z.count = y.count ∧
      { u with cores := s.cores } = s) ∧
    (∀ ws, y.sample = some ws → (∀ g i, y.fl = some (g, i) → findOp s g i = none) → ∃ u, exec (.sampleRecordWrite c q) s = .next u ∧
      (s.samples.length < 64 → ∃ x, u.samples = s.samples ++ [x] ∧ ∀ i, i = 0 ∨ i = 1 ∨ i = 5 ∨ i = 6 ∨ i = 7 → x.getD i 0 = ws.getD i 0) ∧
      (64 ≤ s.samples.length → u.samples = s.samples ∧
        kvGet 0 (coreOf u c).evc 13 = (kvGet 0 (coreOf s c).evc 13 + 1) % 2 ^ 48) ∧
      (y.period ≠ 0 → ∃ z, kvFind (coreOf u c).samp q = some z ∧ z.sample = none ∧ 1 ≤ z.count ∧ z.count ≤ 2 * 2 ^ y.period - 1) ∧
      (y.period = 0 → kvFind (coreOf u c).samp q = none))) ∧
  (∀ (s : State) (c gid : Nat) (e : Word), gateTimedOut s c = some (gid, e) → ∃ u x r o w, exec (.replayGateTimeout c) s = .next u ∧
    kvFind u.cmds c = some x ∧ x.repl = some r ∧ r.diverged = some (gid, o, e, w) ∧
    u.out = s.out ++ [{ dest := .fw 6, words := [BitVec.ofNat 32 gid, BitVec.ofNat 32 o, e, w] }] ∧
    ∀ n k, kvFind s.clusters n = some k → ((kvFind s.tasks k.task).getD noTask).cmd = c →
      ∃ k2, kvFind u.clusters n = some k2 ∧ k2.frozen = true) ∧
  ∀ (s : State) (m : Master) (n : Nat), n < 16 →
    let b := boxAt s n
    let reaches (off : Nat) : Prop := linked s m = true ∧ barAdmits s m (0x15000 + 128 * n + off) 4 .write = true
    (∀ x, senderOf m = some x → reaches 32 →
      let w0 := (kvGet 0 b.send 0).toNat
      let msg : List Word := BitVec.ofNat 32 (w0 % 256 + 256 * x) :: (List.range 7).map fun i => kvGet 0 b.send (i + 1)
      (b.msgs.length < 8 → exec (.mboxSend m n) s = .next (setBox s n { b with msgs := b.msgs ++ [msg] })) ∧
      (8 ≤ b.msgs.length → 16 ≤ x → exec (.mboxSend m n) s = .next (setBox s n { b with full := true })) ∧
      (8 ≤ b.msgs.length → x < 16 → exec (.mboxSend m n) s = .next s)) ∧
    (∀ c, senderOf (.fw c) = if c < 9 then some c else none) ∧ (∀ f, f < 16 → senderOf (.host f) = some (16 + f)) ∧ senderOf .mgmt = some 32 ∧
    (reaches 96 →
      ((∀ e ∈ s.trust.waiting, e.1 ≠ n) → exec (.mboxPop m n) s = .next (setBox s n { b with msgs := b.msgs.drop 1 })) ∧
      (∀ l msg r, s.trust.waiting = l ++ (n, msg) :: r → (∀ e ∈ l, e.1 ≠ n) → b.msgs.length ≤ 8 →
        exec (.mboxPop m n) s = .next (setBox { s with trust := { s.trust with waiting := l ++ r } } n { b with msgs := b.msgs.drop 1 ++ [msg] })))

/-- The oldest message of a core's mailbox, from outside, is taken and answered by a reply of its type with bit 7 set, the core as sender and its
tag: a malformed one or an unknown type with status 2, one of a requester without the right with 1, one that meets a busy unit with 3, every
other with 0 after its effect of 16 Table 16-9; C2 takes no request while a destroyed space's invalidation runs (16 R293 to R295). What of a
message of a core without a request, the priority of queue 0, which set bits of the words are malformed, what C6 keeps of a recorded area, that a
state read is cut at the length asked and a state write kept cluster by cluster, the lowest free SID for a SPACE CREATE of SID 0, and that
what the firmware reads and writes of HBM needs no access entry are the model's choices (log 11, 25, 26, 30, 65, 123, 124). -/
def Obligations.FirmwareRequests : Prop :=
  (∀ (s : State) (sender type st b : Nat) (tag : Word) (res : List Word), (boxOf s sender = none → answer s sender type tag st res = s) ∧
    (boxOf s sender = some b → (boxAt s b).msgs.length < 8 → boxAt (answer s sender type tag st res) b = { boxAt s b with
      msgs := (boxAt s b).msgs ++
        [([BitVec.ofNat 32 (type % 128 + 128 + 256 * coreOfType type), tag, BitVec.ofNat 32 st] ++ res ++ List.replicate 5 0).take 8] }) ∧
    (∀ t c, (t, c) ∈ [(1, 2), (2, 2), (3, 0), (4, 5), (5, 6), (6, 6), (7, 6), (8, 6), (9, 6), (10, 6), (11, 6), (12, 6), (13, 6), (14, 6),
      (15, 7)] → coreOfType t = c)) ∧
  (∀ (s : State), s.trust.destroys ≠ [] → exec .spaceCreate s = .next s ∧ exec .spaceDestroy s = .next s) ∧
  ∀ (s : State) (box : Nat) (m : List Word) (ms : List (List Word)), s.trust.booted = true → (boxAt s box).msgs = m :: ms →
    let w := (m.headD 0).toNat
    let r : FwReq := { sender := w / 256 % 256, tag := m.getD 1 0, args := m.drop 2 }
    let n := argN r 0
    let lo := n % 4096
    let bit12 := n / 4096 % 2
    let s1 := popBox s box
    let replies (i : Instr) (u : State) (st : Nat) (res : List Word) : Prop := exec i s = .next (answer u r.sender (w % 256) r.tag st res)
    let mine (sid : Nat) : Prop := kvFind s.trust.owner sid = some r.sender
    16 ≤ r.sender → w < 65536 → (box = 2 → s.trust.destroys = []) →
    (∀ k i ts, (k, i, ts) ∈ [(0, Instr.queue0Init, [3]), (2, .spaceCreate, [1, 2]), (5, .accessWrite, [4]),
        (6, .debugEnable, [5, 6, 7, 8, 9, 10, 11, 12, 13, 14]), (7, .assign, [15])] →
      box = k → w % 256 ∉ ts → exec i s = .next (answerFrom s1 box r.sender (w % 256) r.tag 2 [])) ∧
    (w % 256 = 1 → box = 2 → (createBad r = true → replies .spaceCreate s1 2 []) ∧
      (createBad r = false →
        (∀ k, (n = 0 ∧ 1 ≤ k ∧ k < 4096 ∧ (∀ j, 1 ≤ j → j < k → kvFind s.trust.owner j ≠ none) ∨ n ≠ 0 ∧ k = n) → kvFind s.trust.owner k = none →
          ∃ u, replies .spaceCreate u 0 [BitVec.ofNat 32 k] ∧ kvFind u.trust.owner k = some r.sender ∧
            Written s u ((List.range 8).map fun i => (.hbm (s.spaceBase + 8 * k + i), BitVec.ofNat 8 ((argPair r 1 + 1) / 256 ^ i)))) ∧
        (n ≠ 0 → kvFind s.trust.owner n ≠ none → replies .spaceCreate s1 1 []))) ∧
    (w % 256 = 2 → box = 2 → s.invs.length < 16 → (4096 ≤ n ∨ spare r 1 = true → replies .spaceDestroy s1 2 []) ∧
      (n < 4096 → spare r 1 = false →
        (¬mine n ∨ (∃ q ∈ s.queues, q.2.sid = n) → replies .spaceDestroy s1 1 []) ∧
        (mine n → (∀ q ∈ s.queues, q.2.sid ≠ n) → ∃ u, exec .spaceDestroy s = .next u ∧ kvFind u.trust.owner n = none ∧
          Written s u ((List.range 8).map fun i => (.hbm (s.spaceBase + 8 * n + i), 0)) ∧
          u.invs = s.invs ++ [{ n := nextSeq s.invSeq, sid := n, start := 0, stop := 2 ^ 55, performed := false, waits := [], ops := [] }] ∧
          u.trust.destroys = s.trust.destroys ++ [(nextSeq s.invSeq, r.sender, r.tag, n)]))) ∧
    (w % 256 = 3 → box = 0 → (queue0Bad r = true → replies .queue0Init s1 2 []) ∧
      (queue0Bad r = false → (s.trust.queue0 = true → replies .queue0Init s1 1 []) ∧
        (s.trust.queue0 = false → ∃ u y, replies .queue0Init u 0 [] ∧ u.trust.queue0 = true ∧ kvFind u.queues 0 = some y ∧ y.ring = argPair r 1 ∧
          y.logn = n / 4096 % 32 ∧ y.sid = lo ∧ y.priv = true ∧ y.saveVA = argPair r 3 ∧ y.saveBytes = argN r 5 ∧ y.widx = 0 ∧ y.ridx = 0))) ∧
    (w % 256 = 4 → box = 5 →
      let e := accOf (r.args.drop 1)
      let nobody := e.mtype = 1 ∧ 16 ≤ e.mid ∨ e.mtype = 3 ∧ 32 ≤ e.mid ∨ e.mtype = 4 ∧ 9 ≤ e.mid
      (4096 ≤ n ∨ 2 ^ 21 ≤ argN r 5 ∨ nobody → replies .accessWrite s1 2 []) ∧
      (n < 4096 → argN r 5 < 2 ^ 21 → ¬nobody → (e.mtype = 0 ∧ ¬mine e.mid → replies .accessWrite s1 1 []) ∧
        (e.mtype ≠ 0 ∨ mine e.mid → replies .accessWrite (putAcc s1 n e) 0 []))) ∧
    (w % 256 = 5 → box = 6 → (8192 ≤ n ∨ spare r 1 = true → replies .debugEnable s1 2 []) ∧
      (n < 8192 → spare r 1 = false → (¬mine lo → replies .debugEnable s1 1 []) ∧
        (mine lo → replies .debugEnable { s1 with debug := kvPut s.debug lo { debugOf s lo with enabled := bit12 == 1 } } 0 []))) ∧
    (∀ i ty rep, (ty, i, rep) ∈ [(6, Instr.record, false), (7, .replay, true)] → w % 256 = ty → box = 6 →
      (8192 ≤ n ∨ spare r 4 = true ∨ (rep = true ∧ bit12 = 0) → replies i s1 2 []) ∧
      (n < 8192 → spare r 4 = false → (rep = false ∨ bit12 = 1) → (kvFind s.queues lo = none → replies i s1 2 []) ∧
        ∀ x, kvFind s.queues lo = some x → (¬mine x.sid → replies i s1 1 []) ∧
          (mine x.sid → bit12 = 1 → logBad s r = true → replies i s1 2 []) ∧
          (mine x.sid → bit12 = 0 ∨ logBad s r = false → replies i { s1 with
            logOwners := if rep = false ∧ bit12 = 1
              then s.logOwners.filter fun e => decide (e.1 < argPair r 1 ∨ argPair r 1 + argN r 3 ≤ e.1) else s.logOwners
            queues := kvPut s.queues lo { x with
              log := if bit12 = 1 then some { base := argPair r 1, bytes := argN r 3, used := 0, next := 0, replay := rep } else none } } 0 []))) ∧
    (∀ g, kvFind s.groups lo = some g → box = 6 →
      let cl := (teamOf s g).cluster
      let unit := debugUnit s cl (bit12 == 1)
      let each (u : State) (k : Cluster → Cluster) : Prop := ∀ j d e, (j, d) ∈ unit → kvFind s.clusters j = some e → kvFind u.clusters j = some (k e)
      let any (p : StopReq → Prop) : Prop := ∃ e ∈ unit, p e.2.stop
      unit ≠ [] →
      (w % 256 = 8 → n < 8192 → spare r 1 = false →
        (any (fun x => ∃ a b c, x = .asked a b c) → replies .stop s1 3 []) ∧
        (¬any (fun x => ∃ a b c, x = .asked a b c) → ∃ u, exec .stop s = .next u ∧ u.mem = s.mem ∧
          each u fun e => { e with stop := .asked r.tag r.sender (bit12 == 1) })) ∧
      (w % 256 = 9 → n < 8192 → spare r 1 = false →
        (any (fun x => ∃ a b c, x = .asked a b c) → replies .resume s1 3 []) ∧
        (¬any (fun x => ∃ a b c, x = .asked a b c) → (∀ e ∈ s.clusters, e.2.images = []) → ∃ u, replies .resume u 0 [] ∧ u.mem = s.mem ∧
          (∀ j d e, (j, d) ∈ unit → kvFind u.clusters j = some e → e.stop = .none) ∧
          ∀ gid x j d k, kvFind s.groups gid = some x → (j, d) ∈ unit → (teamOf s x).cluster = j → kvFind s.clusters j = some k → k.pre = .none →
            ∃ h, kvFind u.groups gid = some h ∧ ∀ f ∈ h.frags, f.halted = false ∧ f.park ≠ .safe)) ∧
      (w % 256 = 10 → n < 16384 → spare r 1 = false → ∃ u, replies .freeze u 0 [] ∧ each u fun e => { e with frozen := n / 8192 % 2 == 0 }) ∧
      (w % 256 = 11 → n < 8192 → bufferBad s r = false → spare r 4 = false →
        (¬(∀ e ∈ unit, e.2.stop = .stopped ∨ e.2.frozen = true) → (∀ e ∈ unit, e.2.pre = .none) → replies .stateRead s1 1 []) ∧
        (∀ c, unit = [(cl, c)] → c.stop = .stopped ∨ c.frozen = true → c.pre = .none →
          let img := (unitImage s ((kvFind s.tasks c.task).getD noTask) unit).take (argN r 3)
          ∃ u, replies .stateRead u 0 [BitVec.ofNat 32 img.length] ∧ Written s u (img.zipIdx.map fun e => (.hbm (argPair r 1 + e.2), e.1)))) ∧
      (w % 256 = 12 → n < 8192 → bufferBad s r = false → spare r 4 = false →
        (¬(∀ e ∈ unit, e.2.stop = .stopped) → (∀ e ∈ unit, e.2.pre = .none) → replies .stateWrite s1 1 []) ∧
        ((∀ e ∈ unit, e.2.stop = .stopped ∧ e.2.pre = .none) → (unit.map (·.1)).Nodup → ∃ u, replies .stateWrite u 0 [] ∧ u.mem = s.mem ∧
          let img := (List.range (argN r 3)).map fun i => readByte s (.hbm (argPair r 1 + i))
          ∀ j d e, (j, d) ∈ unit → kvFind s.clusters j = some e → ∃ part, (j, part) ∈ imageParts (img.take 64) unit (img.drop 64, s1) ∧
            kvFind u.clusters j = some { e with images := e.images ++ [part] }))) ∧
    (w % 256 = 13 → box = 6 → (watchBad r = true → replies .watch s1 2 []) ∧ (watchBad r = false → (¬mine lo → replies .watch s1 1 []) ∧
      let d := debugOf s lo
      let e : Watch := { base := BitVec.ofNat 64 (argPair r 1), len := argN r 3, rd := argN r 4 % 2 == 1, wr := argN r 4 / 2 % 2 == 1 }
      (mine lo → replies .watch { s1 with debug := kvPut s.debug lo { d with watch := kvPut d.watch (n / 4096 % 8) e } } 0 []))) ∧
    (w % 256 = 14 → box = 6 → (sampleBad r = true → replies .sample s1 2 []) ∧
      (sampleBad r = false → ∃ u, replies .sample u 0 [] ∧
        let q := n / 64 % 4
        let old := kvFind (coreOf s (n % 64)).samp q
        let new := kvFind (coreOf u (n % 64)).samp q
        (old = none → n / 256 % 2 = 0 → new = none) ∧
        (old = none → n / 256 % 2 = 1 → ∃ y, new = some y ∧ y.period = n / 65536 % 32 ∧ y.sample = none ∧ 1 ≤ y.count ∧
          y.count ≤ 2 * 2 ^ y.period - 1))) ∧
    (w % 256 = 15 → box = 7 →
      let b := n % 16
      let recv := n / 16 % 256
      (8192 ≤ n ∨ b < 9 ∨ recv < 16 ∨ 32 < recv ∨ spare r 1 = true → replies .assign s1 2 []) ∧
      (n < 8192 → 9 ≤ b → 16 ≤ recv → recv ≤ 32 → spare r 1 = false → (r.sender ≠ 32 → replies .assign s1 1 []) ∧
        (r.sender = 32 → replies .assign { s1 with trust := { s1.trust with
          assign := kvPut s.trust.assign b recv
          errBox := if bit12 = 1 then some b else if s.trust.errBox = some b then none else s.trust.errBox } } 0 [])))

/-- Quickset takes over once; a later failure ends every open command with ERROR; a cold reset clears all but memory outside the part, measures
two images from 0, and halts where the first or the second is not accepted; a warm reset ends every open command with ERROR and its record,
keeps HBM, the measurements and the thermal limits of a hot junction and clears SP and SH, and in thermal shutdown it waits until the part is cool; a bundle is verified, pends, and
is activated unless a save area has a layout it does not list, whose commands an override ends with LAYOUT; the reports; uncorrectable errors
make a record, end the consumer's command, and what would read the data never delivers it while its other operations complete (11 R215, 16 R292, R296 to R299, R302, R303). Which images a
reset finds, that one whose named outcome is not its own has no occasion, the form of the sensor reply, what a warm reset keeps beyond that, what PENDMR extends and that it becomes MR1, what
memory of the part reads as, and the cause of an error in the fabric are the model's choices (log 1, 19, 21, 25, 27, 29, 79). -/
def Obligations.TakeoverResetsHandoverAndErrors : Prop :=
  (∀ (s : State) (cs : List Nat), s.trust.standbyUsed = false → cs ≠ [] → (∀ c ∈ cs, c < 2) →
    exec (.quicksetTakeover cs) s = .next { s with trust := { s.trust with standbyUsed := true, failed := cs } }) ∧
  (∀ (s : State) (c : Nat), s.trust.standbyUsed = true → s.trust.deviceFailed = false → c < 9 → ∃ (u : State) (o : List Reply),
    exec (.deviceFailure c) s = .next { u with out := o ++ [{ dest := .mgmt, words := [BitVec.ofNat 32 (10 + c)] }] } ∧
    u.trust.deviceFailed = true ∧ ∀ k x, kvFind s.cmds k = some x → x.ending = none → ∃ y, kvFind u.cmds k = some y ∧
      (x.launch = false → x.closing = false → y.closing = true ∧ y.ending = some { status := 6, cause := 0, tpc := 0, ggid := 0 }) ∧
      (x.launch = true → x.spawn ≠ 0 → y.ending = some { status := 6, cause := 0, tpc := 0, ggid := 0 })) ∧
  (∀ (s : State),
    let a := 2 * s.tick
    let digest (n : Nat) : BitVec 512 := shake256 (Config.image n)
    let ok (n : Nat) : Prop := Config.verify (digest n) (Config.signature n) = true ∧ s.trust.fusedMin.toNat ≤ (Config.version n).toNat
    let mr (n : Nat) : BitVec 512 := shake256 (leBytes 64 0 ++ leBytes 64 (digest n).toNat ++ leBytes 4 (Config.version n).toNat)
    let told (u : State) : Prop := u.trust.booted = false ∧ u.trust.halted = true ∧ u.trust.mr1 = 0 ∧
      u.out = s.out ++ [{ dest := .mgmt, words := [1] }]
    let good : Bool := decide (ok a ∧ ok (a + 1))
    exec (.coldReset !good) s = .next s ∧ ∃ u, exec (.coldReset good) s = .next u ∧
    { u with tick := 0, out := [], mem := [], trust := Trust.reset } = { State.reset with tick := 0, out := [], mem := [], trust := Trust.reset } ∧
    (∀ l, readByte u l = if locKey l < 2 ^ 57 then memDefault else readByte s l) ∧ u.trust.fusedMin = s.trust.fusedMin ∧
    (¬ok a → told u ∧ u.trust.mr0 = 0) ∧ (ok a → u.trust.mr0 = mr a) ∧ (ok a → ¬ok (a + 1) → told u) ∧
    (ok a → ok (a + 1) → u.trust.booted = true ∧ u.trust.halted = false ∧ u.trust.mr1 = mr (a + 1) ∧
      u.trust.actver = Config.version (a + 1) ∧ u.out = s.out)) ∧
  (∀ (s : State), (s.trust.booted = false → exec .warmReset s = .next s) ∧
    (s.power.shutdown = true → Config.cool s.tick = false → exec .warmReset s = .next s) ∧
    (s.trust.booted = true → s.power.shutdown = false ∨ Config.cool s.tick = true →
      let p := s.power
      let w := endAllOpen false (haltAll s)
      let v := endAllNow s
      ∃ u, exec .warmReset s = .next u ∧
      (∀ l, readByte u l = if 2 ^ 44 ≤ locKey l ∧ locKey l < 2 ^ 46 then memDefault else readByte v l) ∧
      { u with tick := 0, nextId := 0, pubs := 0, out := [], ns := 0, mem := [], locks := [], spaceBase := 0, dies := [], power := Power.reset
               cores := [], trust := Trust.reset } = { State.reset with spaceBase := 0, dies := [], cores := [] } ∧
      (∀ c, { coreOf u c with budget := [] } = Core.reset ∧ ∀ q, c < 64 → q < 4 →
        kvGet 24 (coreOf u c).budget q = if p.floor = true ∧ p.shutdown = false then 8 else 24) ∧
      (∀ d, ∃ n, dieOf u d = { Die.reset with faultSeq := n }) ∧ u.locks = s.locks ∧
      u.power = { Power.reset with
        hold := p.hold && !p.shutdown, floor := p.floor && !p.shutdown, capSeen := p.capSeen, nextUs := p.nextUs, nextBal := p.nextBal, nextInt := p.nextInt, begun := p.begun } ∧
      u.trust.mr0 = s.trust.mr0 ∧ u.trust.mr1 = s.trust.mr1 ∧ u.trust.fusedMin = s.trust.fusedMin ∧ u.trust.peers = s.trust.peers ∧
      u.trust.errRing = [] ∧
      (∀ gid g, kvFind s.groups gid = some g → ∃ h, kvFind w.groups gid = some h ∧ h.exiting = true ∧ h.frags = [] ∧ h.flight = []) ∧
      (∀ c x, kvFind s.cmds c = some x → ∃ y, kvFind w.cmds c = some y ∧ y.cr = x.cr ∧ y.sid = x.sid ∧ y.seq = x.seq ∧
        let error : Option EndInfo := some { status := 6, cause := 0, tpc := 0, ggid := 0 }
        (x.launch = false → x.closing = false → y.closing = true ∧ y.ending = error) ∧
        (x.launch = true → x.spawn ≠ 0 → x.ending = none → y.ending = error) ∧ (x.launch = true → x.ending ≠ none → y.ending = x.ending)) ∧
      (∀ c x y, s.cmds = [(c, x)] → kvFind w.cmds c = some y → x.recd = none →
        let e := y.ending.getD { status := 1, cause := 0, tpc := 0, ggid := 0 }
        (x.cr = 0 → v = w) ∧
        ∀ ls, x.cr ≠ 0 → hubAt (fillPages w x.sid (pagesOf x.cr 32)) x.sid .write x.cr 32 = .at_ ls →
          Written w v (ls.zip (bytesOfWords [BitVec.ofNat 32 (e.status + 256 * e.cause), y.seq, y.vseq, y.vqual, e.tpc, BitVec.ofNat 32 e.ggid,
            BitVec.ofNat 32 y.tasks, 0]))) ∧
      (s.cmds = [] → s.groups = [] → s.teams = [] → s.bulks = [] → s.cores = [] → ∀ l, readByte v l = readByte s l))) ∧
  (∀ s : State, (s.trust.booted = false ∨ imageAccepted s.trust.fusedMin s.tick = false → exec .firmwareUpdate s = .next s) ∧
    (s.trust.booted = true → imageAccepted s.trust.fusedMin s.tick = true → exec .firmwareUpdate s = .next { s with trust := { s.trust with
      pending := true, handover := true, pendver := Config.version s.tick, pendLayouts := (Config.layouts s.tick).take 9
      pendmr := extendMr s.trust.mr1 (digestOf s.tick) (Config.version s.tick) } }) ∧
    (s.trust.pending = false → exec .firmwareActivate s = .next s ∧ exec .managementOverride s = .next s) ∧
    (s.trust.pending = true → savedCmds s ≠ [] → 1 ∉ s.trust.pendLayouts → exec .firmwareActivate s = .next s) ∧
    (s.trust.pending = true → savedCmds s ≠ [] → 1 ∉ s.trust.pendLayouts → ∃ u, exec .managementOverride s = .next u ∧
      u.trust.pending = false ∧ u.trust.mr1 = s.trust.pendmr ∧ ∀ c x, c ∈ savedCmds s → kvFind s.cmds c = some x → x.ending = none →
        ∃ y, kvFind u.cmds c = some y ∧ y.ending = some { status := 5, cause := 0, tpc := 0, ggid := 0 }) ∧
    (s.trust.pending = true → savedCmds s = [] ∨ 1 ∈ s.trust.pendLayouts → ∃ j, ∀ i, i = .firmwareActivate ∨ i = .managementOverride →
      exec i s = .next { s with trust := { s.trust with
        journal := j, pending := false, handover := false, mr1 := s.trust.pendmr, pendmr := 0, actver := s.trust.pendver, pendver := 0
        layouts := s.trust.pendLayouts, pendLayouts := [] } })) ∧
  (∀ (s : State) (nonce : List Byte),
    let t := s.trust
    let flags := (if t.handover then 1 else 0) + (if t.pending then 2 else 0) + (if List.any s.debug (fun d => d.2.enabled) then 4 else 0)
    let r := nonce ++ leBytes 64 t.mr0.toNat ++ leBytes 64 t.mr1.toNat ++ leBytes 64 t.pendmr.toNat ++ leBytes 4 flags ++
      leBytes 4 t.actver.toNat ++ leBytes 4 t.pendver.toNat ++ List.replicate 20 0
    (t.booted = true → nonce.length = 32 → r.length = 256 ∧
      exec (.attestationRequest nonce) s = .next { s with out := s.out ++ [{ dest := .mgmt, words := packWords (r ++ Config.sign r) }] }) ∧
    ∃ ws, exec .pldmSensorRead s = .next { s with out := s.out ++ [{ dest := .mgmt, words := ws }] }) ∧
  (∀ (s : State) (src : ErrSource) (who : Consumer) (addr : Nat), ∃ u r, exec (.uncorrectableError src who addr) s = .next u ∧ u.mem = s.mem ∧
    u.trust.errSeq = s.trust.errSeq + 1 ∧
    u.trust.errRing = (if 64 ≤ s.trust.errRing.length then s.trust.errRing.drop 1 else s.trust.errRing) ++ [r] ∧
    r.getD 4 0 = s.trust.errSeq + 1 ∧ r.getD 2 0 = BitVec.ofNat 32 addr ∧ r.getD 3 0 = BitVec.ofNat 32 (addr / 2 ^ 32) ∧
    (∀ d m, (src = .sram d m → (r.getD 0 0).toNat % 256 = 1) ∧ (src = .hbm d m → (r.getD 0 0).toNat % 256 = 2)) ∧
    let error (c i : Nat) : Prop := ∃ y, kvFind u.cmds c = some y ∧ y.ending = some { status := 6, cause := 0, tpc := 0, ggid := i }
    (∀ i x c, who = .group i → kvFind s.groups i = some x → kvFind s.cmds (taskOf s x).cmd = some c → r.getD 1 0 = BitVec.ofNat 32 i ∧
      (c.ending = none → error (taskOf s x).cmd i) ∧
      -- what would read the failing word is over, and undelivered; the other loads and atomics stand
      let word (b n : Nat) : Prop := ∃ k, k < n ∧ (b + k) / 4 = addr / 4
      let fails (op : FOp) : Prop := (∃ sp w as, op = .sload sp w as ∧ ∃ e ∈ as, word e.2 (widthBytes w)) ∨
        (∃ sp w p as, op = .vload sp w p as ∧ ∃ e ∈ as, word e.2 (widthBytes w)) ∨ (∃ ss d a, op = .acq ss d a ∧ word a 4) ∨
        ∃ o ss ret vec d ls olds wr fl, op = .atomic o ss ret vec d ls olds wr fl ∧ ∃ e ∈ ls, word e.2.1 4
      ∀ h, kvFind u.groups i = some h → (∀ f ∈ h.flight, fails f.op → f.done = true) ∧
        ((∀ d, reqsOf (dieOf s d) = []) → (x.flight.map (·.id)).Nodup → ∀ f ∈ x.flight, f.done = false → ¬fails f.op → f ∈ h.flight)) ∧
    (∀ b x, who = .bulk b → kvFind s.bulks b = some x → kvFind u.bulks b = none ∧
      (x.kind = .hub → r.getD 1 0 = 0 ∧ ∀ c, kvFind s.cmds x.cmd = some c → error x.cmd 0 ∧ ∀ y, kvFind u.cmds x.cmd = some y → y.closing = true) ∧
      (x.kind ≠ .hub → r.getD 1 0 = BitVec.ofNat 32 x.gid ∧ OpIsDone s u x.gid x.fl ∧
        ∀ c, kvFind s.cmds x.cmd = some c → c.ending = none → error x.cmd x.gid)) ∧
    (∀ c x, who = .command c → kvFind s.cmds c = some x → r.getD 1 0 = 0 ∧ (x.launch = true → x.ending = none → error c 0) ∧
      (x.launch = false → error c 0 ∧ (∀ y, kvFind u.cmds c = some y → y.closing = true) ∧
        ∀ q y z, kvFind u.queues q = some y → y.wait = some z → z.cmd ≠ c)) ∧
    (who = .nobody → u.cmds = s.cmds ∧ r.getD 1 0 = 0)) ∧
  ∀ (s : State), (∀ src, ∃ u, exec (.correctedSoftError src) s = .next u ∧
      kvGet 0 u.trust.soft (softKey src) = kvGet 0 s.trust.soft (softKey src) + 1 ∧
      ∀ k, k ≠ softKey src → kvGet 0 u.trust.soft k = kvGet 0 s.trust.soft k) ∧
    ∀ p, p < 12 → ∃ u, exec (.portRetrainFail p) s = .next u ∧ u.trust.removed.getLsbD p = true ∧
      ∀ q, q < 12 → q ≠ p → u.trust.removed.getLsbD q = s.trust.removed.getLsbD q

/-- Register writes are ignored where the master sees no block, dropped with a DENIED record where no access entry admits them, and else do what
their block says; only C5 commits an access entry and only firmware cores a residency entry, which is restored as `resadd` would; a register
read gives its current value, 0 where it is only written, not seen or not admitted; the HDM window and a peer's accesses reach HBM where they
are admitted, read 0 with a record elsewhere; a host whose port has not trained reaches nothing (00 R4, R5, 11 R206, R223, 14 Tables 14-1 to
14-5, 16 R289, R291, R292, R297, R300). What a peer answers, one entry for each access, the numbers of VPIN's instances, C5's own access to its
window, what a residency commit replaces, that every admitted master selects a residency entry, and reads of half a claim and of the access table are the
model's choices (log 20, 34, 62, 78, 97, 98, 119). -/
def Obligations.AccessesFromOutside : Prop :=
  (∀ (s : State) (m : Master) (v : Word),
    let admits (off : Nat) : Prop := linked s m = true ∧ barAdmits s m off 4 .write = true
    let i := (kvGet 0 s.acctab 0).toNat
    let accWord (k : Nat) : Word := (kvFind s.acctab (k + 1)).getD ((accWords (kvGet noAcc s.acc i)).getD k 0)
    let w := (kvGet 0 s.reswin 0).toNat
    let core := w / 1024
    let at_ := w % 1024
    let old := (coreOf s core).res
    let n (k : Nat) : Nat := ((kvFind s.reswin k).getD ((resShown (coreOf s core) at_).getD (k - 1) 0)).toNat
    let e : Res := { sid := n 3 / 2 ^ 17 % 2 ^ 12, va := n 1 + n 2 * 2 ^ 32, len := n 3 % 2 ^ 17, sp := v.toNat % 2 ^ 31 }
    (∀ off j, (off, j) ∈ [(0x14020, Instr.acctab m v), (0x13010, .reswin m v)] →
      (linked s m = false ∨ barSees m off 4 = false → exec j s = .next s) ∧
      (linked s m = true → barSees m off 4 = true → barAdmits s m off 4 .write = false → exec j s = .next (denied s off)) ∧
      (admits off → (∀ c, m ≠ .fw c) → exec j s = .next s)) ∧
    (admits 0x14020 → m ≠ .fw 5 → exec (.acctab m v) s = .next s) ∧
    (admits 0x14020 → m = .fw 5 → ∃ u, exec (.acctab m v) s = .next u ∧ { u with acc := s.acc, acctab := s.acctab } = s ∧
      u.acctab = [(0, kvGet 0 s.acctab 0)] ∧
      kvGet noAcc u.acc i = accOf ((List.range 8).map accWord) ∧ ∀ j, j ≠ i → kvGet noAcc u.acc j = kvGet noAcc s.acc j) ∧
    (∀ c, admits 0x13010 → m = .fw c → c < 9 → ∃ u, exec (.reswin m v) s = .next u ∧ { u with cores := s.cores, reswin := s.reswin } = s ∧
      u.reswin = [(0, kvGet 0 s.reswin 0)] ∧ (∀ k, k ≠ core → coreOf u k = coreOf s k) ∧ { coreOf u core with res := old, resOff := (coreOf s core).resOff } = coreOf s core ∧
      let new := (coreOf u core).res
      (∀ j, j ≠ at_ → kvFind (coreOf u core).resOff j = kvFind (coreOf s core).resOff j) ∧
      (n 3 / 2 ^ 31 % 2 = 1 → resBad s core e = true → new = old) ∧
      (n 3 / 2 ^ 31 % 2 = 1 → resBad s core e = false → kvFind new at_ = some e ∧
        (∀ j y, j ≠ at_ → kvFind new j = some y → y.sid ≠ e.sid ∨ y.va ≠ e.va) ∧
        ∀ j y, j ≠ at_ → kvFind old j = some y → y.sid ≠ e.sid ∨ y.va ≠ e.va → kvFind new j = some y) ∧
      (n 3 / 2 ^ 31 % 2 = 0 → kvFind new at_ = none ∧ (∀ j, j ≠ at_ → kvFind new j = kvFind old j) ∧
        resShown (coreOf u core) at_ = [BitVec.ofNat 32 e.va, BitVec.ofNat 32 (e.va / 2 ^ 32), BitVec.ofNat 32 (e.len + e.sid * 2 ^ 17),
          BitVec.ofNat 32 e.sp]))) ∧
  (∀ (s : State) (m : Master) (off : Nat) (v : Word),
    let u := writeBlock m off v s
    (off % 4 ≠ 0 ∨ off = 0x8000 → exec (.registerWrite m off v) s = .next s) ∧
    (linked s m = false → exec (.registerWrite m off v) s = .next s) ∧
    (linked s m = true → off % 4 = 0 → off ≠ 0x8000 → (barSees m off 4 = false → exec (.registerWrite m off v) s = .next s) ∧
      (barSees m off 4 = true → barAdmits s m off 4 .write = false → exec (.registerWrite m off v) s = .next (denied s off)) ∧
      (barAdmits s m off 4 .write = true → exec (.registerWrite m off v) s = .next u)) ∧
    (off < 0x8100 ∨ 0x11080 ≤ off ∧ off < 0x11100 ∨ 0x1111C ≤ off ∧ off < 0x12000 ∨ 0x15800 ≤ off → u = s) ∧
    (∀ d k, d < 16 → k < 8 → off = 0x10000 + 0x100 * d + 0x20 * k + 12 → (v.getLsbD 31 = false → u = s) ∧
      (v.getLsbD 31 = true → kvFind (dieOf u d).flt k = none ∧ ∀ j, j ≠ k → kvFind (dieOf u d).flt j = kvFind (dieOf s d).flt j)) ∧
    (∀ k, k < 4 → off = 0x11100 + 4 * k → ∀ j, kvGet 0 u.invrange j =
      if j = k then (if k % 2 = 1 then v &&& 0x7FFFFF else v) else kvGet 0 s.invrange j) ∧
    (off = 0x12000 → u = { s with power := { s.power with limit := min 64 (v.toNat / 2 ^ 8 % 2 ^ 7) } }) ∧
    (off = 0x12008 → u = { s with power := { s.power with stagW := v.toNat % 16, stagT := v.toNat / 2 ^ 16 % 2 ^ 12 } }) ∧
    (off = 0x1200C → u = { s with power := { s.power with
      ballEn := v.getLsbD 0, ballDur := min 40 (v.toNat / 2 % 64), ballDrop := min 64 (max 1 (v.toNat / 2 ^ 8 % 128)) } }) ∧
    (∀ k w, k < 16 → w < 8 → off = 0x15000 + 0x80 * k + 4 * w → ∀ j i, kvGet 0 (boxAt u j).send i =
      if j = k ∧ i = w then v else kvGet 0 (boxAt s j).send i) ∧
    (∀ k, 1 ≤ k → k < 8 → m = .fw 5 → off = 0x14000 + 4 * k → { u with acctab := s.acctab } = s ∧
      ∀ j, kvFind u.acctab j = if j = k then some (if k < 5 then v else if k = 5 then v &&& 0x1FFFFF else 0) else kvFind s.acctab j) ∧
    (off = 0x13000 → u = { s with reswin := [(0, BitVec.ofNat 32 (v.toNat % 2 ^ 16))] }) ∧
    (off = 0x14000 → u = { s with acctab := [(0, BitVec.ofNat 32 (v.toNat % 4096))] } ∧ ∀ j, 1 ≤ j → j ≤ 8 →
      readBlock (.host 0) (0x14000 + 4 * j) u = (accWords (kvGet noAcc s.acc (v.toNat % 4096))).getD (j - 1) 0)) ∧
  (∀ (s : State) (m : Master) (off : Nat),
    let shows (s1 : State) (v : Word) : Prop :=
      planAct s (.barRead m off) = .idle { s1 with out := s1.out ++ [{ dest := m, words := [v] }] }
    let value := readBlock m off s
    let p := s.power
    (linked s m = false → planAct s (.barRead m off) = .idle s) ∧
    (linked s m = true → off % 4 ≠ 0 ∨ barSees m off 4 = false → shows s 0) ∧
    (linked s m = true → off % 4 = 0 → barSees m off 4 = true → barAdmits s m off 4 .read = false → shows (denied s off) 0) ∧
    (linked s m = true → off % 4 = 0 → barAdmits s m off 4 .read = true → shows s value) ∧
    (off < 0x8100 ∨ 0x11040 ≤ off ∧ off < 0x11100 ∨ 0x15800 ≤ off → value = 0) ∧
    (∀ f, m = .host f → off = 0x810C → value = (vpinOf s f).seq) ∧
    (∀ d k, d < 16 → k < 8 → off = 0x10000 + 0x100 * d + 0x20 * k + 12 → (kvFind (dieOf s d).flt k = none → value = 0) ∧
      ∀ r, kvFind (dieOf s d).flt k = some r → value = BitVec.ofNat 32 (r.first + r.eng * 2 ^ 12 + r.level * 2 ^ 15 + 2 ^ 31)) ∧
    (∀ d, d < 16 → off = 0x11000 + 4 * d → value = BitVec.ofNat 32 ((dieOf s d).flt.length + (if (dieOf s d).dropped then 2 ^ 8 else 0) +
      (if (dieOf s d).replayFull then 2 ^ 9 else 0) + (dieOf s d).replay.length * 2 ^ 16)) ∧
    (off = 0x11114 → value = s.invrangeSeq) ∧ (off = 0x11120 → value = s.invDone) ∧
    (off = 0x12000 → value = BitVec.ofNat 32 (p.permits + p.limit * 2 ^ 8 + (if p.half then 2 ^ 15 else 0) + p.rp * 2 ^ 16)) ∧
    (0x14000 ≤ off → off < 0x14024 → m ≠ .host 0 → m ≠ .fw 5 → value = 0) ∧
    ∀ k, k < 16 → let b := boxAt s k
      (∀ i, i < 8 → off = 0x15000 + 0x80 * k + 4 * i → value = 0) ∧
      (∀ i, i < 8 → off = 0x15040 + 0x80 * k + 4 * i → value = (b.msgs.headD []).getD i 0) ∧
      (off = 0x15064 + 0x80 * k → value = BitVec.ofNat 32 (b.msgs.length + if b.full then 2 ^ 4 else 0))) ∧
  (∀ (s : State) (f a : Nat) (data : List Byte),
    let inside := f < 16 ∧ a + data.length ≤ s.trust.hdm
    let ok (k : AKind) : Prop := admitted s (.host f) 1 a data.length k = true
    let answers (s1 : State) (bs : List Byte) : Prop := exec (.hdmAccess f false a data) s = .next
      { s1 with out := s1.out ++ [{ dest := .host f, words := packWords bs }] }
    (s.trust.halted = true → ∀ wr, exec (.hdmAccess f wr a data) s = .next s) ∧
    (s.trust.halted = false → (inside → ok .read → answers s ((List.range data.length).map fun i => readByte s (.hbm (a + i)))) ∧
    (inside → ¬ok .read → answers (denied s a) (List.replicate data.length 0)) ∧
    (¬inside → answers s (List.replicate data.length 0) ∧ exec (.hdmAccess f true a data) s = .next s) ∧
    (inside → ok .write → ∃ u, exec (.hdmAccess f true a data) s = .next u ∧ { u with mem := s.mem } = s ∧
      Written s u (data.zipIdx.map fun e => (.hbm (a + e.2), e.1))) ∧
    (inside → ¬ok .write → exec (.hdmAccess f true a data) s = .next (denied s a)))) ∧
  ∀ (s : State) (p : Nat), p < 32 →
    let ok (a n : Nat) (k : AKind) : Prop := a + n ≤ Config.hbmEnd ∧ admitted s (.peer p) 1 a n k = true
    let onQueue (q : Nat) : Prop := admitted s (.peer p) 2 q 1 .write = true
    let answers (r : PeerReq) (s1 : State) (ws : List Word) : Prop := exec (.peerRequest p r) s = .next
      { s1 with out := s1.out ++ [{ dest := .peer p, words := ws }] }
    (∀ a n, (ok a n .read → answers (.read a n) s (packWords ((List.range n).map fun i => readByte s (.hbm (a + i))))) ∧
      (¬ok a n .read → answers (.read a n) (denied s a) (packWords (List.replicate n 0)))) ∧
    (∀ a bs, (ok a bs.length .write → ∃ u, exec (.peerRequest p (.write a bs)) s = .next u ∧ { u with mem := s.mem } = s ∧
        Written s u (bs.zipIdx.map fun e => (.hbm (a + e.2), e.1))) ∧
      (¬ok a bs.length .write → exec (.peerRequest p (.write a bs)) s = .next (denied s a))) ∧
    (∀ a op v cmp, let old := readPair s ((List.range 8).map fun i => Loc.hbm (a + i))
      (ok a 8 .read → ok a 8 .write → ∃ u, answers (.atomic a op v cmp) u [old.extractLsb' 0 32, old.extractLsb' 32 32] ∧
        { u with mem := s.mem } = s ∧ Written s u (match signalOp op old v cmp with
          | some w => (List.range 8).map fun i => (.hbm (a + i), BitVec.ofNat 8 (w.toNat / 256 ^ i))
          | none => [])) ∧
      (¬(ok a 8 .read ∧ ok a 8 .write) → answers (.atomic a op v cmp) (denied s a) [0, 0])) ∧
    (∀ port v, (12 ≤ port → exec (.peerRequest p (.vpin port 0 v)) s = .next s) ∧
      (port < 12 → ∃ u, exec (.peerRequest p (.vpin port 0 v)) s = .next u ∧ { u with vpins := s.vpins } = s ∧
        (vpinOf u (16 + port)).head = (vpinOf s (16 + port)).head.extractLsb' 32 32 ++ v)) ∧
    (∀ port k, answers (.vpinRead port k) s [if port < 12 then vpinWord (vpinOf s (16 + port)) k else 0]) ∧
    ∀ q, (onQueue q → exec (.peerRequest p (.claim q)) s = .next (claimBy s (.peer p) q) ∧
        exec (.peerRequest p (.doorbell q)) s = .next (ring s q)) ∧
      (¬onQueue q → answers (.claim q) (denied s (8 * q)) [0, 0] ∧ exec (.peerRequest p (.doorbell q)) s = .next (denied s 0x8000))
end

