-- ==== Sys2Proof/Laws/Kv.lean ====
section
/-! SUPPORT. Laws of tables by number: what a key holds after an entry is set or removed, and that the keys stay in order; then the
laws of memory, which is such a table. -/
set_option Elab.async false
namespace Sys2Proof.Laws
open Sys2Proof.Machine

variable {α : Type}

/-! Entries. -/

@[simp] theorem find_put_self (m : Kv α) (k : Nat) (v : α) : kvFind (kvPut m k v) k = some v := by
  induction m with
  | nil => simp [kvPut, kvFind]
  | cons e r ih =>
    obtain ⟨a, x⟩ := e
    simp only [kvPut]
    split
    · simp [kvFind]
    · split
      · simp [kvFind]
      · rename_i h; simp [kvFind, h, ih]

@[simp] theorem find_put_other (m : Kv α) {j k : Nat} (v : α) (h : j ≠ k) : kvFind (kvPut m k v) j = kvFind m j := by
  induction m with
  | nil => simp [kvPut, kvFind, h]
  | cons e r ih =>
    obtain ⟨a, x⟩ := e
    simp only [kvPut]
    split
    · simp [kvFind, h]
    · split
      · rename_i h2; subst h2; simp [kvFind, h]
      · simp only [kvFind, ih]

theorem find_put (m : Kv α) (j k : Nat) (v : α) : kvFind (kvPut m k v) j = if j = k then some v else kvFind m j := by
  split
  · rename_i h; subst h; simp
  · rename_i h; simp [h]

@[simp] theorem find_del_self (m : Kv α) (k : Nat) : kvFind (kvDel m k) k = none := by
  induction m with
  | nil => rfl
  | cons e r ih =>
    obtain ⟨a, x⟩ := e
    simp only [kvDel]
    split
    · exact ih
    · rename_i h; simp [kvFind, h, ih]

@[simp] theorem find_del_other (m : Kv α) {j k : Nat} (h : j ≠ k) : kvFind (kvDel m k) j = kvFind m j := by
  induction m with
  | nil => rfl
  | cons e r ih =>
    obtain ⟨a, x⟩ := e
    simp only [kvDel]
    split
    · rename_i h2; subst h2; simp [kvFind, h, ih]
    · simp only [kvFind, ih]

theorem find_del (m : Kv α) (j k : Nat) : kvFind (kvDel m k) j = if j = k then none else kvFind m j := by
  split
  · rename_i h; subst h; simp
  · rename_i h; simp [h]

/-! What a key holds, with a default. -/

@[simp] theorem get_put_self (d : α) (m : Kv α) (k : Nat) (v : α) : kvGet d (kvPut m k v) k = v := by simp [kvGet]

@[simp] theorem get_put_other (d : α) (m : Kv α) {j k : Nat} (v : α) (h : j ≠ k) : kvGet d (kvPut m k v) j = kvGet d m j := by
  simp [kvGet, h]

@[simp] theorem get_set_self [DecidableEq α] (d : α) (m : Kv α) (k : Nat) (v : α) : kvGet d (kvSet d m k v) k = v := by
  unfold kvSet
  split
  · rename_i h; simp [kvGet, h]
  · simp [kvGet]

@[simp] theorem get_set_other [DecidableEq α] (d : α) (m : Kv α) {j k : Nat} (v : α) (h : j ≠ k) :
    kvGet d (kvSet d m k v) j = kvGet d m j := by
  unfold kvSet
  split <;> simp [kvGet, h]

theorem get_set [DecidableEq α] (d : α) (m : Kv α) (j k : Nat) (v : α) :
    kvGet d (kvSet d m k v) j = if j = k then v else kvGet d m j := by
  split
  · rename_i h; subst h; simp
  · rename_i h; simp [h]

/-! Order of the keys. -/

/-- Every key of a table is above a bound. -/
def Above (n : Nat) (m : Kv α) : Prop := ∀ e ∈ m, n < e.1

theorem sorted_cons (a : Nat) (x : α) (m : Kv α) : kvSorted ((a, x) :: m) = true ↔ Above a m ∧ kvSorted m = true := by
  induction m generalizing a x with
  | nil => simp [kvSorted, Above]
  | cons e r ih =>
    obtain ⟨b, y⟩ := e
    simp only [kvSorted, Bool.and_eq_true, decide_eq_true_eq]
    constructor
    · rintro ⟨h, hs⟩
      refine ⟨fun e he => ?_, hs⟩
      rcases List.mem_cons.1 he with rfl | he
      · exact h
      · exact Nat.lt_trans h (((ih b y).1 hs).1 e he)
    · rintro ⟨h, hs⟩
      exact ⟨h (b, y) (by simp), hs⟩

theorem mem_put {m : Kv α} {k : Nat} {v : α} {e : Nat × α} (h : e ∈ kvPut m k v) : e = (k, v) ∨ e ∈ m := by
  induction m with
  | nil => simp [kvPut] at h; exact .inl h
  | cons c r ih =>
    obtain ⟨a, x⟩ := c
    simp only [kvPut] at h
    split at h
    · rcases List.mem_cons.1 h with h | h
      · exact .inl h
      · exact .inr h
    · split at h
      · rcases List.mem_cons.1 h with h | h
        · exact .inl h
        · exact .inr (by simp [h])
      · rcases List.mem_cons.1 h with h | h
        · exact .inr (by simp [h])
        · rcases ih h with h | h
          · exact .inl h
          · exact .inr (by simp [h])

theorem mem_del {m : Kv α} {k : Nat} {e : Nat × α} (h : e ∈ kvDel m k) : e ∈ m := by
  induction m with
  | nil => simp [kvDel] at h
  | cons c r ih =>
    obtain ⟨a, x⟩ := c
    simp only [kvDel] at h
    split at h
    · exact List.mem_cons_of_mem _ (ih h)
    · rcases List.mem_cons.1 h with h | h
      · simp [h]
      · exact List.mem_cons_of_mem _ (ih h)

theorem sorted_put (m : Kv α) (k : Nat) (v : α) (h : kvSorted m = true) : kvSorted (kvPut m k v) = true := by
  induction m with
  | nil => rfl
  | cons c r ih =>
    obtain ⟨a, x⟩ := c
    obtain ⟨ha, hr⟩ := (sorted_cons a x r).1 h
    simp only [kvPut]
    split
    · rename_i hk
      refine (sorted_cons _ _ _).2 ⟨fun e he => ?_, h⟩
      rcases List.mem_cons.1 he with rfl | he
      · exact hk
      · exact Nat.lt_trans hk (ha e he)
    · split
      · rename_i hk; subst hk; exact (sorted_cons _ _ _).2 ⟨ha, hr⟩
      · refine (sorted_cons _ _ _).2 ⟨fun e he => ?_, ih hr⟩
        rcases mem_put he with rfl | he
        · show a < k; omega
        · exact ha e he

theorem sorted_del (m : Kv α) (k : Nat) (h : kvSorted m = true) : kvSorted (kvDel m k) = true := by
  induction m with
  | nil => rfl
  | cons c r ih =>
    obtain ⟨a, x⟩ := c
    obtain ⟨ha, hr⟩ := (sorted_cons a x r).1 h
    simp only [kvDel]
    split
    · exact ih hr
    · exact (sorted_cons _ _ _).2 ⟨fun e he => ha e (mem_del he), ih hr⟩

theorem sorted_set [DecidableEq α] (d : α) (m : Kv α) (k : Nat) (v : α) (h : kvSorted m = true) : kvSorted (kvSet d m k v) = true := by
  unfold kvSet
  split
  · exact sorted_del m k h
  · exact sorted_put m k v h

/-! Memory. -/

/-- Setting a byte keeps the canonical form: writing the value an unlisted address reads as removes the entry. -/
theorem wf_set {m : List Host.Cell} (k : Nat) (b : Byte) (h : memWf m) : memWf (kvSet memDefault m k b) := by
  refine ⟨sorted_set _ m k b h.1, fun c hc => ?_⟩
  unfold kvSet at hc
  split at hc
  · exact h.2 c (mem_del hc)
  · rename_i hb
    rcases mem_put hc with rfl | hc
    · exact hb
    · exact h.2 c hc

/-- A byte reads as written. -/
@[simp] theorem read_write_self (s : State) (l : Loc) (b : Byte) : readByte (writeByte s l b) l = b := by
  simp [readByte, writeByte]

/-- Every other byte reads as before. -/
theorem read_write_other (s : State) {l k : Loc} (b : Byte) (h : locKey l ≠ locKey k) : readByte (writeByte s k b) l = readByte s l := by
  simp [readByte, writeByte, h]

theorem writeByte_wf {s : State} (l : Loc) (b : Byte) (h : memWf s.mem) : memWf (writeByte s l b).mem := wf_set _ b h

theorem writeBytesFrom_wf (f : Nat → Loc) (bs : List Byte) : ∀ (i : Nat) (s : State), memWf s.mem → memWf (writeBytesFrom f i bs s).mem := by
  induction bs with
  | nil => intro i s h; exact h
  | cons b r ih => intro i s h; exact ih (i + 1) _ (writeByte_wf _ b h)

theorem writeBytes_wf {s : State} (f : Nat → Loc) (bs : List Byte) (h : memWf s.mem) : memWf (writeBytes s f bs).mem :=
  writeBytesFrom_wf f bs 0 s h

end Sys2Proof.Laws
end

