-- ==== Sys2Proof/Laws/MemBase.lean ====
section
/-! SUPPORT. What every operation does to memory: the lemma `ok_f` of an operation f says that what held of memory before holds after, with
no premise where f writes no byte, and for a property closed under writes where it does. Here: the predicates for each kind of answer, and the
lemmas by which they are put together. -/
set_option Elab.async false
namespace Sys2Proof.Laws
open Sys2Proof.Machine

/-- What is said of memory holds of a state's. -/
def Ok (P : List Host.Cell → Prop) (s : State) : Prop := P s.mem
/-- It stays true when a byte is written, and when bytes are forgotten. -/
structure Closed (P : List Host.Cell → Prop) : Prop where
  write : ∀ m k b, P m → P (kvSet memDefault m k b)
  drop : ∀ m f, P m → P (m.filter f)
def OkOut (P : List Host.Cell → Prop) : Host.Outcome State Fault Refusal → Prop
  | .next t => Ok P t
  | _ => True
def OkOpt (P : List Host.Cell → Prop) : Option State → Prop
  | some t => Ok P t
  | none => True
def OkEff (P : List Host.Cell → Prop) : Eff → Prop
  | .ok s => Ok P s
  | .jump s _ => Ok P s
  | .park s _ => Ok P s
  | .wait s _ => Ok P s
  | .trap s _ _ => Ok P s
  | .seqFault s _ => Ok P s
  | .gone s => Ok P s
  | .stand s => Ok P s
def OkPlan (P : List Host.Cell → Prop) : Plan → Prop
  | .idle s => Ok P s
  | .run _ s => Ok P s
def OkSEff (P : List Host.Cell → Prop) : SEff → Prop
  | .ok s => Ok P s
  | .jump s _ => Ok P s
  | .stay s => Ok P s
  | .fault s _ _ => Ok P s
  | .idle s => Ok P s
def OkFetched (P : List Host.Cell → Prop) : Fetched → Prop
  | .word _ s => Ok P s
  | .miss s => Ok P s
  | .perm s => Ok P s
  | .off => True
def OkHead (P : List Host.Cell → Prop) : HeadAt → Prop
  | .miss _ s => Ok P s
  | .late _ s => Ok P s
  | .at_ _ s => Ok P s
  | .bad _ => True
def OkReady (P : List Host.Cell → Prop) : Ready → Prop
  | .ok s => Ok P s
  | .wait s => Ok P s
  | .reject s _ => Ok P s
  | .stop s => Ok P s
variable {P : List Host.Cell → Prop}

theorem plan_idle {s : State} (h : Ok P s) : OkPlan P (.idle s) := h
theorem plan_run {s : State} {i : Instr} (h : Ok P s) : OkPlan P (.run i s) := h
theorem seff_ok {s : State} (h : Ok P s) : OkSEff P (.ok s) := h
theorem seff_jump {s : State} {p : Word} (h : Ok P s) : OkSEff P (.jump s p) := h
theorem seff_stay {s : State} (h : Ok P s) : OkSEff P (.stay s) := h
theorem seff_fault {s : State} {c : Cause} {n : Nat} (h : Ok P s) : OkSEff P (.fault s c n) := h
theorem seff_idle {s : State} (h : Ok P s) : OkSEff P (.idle s) := h
theorem fetched_word {f : Fetched} {w : Word} {s : State} (e : f = .word w s) (h : OkFetched P f) : Ok P s := by subst e; exact h
theorem fetched_miss {f : Fetched} {s : State} (e : f = .miss s) (h : OkFetched P f) : Ok P s := by subst e; exact h
theorem fetched_perm {f : Fetched} {s : State} (e : f = .perm s) (h : OkFetched P f) : Ok P s := by subst e; exact h
theorem head_miss {f : HeadAt} {w : List Nat} {s : State} (e : f = .miss w s) (h : OkHead P f) : Ok P s := by subst e; exact h
theorem head_late {f : HeadAt} {w : Reach} {s : State} (e : f = .late w s) (h : OkHead P f) : Ok P s := by subst e; exact h
theorem head_at {f : HeadAt} {w : Nat} {s : State} (e : f = .at_ w s) (h : OkHead P f) : Ok P s := by subst e; exact h
theorem ready_ok {f : Ready} {s : State} (e : f = .ok s) (h : OkReady P f) : Ok P s := by subst e; exact h
theorem ready_wait {f : Ready} {s : State} (e : f = .wait s) (h : OkReady P f) : Ok P s := by subst e; exact h
theorem ready_reject {f : Ready} {n : Nat} {s : State} (e : f = .reject s n) (h : OkReady P f) : Ok P s := by subst e; exact h
theorem ready_stop {f : Ready} {s : State} (e : f = .stop s) (h : OkReady P f) : Ok P s := by subst e; exact h
theorem mk_word {w : Word} {s : State} (h : Ok P s) : OkFetched P (.word w s) := h
theorem mk_fmiss {s : State} (h : Ok P s) : OkFetched P (.miss s) := h
theorem mk_perm {s : State} (h : Ok P s) : OkFetched P (.perm s) := h
theorem mk_off : OkFetched P .off := True.intro
theorem mk_bad {c : Cause} : OkHead P (.bad c) := True.intro
theorem mk_hmiss {w : List Nat} {s : State} (h : Ok P s) : OkHead P (.miss w s) := h
theorem mk_late {w : Reach} {s : State} (h : Ok P s) : OkHead P (.late w s) := h
theorem mk_at {w : Nat} {s : State} (h : Ok P s) : OkHead P (.at_ w s) := h
theorem mk_rok {s : State} (h : Ok P s) : OkReady P (.ok s) := h
theorem mk_rwait {s : State} (h : Ok P s) : OkReady P (.wait s) := h
theorem mk_reject {n : Nat} {s : State} (h : Ok P s) : OkReady P (.reject s n) := h
theorem mk_stop {s : State} (h : Ok P s) : OkReady P (.stop s) := h
theorem ok_wf {s : State} (h : Ok P s) : P s.mem := h
theorem ok_mk {a b c d e f g h : _} {m : List Host.Cell} {locks cores dies groups teams clusters tasks cmds queues bulks reds vats
    vpins sb isq id ivs ir irs ire acc at_ rw_ mb sn ss db sa lo lp po tr : _} :
    Ok P (State.mk a b c d e f g h m locks cores dies groups teams clusters tasks cmds queues bulks reds vats vpins sb isq id ivs ir
      irs ire acc at_ rw_ mb sn ss db sa lo lp po tr) ↔ P m := Iff.rfl
theorem ok_snd {α : Type} {p : α × State} {a : α} {b : State} (e : p = (a, b)) (h : Ok P p.2) : Ok P b := by subst e; exact h
theorem ok_fst {α : Type} {p : State × α} {a : α} {b : State} (e : p = (b, a)) (h : Ok P p.1) : Ok P b := by subst e; exact h
theorem ok_thd {α β : Type} {p : α × β × State} {a : α} {c : β} {b : State} (e : p = (a, c, b)) (h : Ok P p.2.2) : Ok P b := by subst e; exact h
theorem ok_let {α : Sort _} {v : α} {p : α → Eff} (h : ∀ x, OkEff P (p x)) : OkEff P (let x := v; p x) := h v
theorem ok_mp {p q : Prop} (h : p → q) (k : p) : q := h k
theorem ok_get {o : Option State} {b : State} (e : o = some b) (h : OkOpt P o) : Ok P b := by subst e; exact h
theorem ok_foldl {α : Type} {f : State → α → State} {l : List α} {s : State} (h : Ok P s) (hf : ∀ x a, Ok P x → Ok P (f x a)) : Ok P (l.foldl f s) := by
  induction l generalizing s with
  | nil => exact h
  | cons a r ih => exact ih (hf s a h)
theorem ok_onHub {h : HubAt} {m : List Nat → State} {r : State} {f : List Loc → State} (hm : ∀ p, Ok P (m p)) (hr : Ok P r) (hf : ∀ l, Ok P (f l)) :
    Ok P (onHub h m r f) := by cases h <;> simp only [onHub] <;> first | exact hm _ | exact hr | exact hf _
theorem ok_onBoth {a b : HubAt} {m : List Nat → State} {r : State} {f : List Loc → List Loc → State} (hm : ∀ p, Ok P (m p)) (hr : Ok P r)
    (hf : ∀ x y, Ok P (f x y)) : Ok P (onBoth a b m r f) := by unfold onBoth; split <;> first | exact hm _ | exact hr | exact hf _ _
theorem ready_onHub {h : HubAt} {m : List Nat → Ready} {r : Ready} {f : List Loc → Ready} (hm : ∀ p, OkReady P (m p)) (hr : OkReady P r)
    (hf : ∀ l, OkReady P (f l)) : OkReady P (onHub h m r f) := by cases h <;> simp only [onHub] <;> first | exact hm _ | exact hr | exact hf _
theorem ok_foldl2 {α β : Type} {f : β × State → α → β × State} {l : List α} {p : β × State} (h : Ok P p.2)
    (hf : ∀ x a, Ok P x.2 → Ok P (f x a).2) : Ok P (l.foldl f p).2 := by
  induction l generalizing p with
  | nil => exact h
  | cons a r ih => exact ih (hf p a h)
theorem ok_foldl1 {α β : Type} {f : State × β → α → State × β} {l : List α} {p : State × β} (h : Ok P p.1)
    (hf : ∀ x a, Ok P x.1 → Ok P (f x a).1) : Ok P (l.foldl f p).1 := by
  induction l generalizing p with
  | nil => exact h
  | cons a r ih => exact ih (hf p a h)
theorem ok_drop {m : List Host.Cell} {f : Host.Cell → Bool} (hw : Closed P) (h : P m) : P (m.filter f) := hw.drop m f h
theorem ok_opt_none : OkOpt P none := True.intro
theorem ok_opt_some {s : State} (h : Ok P s) : OkOpt P (some s) := h
theorem ok_opt_map {o : Option State} {f : State → State} (h : OkOpt P o) (hf : ∀ x, Ok P x → Ok P (f x)) : OkOpt P (o.map f) := by
  cases o with
  | none => exact h
  | some x => exact hf x h
theorem ok_opt_of_map {α : Type} {o : Option α} {f : α → State} (hf : ∀ x, Ok P (f x)) : OkOpt P (o.map f) := by
  cases o with
  | none => exact True.intro
  | some x => exact hf x
theorem ok_next {s : State} (h : Ok P s) : OkOut P (.next s) := h
theorem ok_fault {r : Fault} : OkOut P (.fault r) := True.intro
theorem eff_ok {s : State} (h : Ok P s) : OkEff P (.ok s) := h
theorem eff_jump {s : State} {p : Word} (h : Ok P s) : OkEff P (.jump s p) := h
theorem eff_park {s : State} {p : Park} (h : Ok P s) : OkEff P (.park s p) := h
theorem eff_wait {s : State} {p : Park} (h : Ok P s) : OkEff P (.wait s p) := h
theorem eff_trap {s : State} {k : Cause} {n : Nat} (h : Ok P s) : OkEff P (.trap s k n) := h
theorem eff_seqFault {s : State} {x : SeqFault} (h : Ok P s) : OkEff P (.seqFault s x) := h
theorem eff_gone {s : State} (h : Ok P s) : OkEff P (.gone s) := h
theorem eff_stand {s : State} (h : Ok P s) : OkEff P (.stand s) := h

theorem ok_writeByte (hw : Closed P) (s : State) (l : Loc) (b : Byte) (h : Ok P s) : Ok P (writeByte s l b) := hw.write _ _ _ h

/-! The canonical form is such a property. -/

theorem above_filter {n : Nat} {m : Kv Byte} (f : Host.Cell → Bool) (h : Above n m) : Above n (m.filter f) := fun e he => h e (List.mem_filter.1 he).1

theorem wf_filter {m : List Host.Cell} {f : Host.Cell → Bool} (h : memWf m) : memWf (m.filter f) := by
  refine ⟨?_, fun c hc => h.2 c (List.mem_filter.1 hc).1⟩
  have hs := h.1
  clear h
  induction m with
  | nil => rfl
  | cons e r ih =>
    obtain ⟨a, x⟩ := e
    obtain ⟨ha, hr⟩ := (sorted_cons a x r).1 hs
    simp only [List.filter_cons]
    split
    · exact (sorted_cons _ _ _).2 ⟨above_filter f ha, ih hr⟩
    · exact ih hr

theorem closed_wf : Closed memWf := ⟨fun _ k b h => wf_set k b h, fun _ _ h => wf_filter h⟩

end Sys2Proof.Laws
end

