-- ==== Sys2Proof/Laws/MemOps.lean ====
section
/-! SUPPORT. The shared operations change memory only by writing bytes. -/
set_option Elab.async false
namespace Sys2Proof.Laws
open Sys2Proof.Machine
set_option linter.unusedVariables false
set_option linter.unusedSimpArgs false
variable {P : List Host.Cell → Prop}

/-! Kv. -/

theorem ok_writeBytesFrom (hw : Closed P) (f : Nat → Loc) (x1 : Nat) (x2 : List Byte) (x3 : State) (h : Ok P x3) : Ok P (writeBytesFrom f
    x1 x2 x3) := by
  fun_induction writeBytesFrom f x1 x2 x3
  all_goals
    repeat first | with_reducible assumption | with_reducible refine ok_mp (by assumption) ?_ | with_reducible apply ok_writeByte

theorem ok_writeBytes (hw : Closed P) (s : State) (f : Nat → Loc) (bs : List Byte) (h : Ok P s) : Ok P (writeBytes s f bs) := by
  unfold writeBytes
  repeat first | with_reducible assumption | with_reducible apply ok_writeBytesFrom

theorem ok_setCore (s : State) (c : Nat) (x : Core) (h : Ok P s) : Ok P (setCore s c x) := by
  unfold setCore
  repeat first | with_reducible assumption | simp only [ok_mk] | with_reducible apply ok_wf

theorem ok_setDie (s : State) (d : Nat) (x : Die) (h : Ok P s) : Ok P (setDie s d x) := by
  unfold setDie
  repeat first | with_reducible assumption | simp only [ok_mk] | with_reducible apply ok_wf

theorem ok_modGroup (s : State) (g : Nat) (f : Group → Group) (h : Ok P s) : Ok P (modGroup s g f) := by
  unfold modGroup
  repeat first | with_reducible assumption | simp only [ok_mk] | with_reducible apply ok_wf | split

theorem ok_modTeam (s : State) (t : Nat) (f : Team → Team) (h : Ok P s) : Ok P (modTeam s t f) := by
  unfold modTeam
  repeat first | with_reducible assumption | simp only [ok_mk] | with_reducible apply ok_wf | split

theorem ok_modCluster (s : State) (c : Nat) (f : Cluster → Cluster) (h : Ok P s) : Ok P (modCluster s c f) := by
  unfold modCluster
  repeat first | with_reducible assumption | simp only [ok_mk] | with_reducible apply ok_wf | split

theorem ok_modTask (s : State) (t : Nat) (f : Task → Task) (h : Ok P s) : Ok P (modTask s t f) := by
  unfold modTask
  repeat first | with_reducible assumption | simp only [ok_mk] | with_reducible apply ok_wf | split

theorem ok_modCmd (s : State) (c : Nat) (f : Command → Command) (h : Ok P s) : Ok P (modCmd s c f) := by
  unfold modCmd
  repeat first | with_reducible assumption | simp only [ok_mk] | with_reducible apply ok_wf | split

theorem ok_modQueue (s : State) (q : Nat) (f : Queue → Queue) (h : Ok P s) : Ok P (modQueue s q f) := by
  unfold modQueue
  repeat first | with_reducible assumption | simp only [ok_mk] | with_reducible apply ok_wf | split

theorem ok_modBulk (s : State) (b : Nat) (f : Bulk → Bulk) (h : Ok P s) : Ok P (modBulk s b f) := by
  unfold modBulk
  repeat first | with_reducible assumption | simp only [ok_mk] | with_reducible apply ok_wf | split

theorem ok_modCore (s : State) (c : Nat) (f : Core → Core) (h : Ok P s) : Ok P (modCore s c f) := by
  unfold modCore
  repeat first | with_reducible assumption | with_reducible apply ok_setCore

theorem ok_modDie (s : State) (d : Nat) (f : Die → Die) (h : Ok P s) : Ok P (modDie s d f) := by
  unfold modDie
  repeat first | with_reducible assumption | with_reducible apply ok_setDie

theorem ok_fresh (s : State) (h : Ok P s) : Ok P (fresh s).2 := by
  unfold fresh
  repeat first | with_reducible assumption | dsimp only | simp only [ok_mk] | with_reducible apply ok_wf

theorem ok_count (s : State) (c n k : Nat) (h : Ok P s) : Ok P (count s c n k) := by
  unfold count
  repeat first | with_reducible assumption | with_reducible apply ok_modCore

theorem ok_publish (hw : Closed P) (s : State) (a : Nat) (b : Byte) (h : Ok P s) : Ok P (publish s a b) := by
  unfold publish
  repeat first | with_reducible assumption | with_reducible apply ok_writeByte | dsimp only | simp only [ok_mk] |
    with_reducible apply ok_wf | split

theorem ok_publishBytes (hw : Closed P) (a : Nat) (x1 : List Byte) (x2 : State) (h : Ok P x2) : Ok P (publishBytes a x1 x2) := by
  fun_induction publishBytes a x1 x2
  all_goals
    repeat first | with_reducible assumption | with_reducible refine ok_mp (by assumption) ?_ | with_reducible apply ok_publish

theorem ok_mustSee (a n : Nat) (s : State) (gid : Nat) (h : Ok P s) : Ok P (mustSee a n s gid) := by
  unfold mustSee
  repeat first | with_reducible assumption | with_reducible apply ok_modGroup

theorem ok_publishAtOnce (hw : Closed P) (l : List (Nat × Byte)) (s : State) (h : Ok P s) : Ok P (publishAtOnce l s) := by
  unfold publishAtOnce
  repeat first | with_reducible assumption | intro _ | with_reducible apply ok_writeByte | with_reducible apply ok_foldl | dsimp only |
    simp only [ok_mk] | with_reducible apply ok_wf | split

theorem ok_coreFinds (s : State) (c a m : Nat) (h : Ok P s) : Ok P (coreFinds s c a m) := by
  unfold coreFinds
  repeat first | with_reducible assumption | with_reducible apply ok_modCore

theorem ok_coreSees (s : State) (c a : Nat) (h : Ok P s) : Ok P (coreSees s c a) := by
  unfold coreSees
  exact ok_coreFinds _ _ _ _ h

theorem ok_publishAt (hw : Closed P) (s : State) (c a : Nat) (b : Byte) (h : Ok P s) : Ok P (publishAt s c a b) := by
  unfold publishAt
  repeat first | with_reducible assumption | intro _ | with_reducible apply ok_publish | with_reducible apply ok_modCore |
    with_reducible apply ok_mustSee | with_reducible apply ok_coreSees | with_reducible apply ok_foldl | dsimp only | split

theorem ok_publishAtAll (hw : Closed P) (c a : Nat) (x2 : List Byte) (x3 : State) (h : Ok P x3) : Ok P (publishAtAll c a x2 x3) := by
  fun_induction publishAtAll c a x2 x3
  all_goals
    repeat first | with_reducible assumption | with_reducible refine ok_mp (by assumption) ?_ | with_reducible apply ok_publishAt

theorem ok_publishOwn (hw : Closed P) (s : State) (gid a : Nat) (bs : List Byte) (h : Ok P s) : Ok P (publishOwn s gid a bs) := by
  unfold publishOwn
  repeat first | with_reducible assumption | with_reducible apply ok_mustSee | with_reducible apply ok_publishAtAll

theorem ok_pend (s : State) (c gid a : Nat) (b : Byte) (h : Ok P s) : Ok P (pend s c gid a b) := by
  unfold pend
  repeat first | with_reducible assumption | with_reducible apply ok_modCore

theorem ok_publishPend (hw : Closed P) (s : State) (c a : Nat) (h : Ok P s) : Ok P (publishPend s c a) := by
  unfold publishPend
  repeat first | with_reducible assumption | with_reducible apply ok_publishAt | split

theorem ok_noteLoaded (s : State) (c a : Nat) (h : Ok P s) : Ok P (noteLoaded s c a) := by
  unfold noteLoaded
  repeat first | with_reducible assumption | with_reducible apply ok_modCore | split

theorem ok_leaveWriters (s : State) (gid : Nat) (h : Ok P s) : Ok P (leaveWriters s gid) := by
  unfold leaveWriters
  repeat first | with_reducible assumption | with_reducible apply ok_modCore

theorem ok_publishList (hw : Closed P) (c : Nat) (x1 : List (Nat × Pend)) (x2 : State) (h : Ok P x2) : Ok P (publishList c x1 x2) := by
  fun_induction publishList c x1 x2
  all_goals
    repeat first | with_reducible assumption | with_reducible refine ok_mp (by assumption) ?_ | with_reducible apply ok_publishPend

theorem ok_publishGrid (hw : Closed P) (s : State) (tk : Nat) (h : Ok P s) : Ok P (publishGrid s tk) := by
  unfold publishGrid
  repeat first | with_reducible assumption | intro _ | with_reducible apply ok_publishList | with_reducible apply ok_foldl

theorem ok_publishHomes (hw : Closed P) (s : State) (c : Nat) (covers : Nat → Bool) (h : Ok P s) : Ok P (publishHomes s c covers) := by
  unfold publishHomes
  repeat first | with_reducible assumption | with_reducible apply ok_publishList

theorem ok_publishAll (hw : Closed P) (s : State) (h : Ok P s) : Ok P (publishAll s) := by
  unfold publishAll
  repeat first | with_reducible assumption | intro _ | with_reducible apply ok_publishHomes | with_reducible apply ok_foldl

theorem ok_loadSp (s : State) (c placed : Nat) (own : List (Nat × Nat × Nat)) (a : Nat) (h : Ok P s) : Ok P (loadSp s c placed own a).2 :=
    by
  unfold loadSp
  repeat first | with_reducible assumption | with_reducible apply ok_noteLoaded | with_reducible apply ok_coreSees |
    with_reducible apply ok_coreFinds | dsimp only | split

theorem ok_refreshHomes (s : State) (c : Nat) (homes : List Nat) (h : Ok P s) : Ok P (refreshHomes s c homes) := by
  unfold refreshHomes
  repeat first | with_reducible assumption | with_reducible apply ok_modCore

theorem ok_refreshRange (s : State) (c a n : Nat) (h : Ok P s) : Ok P (refreshRange s c a n) := by
  unfold refreshRange
  repeat first | with_reducible assumption | with_reducible apply ok_modCore

/-! Ops. -/

theorem ok_publishScope (hw : Closed P) (s : State) (g : Group) (gid : Nat) (sc : Scope) (h : Ok P s) : Ok P (publishScope s g gid sc) :=
    by
  unfold publishScope
  repeat first | with_reducible assumption | with_reducible apply ok_publishHomes

theorem ok_refreshScope (s : State) (g : Group) (gid : Nat) (sc : Scope) (h : Ok P s) : Ok P (refreshScope s g gid sc) := by
  unfold refreshScope
  repeat first | with_reducible assumption | with_reducible apply ok_refreshHomes

theorem ok_launchOp (s : State) (gid : Nat) (p : Path) (op : FOp) (h : Ok P s) : Ok P (launchOp s gid p op).2 := by
  unfold launchOp
  repeat first | with_reducible assumption | with_reducible apply ok_fresh | with_reducible apply ok_modGroup

theorem ok_settleGate (s : State) (gid id : Nat) (h : Ok P s) : Ok P (settleGate s gid id) := by
  unfold settleGate
  repeat first | with_reducible assumption | with_reducible apply ok_modGroup | with_reducible apply ok_refreshScope | split

theorem ok_acquireNow (s : State) (gid : Nat) (bar : Option Nat) (sc : Scope) (h : Ok P s) : Ok P (acquireNow s gid bar sc) := by
  unfold acquireNow
  repeat first | with_reducible assumption | intro _ | with_reducible apply ok_refreshScope | with_reducible apply ok_refreshRange |
    with_reducible apply ok_foldl | dsimp only | split

theorem ok_settleAcq (s : State) (gid : Nat) (h : Ok P s) : Ok P (settleAcq s gid) := by
  unfold settleAcq
  repeat first | with_reducible assumption | intro _ | with_reducible apply ok_modGroup | with_reducible apply ok_acquireNow |
    with_reducible apply ok_foldl | dsimp only | split

theorem ok_opDone (s : State) (gid id : Nat) (h : Ok P s) : Ok P (opDone s gid id) := by
  unfold opDone
  repeat first | with_reducible assumption | with_reducible apply ok_settleAcq | with_reducible apply ok_settleGate |
    with_reducible apply ok_modGroup

theorem ok_report (s : State) (ws : List Word) (h : Ok P s) : Ok P (report s ws) := by
  unfold report
  repeat first | with_reducible assumption | simp only [ok_mk] | with_reducible apply ok_wf

theorem ok_postMsg (s : State) (n : Nat) (m : List Word) (h : Ok P s) : Ok P (postMsg s n m) := by
  unfold postMsg
  repeat first | with_reducible assumption | dsimp only | simp only [ok_mk] | with_reducible apply ok_wf | split

theorem ok_answerFrom (s : State) (core sender type : Nat) (tag : Word) (status : Nat) (res : List Word) (h : Ok P s) : Ok P (answerFrom s
    core sender type tag status res) := by
  unfold answerFrom
  repeat first | with_reducible assumption | with_reducible apply ok_postMsg | split

theorem ok_answer (s : State) (sender type : Nat) (tag : Word) (status : Nat) (res : List Word) (h : Ok P s) : Ok P (answer s sender type
    tag status res) := by
  unfold answer
  repeat first | with_reducible assumption | with_reducible apply ok_answerFrom

theorem ok_errorRecord (s : State) (ecause die sid ggid addr queue status : Nat) (pseq : Word) (h : Ok P s) : Ok P (errorRecord s ecause
    die sid ggid addr queue status pseq) := by
  unfold errorRecord
  repeat first | with_reducible assumption | with_reducible apply ok_postMsg | dsimp only | simp only [ok_mk] | with_reducible apply ok_wf |
    split

theorem ok_fire (s : State) (src gid : Nat) (missed : Bool) (h : Ok P s) : Ok P (fire s src gid missed) := by
  unfold fire
  repeat first | with_reducible assumption | dsimp only | simp only [ok_mk] | with_reducible apply ok_wf

theorem ok_trigger (s : State) (src gid : Nat) (h : Ok P s) : Ok P (trigger s src gid) := by
  unfold trigger
  repeat first | with_reducible assumption | with_reducible apply ok_fire | dsimp only | simp only [ok_mk] | with_reducible apply ok_wf |
    split

theorem ok_unYield (s : State) (gs : List Nat) (h : Ok P s) : Ok P (unYield s gs) := by
  unfold unYield
  repeat first | with_reducible assumption | dsimp only | simp only [ok_mk] | with_reducible apply ok_wf

theorem ok_freezeCluster (s : State) (cl gid : Nat) (h : Ok P s) : Ok P (freezeCluster s cl gid) := by
  unfold freezeCluster
  repeat first | with_reducible assumption | with_reducible apply ok_modCluster | with_reducible apply ok_trigger |
    with_reducible apply ok_unYield

theorem ok_releaseGroups (tid : Nat) (t : Team) (n : Nat) (eng : Bool) (x4 : List Nat) (x5 : State) (h : Ok P x5) : Ok P (releaseGroups
    tid t n eng x4 x5) := by
  fun_induction releaseGroups tid t n eng x4 x5
  all_goals
    repeat first | with_reducible assumption | with_reducible refine ok_mp (by assumption) ?_ | with_reducible apply ok_settleAcq |
      with_reducible apply ok_modGroup

theorem ok_barEvent (s : State) (tid n : Nat) (k : Bar → Bar) (h : Ok P s) : Ok P (barEvent s tid n k) := by
  unfold barEvent
  repeat first | with_reducible assumption | with_reducible apply ok_releaseGroups | with_reducible apply ok_count | dsimp only |
    simp only [ok_mk] | with_reducible apply ok_wf | split

theorem ok_arriveLanes (s : State) (tid n k : Nat) (h : Ok P s) : Ok P (arriveLanes s tid n k) := by
  unfold arriveLanes
  repeat first | with_reducible assumption | with_reducible apply ok_barEvent

theorem ok_arriveBytes (s : State) (tid n k : Nat) (h : Ok P s) : Ok P (arriveBytes s tid n k) := by
  unfold arriveBytes
  repeat first | with_reducible assumption | with_reducible apply ok_barEvent

theorem ok_arriveEngine (s : State) (tid n : Nat) (h : Ok P s) : Ok P (arriveEngine s tid n) := by
  unfold arriveEngine
  repeat first | with_reducible assumption | with_reducible apply ok_barEvent

theorem ok_lowerAll (tid k x2 : Nat) (x3 : State) (h : Ok P x3) : Ok P (lowerAll tid k x2 x3) := by
  fun_induction lowerAll tid k x2 x3
  all_goals
    repeat first | with_reducible assumption | with_reducible refine ok_mp (by assumption) ?_ | with_reducible apply ok_barEvent

theorem ok_resumeGbar (w W : Nat) (x2 : List (Nat × Group)) (x3 : State) (h : Ok P x3) : Ok P (resumeGbar w W x2 x3) := by
  fun_induction resumeGbar w W x2 x3
  all_goals
    repeat first | with_reducible assumption | with_reducible refine ok_mp (by assumption) ?_ | with_reducible apply ok_settleAcq |
      with_reducible apply ok_modGroup

theorem ok_checkGbar (s : State) (tk : Nat) (h : Ok P s) : Ok P (checkGbar s tk) := by
  unfold checkGbar
  repeat first | with_reducible assumption | intro _ | with_reducible apply ok_modGroup | with_reducible apply ok_resumeGbar |
    with_reducible apply ok_modTask | with_reducible apply ok_foldl | dsimp only | split

theorem ok_setGrowQueue (s : State) (quad : Nat) (l : List Nat) (h : Ok P s) : Ok P (setGrowQueue s quad l) := by
  unfold setGrowQueue
  repeat first | with_reducible assumption | with_reducible apply ok_modCore

theorem ok_leaveGrow (s : State) (gid : Nat) (h : Ok P s) : Ok P (leaveGrow s gid) := by
  unfold leaveGrow
  repeat first | with_reducible assumption | with_reducible apply ok_setGrowQueue

theorem ok_endGrow (s : State) (gid d fid : Nat) (v : Word) (h : Ok P s) : Ok P (endGrow s gid d fid v) := by
  unfold endGrow
  repeat first | with_reducible assumption | with_reducible apply ok_modGroup | with_reducible apply ok_leaveGrow

theorem ok_denyGrow (x0 x1 : Nat) (x2 : State) (h : Ok P x2) : Ok P (denyGrow x0 x1 x2) := by
  fun_induction denyGrow x0 x1 x2
  all_goals
    repeat first | with_reducible assumption | with_reducible refine ok_mp (by assumption) ?_ | with_reducible apply ok_endGrow

theorem ok_checkGrow (s : State) (quad : Nat) (h : Ok P s) : Ok P (checkGrow s quad) := by
  unfold checkGrow
  repeat first | with_reducible assumption | with_reducible apply ok_denyGrow

theorem ok_retireCluster (s : State) (cl : Nat) (h : Ok P s) : Ok P (retireCluster s cl) := by
  unfold retireCluster
  repeat first | with_reducible assumption | with_reducible apply ok_modTask | simp only [ok_mk] | with_reducible apply ok_wf | split

theorem ok_retireTeam (s : State) (tid : Nat) (h : Ok P s) : Ok P (retireTeam s tid) := by
  unfold retireTeam
  repeat first | with_reducible assumption | with_reducible apply ok_retireCluster | with_reducible apply ok_modTeam | split

theorem ok_abandonSample (s : State) (gid id : Nat) (h : Ok P s) : Ok P (abandonSample s gid id) := by
  unfold abandonSample
  repeat first | with_reducible assumption | with_reducible apply ok_modCore | dsimp only | split

theorem ok_completeParked (x0 : List Req) (x1 : State) (h : Ok P x1) : Ok P (completeParked x0 x1) := by
  fun_induction completeParked x0 x1
  all_goals
    repeat first | with_reducible assumption | with_reducible refine ok_mp (by assumption) ?_ | with_reducible apply ok_opDone |
      with_reducible apply ok_abandonSample | simp only [ok_mk] | with_reducible apply ok_wf

theorem ok_stopGroups (x0 : List Nat) (x1 : State) (h : Ok P x1) : Ok P (stopGroups x0 x1) := by
  fun_induction stopGroups x0 x1
  all_goals
    repeat first | with_reducible assumption | with_reducible refine ok_mp (by assumption) ?_ | with_reducible apply ok_checkGrow |
      with_reducible apply ok_modGroup | with_reducible apply ok_leaveGrow

theorem ok_stopTeams (x0 : List Nat) (x1 : State) (h : Ok P x1) : Ok P (stopTeams x0 x1) := by
  fun_induction stopTeams x0 x1
  all_goals
    repeat first | with_reducible assumption | with_reducible refine ok_mp (by assumption) ?_ | with_reducible apply ok_modTeam

theorem ok_thawTeams (s : State) (ts : List Nat) (h : Ok P s) : Ok P (thawTeams s ts) := by
  unfold thawTeams
  repeat first | with_reducible assumption | dsimp only | simp only [ok_mk] | with_reducible apply ok_wf

theorem ok_stopWork (s : State) (gs ts : List Nat) (h : Ok P s) : Ok P (stopWork s gs ts) := by
  unfold stopWork
  repeat first | with_reducible assumption | intro _ | with_reducible apply ok_retireTeam | with_reducible apply ok_stopTeams |
    with_reducible apply ok_stopGroups | with_reducible apply ok_completeParked | with_reducible apply ok_thawTeams |
    with_reducible apply ok_foldl | simp only [ok_mk] | with_reducible apply ok_wf

theorem ok_dropTasks (s : State) (c : Nat) (h : Ok P s) : Ok P (dropTasks s c) := by
  unfold dropTasks
  repeat first | with_reducible assumption | dsimp only | simp only [ok_mk] | with_reducible apply ok_wf

theorem ok_unparkHub (s : State) (c : Nat) (h : Ok P s) : Ok P (unparkHub s c) := by
  unfold unparkHub
  repeat first | with_reducible assumption | dsimp only | simp only [ok_mk] | with_reducible apply ok_wf

theorem ok_dropReds (s : State) (c : Nat) (h : Ok P s) : Ok P (dropReds s c) := by
  unfold dropReds
  repeat first | with_reducible assumption | simp only [ok_mk] | with_reducible apply ok_wf

theorem ok_stopCmd (s : State) (c : Nat) (h : Ok P s) : Ok P (stopCmd s c) := by
  unfold stopCmd
  repeat first | with_reducible assumption | with_reducible apply ok_dropTasks | with_reducible apply ok_unparkHub |
    with_reducible apply ok_stopWork

theorem ok_faultCmd (s : State) (c : Nat) (e : EndInfo) (h : Ok P s) : Ok P (faultCmd s c e) := by
  unfold faultCmd
  repeat first | with_reducible assumption | with_reducible apply ok_dropReds | with_reducible apply ok_stopCmd |
    with_reducible apply ok_modCmd | with_reducible apply ok_trigger | dsimp only | simp only [ok_mk] | with_reducible apply ok_wf | split

theorem ok_faultTask (s : State) (tk cause : Nat) (tpc : Word) (gid : Nat) (h : Ok P s) : Ok P (faultTask s tk cause tpc gid) := by
  unfold faultTask
  exact ok_faultCmd _ _ _ h

theorem ok_faultGroup (s : State) (gid cause : Nat) (tpc : Word) (h : Ok P s) : Ok P (faultGroup s gid cause tpc) := by
  unfold faultGroup
  repeat first | with_reducible assumption | with_reducible apply ok_faultTask | dsimp only | split

theorem ok_releaseRdzv (tid : Nat) (x1 : List Nat) (x2 : State) (h : Ok P x2) : Ok P (releaseRdzv tid x1 x2) := by
  fun_induction releaseRdzv tid x1 x2
  all_goals
    repeat first | with_reducible assumption | with_reducible refine ok_mp (by assumption) ?_ | with_reducible apply ok_modGroup

theorem ok_seqIdle (s : State) (tid : Nat) (h : Ok P s) : Ok P (seqIdle s tid) := by
  unfold seqIdle
  repeat first | with_reducible assumption | with_reducible apply ok_releaseRdzv | with_reducible apply ok_modTeam | split

theorem ok_faultTeam (s : State) (tid : Nat) (cause : Cause) (pc : Word) (h : Ok P s) : Ok P (faultTeam s tid cause pc) := by
  unfold faultTeam
  repeat first | with_reducible assumption | with_reducible apply ok_faultTask | dsimp only | split

theorem ok_teamExiting (s : State) (tid : Nat) (h : Ok P s) : Ok P (teamExiting s tid) := by
  unfold teamExiting
  repeat first | with_reducible assumption | with_reducible apply ok_faultTeam | with_reducible apply ok_seqIdle |
    with_reducible apply ok_modTeam | split

theorem ok_retire (s : State) (gid : Nat) (m : Mask) (h : Ok P s) : Ok P (retire s gid m) := by
  unfold retire
  repeat first | with_reducible assumption | with_reducible apply ok_lowerAll | with_reducible apply ok_checkGrow |
    with_reducible apply ok_teamExiting | with_reducible apply ok_checkGbar | dsimp only | simp only [ok_mk] |
    with_reducible apply ok_wf | split

theorem ok_trapEntry (s : State) (gid fid : Nat) (cause : Cause) (tc tpc mpc : Word) (h : Ok P s) : Ok P (trapEntry s gid fid cause tc tpc
    mpc) := by
  unfold trapEntry
  repeat first | with_reducible assumption | with_reducible apply ok_modGroup | with_reducible apply ok_retire |
    with_reducible apply ok_faultGroup | dsimp only | split

theorem ok_takeTrap (s : State) (gid fid : Nat) (cause : Cause) (code : Nat) (tpc : Word) (h : Ok P s) : Ok P (takeTrap s gid fid cause
    code tpc) := by
  unfold takeTrap
  repeat first | with_reducible assumption | with_reducible apply ok_trapEntry

theorem ok_takeSeqFault (s : State) (gid fid : Nat) (x : SeqFault) (tpc : Word) (h : Ok P s) : Ok P (takeSeqFault s gid fid x tpc) := by
  unfold takeSeqFault
  repeat first | with_reducible assumption | with_reducible apply ok_trapEntry

theorem ok_seqStop (s : State) (tid : Nat) (cause : Cause) (step : Nat) (pc : Word) (h : Ok P s) : Ok P (seqStop s tid cause step pc) :=
    by
  unfold seqStop
  repeat first | with_reducible assumption | with_reducible apply ok_seqIdle | with_reducible apply ok_faultTeam |
    with_reducible apply ok_takeSeqFault | with_reducible apply ok_modTeam | dsimp only | split

theorem ok_seqFault (s : State) (tid : Nat) (cause : Cause) (step : Nat) (pc : Word) (h : Ok P s) : Ok P (seqFault s tid cause step pc) :=
    by
  unfold seqFault
  repeat first | with_reducible assumption | with_reducible apply ok_retireTeam | with_reducible apply ok_seqStop

theorem ok_setPark (s : State) (gid fid : Nat) (p : Park) (h : Ok P s) : Ok P (setPark s gid fid p) := by
  unfold setPark
  repeat first | with_reducible assumption | with_reducible apply ok_modGroup

theorem ok_countRamp (s : State) (c : Nat) (h : Ok P s) : Ok P (countRamp s c) := by
  unfold countRamp
  repeat first | with_reducible assumption | with_reducible apply ok_modCore | with_reducible apply ok_count | dsimp only | split

theorem ok_coreIssues (s : State) (c : Nat) (h : Ok P s) : Ok P (coreIssues s c) := by
  unfold coreIssues
  repeat first | with_reducible assumption | with_reducible apply ok_modCore | with_reducible apply ok_countRamp

theorem ok_issued (s : State) (c : Ctx) (h : Ok P s) : Ok P (issued s c) := by
  unfold issued
  repeat first | with_reducible assumption | with_reducible apply ok_modGroup | with_reducible apply ok_coreIssues |
    with_reducible apply ok_count | dsimp only | simp only [ok_mk] | with_reducible apply ok_wf

theorem ok_finish (c : Ctx) (e : Eff) (h : OkEff P e) : Ok P (finish c e) := by
  cases e <;> simp only [OkEff] at h <;> unfold finish
  · exact ok_issued _ _ (ok_modGroup _ _ _ h)
  · exact ok_issued _ _ (ok_modGroup _ _ _ h)
  · exact ok_issued _ _ (ok_setPark _ _ _ _ (ok_modGroup _ _ _ h))
  · exact ok_setPark _ _ _ _ h
  · exact ok_takeTrap _ _ _ _ _ _ h
  · exact ok_takeSeqFault _ _ _ _ _ h
  · exact ok_issued _ _ h
  · exact h

theorem ok_sampled (i : Instr) (c : Ctx) (s : State) (h : Ok P s) : Ok P (sampled i c s) := by
  unfold sampled
  repeat first | with_reducible assumption | with_reducible apply ok_modCore | dsimp only | simp only [ok_mk] | with_reducible apply ok_wf |
    split

theorem ok_endWord (i : Instr) (c : Ctx) (e : Eff) (h : OkEff P (e)) : Ok P (endWord i c e) := by
  unfold endWord
  repeat first | with_reducible assumption | with_reducible apply ok_sampled | with_reducible apply ok_finish | split

theorem ok_word (i : Instr) (s : State) (k : Ctx → Eff) (h1 : Ok P s) (h2 : ∀ y0, OkEff P (k y0)) : OkOut P (word i s k) := by
  unfold word
  repeat first | with_reducible assumption | with_reducible apply h2 | with_reducible apply ok_endWord | with_reducible apply ok_next |
    with_reducible apply ok_fault | with_reducible apply eff_trap | split

theorem ok_onGroup (s : State) (c : Ctx) (k : Group → Group) (h : Ok P s) : OkEff P (onGroup s c k) := by
  unfold onGroup
  repeat first | with_reducible assumption | with_reducible apply ok_modGroup | with_reducible apply eff_ok

/-! Trans. -/

theorem ok_fillL1 (s : State) (core : Nat) (t : Tlb) (h : Ok P s) : Ok P (fillL1 s core t) := by
  unfold fillL1
  repeat first | with_reducible assumption | with_reducible apply ok_modCore

theorem ok_fillL2 (s : State) (die : Nat) (t : Tlb) (h : Ok P s) : Ok P (fillL2 s die t) := by
  unfold fillL2
  repeat first | with_reducible assumption | with_reducible apply ok_modDie

theorem ok_fillWalk (s : State) (die : Nat) (w : WalkEnt) (h : Ok P s) : Ok P (fillWalk s die w) := by
  unfold fillWalk
  repeat first | with_reducible assumption | with_reducible apply ok_modDie

theorem ok_lookup (s : State) (core : Option Nat) (die sid page : Nat) (h : Ok P s) : Ok P (lookup s core die sid page).2 := by
  unfold lookup
  repeat first | with_reducible assumption | with_reducible apply ok_fillL1 | dsimp only | split

theorem ok_sampleParked (s : State) (gid id : Nat) (h : Ok P s) : Ok P (sampleParked s gid id) := by
  unfold sampleParked
  repeat first | with_reducible assumption | with_reducible apply ok_modCore | dsimp only | split

theorem ok_noteParked (s : State) (r : Req) (h : Ok P s) : Ok P (noteParked s r) := by
  unfold noteParked
  repeat first | with_reducible assumption | with_reducible apply ok_count | with_reducible apply ok_sampleParked | dsimp only | split

theorem ok_request (s : State) (die : Nat) (r : Req) (h : Ok P s) : Ok P (request s die r) := by
  unfold request
  repeat first | with_reducible assumption | with_reducible apply ok_noteParked | with_reducible apply ok_modDie | split

theorem ok_requestOnce (s : State) (die : Nat) (r : Req) (h : Ok P s) : Ok P (requestOnce s die r) := by
  unfold requestOnce
  repeat first | with_reducible assumption | with_reducible apply ok_request | split

theorem ok_lookCounted (s : State) (core : Option Nat) (die sid page : Nat) (h : Ok P s) : Ok P (lookCounted s core die sid page).2 := by
  unfold lookCounted
  repeat first | with_reducible assumption | with_reducible apply ok_count | with_reducible apply ok_lookup | split

theorem ok_translate (s : State) (core sid page : Nat) (h : Ok P s) : Ok P (Machine.translate s core sid page).2 := by
  unfold Machine.translate
  exact ok_lookCounted _ _ _ _ _ h

theorem ok_lookPages (core sid : Nat) (kind : AKind) (key a n : Nat) (x6 : List Nat) (x7 : Look × State) (h : Ok P (x7).2) : Ok P
    (lookPages core sid kind key a n x6 x7).2 := by
  fun_induction lookPages core sid kind key a n x6 x7
  all_goals
    repeat first | with_reducible assumption | with_reducible refine ok_mp (by assumption) ?_ | with_reducible apply ok_translate |
      with_reducible refine ok_snd (by assumption) ?_

theorem ok_lookRanges (core sid : Nat) (kind : AKind) (key : Nat) (x4 : List (Nat × Nat)) (x5 : Look × State) (h : Ok P (x5).2) : Ok P
    (lookRanges core sid kind key x4 x5).2 := by
  fun_induction lookRanges core sid kind key x4 x5
  all_goals
    repeat first | with_reducible assumption | with_reducible refine ok_mp (by assumption) ?_ | with_reducible apply ok_lookPages

theorem ok_tagFault (s : State) (sid gid eng : Nat) (precise : Bool) (va key : Nat) (lock : BitVec 4) (h : Ok P s) : Ok P (tagFault s sid
    gid eng precise va key lock) := by
  unfold tagFault
  repeat first | with_reducible assumption | dsimp only | simp only [ok_mk] | with_reducible apply ok_wf | split

theorem ok_leaveWalks (s : State) (gid tk : Nat) (h : Ok P s) : Ok P (leaveWalks s gid tk) := by
  unfold leaveWalks
  exact ok_wf h

/-! Operands. -/

theorem ok_vecWord (i : Instr) (s : State) (names : Group → List Int) (k : Frag → Group → Group) (h : Ok P s) : OkOut P (Machine.vecWord i
    s names k) := by
  unfold Machine.vecWord
  repeat first | with_reducible assumption | intro _ | with_reducible apply ok_word | with_reducible apply ok_onGroup |
    with_reducible apply eff_trap | split

/-! Flags. -/

theorem ok_clearFault (s : State) (g : Group) (h : Ok P s) : Ok P (clearFault s g) := by
  unfold clearFault
  repeat first | with_reducible assumption | with_reducible apply ok_modTeam

theorem ok_deliveryPoint (s : State) (c : Ctx) (ps : List Path) (kind : DrainKind) (k : Eff) (h0 : Ok P s) (h4 : OkEff P (k)) : OkEff P
    (deliveryPoint s c ps kind k) := by
  unfold deliveryPoint
  repeat first | with_reducible assumption | with_reducible apply ok_clearFault | with_reducible apply eff_wait |
    with_reducible apply eff_trap | with_reducible apply eff_seqFault | split

/-! Replay. -/

theorem ok_shareUsed (base used : Nat) (s : State) (h : Ok P s) : Ok P (shareUsed base used s) := by
  unfold shareUsed
  repeat first | with_reducible assumption | dsimp only | simp only [ok_mk] | with_reducible apply ok_wf

theorem ok_writeChunk (hw : Closed P) (r : Recording) (x : LogStream) (s : State) (h : Ok P s) : Ok P (writeChunk r x s).2 := by
  unfold writeChunk
  have hb (f : Nat → Loc) (bs : List Byte) := ok_writeBytes hw s f bs h
  repeat first | with_reducible assumption | with_reducible apply ok_report | with_reducible apply ok_shareUsed | dsimp only | split |
    exact ok_wf (hb _ _)

theorem ok_emitChunk (hw : Closed P) (x : LogStream) (r : Recording) (s : State) (h : Ok P s) : Ok P (emitChunk x r s).2.2 := by
  unfold emitChunk
  repeat first | with_reducible assumption | with_reducible apply ok_writeChunk

theorem ok_addEntry (hw : Closed P) (ws : List Word) (x : LogStream) (r : Recording) (s : State) (h : Ok P s) : Ok P (addEntry ws x r
    s).2.2 := by
  unfold addEntry
  repeat first | with_reducible assumption | with_reducible apply ok_emitChunk | dsimp only | split

theorem ok_addRun (hw : Closed P) (gid : Nat) (x : LogStream) (r : Recording) (s : State) (h : Ok P s) : Ok P (addRun gid x r s).2.2 := by
  unfold addRun
  repeat first | with_reducible assumption | with_reducible apply ok_emitChunk | with_reducible apply ok_addEntry | dsimp only | split

theorem ok_onStream (s : State) (cmd kind core bank : Nat) (k : LogStream →   Recording →     State → LogStream × Recording × State) (h0 :
    Ok P s) (h5 : ∀ y0 y1 y2, Ok P y2 → Ok P (k y0 y1 y2).2.2) : Ok P (onStream s cmd kind core bank k) := by
  unfold onStream
  repeat first | with_reducible assumption | with_reducible apply h5 | with_reducible apply ok_modCmd | dsimp only | split

theorem ok_flushStreams (hw : Closed P) (x0 : List LogStream) (x1 : Recording) (x2 : State) (h : Ok P x2) : Ok P (flushStreams x0 x1 x2).2
    := by
  fun_induction flushStreams x0 x1 x2
  all_goals
    repeat first | with_reducible assumption | with_reducible refine ok_mp (by assumption) ?_ | with_reducible apply ok_writeChunk |
      with_reducible refine ok_snd (by assumption) ?_ | split

theorem ok_closeRecording (hw : Closed P) (s : State) (cmd : Nat) (h : Ok P s) : Ok P (closeRecording s cmd) := by
  unfold closeRecording
  repeat first | with_reducible assumption | with_reducible apply ok_flushStreams | with_reducible apply ok_modCmd | dsimp only | split

theorem ok_logAccess (hw : Closed P) (s : State) (cmd gid : Nat) (l : Loc) (h : Ok P s) : Ok P (logAccess s cmd gid l) := by
  unfold logAccess
  repeat first | with_reducible assumption | intro _ | with_reducible apply ok_onStream | with_reducible apply ok_addRun |
    with_reducible apply ok_modCmd | dsimp only | split

theorem ok_digestStore (s : State) (gid : Nat) (ws : List (Word × Word)) (h : Ok P s) : Ok P (digestStore s gid ws) := by
  unfold digestStore
  repeat first | with_reducible assumption | with_reducible apply ok_modGroup

theorem ok_digestHold (s : State) (gid id : Nat) (h : Ok P s) : Ok P (digestHold s gid id) := by
  unfold digestHold
  repeat first | with_reducible assumption | with_reducible apply ok_modGroup

theorem ok_digestFill (s : State) (gid id : Nat) (ws : List (Word × Word)) (h : Ok P s) : Ok P (digestFill s gid id ws) := by
  unfold digestFill
  repeat first | with_reducible assumption | with_reducible apply ok_modGroup

theorem ok_diverge (s : State) (cmd gid ord : Nat) (want found : Word) (h : Ok P s) : Ok P (diverge s cmd gid ord want found) := by
  unfold diverge
  repeat first | with_reducible assumption | intro _ | with_reducible apply ok_report | with_reducible apply ok_modCmd |
    with_reducible apply ok_freezeCluster | with_reducible apply ok_foldl

theorem ok_eventAt (hw : Closed P) (s : State) (gid n : Nat) (lanes : Mask) (h : Ok P s) : Ok P (eventAt s gid n lanes).2 := by
  unfold eventAt
  repeat first | with_reducible assumption | intro _ | with_reducible apply ok_modGroup | with_reducible apply ok_diverge |
    with_reducible apply ok_modCmd | with_reducible apply ok_onStream | with_reducible apply ok_addEntry | dsimp only | split

theorem ok_withEvent (hw : Closed P) (s : State) (c : Ctx) (n : Nat) (k : State → Eff) (h0 : Ok P s) (h3 : ∀ y0, Ok P y0 → OkEff P (k y0))
    : OkEff P (withEvent s c n k) := by
  unfold withEvent
  repeat first | with_reducible assumption | with_reducible apply h3 | with_reducible apply ok_eventAt |
    with_reducible refine ok_snd (by assumption) ?_ | with_reducible apply eff_stand | split

end Sys2Proof.Laws
end

