-- ==== Sys2Proof/Laws/MemWords.lean ====
section
/-! SUPPORT. The words of groups change memory only by writing bytes. -/
set_option Elab.async false
namespace Sys2Proof.Laws
open Sys2Proof.Machine
set_option linter.unusedVariables false
set_option linter.unusedSimpArgs false
variable {P : List Host.Cell → Prop}

/-! MemI. -/

theorem ok_watched (s : State) (c : Ctx) (dsp : DSpace) (kinds : List AKind) (n : Nat) (as : List Nat) (k : Eff) (h0 : Ok P s) (h6 : OkEff
    P (k)) : OkEff P (watched s c dsp kinds n as k) := by
  unfold watched
  repeat first | with_reducible assumption | with_reducible apply ok_modGroup | with_reducible apply ok_report |
    with_reducible apply ok_freezeCluster | dsimp only | with_reducible apply eff_stand | split

theorem ok_direct (s : State) (c : Ctx) (path : Path) (dsp : DSpace) (kinds : List AKind) (al n : Nat) (as : List Nat) (k : Eff) (h0 : Ok
    P s) (h8 : OkEff P (k)) : OkEff P (direct s c path dsp kinds al n as k) := by
  unfold direct
  repeat first | with_reducible assumption | with_reducible apply ok_watched | with_reducible apply eff_wait |
    with_reducible apply eff_trap | split

theorem ok_directWrap (s : State) (c : Ctx) (path : Path) (dsp : DSpace) (kinds : List AKind) (n : Nat) (as : List Nat) (ok : Bool) (k :
    Eff) (h0 : Ok P s) (h8 : OkEff P (k)) : OkEff P (directWrap s c path dsp kinds n as ok k) := by
  unfold directWrap
  repeat first | with_reducible assumption | with_reducible apply ok_direct | with_reducible apply eff_wait |
    with_reducible apply eff_trap | split

theorem ok_loadWord (i : Instr) (dsp : DSpace) (w : MemW) (d : BitVec 6) (b : BitVec 9) (m : AM) (s : State) (h : Ok P s) : OkOut P
    (loadWord i dsp w d b m s) := by
  unfold loadWord
  repeat first | with_reducible assumption | intro _ | with_reducible apply ok_word | with_reducible apply ok_directWrap |
    with_reducible apply ok_modGroup | with_reducible apply ok_launchOp | dsimp only | with_reducible apply eff_ok |
    with_reducible apply eff_trap | split

theorem ok_storeWord (i : Instr) (dsp : DSpace) (w : MemW) (d : BitVec 6) (b : BitVec 9) (m : AM) (s : State) (h : Ok P s) : OkOut P
    (storeWord i dsp w d b m s) := by
  unfold storeWord
  repeat first | with_reducible assumption | intro _ | with_reducible apply ok_word | with_reducible apply ok_launchOp |
    with_reducible apply ok_directWrap | with_reducible apply ok_modGroup | with_reducible apply ok_digestStore | dsimp only |
    with_reducible apply eff_ok | with_reducible apply eff_trap | split

theorem ok_execLds (w : MemW) (d : BitVec 6) (b : BitVec 9) (m : AM) (s : State) (h : Ok P s) : OkOut P (execLds w d b m s) := by
  unfold execLds
  repeat first | with_reducible assumption | with_reducible apply ok_loadWord

theorem ok_execSts (w : MemW) (d : BitVec 6) (b : BitVec 9) (m : AM) (s : State) (h : Ok P s) : OkOut P (execSts w d b m s) := by
  unfold execSts
  repeat first | with_reducible assumption | with_reducible apply ok_storeWord

theorem ok_execLdp (w : MemW) (d : BitVec 6) (b : BitVec 9) (m : AM) (s : State) (h : Ok P s) : OkOut P (execLdp w d b m s) := by
  unfold execLdp
  repeat first | with_reducible assumption | with_reducible apply ok_loadWord

theorem ok_execStp (w : MemW) (d : BitVec 6) (b : BitVec 9) (m : AM) (s : State) (h : Ok P s) : OkOut P (execStp w d b m s) := by
  unfold execStp
  repeat first | with_reducible assumption | with_reducible apply ok_storeWord

theorem ok_execSld (sp : Bool) (w : MemW) (d b : BitVec 9) (i : BitVec 5) (s : State) (h : Ok P s) : OkOut P (execSld sp w d b i s) := by
  unfold execSld
  repeat first | with_reducible assumption | intro _ | with_reducible apply ok_word | with_reducible apply ok_direct |
    with_reducible apply ok_launchOp | with_reducible apply eff_ok

theorem ok_execSst (sp : Bool) (w : MemW) (d b : BitVec 9) (i : BitVec 5) (s : State) (h : Ok P s) : OkOut P (execSst sp w d b i s) := by
  unfold execSst
  repeat first | with_reducible assumption | intro _ | with_reducible apply ok_word | with_reducible apply ok_direct |
    with_reducible apply ok_digestStore | with_reducible apply ok_launchOp | with_reducible apply eff_ok

theorem ok_leading (hw : Closed P) (s : State) (c : Ctx) (sc : Scope) (k : State → Eff) (h0 : Ok P s) (h3 : ∀ y0, Ok P y0 → OkEff P (k
    y0)) : OkEff P (leading s c sc k) := by
  unfold leading
  repeat first | with_reducible assumption | with_reducible apply h3 | with_reducible apply ok_publishScope |
    with_reducible apply eff_wait | split

theorem ok_holdGate (s : State) (gid id : Nat) (sc : Scope) (h : Ok P s) : Ok P (holdGate s gid id sc) := by
  unfold holdGate
  repeat first | with_reducible assumption | with_reducible apply ok_modGroup | split

theorem ok_atomicEff (hw : Closed P) (s : State) (c : Ctx) (op : AtomOp) (ss : SS) (ret vec : Bool) (d : Nat) (lanes : List (Nat × Nat ×
    Word × Word)) (h : Ok P s) : OkEff P (atomicEff s c op ss ret vec d lanes) := by
  unfold atomicEff
  repeat first | with_reducible assumption | intro _ | with_reducible apply ok_direct | with_reducible apply ok_leading |
    with_reducible apply ok_launchOp | with_reducible apply ok_digestHold | with_reducible apply ok_holdGate | dsimp only |
    with_reducible apply eff_ok | split

theorem ok_execAtom (hw : Closed P) (op : AtomOp) (ss : SS) (ret : Bool) (d : BitVec 6) (b : BitVec 9) (s : State) (h : Ok P s) : OkOut P
    (execAtom op ss ret d b s) := by
  unfold execAtom
  repeat first | with_reducible assumption | intro _ | with_reducible apply ok_word | with_reducible apply ok_atomicEff |
    with_reducible apply eff_trap | split

theorem ok_execAtoms (hw : Closed P) (op : AtomOp) (ss : SS) (ret : Bool) (d b : BitVec 9) (s : State) (h : Ok P s) : OkOut P (execAtoms
    op ss ret d b s) := by
  unfold execAtoms
  repeat first | with_reducible assumption | intro _ | with_reducible apply ok_word | with_reducible apply ok_atomicEff

theorem ok_execLdacq (ss : SS) (d b : BitVec 9) (i : BitVec 5) (s : State) (h : Ok P s) : OkOut P (execLdacq ss d b i s) := by
  unfold execLdacq
  repeat first | with_reducible assumption | intro _ | with_reducible apply ok_word | with_reducible apply ok_launchOp |
    with_reducible apply ok_direct | with_reducible apply ok_holdGate | with_reducible apply eff_ok

theorem ok_execStrel (hw : Closed P) (ss : SS) (d b : BitVec 9) (i : BitVec 5) (s : State) (h : Ok P s) : OkOut P (execStrel ss d b i s)
    := by
  unfold execStrel
  repeat first | with_reducible assumption | intro _ | with_reducible apply ok_word | with_reducible apply ok_direct |
    with_reducible apply ok_leading | with_reducible apply ok_digestStore | with_reducible apply ok_launchOp | with_reducible apply eff_ok

/-! Bulk. -/

theorem ok_unlessFail (s : State) (l : List (Bool × Cause)) (k : Eff) (h0 : Ok P s) (h2 : OkEff P (k)) : OkEff P (unlessFail s l k) := by
  unfold unlessFail
  repeat first | with_reducible assumption | with_reducible apply eff_trap | split

theorem ok_requestAll (die : Nat) (x1 : List Req) (x2 : State) (h : Ok P x2) : Ok P (requestAll die x1 x2) := by
  fun_induction requestAll die x1 x2
  all_goals
    repeat first | with_reducible assumption | with_reducible refine ok_mp (by assumption) ?_ | with_reducible apply ok_request

theorem ok_startBulk (s : State) (c : Ctx) (path : Path) (x : Bulk) (miss : List (Nat × AKind × Nat)) (h : Ok P s) : Ok P (startBulk s c
    path x miss).2 := by
  unfold startBulk
  repeat first | with_reducible assumption | with_reducible apply ok_fresh | with_reducible apply ok_launchOp |
    with_reducible apply ok_requestAll | simp only [ok_mk] | with_reducible apply ok_wf

theorem ok_bulkRoom (s : State) (c : Ctx) (path : Path) (k : Eff) (h0 : Ok P s) (h3 : OkEff P (k)) : OkEff P (bulkRoom s c path k) := by
  unfold bulkRoom
  repeat first | with_reducible assumption | with_reducible apply eff_wait | split

theorem ok_failsLate (s : State) (c : Ctx) (cause : Cause) (ecause va : Nat) (h : Ok P s) : OkEff P (failsLate s c cause ecause va) := by
  unfold failsLate
  repeat first | with_reducible assumption | with_reducible apply ok_faultGroup | with_reducible apply ok_errorRecord |
    with_reducible apply eff_stand

theorem ok_lateChecks (s : State) (c : Ctx) (eng key : Nat) (whole perm : Bool) (tag : Option (Nat × BitVec 4)) (forbidden : Bool) (k :
    State → Eff) (h0 : Ok P s) (h8 : ∀ y0, Ok P y0 → OkEff P (k y0)) : OkEff P (lateChecks s c eng key whole perm tag forbidden k) := by
  unfold lateChecks
  repeat first | with_reducible assumption | with_reducible apply h8 | with_reducible apply ok_tagFault |
    with_reducible apply ok_failsLate | dsimp only | with_reducible apply eff_trap | split

theorem ok_watchStop (s : State) (cl gid sid eng : Nat) (kind : AKind) (va n : Nat) (h : Ok P s) : Ok P (watchStop s cl gid sid eng kind
    va n) := by
  unfold watchStop
  repeat first | with_reducible assumption | with_reducible apply ok_report | with_reducible apply ok_freezeCluster | split

/-! Asy. -/

theorem ok_lookSide (s : State) (core sid code : Nat) (kind : AKind) (key : Nat) (rs : List Int) (n : Nat) (h : Ok P s) : Ok P (lookSide s
    core sid code kind key rs n).2 := by
  unfold lookSide
  repeat first | with_reducible assumption | with_reducible apply ok_lookRanges | split

theorem ok_rowCopy (s : State) (c : Ctx) (rel res : Bool) (bar : Option (BitVec 4)) (d : List Word) (h : Ok P s) : OkEff P (rowCopy s c
    rel res bar d) := by
  unfold rowCopy
  repeat first | with_reducible assumption | intro _ | with_reducible apply ok_unlessFail | with_reducible apply ok_lookSide |
    with_reducible apply ok_lateChecks | with_reducible apply ok_startBulk | dsimp only | with_reducible apply eff_ok

theorem ok_parkOnPages (s : State) (c : Ctx) (eng : Nat) (kind : AKind) (tag : Option (Nat × Nat × Nat)) (pages : List Nat) (h : Ok P s) :
    OkEff P (parkOnPages s c eng kind tag pages) := by
  unfold parkOnPages
  repeat first | with_reducible assumption | with_reducible apply ok_requestAll | dsimp only | with_reducible apply eff_wait

theorem ok_lookRecord (s : State) (core sid : Nat) (k : CopyD) (h : Ok P s) : Ok P (lookRecord s core sid k).2 := by
  unfold lookRecord
  repeat first | with_reducible assumption | with_reducible apply ok_lookRanges | split

theorem ok_lookElements (s : State) (core sid : Nat) (unread : Bool) (m : ScaleD) (h : Ok P s) : Ok P (lookElements s core sid unread m).2
    := by
  unfold lookElements
  repeat first | with_reducible assumption | with_reducible apply ok_lookRanges | split

theorem ok_scaleCopy (s : State) (c : Ctx) (rel res : Bool) (bar : Option (BitVec 4)) (d : List Word) (h : Ok P s) : OkEff P (scaleCopy s
    c rel res bar d) := by
  unfold scaleCopy
  repeat first | with_reducible assumption | intro _ | with_reducible apply ok_lookRecord | with_reducible apply ok_parkOnPages |
    with_reducible apply ok_failsLate | with_reducible apply ok_watchStop | with_reducible apply ok_unlessFail |
    with_reducible apply ok_lookElements | with_reducible apply ok_lateChecks | with_reducible apply ok_startBulk | dsimp only |
    with_reducible apply eff_ok | with_reducible apply eff_trap | split

theorem ok_execCpy (rel res : Bool) (d : BitVec 9) (bar : Option (BitVec 4)) (s : State) (h : Ok P s) : OkOut P (execCpy rel res d bar s)
    := by
  unfold execCpy
  repeat first | with_reducible assumption | intro _ | with_reducible apply ok_word | with_reducible apply ok_bulkRoom |
    with_reducible apply ok_scaleCopy | with_reducible apply ok_rowCopy | split

theorem ok_execCpymc (rel : Bool) (d x : BitVec 9) (bar : Option (BitVec 4)) (s : State) (h : Ok P s) : OkOut P (execCpymc rel d x bar s)
    := by
  unfold execCpymc
  repeat first | with_reducible assumption | intro _ | with_reducible apply ok_word | with_reducible apply ok_bulkRoom |
    with_reducible apply ok_unlessFail | with_reducible apply ok_lookSide | with_reducible apply ok_lateChecks |
    with_reducible apply ok_startBulk | dsimp only | with_reducible apply eff_ok

theorem ok_execCpyred (rel : Bool) (d x : BitVec 9) (bar : Option (BitVec 4)) (s : State) (h : Ok P s) : OkOut P (execCpyred rel d x bar
    s) := by
  unfold execCpyred
  repeat first | with_reducible assumption | intro _ | with_reducible apply ok_word | with_reducible apply ok_bulkRoom |
    with_reducible apply ok_unlessFail | with_reducible apply ok_startBulk | dsimp only | with_reducible apply eff_ok

theorem ok_lookLanes (core sid : Nat) (kind : AKind) (rb : Nat) (x4 : List LaneMove) (x5 : State) (h : Ok P x5) : Ok P (lookLanes core sid
    kind rb x4 x5).2 := by
  fun_induction lookLanes core sid kind rb x4 x5
  all_goals
    repeat first | with_reducible assumption | with_reducible refine ok_mp (by assumption) ?_ | with_reducible apply ok_lookRanges |
      with_reducible refine ok_snd (by assumption) ?_

theorem ok_laneLate (s : State) (c : Ctx) (ws : List Word) (eng : Nat) (kind : AKind) (all : Bool) (forbidden : State → Bool) (k : List
    (LaneMove × Look) → State → Eff) (h0 : Ok P s) (h7 : ∀ y0 y1, Ok P y1 → OkEff P (k y0 y1)) : OkEff P (laneLate s c ws eng kind all
    forbidden k) := by
  unfold laneLate
  repeat first | with_reducible assumption | intro _ | with_reducible apply h7 | with_reducible apply ok_lookLanes |
    with_reducible apply ok_lateChecks

theorem ok_execGathPark (d : BitVec 9) (bar : Option (BitVec 4)) (s : State) (h : Ok P s) : OkOut P (execGathPark d bar s) := by
  unfold execGathPark
  repeat first | with_reducible assumption | intro _ | with_reducible apply ok_word | with_reducible apply ok_bulkRoom |
    with_reducible apply ok_laneLate | with_reducible apply ok_startBulk | with_reducible apply ok_modGroup | dsimp only |
    with_reducible apply eff_ok | with_reducible apply eff_trap | split

theorem ok_execGathTol (d x : BitVec 9) (bar : Option (BitVec 4)) (s : State) (h : Ok P s) : OkOut P (execGathTol d x bar s) := by
  unfold execGathTol
  repeat first | with_reducible assumption | intro _ | with_reducible apply ok_word | with_reducible apply ok_bulkRoom |
    with_reducible apply ok_laneLate | with_reducible apply ok_startBulk | with_reducible apply ok_requestAll |
    with_reducible apply ok_count | with_reducible apply ok_modGroup | dsimp only | with_reducible apply eff_ok |
    with_reducible apply eff_trap | split

theorem ok_execScat (rel : Bool) (d : BitVec 9) (bar : Option (BitVec 4)) (s : State) (h : Ok P s) : OkOut P (execScat rel d bar s) := by
  unfold execScat
  repeat first | with_reducible assumption | intro _ | with_reducible apply ok_word | with_reducible apply ok_bulkRoom |
    with_reducible apply ok_laneLate | with_reducible apply ok_startBulk | dsimp only | with_reducible apply eff_ok |
    with_reducible apply eff_trap | split

theorem ok_resPut (s : State) (core : Nat) (e : Res) (h : Ok P s) : Ok P (resPut s core e).2 := by
  unfold resPut
  repeat first | with_reducible assumption | with_reducible apply ok_modCore | dsimp only | split

theorem ok_setCpystat (s : State) (gid i : Nat) (h : Ok P s) : Ok P (setCpystat s gid i) := by
  unfold setCpystat
  repeat first | with_reducible assumption | with_reducible apply ok_modGroup

theorem ok_execResadd (d : BitVec 9) (s : State) (h : Ok P s) : OkOut P (execResadd d s) := by
  unfold execResadd
  repeat first | with_reducible assumption | intro _ | with_reducible apply ok_word | with_reducible apply ok_unlessFail |
    with_reducible apply ok_resPut | with_reducible apply ok_setCpystat | with_reducible refine ok_snd (by assumption) ?_ |
    with_reducible apply eff_ok | split

theorem ok_execResdel (d : BitVec 9) (s : State) (h : Ok P s) : OkOut P (execResdel d s) := by
  unfold execResdel
  repeat first | with_reducible assumption | intro _ | with_reducible apply ok_word | dsimp only | simp only [ok_mk] |
    with_reducible apply ok_wf | with_reducible apply eff_ok | with_reducible apply eff_trap | split

theorem ok_execResq (x d : BitVec 9) (s : State) (h : Ok P s) : OkOut P (execResq x d s) := by
  unfold execResq
  repeat first | with_reducible assumption | intro _ | with_reducible apply ok_word | with_reducible apply ok_launchOp | dsimp only |
    with_reducible apply eff_ok | with_reducible apply eff_wait | with_reducible apply eff_trap | split

/-! Clause. -/

theorem ok_groupHeader (x0 : Word) (s : State) (c : Ctx) (h : Ok P s) : Ok P (groupHeader x0 s c) := by
  unfold groupHeader
  repeat first | with_reducible assumption | with_reducible apply ok_takeTrap | with_reducible apply ok_modGroup |
    with_reducible apply ok_settleAcq | dsimp only | simp only [ok_mk] | with_reducible apply ok_wf | split

theorem ok_seqHeader (x0 : Word) (s : State) (tid : Nat) (t : Team) (q : Seq) (h : Ok P s) : Ok P (seqHeader x0 s tid t q) := by
  unfold seqHeader
  repeat first | with_reducible assumption | with_reducible apply ok_seqFault | with_reducible apply ok_modTeam | dsimp only | split

theorem ok_execClauseHeader (x0 : Word) (s : State) (h : Ok P s) : OkOut P (execClauseHeader x0 s) := by
  unfold execClauseHeader
  repeat first | with_reducible assumption | with_reducible apply ok_seqHeader | with_reducible apply ok_groupHeader | dsimp only |
    simp only [ok_mk] | with_reducible apply ok_wf | with_reducible apply ok_next | with_reducible apply ok_fault | split

/-! Fetch. -/

theorem ok_fetchWord (s : State) (core : Nat) (k : Task) (sid : Nat) (pc : Word) (r : Req) (h : Ok P s) : OkFetched P (fetchWord s core k
    sid pc r) := by
  unfold fetchWord
  repeat first | with_reducible assumption | with_reducible apply ok_translate | with_reducible apply ok_request |
    with_reducible apply ok_errorRecord | with_reducible refine ok_snd (by assumption) ?_ | dsimp only | with_reducible apply mk_word |
    with_reducible apply mk_fmiss | with_reducible apply mk_perm | with_reducible apply mk_off | split

theorem ok_endModeV (s : State) (gid fid : Nat) (g : Group) (f : Frag) (eng : Bool) (h : Ok P s) : Ok P (endModeV s gid fid g f eng) := by
  unfold endModeV
  repeat first | with_reducible assumption | with_reducible apply ok_modGroup | with_reducible apply ok_modTeam |
    with_reducible apply ok_takeTrap | dsimp only | split

theorem ok_fragPlan (s : State) (gid : Nat) (g : Group) (f : Frag) (h : Ok P s) : OkPlan P (fragPlan s gid g f) := by
  unfold fragPlan
  repeat first | with_reducible assumption | with_reducible apply ok_fetchWord | with_reducible apply ok_takeTrap |
    with_reducible apply ok_faultGroup | with_reducible refine fetched_word (by assumption) ?_ |
    with_reducible refine fetched_miss (by assumption) ?_ | with_reducible refine fetched_perm (by assumption) ?_ | dsimp only |
    simp only [ok_mk] | with_reducible apply ok_wf | with_reducible apply plan_idle | with_reducible apply plan_run | split

theorem ok_groupPlan (s : State) (gid : Nat) (h : Ok P s) : OkPlan P (groupPlan s gid) := by
  unfold groupPlan
  repeat first | with_reducible assumption | with_reducible apply ok_endModeV | with_reducible apply ok_modGroup |
    with_reducible apply ok_fragPlan | dsimp only | with_reducible apply plan_idle | split

theorem ok_seqPlan (s : State) (tid : Nat) (h : Ok P s) : OkPlan P (seqPlan s tid) := by
  unfold seqPlan
  repeat first | with_reducible assumption | with_reducible apply ok_fetchWord | with_reducible apply ok_seqFault |
    with_reducible apply ok_faultTask | with_reducible apply ok_modTeam | with_reducible refine fetched_word (by assumption) ?_ |
    with_reducible refine fetched_miss (by assumption) ?_ | with_reducible refine fetched_perm (by assumption) ?_ | dsimp only |
    simp only [ok_mk] | with_reducible apply ok_wf | with_reducible apply plan_idle | with_reducible apply plan_run | split

/-! Ctl. -/

theorem ok_execNop (s : State) (h : Ok P s) : OkOut P (execNop s) := by
  unfold execNop
  repeat first | with_reducible assumption | intro _ | with_reducible apply ok_word | with_reducible apply ok_onGroup

theorem ok_execMovi (d : BitVec 9) (i : BitVec 16) (s : State) (h : Ok P s) : OkOut P (execMovi d i s) := by
  unfold execMovi
  repeat first | with_reducible assumption | intro _ | with_reducible apply ok_word | with_reducible apply ok_onGroup

theorem ok_execMovhi (d : BitVec 9) (i : BitVec 16) (s : State) (h : Ok P s) : OkOut P (execMovhi d i s) := by
  unfold execMovhi
  repeat first | with_reducible assumption | intro _ | with_reducible apply ok_word | with_reducible apply ok_onGroup

theorem ok_execMov (d a : BitVec 9) (s : State) (h : Ok P s) : OkOut P (execMov d a s) := by
  unfold execMov
  repeat first | with_reducible assumption | intro _ | with_reducible apply ok_word | with_reducible apply ok_onGroup

theorem ok_execRds (d : BitVec 9) (r : SReg) (s : State) (h : Ok P s) : OkOut P (execRds d r s) := by
  unfold execRds
  repeat first | with_reducible assumption | intro _ | with_reducible apply ok_word | with_reducible apply ok_onGroup

theorem ok_execWrs (r : SReg) (a : BitVec 9) (s : State) (h : Ok P s) : OkOut P (execWrs r a s) := by
  unfold execWrs
  repeat first | with_reducible assumption | intro _ | with_reducible apply ok_word | with_reducible apply ok_onGroup

theorem ok_execSetix (a : BitVec 9) (i : BitVec 16) (s : State) (h : Ok P s) : OkOut P (execSetix a i s) := by
  unfold execSetix
  repeat first | with_reducible assumption | intro _ | with_reducible apply ok_word | with_reducible apply ok_onGroup

theorem ok_execBr (o : BitVec 25) (s : State) (h : Ok P s) : OkOut P (execBr o s) := by
  unfold execBr
  repeat first | with_reducible assumption | intro _ | with_reducible apply ok_word | with_reducible apply eff_jump

theorem ok_execBz (a : BitVec 9) (o : BitVec 16) (s : State) (h : Ok P s) : OkOut P (execBz a o s) := by
  unfold execBz
  repeat first | with_reducible assumption | intro _ | with_reducible apply ok_word | with_reducible apply ok_onGroup |
    with_reducible apply eff_jump | split

theorem ok_execBnz (a : BitVec 9) (o : BitVec 16) (s : State) (h : Ok P s) : OkOut P (execBnz a o s) := by
  unfold execBnz
  repeat first | with_reducible assumption | intro _ | with_reducible apply ok_word | with_reducible apply ok_onGroup |
    with_reducible apply eff_jump | split

theorem ok_spillBlocks (hw : Closed P) (gid x1 : Nat) (x2 : State) (h : Ok P x2) : Ok P (spillBlocks gid x1 x2) := by
  fun_induction spillBlocks gid x1 x2
  all_goals
    repeat first | with_reducible assumption | with_reducible refine ok_mp (by assumption) ?_ | with_reducible apply ok_publishOwn |
      with_reducible apply ok_count | with_reducible apply ok_modGroup

theorem ok_fillBlocks (gid x1 : Nat) (x2 : State) (h : Ok P x2) : Ok P (fillBlocks gid x1 x2) := by
  fun_induction fillBlocks gid x1 x2
  all_goals
    repeat first | with_reducible assumption | with_reducible refine ok_mp (by assumption) ?_ | with_reducible apply ok_count |
      with_reducible apply ok_modGroup

theorem ok_spillLink (hw : Closed P) (gid : Nat) (s : State) (h : Ok P s) : Ok P (spillLink gid s) := by
  unfold spillLink
  repeat first | with_reducible assumption | with_reducible apply ok_modGroup | with_reducible apply ok_publishOwn | split

theorem ok_execCall (hw : Closed P) (k : BitVec 3) (o : BitVec 22) (s : State) (h : Ok P s) : OkOut P (execCall k o s) := by
  unfold execCall
  repeat first | with_reducible assumption | intro _ | with_reducible apply ok_word | with_reducible apply ok_spillLink |
    with_reducible apply ok_modGroup | with_reducible apply ok_spillBlocks | dsimp only | with_reducible apply eff_jump |
    with_reducible apply eff_trap | split

theorem ok_execRet (s : State) (h : Ok P s) : OkOut P (execRet s) := by
  unfold execRet
  repeat first | with_reducible assumption | intro _ | with_reducible apply ok_word | with_reducible apply ok_modGroup |
    with_reducible apply ok_fillBlocks | dsimp only | with_reducible apply eff_jump | with_reducible apply eff_trap | split

theorem ok_execSplit (m : BitVec 3) (t r : BitVec 11) (s : State) (h : Ok P s) : OkOut P (execSplit m t r s) := by
  unfold execSplit
  repeat first | with_reducible assumption | intro _ | with_reducible apply ok_word | with_reducible apply ok_onGroup |
    with_reducible apply ok_modGroup | dsimp only | with_reducible apply eff_jump | with_reducible apply eff_gone | split

theorem ok_execJoin (s : State) (h : Ok P s) : OkOut P (execJoin s) := by
  unfold execJoin
  repeat first | with_reducible assumption | intro _ | with_reducible apply ok_word | with_reducible apply eff_jump |
    with_reducible apply eff_trap | split

theorem ok_execExit (hw : Closed P) (s : State) (h : Ok P s) : OkOut P (execExit s) := by
  unfold execExit
  repeat first | with_reducible assumption | intro _ | with_reducible apply ok_word | with_reducible apply ok_deliveryPoint |
    with_reducible apply ok_withEvent | with_reducible apply ok_retire | with_reducible apply eff_trap | with_reducible apply eff_wait | with_reducible apply eff_gone |
    split

theorem ok_execWaitc (p : Path) (a : BitVec 9) (s : State) (h : Ok P s) : OkOut P (execWaitc p a s) := by
  unfold execWaitc
  repeat first | with_reducible assumption | intro _ | with_reducible apply ok_word | with_reducible apply ok_onGroup | dsimp only |
    with_reducible apply eff_park | split

theorem ok_execBarinit (n : BitVec 4) (s : State) (h : Ok P s) : OkOut P (execBarinit n s) := by
  unfold execBarinit
  repeat first | with_reducible assumption | intro _ | with_reducible apply ok_word | with_reducible apply ok_deliveryPoint |
    with_reducible apply ok_barEvent | with_reducible apply eff_ok

theorem ok_execBarexp (k : BarKind) (n : BitVec 4) (a : BitVec 9) (s : State) (h : Ok P s) : OkOut P (execBarexp k n a s) := by
  unfold execBarexp
  repeat first | with_reducible assumption | intro _ | with_reducible apply ok_word | with_reducible apply ok_deliveryPoint |
    with_reducible apply ok_barEvent | with_reducible apply eff_ok | with_reducible apply eff_trap | split

theorem ok_arriveAtBar (hw : Closed P) (s : State) (c : Ctx) (n : Nat) (h : Ok P s) : Ok P (arriveAtBar s c n) := by
  unfold arriveAtBar
  repeat first | with_reducible assumption | with_reducible apply ok_publishScope | with_reducible apply ok_modGroup |
    with_reducible apply ok_arriveLanes

theorem ok_execBarin (hw : Closed P) (n : BitVec 4) (s : State) (h : Ok P s) : OkOut P (execBarin n s) := by
  unfold execBarin
  repeat first | with_reducible assumption | intro _ | with_reducible apply ok_word | with_reducible apply ok_deliveryPoint |
    with_reducible apply ok_withEvent | with_reducible apply ok_arriveAtBar | with_reducible apply eff_ok

theorem ok_waitAtBar (s : State) (c : Ctx) (n : Nat) (park : Park) (e : AcqEnd) (k : State → Eff) (h0 : Ok P s) (h5 : ∀ y0, Ok P
    y0 → OkEff P (k y0)) : OkEff P (waitAtBar s c n park e k) := by
  unfold waitAtBar
  repeat first | with_reducible assumption | with_reducible apply h5 | with_reducible apply ok_acquireNow | dsimp only | simp only [ok_mk] |
    with_reducible apply ok_wf | with_reducible apply eff_ok | with_reducible apply eff_park | split

theorem ok_execBarwait (n : BitVec 4) (s : State) (h : Ok P s) : OkOut P (execBarwait n s) := by
  unfold execBarwait
  repeat first | with_reducible assumption | intro _ | with_reducible apply ok_word | with_reducible apply ok_deliveryPoint |
    with_reducible apply ok_waitAtBar | with_reducible apply eff_ok

theorem ok_execBarsync (hw : Closed P) (n : BitVec 4) (s : State) (h : Ok P s) : OkOut P (execBarsync n s) := by
  unfold execBarsync
  repeat first | with_reducible assumption | intro _ | with_reducible apply ok_word | with_reducible apply ok_deliveryPoint |
    with_reducible apply ok_withEvent | with_reducible apply ok_waitAtBar | with_reducible apply ok_arriveAtBar |
    with_reducible apply eff_ok

theorem ok_execFork (s : State) (h : Ok P s) : OkOut P (execFork s) := by
  unfold execFork
  repeat first | with_reducible assumption | intro _ | with_reducible apply ok_word | with_reducible apply ok_modTeam | dsimp only |
    with_reducible apply eff_ok | with_reducible apply eff_trap | split

theorem ok_execRdzv (s : State) (h : Ok P s) : OkOut P (execRdzv s) := by
  unfold execRdzv
  repeat first | with_reducible assumption | intro _ | with_reducible apply ok_word | with_reducible apply ok_clearFault |
    with_reducible apply ok_onGroup | with_reducible apply eff_park | with_reducible apply eff_seqFault | split

theorem ok_execYield (s : State) (h : Ok P s) : OkOut P (execYield s) := by
  unfold execYield
  repeat first | with_reducible assumption | intro _ | with_reducible apply ok_word | with_reducible apply ok_onGroup

theorem ok_execGrow (d : BitVec 9) (n : BitVec 4) (s : State) (h : Ok P s) : OkOut P (execGrow d n s) := by
  unfold execGrow
  repeat first | with_reducible assumption | intro _ | with_reducible apply ok_word | with_reducible apply ok_onGroup |
    with_reducible apply ok_checkGrow | with_reducible apply ok_setGrowQueue | with_reducible apply ok_modGroup | dsimp only |
    with_reducible apply eff_gone | split

theorem ok_execShrink (hw : Closed P) (n : BitVec 4) (s : State) (h : Ok P s) : OkOut P (execShrink n s) := by
  unfold execShrink
  repeat first | with_reducible assumption | intro _ | with_reducible apply ok_word | with_reducible apply ok_modGroup |
    with_reducible apply ok_spillBlocks | dsimp only | with_reducible apply eff_ok | with_reducible apply eff_wait |
    with_reducible apply eff_trap | split

/-! Queue. -/

theorem ok_hubNote (s : State) (sid : Nat) (kind : AKind) (v n : Nat) (h : Ok P s) : Ok P (hubNote s sid kind v n) := by
  unfold hubNote
  repeat first | with_reducible assumption | with_reducible apply ok_errorRecord | split

theorem ok_hubRequest (s : State) (sid : Nat) (kind : AKind) (who : Who) (pages : List Nat) (h : Ok P s) : Ok P (hubRequest s sid kind who
    pages) := by
  unfold hubRequest
  repeat first | with_reducible assumption | intro _ | with_reducible apply ok_requestOnce | with_reducible apply ok_foldl

theorem ok_putByte (hw : Closed P) (s : State) (l : Loc) (b : Byte) (h : Ok P s) : Ok P (putByte s l b) := by
  unfold putByte
  repeat first | with_reducible assumption | with_reducible apply ok_publish | with_reducible apply ok_writeByte | split

theorem ok_writeLocs (hw : Closed P) (x0 : List Loc) (x1 : List Byte) (x2 : State) (h : Ok P x2) : Ok P (writeLocs x0 x1 x2) := by
  fun_induction writeLocs x0 x1 x2
  all_goals
    repeat first | with_reducible assumption | with_reducible refine ok_mp (by assumption) ?_ | with_reducible apply ok_putByte

theorem ok_newCmd (s : State) (q : Nat) (x : Queue) (w : List Word) (launch : Bool) (h : Ok P s) : Ok P (newCmd s q x w launch).2 := by
  unfold newCmd
  repeat first | with_reducible assumption | with_reducible apply ok_fresh | with_reducible apply ok_modQueue | simp only [ok_mk] |
    with_reducible apply ok_wf

theorem ok_endCmd (s : State) (c status cause : Nat) (h : Ok P s) : Ok P (endCmd s c status cause) := by
  unfold endCmd
  repeat first | with_reducible assumption | with_reducible apply ok_modCmd

theorem ok_okCmd (s : State) (c : Nat) (h : Ok P s) : Ok P (okCmd s c) := by
  unfold okCmd
  repeat first | with_reducible assumption | with_reducible apply ok_modCmd

theorem ok_rejectPacket (s : State) (q : Nat) (x : Queue) (w : List Word) (cause : Nat) (h : Ok P s) : Ok P (rejectPacket s q x w cause)
    := by
  unfold rejectPacket
  repeat first | with_reducible assumption | with_reducible apply ok_newCmd | with_reducible apply ok_endCmd

theorem ok_newTask (s : State) (cmd lraddr : Nat) (args : List Word) (tcb : Option (BitVec 64)) (h : Ok P s) : Ok P (newTask s cmd lraddr
    args tcb) := by
  unfold newTask
  repeat first | with_reducible assumption | with_reducible apply ok_fresh | dsimp only | simp only [ok_mk] | with_reducible apply ok_wf

theorem ok_claim (s : State) (q : Nat) (h : Ok P s) : Ok P (claim s q).2 := by
  unfold claim
  repeat first | with_reducible assumption | with_reducible apply ok_modQueue | split

theorem ok_journal (s : State) (core a b c : Nat) (h : Ok P s) : Ok P (journal s core a b c) := by
  unfold journal
  repeat first | with_reducible assumption | dsimp only | simp only [ok_mk] | with_reducible apply ok_wf

theorem ok_parse (s : State) (q : Nat) (h : Ok P s) : Ok P (parse s q) := by
  unfold parse
  repeat first | with_reducible assumption | with_reducible apply ok_hubRequest | with_reducible apply ok_modQueue |
    with_reducible apply ok_hubNote | with_reducible apply ok_journal | dsimp only | split

theorem ok_ring (s : State) (q : Nat) (h : Ok P s) : Ok P (ring s q) := by
  unfold ring
  repeat first | with_reducible assumption | with_reducible apply ok_parse | with_reducible apply ok_modQueue | split

theorem ok_nextPacket (s : State) (q : Nat) (h : Ok P s) : Ok P (nextPacket s q) := by
  unfold nextPacket
  repeat first | with_reducible assumption | with_reducible apply ok_parse | with_reducible apply ok_modQueue

theorem ok_startPacket (s : State) (q ty : Nat) (k : Queue → List Word → State → State) (h0 : Ok P s) (h3 : ∀ y0 y1 y2, Ok P y2 → Ok P (k
    y0 y1 y2)) : Ok P (startPacket s q ty k) := by
  unfold startPacket
  repeat first | with_reducible assumption | with_reducible apply h3 | with_reducible apply ok_nextPacket |
    with_reducible apply ok_rejectPacket | split

theorem ok_leadSys (hw : Closed P) (s : State) (c : Ctx) (k : State → Eff) (h0 : Ok P s) (h2 : ∀ y0, Ok P y0 → OkEff P (k y0)) : OkEff P
    (leadSys s c k) := by
  unfold leadSys
  repeat first | with_reducible assumption | with_reducible apply ok_leading

theorem ok_execEnq (hw : Closed P) (d : BitVec 9) (s : State) (h : Ok P s) : OkOut P (execEnq d s) := by
  unfold execEnq
  repeat first | with_reducible assumption | intro _ | with_reducible apply ok_word | with_reducible apply ok_leadSys |
    with_reducible apply ok_failsLate | with_reducible apply ok_writeLocs | with_reducible apply ok_modCmd |
    with_reducible apply ok_newTask | with_reducible apply ok_request | with_reducible apply ok_foldl | dsimp only |
    with_reducible apply eff_ok | with_reducible apply eff_wait | with_reducible apply eff_trap | split

theorem ok_postLocal (hw : Closed P) (s : State) (c : Ctx) (q d : Nat) (image : List Word) (h : Ok P s) : OkEff P (postLocal s c q d
    image) := by
  unfold postLocal
  repeat first | with_reducible assumption | intro _ | with_reducible apply ok_claim | with_reducible apply ok_request |
    with_reducible apply ok_onGroup | with_reducible apply ok_ring | with_reducible apply ok_writeLocs |
    with_reducible apply ok_errorRecord | with_reducible refine ok_snd (by assumption) ?_ | with_reducible apply ok_foldl | dsimp only |
    with_reducible apply eff_wait | split

theorem ok_postRemote (s : State) (c : Ctx) (p q d : Nat) (image : List Word) (h : Ok P s) : OkEff P (postRemote s c p q d image) := by
  unfold postRemote
  repeat first | with_reducible assumption | with_reducible apply ok_onGroup | dsimp only | simp only [ok_mk] | with_reducible apply ok_wf |
    split

theorem ok_execQpost (hw : Closed P) (d : BitVec 9) (s : State) (h : Ok P s) : OkOut P (execQpost d s) := by
  unfold execQpost
  repeat first | with_reducible assumption | intro _ | with_reducible apply ok_word | with_reducible apply ok_leadSys |
    with_reducible apply ok_errorRecord | with_reducible apply ok_postRemote | with_reducible apply ok_postLocal | dsimp only |
    with_reducible apply eff_trap | split

/-! Vat. -/

theorem ok_vatWrite (hw : Closed P) (s : State) (key i : Nat) (ws : List Word) (h : Ok P s) : Ok P (vatWrite s key i ws) := by
  unfold vatWrite
  repeat first | with_reducible assumption | with_reducible apply ok_writeLocs

theorem ok_vatWriteOnce (hw : Closed P) (s : State) (key : Nat) (l : List (Nat × List Word)) (h : Ok P s) : Ok P (vatWriteOnce s key l) :=
    by
  unfold vatWriteOnce
  repeat first | with_reducible assumption | intro _ | with_reducible apply ok_publishAtOnce | with_reducible apply ok_foldl |
    with_reducible apply ok_putByte | dsimp only

theorem ok_setHead (hw : Closed P) (s : State) (key : Nat) (ended active : Bool) (h : Ok P s) : Ok P (setHead s key ended active) := by
  unfold setHead
  repeat first | with_reducible assumption | with_reducible apply ok_vatWrite

theorem ok_clearRind (hw : Closed P) (s : State) (key n status : Nat) (h : Ok P s) : Ok P (clearRind s key n status) := by
  unfold clearRind
  repeat first | with_reducible assumption | with_reducible apply ok_vatWrite

theorem ok_vatTidy (s : State) (key : Nat) (h : Ok P s) : Ok P (vatTidy s key) := by
  unfold vatTidy
  repeat first | with_reducible assumption | simp only [ok_mk] | with_reducible apply ok_wf | split

theorem ok_vatMake (s : State) (key : Nat) (h : Ok P s) : Ok P (vatMake s key).2 := by
  unfold vatMake
  repeat first | with_reducible assumption | dsimp only | simp only [ok_mk] | with_reducible apply ok_wf | split

theorem ok_modVat (s : State) (key : Nat) (f : Vat → Vat) (h : Ok P s) : Ok P (modVat s key f) := by
  unfold modVat
  repeat first | with_reducible assumption | simp only [ok_mk] | with_reducible apply ok_wf | split

theorem ok_setPin (s : State) (key n c : Nat) (h : Ok P s) : Ok P (setPin s key n c) := by
  unfold setPin
  repeat first | with_reducible assumption | with_reducible apply ok_modVat

theorem ok_pinNewest (s : State) (key : Nat) (take : Bool) (h : Ok P s) : Ok P (pinNewest s key take).2 := by
  unfold pinNewest
  repeat first | with_reducible assumption | with_reducible apply ok_vatMake | with_reducible apply ok_vatTidy |
    with_reducible apply ok_setPin | with_reducible refine ok_snd (by assumption) ?_ | dsimp only | split

theorem ok_unpin (s : State) (key n : Nat) (h : Ok P s) : OkOpt P (unpin s key n) := by
  unfold unpin
  repeat first | with_reducible assumption | with_reducible apply ok_vatTidy | with_reducible apply ok_setPin |
    with_reducible refine ok_opt_none | with_reducible apply ok_opt_some | split

theorem ok_wakeVwaits (s : State) (key : Nat) (h : Ok P s) : Ok P (wakeVwaits s key) := by
  unfold wakeVwaits
  repeat first | with_reducible assumption | with_reducible apply ok_vatTidy | dsimp only | simp only [ok_mk] | with_reducible apply ok_wf

theorem ok_modLadder (s : State) (t : Nat) (f : Ladder → Ladder) (h : Ok P s) : Ok P (modLadder s t f) := by
  unfold modLadder
  repeat first | with_reducible assumption | with_reducible apply ok_modTask

theorem ok_chooseCurd (hw : Closed P) (s : State) (t : Nat) (l : Ladder) (h : Ok P s) : Ok P (chooseCurd s t l) := by
  unfold chooseCurd
  repeat first | with_reducible assumption | with_reducible apply ok_modLadder | with_reducible apply ok_clearRind | split

theorem ok_releaseSeal (t w W : Nat) (v : BitVec 64) (x4 : List (Nat × Group)) (x5 : State) (h : Ok P x5) : Ok P (releaseSeal t w W v x4
    x5) := by
  fun_induction releaseSeal t w W v x4 x5
  all_goals
    repeat first | with_reducible assumption | with_reducible refine ok_mp (by assumption) ?_ | with_reducible apply ok_settleAcq |
      with_reducible apply ok_modGroup

theorem ok_releaseTeams (s : State) (t : Nat) (v : BitVec 64) (h : Ok P s) : Ok P (releaseTeams s t v) := by
  unfold releaseTeams
  repeat first | with_reducible assumption | with_reducible apply ok_modTask | with_reducible apply ok_releaseSeal

theorem ok_freeVat (s : State) (key : Nat) (h : Ok P s) : Ok P (freeVat s key) := by
  unfold freeVat
  repeat first | with_reducible assumption | with_reducible apply ok_vatTidy | with_reducible apply ok_wakeVwaits |
    with_reducible apply ok_modVat

theorem ok_sealSequence (hw : Closed P) (s0 : State) (t : Nat) (l : Ladder) (placed : Nat) (h : Ok P s0) : Ok P (sealSequence s0 t l
    placed) := by
  unfold sealSequence
  repeat first | with_reducible assumption | intro _ | with_reducible apply ok_modGroup | with_reducible apply ok_vatWriteOnce |
    with_reducible apply ok_modLadder | with_reducible apply ok_setHead | with_reducible apply ok_releaseTeams |
    with_reducible apply ok_freeVat | with_reducible apply ok_chooseCurd | with_reducible apply ok_wakeVwaits |
    with_reducible apply ok_foldl | dsimp only | split

theorem ok_endVat (hw : Closed P) (s : State) (t : Nat) (h : Ok P s) : Ok P (endVat s t) := by
  unfold endVat
  repeat first | with_reducible assumption | with_reducible apply ok_clearRind | with_reducible apply ok_freeVat |
    with_reducible apply ok_modLadder | with_reducible apply ok_setHead | dsimp only | split

theorem ok_headAt (s : State) (c : Ctx) (v : Nat) (h : Ok P s) : OkHead P (headAt s c v) := by
  unfold headAt
  repeat first | with_reducible assumption | with_reducible apply ok_translate | with_reducible refine ok_snd (by assumption) ?_ |
    dsimp only | with_reducible apply mk_bad | with_reducible apply mk_hmiss | with_reducible apply mk_late | with_reducible apply mk_at |
    split

/-! Sys. -/

theorem ok_execModeM (s : State) (h : Ok P s) : OkOut P (execModeM s) := by
  unfold execModeM
  repeat first | with_reducible assumption | intro _ | with_reducible apply ok_word | with_reducible apply ok_onGroup | dsimp only |
    with_reducible apply eff_wait | with_reducible apply eff_trap | split

theorem ok_execModeV (hw : Closed P) (n : BitVec 4) (s : State) (h : Ok P s) : OkOut P (execModeV n s) := by
  unfold execModeV
  repeat first | with_reducible assumption | intro _ | with_reducible apply ok_word | with_reducible apply ok_deliveryPoint |
    with_reducible apply ok_withEvent | with_reducible apply ok_arriveAtBar | with_reducible apply ok_waitAtBar | dsimp only |
    with_reducible apply eff_park | with_reducible apply eff_trap | split

theorem ok_execSeal (hw : Closed P) (last : Bool) (q d : BitVec 9) (s : State) (h : Ok P s) : OkOut P (execSeal last q d s) := by
  unfold execSeal
  repeat first | with_reducible assumption | intro _ | with_reducible apply ok_word | with_reducible apply ok_deliveryPoint |
    with_reducible apply ok_withEvent | with_reducible apply ok_publishScope | with_reducible apply ok_modLadder |
    with_reducible apply ok_modGroup | dsimp only | with_reducible apply eff_park | with_reducible apply eff_trap | split

theorem ok_parkOnHead (s : State) (c : Ctx) (pages : List Nat) (h : Ok P s) : OkEff P (parkOnHead s c pages) := by
  unfold parkOnHead
  repeat first | with_reducible assumption | with_reducible apply ok_parkOnPages

theorem ok_onHead (s : State) (c : Ctx) (v : Nat) (k : Nat → State → Eff) (h0 : Ok P s) (h3 : ∀ y0 y1, Ok P y1 → OkEff P (k y0 y1)) :
    OkEff P (onHead s c v k) := by
  unfold onHead
  repeat first | with_reducible assumption | with_reducible apply h3 | with_reducible apply ok_headAt | with_reducible apply ok_parkOnHead |
    with_reducible apply ok_failsLate | with_reducible refine head_miss (by assumption) ?_ |
    with_reducible refine head_late (by assumption) ?_ | with_reducible refine head_at (by assumption) ?_ |
    with_reducible apply eff_trap | split

theorem ok_execVpin (d v : BitVec 9) (s : State) (h : Ok P s) : OkOut P (execVpin d v s) := by
  unfold execVpin
  repeat first | with_reducible assumption | intro _ | with_reducible apply ok_word | with_reducible apply ok_onHead |
    with_reducible apply ok_launchOp | with_reducible apply ok_holdGate | dsimp only | with_reducible apply eff_ok |
    with_reducible apply eff_wait | split

theorem ok_execVunpin (v sl : BitVec 9) (s : State) (h : Ok P s) : OkOut P (execVunpin v sl s) := by
  unfold execVunpin
  repeat first | with_reducible assumption | intro _ | with_reducible apply ok_word | with_reducible apply ok_onHead |
    with_reducible apply ok_unpin | with_reducible refine ok_get (by assumption) ?_ | with_reducible apply eff_ok |
    with_reducible apply eff_trap | split

theorem ok_execVwait (q v : BitVec 9) (s : State) (h : Ok P s) : OkOut P (execVwait q v s) := by
  unfold execVwait
  repeat first | with_reducible assumption | intro _ | with_reducible apply ok_word | with_reducible apply ok_onHead |
    with_reducible apply ok_vatMake | dsimp only | with_reducible apply eff_ok | with_reducible apply eff_park |
    with_reducible apply eff_wait | split

theorem ok_execPhacq (sc : Scope) (s : State) (h : Ok P s) : OkOut P (execPhacq sc s) := by
  unfold execPhacq
  repeat first | with_reducible assumption | intro _ | with_reducible apply ok_word | with_reducible apply ok_deliveryPoint |
    with_reducible apply ok_refreshScope | with_reducible apply eff_ok

theorem ok_execPhrel (hw : Closed P) (sc : Scope) (s : State) (h : Ok P s) : OkOut P (execPhrel sc s) := by
  unfold execPhrel
  repeat first | with_reducible assumption | intro _ | with_reducible apply ok_word | with_reducible apply ok_deliveryPoint |
    with_reducible apply ok_publishScope | with_reducible apply eff_ok

theorem ok_execFence (hw : Closed P) (sc : Scope) (s : State) (h : Ok P s) : OkOut P (execFence sc s) := by
  unfold execFence
  repeat first | with_reducible assumption | intro _ | with_reducible apply ok_word | with_reducible apply ok_deliveryPoint |
    with_reducible apply ok_refreshScope | with_reducible apply ok_publishScope | with_reducible apply eff_ok

theorem ok_execTrap (i : BitVec 8) (s : State) (h : Ok P s) : OkOut P (execTrap i s) := by
  unfold execTrap
  repeat first | with_reducible assumption | intro _ | with_reducible apply ok_word | with_reducible apply eff_trap

theorem ok_execBrk (i : BitVec 8) (s : State) (h : Ok P s) : OkOut P (execBrk i s) := by
  unfold execBrk
  repeat first | with_reducible assumption | intro _ | with_reducible apply ok_word | with_reducible apply ok_onGroup |
    with_reducible apply ok_modGroup | with_reducible apply ok_report | with_reducible apply ok_freezeCluster | dsimp only |
    with_reducible apply eff_trap | with_reducible apply eff_stand | split

theorem ok_lockPages (core sid : Nat) (x2 : List Nat) (x3 : LockLook × State) (h : Ok P (x3).2) : Ok P (lockPages core sid x2 x3).2 := by
  fun_induction lockPages core sid x2 x3
  all_goals
    repeat first | with_reducible assumption | with_reducible refine ok_mp (by assumption) ?_ | with_reducible apply ok_translate |
      with_reducible refine ok_snd (by assumption) ?_

theorem ok_execTagset (d : BitVec 9) (s : State) (h : Ok P s) : OkOut P (execTagset d s) := by
  unfold execTagset
  repeat first | with_reducible assumption | intro _ | with_reducible apply ok_word | with_reducible apply ok_lockPages |
    with_reducible apply ok_launchOp | with_reducible apply ok_requestAll | dsimp only | with_reducible apply eff_ok |
    with_reducible apply eff_wait | with_reducible apply eff_trap | split

theorem ok_execSnap (s : State) (h : Ok P s) : OkOut P (execSnap s) := by
  unfold execSnap
  repeat first | with_reducible assumption | intro _ | with_reducible apply ok_word | with_reducible apply ok_trigger |
    with_reducible apply eff_ok

theorem ok_gbarEff (hw : Closed P) (s : State) (c : Ctx) (h : Ok P s) : OkEff P (gbarEff s c) := by
  unfold gbarEff
  repeat first | with_reducible assumption | intro _ | with_reducible apply ok_deliveryPoint | with_reducible apply ok_withEvent |
    with_reducible apply ok_modGroup | with_reducible apply ok_publishScope | with_reducible apply eff_park |
    with_reducible apply eff_trap | split

theorem ok_execGbar (hw : Closed P) (s : State) (h : Ok P s) : OkOut P (execGbar s) := by
  unfold execGbar
  repeat first | with_reducible assumption | with_reducible apply ok_checkGbar | with_reducible apply ok_endWord |
    with_reducible apply ok_gbarEff | with_reducible apply ok_next | with_reducible apply ok_fault | split

theorem ok_startInval (s : State) (sid start stop : Nat) (h : Ok P s) : Ok P (startInval s sid start stop).2 := by
  unfold startInval
  repeat first | with_reducible assumption | dsimp only | simp only [ok_mk] | with_reducible apply ok_wf

theorem ok_execInvrg (d x : BitVec 9) (s : State) (h : Ok P s) : OkOut P (execInvrg d x s) := by
  unfold execInvrg
  repeat first | with_reducible assumption | intro _ | with_reducible apply ok_word | with_reducible apply ok_startInval |
    with_reducible apply ok_onGroup | dsimp only | with_reducible apply eff_wait | with_reducible apply eff_trap | split

end Sys2Proof.Laws
end

