-- ==== Sys2Proof/Laws/MemEvents.lean ====
section
/-! SUPPORT. Events, sequencer words, placement and control change memory only by writing bytes. -/
set_option Elab.async false
namespace Sys2Proof.Laws
open Sys2Proof.Machine
set_option linter.unusedVariables false
set_option linter.unusedSimpArgs false
variable {P : List Host.Cell → Prop}

/-! Deliver. -/

theorem ok_loadBytes (core : Nat) (own : List (Nat × Nat × Nat)) (t : Team) (sp : Bool) (x4 : List Nat) (x5 : State) (h : Ok P x5) : Ok P
    (loadBytes core own t sp x4 x5).2 := by
  fun_induction loadBytes core own t sp x4 x5
  all_goals
    repeat first | with_reducible assumption | with_reducible refine ok_mp (by assumption) ?_ | with_reducible apply ok_loadSp |
      with_reducible refine ok_snd (by assumption) ?_ | split

theorem ok_loadParts (s : State) (gid : Nat) (g : Group) (known : List (Nat × Nat)) (sp : Bool) (w : MemW) (as : List (Nat × Nat))
    (h : Ok P s) : Ok P (loadParts s gid g known sp w as).2 := by
  unfold loadParts
  repeat first | with_reducible assumption | with_reducible apply ok_loadBytes

theorem ok_acquireRead (s : State) (core : Nat) (t : Team) (sp : Bool) (a : Nat) (h : Ok P s) : Ok P (acquireRead s core t sp a).2 := by
  unfold acquireRead
  repeat first | with_reducible assumption | intro _ | with_reducible apply ok_coreSees | with_reducible apply ok_noteLoaded |
    with_reducible apply ok_foldl | split

theorem ok_completeLoad (hw : Closed P) (s : State) (gid id : Nat) (g : Group) (op : FOp) (h : Ok P s) : Ok P (completeLoad s gid id g op)
    := by
  unfold completeLoad
  repeat first | with_reducible assumption | with_reducible apply ok_loadParts | with_reducible apply ok_opDone |
    with_reducible apply ok_modGroup | with_reducible apply ok_acquireRead | with_reducible apply ok_logAccess |
    with_reducible apply ok_pinNewest | dsimp only | split

theorem ok_execLoadComplete (hw : Closed P) (g id : Nat) (s : State) (h : Ok P s) : OkOut P (execLoadComplete g id s) := by
  unfold execLoadComplete
  repeat first | with_reducible assumption | with_reducible apply ok_completeLoad | with_reducible apply ok_next | split

theorem ok_storeBytes (hw : Closed P) (gid : Nat) (t : Team) (sp : Bool) (x3 : List (Nat × Byte)) (x4 : State) (h : Ok P x4) : Ok P
    (storeBytes gid t sp x3 x4) := by
  fun_induction storeBytes gid t sp x3 x4
  all_goals
    repeat first | with_reducible assumption | with_reducible refine ok_mp (by assumption) ?_ | with_reducible apply ok_pend |
      with_reducible apply ok_writeByte | split

theorem ok_homeWord (hw : Closed P) (gid : Nat) (t : Team) (sp : Bool) (a : Nat) (v : Word) (s : State) (h : Ok P s) : Ok P (homeWord gid
    t sp a v s) := by
  unfold homeWord
  repeat first | with_reducible assumption | with_reducible apply ok_publishOwn | with_reducible apply ok_writeBytes | split

theorem ok_addHistory (s : State) (sid : Nat) (e : Nat × Nat × BitVec 4 × Nat) (h : Ok P s) : Ok P (addHistory s sid e) := by
  unfold addHistory
  repeat first | with_reducible assumption | dsimp only | simp only [ok_mk] | with_reducible apply ok_wf

theorem ok_writeLocks (s : State) (gid id : Nat) (g : Group) (va n : Nat) (lock : BitVec 4) (pages : List (Nat × Nat)) (h : Ok P s) : Ok P
    (writeLocks s gid id g va n lock pages) := by
  unfold writeLocks
  repeat first | with_reducible assumption | with_reducible apply ok_opDone | with_reducible apply ok_addHistory | simp only [ok_mk] |
    with_reducible apply ok_wf

theorem ok_performStore (hw : Closed P) (s : State) (gid id : Nat) (g : Group) (op : FOp) (h : Ok P s) : Ok P (performStore s gid id g op)
    := by
  unfold performStore
  repeat first | with_reducible assumption | with_reducible apply ok_opDone | with_reducible apply ok_storeBytes |
    with_reducible apply ok_homeWord | with_reducible apply ok_logAccess | with_reducible apply ok_writeLocks | dsimp only | split

theorem ok_execStorePerformed (hw : Closed P) (g id : Nat) (s : State) (h : Ok P s) : OkOut P (execStorePerformed g id s) := by
  unfold execStorePerformed
  repeat first | with_reducible assumption | with_reducible apply ok_performStore | with_reducible apply ok_next | split

theorem ok_atomicRead (hw : Closed P) (s : State) (core : Nat) (t : Team) (sp : Bool) (a : Nat) (h : Ok P s) : Ok P (atomicRead s core t
    sp a).2 := by
  unfold atomicRead
  repeat first | with_reducible assumption | intro _ | with_reducible apply ok_publishPend | with_reducible apply ok_foldl | dsimp only |
    split

theorem ok_setOp (s : State) (gid id : Nat) (op : FOp) (h : Ok P s) : Ok P (setOp s gid id op) := by
  unfold setOp
  repeat first | with_reducible assumption | with_reducible apply ok_modGroup

theorem ok_performLane (hw : Closed P) (s : State) (gid id : Nat) (g : Group) (op : FOp) (l : Nat) (h : Ok P s) : Ok P (performLane s gid
    id g op l) := by
  unfold performLane
  repeat first | with_reducible assumption | with_reducible apply ok_atomicRead | with_reducible apply ok_logAccess |
    with_reducible apply ok_homeWord | with_reducible apply ok_mustSee | with_reducible apply ok_setOp |
    with_reducible apply ok_digestFill | with_reducible apply ok_opDone | with_reducible apply ok_modGroup | dsimp only | split

theorem ok_execAtomicPerform (hw : Closed P) (g id l : Nat) (s : State) (h : Ok P s) : OkOut P (execAtomicPerform g id l s) := by
  unfold execAtomicPerform
  repeat first | with_reducible assumption | with_reducible apply ok_performLane | with_reducible apply ok_next | split

theorem ok_execVsfuResult (g id : Nat) (s : State) (h : Ok P s) : OkOut P (execVsfuResult g id s) := by
  unfold execVsfuResult
  repeat first | with_reducible assumption | with_reducible apply ok_opDone | with_reducible apply ok_modGroup | dsimp only |
    with_reducible apply ok_next | split

theorem ok_keepReads (s : State) (gid id : Nat) (as vs : List (Nat × Nat)) (h : Ok P s) : Ok P (keepReads s gid id as vs) := by
  unfold keepReads
  exact ok_modGroup _ _ _ h

theorem ok_partEarly (s : State) (gid id : Nat) (g : Group) (op : FOp) (l : Nat) (h : Ok P s) : Ok P (partEarly s gid id g op l) := by
  unfold partEarly
  repeat first | with_reducible assumption | with_reducible apply ok_keepReads | with_reducible apply ok_loadParts | with_reducible apply ok_setOp |
    with_reducible apply ok_modGroup | dsimp only | split

theorem ok_partResult (s : State) (gid id l : Nat) (h : Ok P s) : Ok P (partResult s gid id l) := by
  unfold partResult
  repeat first | with_reducible assumption | with_reducible apply ok_partEarly | split

theorem ok_execPendingWritePublish (hw : Closed P) (c a : Nat) (s : State) (h : Ok P s) : OkOut P (execPendingWritePublish c a s) := by
  unfold execPendingWritePublish
  repeat first | with_reducible assumption | with_reducible apply ok_publishPend | with_reducible apply ok_next | split

/-! Engine. -/

theorem ok_bulkDone (s : State) (b : Nat) (x : Bulk) (h : Ok P s) : Ok P (bulkDone s b x) := by
  unfold bulkDone
  repeat first | with_reducible assumption | with_reducible apply ok_okCmd | with_reducible apply ok_opDone | dsimp only |
    simp only [ok_mk] | with_reducible apply ok_wf | split

theorem ok_dropReqs (s : State) (b : Nat) (h : Ok P s) : Ok P (dropReqs s b) := by
  unfold dropReqs
  repeat first | with_reducible assumption | dsimp only | simp only [ok_mk] | with_reducible apply ok_wf

theorem ok_bulkFault (s : State) (b : Nat) (x : Bulk) (cause : Cause) (ecause va : Nat) (h : Ok P s) : Ok P (bulkFault s b x cause ecause
    va) := by
  unfold bulkFault
  repeat first | with_reducible assumption | with_reducible apply ok_errorRecord | with_reducible apply ok_dropReqs |
    with_reducible apply ok_endCmd | with_reducible apply ok_opDone | with_reducible apply ok_faultGroup | dsimp only |
    simp only [ok_mk] | with_reducible apply ok_wf | split

theorem ok_bulkLost (s : State) (b part : Nat) (x : Bulk) (kind : AKind) (key va : Nat) (x7 : Where) (h : Ok P s) : Ok P (bulkLost s b
    part x kind key va x7) := by
  unfold bulkLost
  repeat first | with_reducible assumption | with_reducible apply ok_request | with_reducible apply ok_lookCounted | intro _ | with_reducible apply ok_requestOnce | with_reducible apply ok_bulkFault |
    with_reducible apply ok_tagFault | with_reducible apply ok_foldl | split

theorem ok_warm (s : State) (x : Bulk) (code a n : Nat) (h : Ok P s) : Ok P (warm s x code a n) := by
  unfold warm
  repeat first | with_reducible assumption | with_reducible apply ok_lookCounted | intro _ | with_reducible apply ok_lookup | with_reducible apply ok_foldl | split

theorem ok_noteDlv (s : State) (x : Bulk) (rs : List (Nat × Nat)) (h : Ok P s) : Ok P (noteDlv s x rs) := by
  unfold noteDlv
  repeat first | with_reducible assumption | with_reducible apply ok_modGroup | split

theorem ok_deliver (hw : Closed P) (ls : List Loc) (bs : List Byte) (s : State) (h : Ok P s) : Ok P (deliver ls bs s) := by
  unfold deliver
  repeat first | with_reducible assumption | with_reducible apply ok_writeLocs

theorem ok_arriveAtTeam (s : State) (team : Nat) (bar : Option Nat) (ls : List Loc) (count : Nat) (h : Ok P s) : Ok P (arriveAtTeam s team
    bar ls count) := by
  unfold arriveAtTeam
  repeat first | with_reducible assumption | with_reducible apply ok_arriveBytes | with_reducible apply ok_modTeam | split

theorem ok_bulkWatch (s : State) (x : Bulk) (kind : AKind) (code va n : Nat) (h : Ok P s) : Ok P (bulkWatch s x kind code va n) := by
  unfold bulkWatch
  repeat first | with_reducible assumption | with_reducible apply ok_watchStop | split

theorem ok_residency (s : State) (x : Bulk) (h : Ok P s) : Ok P (residency s x) := by
  unfold residency
  repeat first | with_reducible assumption | with_reducible apply ok_resPut | with_reducible apply ok_setCpystat |
    with_reducible refine ok_snd (by assumption) ?_ | dsimp only | split

theorem ok_pieceDone (s : State) (b c k : Nat) (x : Bulk) (h : Ok P s) : Ok P (pieceDone s b c k x) := by
  unfold pieceDone
  repeat first | with_reducible assumption | with_reducible apply ok_setCpystat | with_reducible apply ok_bulkDone |
    with_reducible apply ok_residency | dsimp only | simp only [ok_mk] | with_reducible apply ok_wf | split

theorem ok_deliverCopy (hw : Closed P) (s : State) (b k : Nat) (x : Bulk) (h : Ok P s) : Ok P (deliverCopy s b k x) := by
  unfold deliverCopy
  repeat first | with_reducible assumption | with_reducible apply ok_deliver | with_reducible apply ok_warm |
    with_reducible apply ok_noteDlv | with_reducible apply ok_arriveAtTeam | with_reducible apply ok_bulkWatch |
    with_reducible apply ok_pieceDone | with_reducible apply ok_bulkLost | dsimp only | split

theorem ok_execCopyDelivery (hw : Closed P) (b k : Nat) (s : State) (h : Ok P s) : OkOut P (execCopyDelivery b k s) := by
  unfold execCopyDelivery
  repeat first | with_reducible assumption | with_reducible apply ok_deliverCopy | with_reducible apply ok_next | split

theorem ok_fetchPiece (s : State) (b k : Nat) (x : Bulk) (src : Nat × Nat × Nat) (n : Nat) (h : Ok P s) : Ok P (fetchPiece s b k x src
    n).2 := by
  unfold fetchPiece
  repeat first | with_reducible assumption | with_reducible apply ok_warm | with_reducible apply ok_bulkLost | split

theorem ok_deliverMulticast (hw : Closed P) (s : State) (b k c : Nat) (x : Bulk) (h : Ok P s) : Ok P (deliverMulticast s b k c x) := by
  unfold deliverMulticast
  repeat first | with_reducible assumption | with_reducible apply ok_fetchPiece | with_reducible apply ok_bulkWatch |
    with_reducible apply ok_pieceDone | with_reducible apply ok_arriveAtTeam | with_reducible apply ok_noteDlv |
    with_reducible apply ok_deliver | with_reducible refine ok_snd (by assumption) ?_ | dsimp only | split

theorem ok_execMulticastDelivery (hw : Closed P) (b k c : Nat) (s : State) (h : Ok P s) : OkOut P (execMulticastDelivery b k c s) := by
  unfold execMulticastDelivery
  repeat first | with_reducible assumption | with_reducible apply ok_deliverMulticast | with_reducible apply ok_next | split

theorem ok_reduceNow (hw : Closed P) (s : State) (key : Nat) (r : Red) (x : Bulk) (h : Ok P s) : Ok P (reduceNow s key r x) := by
  unfold reduceNow
  repeat first | with_reducible assumption | with_reducible apply ok_deliver | with_reducible apply ok_arriveBytes |
    with_reducible apply ok_modTeam | dsimp only | simp only [ok_mk] | with_reducible apply ok_wf | split

theorem ok_contribute (hw : Closed P) (s : State) (b : Nat) (x : Bulk) (h : Ok P s) : Ok P (contribute s b x) := by
  unfold contribute
  repeat first | with_reducible assumption | with_reducible apply ok_bulkDone | with_reducible apply ok_setCpystat |
    with_reducible apply ok_reduceNow | dsimp only | simp only [ok_mk] | with_reducible apply ok_wf | split

theorem ok_execReductionContribution (hw : Closed P) (b : Nat) (s : State) (h : Ok P s) : OkOut P (execReductionContribution b s) := by
  unfold execReductionContribution
  repeat first | with_reducible assumption | with_reducible apply ok_contribute | with_reducible apply ok_next | split

theorem ok_moveRow (hw : Closed P) (s : State) (x : Bulk) (from_ to_ : List Loc) (is : List Nat) (h : Ok P s) : Ok P (moveRow s x from_
    to_ is) := by
  unfold moveRow
  repeat first | with_reducible assumption | with_reducible apply ok_deliver

theorem ok_deliverLane (hw : Closed P) (s : State) (b : Nat) (x : Bulk) (m : LaneMove) (h : Ok P s) : Ok P (deliverLane s b x m) := by
  unfold deliverLane
  repeat first | with_reducible assumption | with_reducible apply ok_warm | with_reducible apply ok_noteDlv |
    with_reducible apply ok_moveRow | with_reducible apply ok_arriveAtTeam | with_reducible apply ok_bulkWatch |
    with_reducible apply ok_pieceDone | with_reducible apply ok_bulkLost | dsimp only | split

theorem ok_laneEvent (hw : Closed P) (kind : BulkKind) (b l : Nat) (s : State) (h : Ok P s) : Ok P (laneEvent kind b l s) := by
  unfold laneEvent
  repeat first | with_reducible assumption | with_reducible apply ok_deliverLane | split

theorem ok_execGatherLaneDelivery (hw : Closed P) (b l : Nat) (s : State) (h : Ok P s) : OkOut P (execGatherLaneDelivery b l s) := by
  unfold execGatherLaneDelivery
  repeat first | with_reducible assumption | with_reducible apply ok_laneEvent | with_reducible apply ok_next

theorem ok_execScatterRowWrite (hw : Closed P) (b l : Nat) (s : State) (h : Ok P s) : OkOut P (execScatterRowWrite b l s) := by
  unfold execScatterRowWrite
  repeat first | with_reducible assumption | with_reducible apply ok_laneEvent | with_reducible apply ok_next

theorem ok_execPeerRefusal (b : Nat) (s : State) (h : Ok P s) : OkOut P (execPeerRefusal b s) := by
  unfold execPeerRefusal
  repeat first | with_reducible assumption | with_reducible apply ok_bulkFault | with_reducible apply ok_next | split

/-! Walk. -/

theorem ok_denied (s : State) (addr : Nat) (h : Ok P s) : Ok P (denied s addr) := by
  unfold denied
  repeat first | with_reducible assumption | with_reducible apply ok_errorRecord

theorem ok_barWrite (s : State) (m : Master) (off n : Nat) (k : State → State) (h0 : Ok P s) (h4 : ∀ y0, Ok P y0 → Ok P (k y0)) : Ok P
    (barWrite s m off n k) := by
  unfold barWrite
  repeat first | with_reducible assumption | with_reducible apply h4 | with_reducible apply ok_denied | split

theorem ok_unhaltUnit (s : State) (cls : List (Nat × Cluster)) (h : Ok P s) : Ok P (unhaltUnit s cls) := by
  unfold unhaltUnit
  repeat first | with_reducible assumption | intro _ | with_reducible apply ok_modGroup | with_reducible apply ok_foldl

theorem ok_abandon (s : State) (cls : List (Nat × Cluster)) (h : Ok P s) : Ok P (abandon s cls) := by
  unfold abandon
  repeat first | with_reducible assumption | intro _ | with_reducible apply ok_modCluster | with_reducible apply ok_unhaltUnit |
    with_reducible apply ok_foldl

theorem ok_journalCluster (s : State) (cl : Nat) (h : Ok P s) : Ok P (journalCluster s cl) := by
  unfold journalCluster
  exact ok_journal _ _ _ _ _ h

theorem ok_faultSeqCmd (s : State) (t : Nat) (cause : Cause) (pc : Word) (gid : Nat) (h : Ok P s) : Ok P (faultSeqCmd s t cause pc gid) :=
    by
  unfold faultSeqCmd
  repeat first | with_reducible assumption | with_reducible apply ok_faultTask | with_reducible apply ok_faultCmd | dsimp only | split

theorem ok_reqFails (s : State) (r : Req) (cause : Cause) (ecause : Nat) (h : Ok P s) : Ok P (reqFails s r cause ecause) := by
  unfold reqFails
  repeat first | with_reducible assumption | with_reducible apply ok_errorRecord | with_reducible apply ok_bulkFault |
    with_reducible apply ok_faultGroup | with_reducible apply ok_faultSeqCmd | with_reducible apply ok_faultTask |
    with_reducible apply ok_opDone | dsimp only | split

theorem ok_malformedRecord (s : State) (r : Req) (h : Ok P s) : Ok P (malformedRecord s r) := by
  unfold malformedRecord
  repeat first | with_reducible assumption | with_reducible apply ok_errorRecord

theorem ok_hubMalformed (s : State) (r : Req) (h : Ok P s) : Ok P (hubMalformed s r) := by
  unfold hubMalformed
  repeat first | with_reducible assumption | with_reducible apply ok_malformedRecord | with_reducible apply ok_nextPacket |
    with_reducible apply ok_rejectPacket | with_reducible apply ok_modQueue | with_reducible apply ok_endCmd |
    with_reducible apply ok_faultCmd | with_reducible apply ok_modCmd | with_reducible apply ok_errorRecord |
    with_reducible apply ok_abandon | with_reducible apply ok_journalCluster | with_reducible apply ok_reqFails | dsimp only | split

theorem ok_lockFound (s : State) (r : Req) (t : Trn) (h : Ok P s) : Ok P (lockFound s r t) := by
  unfold lockFound
  repeat first | with_reducible assumption | with_reducible apply ok_setOp | split

theorem ok_reqContinues (s : State) (r : Req) (t : Trn) (h : Ok P s) : Ok P (reqContinues s r t) := by
  unfold reqContinues
  repeat first | with_reducible assumption | with_reducible apply ok_reqFails | with_reducible apply ok_tagFault |
    with_reducible apply ok_lockFound | split

theorem ok_fillFor (t : Tlb) (s : State) (r : Req) (h : Ok P s) : Ok P (fillFor t s r) := by
  unfold fillFor
  repeat first | with_reducible assumption | with_reducible apply ok_fillL1 | split

theorem ok_reissue (die : Nat) (s : State) (r : Req) (h : Ok P s) : Ok P (reissue die s r) := by
  unfold reissue
  repeat first | with_reducible assumption | with_reducible apply ok_lookCounted | with_reducible apply ok_lookup | with_reducible apply ok_reqContinues |
    with_reducible apply ok_request | with_reducible refine ok_snd (by assumption) ?_ | split

theorem ok_feedPort (s : State) (die : Nat) (h : Ok P s) : Ok P (feedPort s die) := by
  unfold feedPort
  repeat first | with_reducible assumption | intro _ | with_reducible apply ok_reissue | with_reducible apply ok_modDie |
    with_reducible apply ok_foldl | dsimp only | split

theorem ok_dropEnded (s : State) (h : Ok P s) : Ok P (dropEnded s) := by
  unfold dropEnded
  repeat first | with_reducible assumption | with_reducible apply ok_completeParked | dsimp only | simp only [ok_mk] |
    with_reducible apply ok_wf | split

theorem ok_execWalkStart (d : Nat) (s : State) (h : Ok P s) : OkOut P (execWalkStart d s) := by
  unfold execWalkStart
  repeat first | with_reducible assumption | with_reducible apply ok_modDie | with_reducible apply ok_next | split

theorem ok_faultRecord (s : State) (die level : Nat) (m : Miss) (h : Ok P s) : Ok P (faultRecord s die level m) := by
  unfold faultRecord
  repeat first | with_reducible assumption | with_reducible apply ok_modDie | with_reducible apply ok_postMsg | split

theorem ok_parkEntry (s : State) (die : Nat) (m : Miss) (h : Ok P s) : Ok P (parkEntry s die m) := by
  unfold parkEntry
  repeat first | with_reducible assumption | intro _ | with_reducible apply ok_modDie | with_reducible apply ok_noteParked |
    with_reducible apply ok_foldl

theorem ok_endWalk (s : State) (die : Nat) (m : Miss) (h : Ok P s) : Ok P (endWalk s die m) := by
  unfold endWalk
  repeat first | with_reducible assumption | intro _ | with_reducible apply ok_modDie | with_reducible apply ok_fillWalk |
    with_reducible apply ok_fillFor | with_reducible apply ok_fillL2 | with_reducible apply ok_reqContinues |
    with_reducible apply ok_hubMalformed | with_reducible apply ok_reqFails | with_reducible apply ok_dropEnded |
    with_reducible apply ok_parkEntry | with_reducible apply ok_faultRecord | with_reducible apply ok_foldl | dsimp only | split

theorem ok_execWalkEnd (d k : Nat) (s : State) (h : Ok P s) : OkOut P (execWalkEnd d k s) := by
  unfold execWalkEnd
  repeat first | with_reducible assumption | with_reducible apply ok_feedPort | with_reducible apply ok_endWalk |
    with_reducible apply ok_next | split

theorem ok_replayDie (s : State) (die : Nat) (h : Ok P s) : Ok P (replayDie s die) := by
  unfold replayDie
  repeat first | with_reducible assumption | intro _ | with_reducible apply ok_modDie | with_reducible apply ok_reissue |
    with_reducible apply ok_foldl

theorem ok_execFltreplay (d : Nat) (v : Word) (s : State) (h : Ok P s) : OkOut P (execFltreplay d v s) := by
  unfold execFltreplay
  repeat first | with_reducible assumption | with_reducible apply ok_feedPort | with_reducible apply ok_replayDie |
    with_reducible apply ok_next | split

theorem ok_performInval (s : State) (v : Inval) (h : Ok P s) : Ok P (performInval s v) := by
  unfold performInval
  repeat first | with_reducible assumption | intro _ | with_reducible apply ok_vatTidy | with_reducible apply ok_foldl | dsimp only |
    simp only [ok_mk] | with_reducible apply ok_wf

theorem ok_execInvalidationPerform (n : Nat) (s : State) (h : Ok P s) : OkOut P (execInvalidationPerform n s) := by
  unfold execInvalidationPerform
  repeat first | with_reducible assumption | with_reducible apply ok_performInval | with_reducible apply ok_next | split

theorem ok_completeInvals (s : State) (h : Ok P s) : Ok P (completeInvals s) := by
  unfold completeInvals
  repeat first | with_reducible assumption | dsimp only | simp only [ok_mk] | with_reducible apply ok_wf

theorem ok_answerDestroys (s : State) (h : Ok P s) : Ok P (answerDestroys s) := by
  unfold answerDestroys
  repeat first | with_reducible assumption | intro _ | with_reducible apply ok_answer | with_reducible apply ok_foldl | dsimp only |
    simp only [ok_mk] | with_reducible apply ok_wf

theorem ok_completeInval (s : State) (v : Inval) (h : Ok P s) : Ok P (completeInval s v) := by
  unfold completeInval
  repeat first | with_reducible assumption | with_reducible apply ok_answerDestroys | with_reducible apply ok_completeInvals | dsimp only |
    simp only [ok_mk] | with_reducible apply ok_wf

theorem ok_execInvalidationComplete (n : Nat) (s : State) (h : Ok P s) : OkOut P (execInvalidationComplete n s) := by
  unfold execInvalidationComplete
  repeat first | with_reducible assumption | with_reducible apply ok_completeInval | with_reducible apply ok_next | split

theorem ok_goInvrange (v : Word) (s : State) (h : Ok P s) : Ok P (goInvrange v s) := by
  unfold goInvrange
  repeat first | with_reducible assumption | with_reducible apply ok_startInval | dsimp only | simp only [ok_mk] |
    with_reducible apply ok_wf | split

theorem ok_execInvrange (m : Master) (v : Word) (s : State) (h : Ok P s) : OkOut P (execInvrange m v s) := by
  unfold execInvrange
  repeat first | with_reducible assumption | intro _ | with_reducible apply ok_barWrite | with_reducible apply ok_goInvrange |
    with_reducible apply ok_next

theorem ok_execRangeEntryWrite (d i : Nat) (img : List Word) (s : State) (h : Ok P s) : OkOut P (execRangeEntryWrite d i img s) := by
  unfold execRangeEntryWrite
  repeat first | with_reducible assumption | with_reducible apply ok_modDie | with_reducible apply ok_errorRecord | dsimp only |
    with_reducible apply ok_next | split

/-! Release. -/

theorem ok_grantGrow (s : State) (quad : Nat) (h : Ok P s) : Ok P (grantGrow s quad) := by
  unfold grantGrow
  repeat first | with_reducible assumption | with_reducible apply ok_modGroup | with_reducible apply ok_checkGrow |
    with_reducible apply ok_endGrow | dsimp only | split

theorem ok_execGrowGrant (c q : Nat) (s : State) (h : Ok P s) : OkOut P (execGrowGrant c q s) := by
  unfold execGrowGrant
  repeat first | with_reducible assumption | with_reducible apply ok_grantGrow | with_reducible apply ok_next | split

theorem ok_unwait (s : State) (h : Ok P s) : Ok P (unwait s) := by
  unfold unwait
  repeat first | with_reducible assumption | dsimp only | simp only [ok_mk] | with_reducible apply ok_wf | split

theorem ok_leaveParked (s : State) (quad : Nat) (h : Ok P s) : Ok P (leaveParked s quad) := by
  unfold leaveParked
  repeat first | with_reducible assumption | intro _ | with_reducible apply ok_modGroup | with_reducible apply ok_foldl

theorem ok_enterActive (s : State) (quad : Nat) (h : Ok P s) : Ok P (enterActive s quad) := by
  unfold enterActive
  repeat first | with_reducible assumption | with_reducible apply ok_unYield | with_reducible apply ok_modGroup |
    with_reducible apply ok_leaveParked | split

theorem ok_execActiveSetEntry (c q : Nat) (s : State) (h : Ok P s) : OkOut P (execActiveSetEntry c q s) := by
  unfold execActiveSetEntry
  repeat first | with_reducible assumption | with_reducible apply ok_enterActive | with_reducible apply ok_next | split

theorem ok_releaseGroup (s : State) (gid : Nat) (h : Ok P s) : Ok P (releaseGroup s gid) := by
  unfold releaseGroup
  repeat first | with_reducible assumption | with_reducible apply ok_checkGrow | with_reducible apply ok_retireTeam |
    with_reducible apply ok_unYield | with_reducible apply ok_leaveWriters | with_reducible apply ok_leaveWalks | dsimp only |
    simp only [ok_mk] | with_reducible apply ok_wf | split

theorem ok_execGroupRelease (g : Nat) (s : State) (h : Ok P s) : OkOut P (execGroupRelease g s) := by
  unfold execGroupRelease
  repeat first | with_reducible assumption | with_reducible apply ok_releaseGroup | with_reducible apply ok_next | split

theorem ok_graphFault (s : State) (k : Task) (cause : Nat) (h : Ok P s) : Ok P (graphFault s k cause) := by
  unfold graphFault
  repeat first | with_reducible assumption | with_reducible apply ok_faultCmd

theorem ok_refusedBlock (s : State) (k : Task) (sid : Nat) (kind : AKind) (v : Nat) (h : Ok P s) : Ok P (refusedBlock s k sid kind v) :=
    by
  unfold refusedBlock
  repeat first | with_reducible assumption | with_reducible apply ok_graphFault | with_reducible apply ok_hubNote

theorem ok_decrement (hw : Closed P) (s : State) (k : Task) (sid v : Nat) (h : Ok P s) : Ok P (decrement s k sid v).1 := by
  unfold decrement
  repeat first | with_reducible assumption | with_reducible apply ok_graphFault | with_reducible apply ok_writeLocs |
    with_reducible apply ok_newTask | with_reducible apply ok_refusedBlock | dsimp only | split

theorem ok_decrementAll (hw : Closed P) (k : Task) (sid : Nat) (x2 : List Nat) (x3 : State) (h : Ok P x3) : Ok P (decrementAll k sid x2
    x3).1 := by
  fun_induction decrementAll k sid x2 x3
  all_goals
    repeat first | with_reducible assumption | with_reducible refine ok_mp (by assumption) ?_ | with_reducible apply ok_decrement |
      with_reducible refine ok_fst (by assumption) ?_

theorem ok_takeVersion (s : State) (c key : Nat) (h : Ok P s) : Ok P (takeVersion s c key) := by
  unfold takeVersion
  repeat first | with_reducible assumption | with_reducible apply ok_modCmd

theorem ok_dropTask (hw : Closed P) (s : State) (t : Nat) (k : Task) (h : Ok P s) : Ok P (dropTask s t k) := by
  unfold dropTask
  repeat first | with_reducible assumption | with_reducible apply ok_endVat | with_reducible apply ok_publishGrid |
    with_reducible apply ok_takeVersion | with_reducible apply ok_modCmd | simp only [ok_mk] | with_reducible apply ok_wf | split

theorem ok_retireTask (hw : Closed P) (s : State) (t : Nat) (k : Task) (h : Ok P s) : Ok P (retireTask s t k) := by
  unfold retireTask
  repeat first | with_reducible assumption | with_reducible apply ok_dropTask | with_reducible apply ok_hubRequest |
    with_reducible apply ok_refusedBlock | with_reducible apply ok_decrementAll | with_reducible apply ok_writeLocs |
    with_reducible refine ok_fst (by assumption) ?_ | dsimp only | split

theorem ok_execTaskRetire (hw : Closed P) (t : Nat) (s : State) (h : Ok P s) : OkOut P (execTaskRetire t s) := by
  unfold execTaskRetire
  repeat first | with_reducible assumption | with_reducible apply ok_retireTask | with_reducible apply ok_next | split

theorem ok_publishRan (hw : Closed P) (s : State) (cs : List Nat) (h : Ok P s) : Ok P (publishRan s cs) := by
  unfold publishRan
  repeat first | with_reducible assumption | intro _ | with_reducible apply ok_publishHomes | with_reducible apply ok_foldl

theorem ok_closeCmd (s : State) (c : Nat) (x : Command) (h : Ok P s) : Ok P (closeCmd s c x) := by
  unfold closeCmd
  repeat first | with_reducible assumption | with_reducible apply ok_modQueue | with_reducible apply ok_okCmd | dsimp only |
    simp only [ok_mk] | with_reducible apply ok_wf | split

theorem ok_writeRecord (hw : Closed P) (s : State) (c : Nat) (x : Command) (h : Ok P s) : Ok P (writeRecord s c x) := by
  unfold writeRecord
  repeat first | with_reducible assumption | with_reducible apply ok_closeCmd | with_reducible apply ok_hubRequest |
    with_reducible apply ok_errorRecord | with_reducible apply ok_hubNote | with_reducible apply ok_writeLocs | split

theorem ok_completeCmd (hw : Closed P) (s : State) (c : Nat) (h : Ok P s) : Ok P (completeCmd s c) := by
  unfold completeCmd
  repeat first | with_reducible assumption | with_reducible apply ok_closeRecording | with_reducible apply ok_dropReds |
    with_reducible apply ok_publishRan | with_reducible apply ok_writeRecord | dsimp only | split

theorem ok_execCommandComplete (hw : Closed P) (c : Nat) (s : State) (h : Ok P s) : OkOut P (execCommandComplete c s) := by
  unfold execCommandComplete
  repeat first | with_reducible assumption | with_reducible apply ok_completeCmd | with_reducible apply ok_next | split

/-! Image. -/

theorem ok_putStack (hw : Closed P) (bs : List Byte) (g : Group) (s : State) (h : Ok P s) : Ok P (putStack bs g s) := by
  unfold putStack
  repeat first | with_reducible assumption | with_reducible apply ok_publishBytes

theorem ok_applyGroup (hw : Closed P) (gid : Nat) (r : List Byte × State) (h : Ok P (r).2) : Ok P (applyGroup gid r).2 := by
  unfold applyGroup
  repeat first | with_reducible assumption | with_reducible apply ok_putStack | dsimp only | simp only [ok_mk] |
    with_reducible apply ok_wf | split

theorem ok_applyTeam (hw : Closed P) (sh : Bool) (r : List Byte × State) (tid : Nat) (h : Ok P (r).2) : Ok P (applyTeam sh r tid).2 := by
  unfold applyTeam
  repeat first | with_reducible assumption | intro _ | with_reducible apply ok_writeBytes | with_reducible apply ok_applyGroup |
    with_reducible apply ok_foldl2 | dsimp only | simp only [ok_mk] | with_reducible apply ok_wf | split

theorem ok_applyTeams (hw : Closed P) (sh : Bool) (u : List (Nat × Cluster)) (r : List Byte × State) (h : Ok P r.2) :
    Ok P (applyTeams sh u r).2 := by
  unfold applyTeams
  exact ok_foldl2 h fun x a hx => ok_applyTeam hw sh x a.1 hx

theorem ok_applyImage (hw : Closed P) (sh : Bool) (s : State) (u : List (Nat × Cluster)) (img : List Byte) (h : Ok P s) : Ok P (applyImage
    sh s u img) := by
  unfold applyImage
  repeat first | with_reducible assumption | with_reducible apply ok_applyTeams | intro _ | with_reducible apply ok_applyTeam | with_reducible apply ok_foldl2

/-! Place. -/

theorem ok_putGroups (slot : State → Nat → Option Nat) (mk : Nat → Nat → Nat → Group) (tid : Nat) (x3 : List Nat) (x4 : State) (h : Ok P
    x4) : Ok P (putGroups slot mk tid x3 x4) := by
  fun_induction putGroups slot mk tid x3 x4
  all_goals
    repeat first | with_reducible assumption | with_reducible refine ok_mp (by assumption) ?_ | with_reducible apply ok_fresh |
      with_reducible apply ok_modTeam | with_reducible refine ok_snd (by assumption) ?_ | simp only [ok_mk] | with_reducible apply ok_wf

theorem ok_setLead (tid : Nat) (s : State) (h : Ok P s) : Ok P (setLead tid s) := by
  unfold setLead
  repeat first | with_reducible assumption | with_reducible apply ok_modTeam

theorem ok_logPlacement (hw : Closed P) (s : State) (cmd tid : Nat) (h : Ok P s) : Ok P (logPlacement s cmd tid) := by
  unfold logPlacement
  repeat first | with_reducible assumption | intro _ | with_reducible apply ok_onStream | with_reducible apply ok_addEntry |
    with_reducible apply ok_foldl

theorem ok_placeTeam (hw : Closed P) (slot : State → Nat → Option Nat) (k : Task) (cl i : Nat) (at_ : Nat × Nat × Nat × Nat) (cores : List
    Nat) (s : State) (h : Ok P s) : Ok P (placeTeam slot k cl i at_ cores s) := by
  unfold placeTeam
  repeat first | with_reducible assumption | with_reducible apply ok_fresh | with_reducible apply ok_setLead |
    with_reducible apply ok_putGroups | with_reducible apply ok_modCluster | with_reducible apply ok_logPlacement | dsimp only |
    simp only [ok_mk] | with_reducible apply ok_wf

theorem ok_checkStacks (s : State) (cl : Nat) (k : Task) (h : Ok P s) : Ok P (checkStacks s cl k) := by
  unfold checkStacks
  repeat first | with_reducible assumption | with_reducible apply ok_faultGroup | dsimp only | split

theorem ok_placementMade (s : State) (h : Ok P s) : Ok P (placementMade s) := by
  unfold placementMade
  repeat first | with_reducible assumption | dsimp only | simp only [ok_mk] | with_reducible apply ok_wf

theorem ok_noteRan (s : State) (c : Nat) (cores : List Nat) (h : Ok P s) : Ok P (noteRan s c cores) := by
  unfold noteRan
  repeat first | with_reducible assumption | with_reducible apply ok_modCmd

theorem ok_placeCluster (hw : Closed P) (s : State) (tk anchor : Nat) (cores : Nat → List Nat) (slot : Nat → State → Nat → Option Nat) (h
    : Ok P s) : Ok P (placeCluster s tk anchor cores slot) := by
  unfold placeCluster
  repeat first | with_reducible assumption | intro _ | with_reducible apply ok_fresh | with_reducible apply ok_placeTeam |
    with_reducible apply ok_noteRan | with_reducible apply ok_journal | with_reducible apply ok_modTask |
    with_reducible apply ok_placementMade | with_reducible apply ok_foldl | dsimp only | simp only [ok_mk] | with_reducible apply ok_wf |
    split

theorem ok_placeAt (hw : Closed P) (s : State) (tk : Nat) (k : Task) (anchor : Nat) (h : Ok P s) : Ok P (placeAt s tk k anchor) := by
  unfold placeAt
  repeat first | with_reducible assumption | with_reducible apply ok_placeCluster

theorem ok_placeLogged (hw : Closed P) (s : State) (tk : Nat) (k : Task) (gss : List (List Nat)) (h : Ok P s) : Ok P (placeLogged s tk k
    gss) := by
  unfold placeLogged
  repeat first | with_reducible assumption | with_reducible apply ok_modCmd | with_reducible apply ok_placeCluster

theorem ok_resumeTeam (same : Bool) (k : Task) (c : Cluster) (cores : List Nat) (tid : Nat) (t : Team) (s : State) (h : Ok P s) :
    Ok P (resumeTeam same k c cores tid t s) := by
  unfold resumeTeam
  repeat first | with_reducible assumption | with_reducible apply ok_putGroups | with_reducible apply ok_setLead |
    with_reducible apply ok_modTeam | simp only [ok_mk] | with_reducible apply ok_wf

theorem ok_resumeAt (same : Bool) (s : State) (cl : Nat) (k : Task) (c : Cluster) (anchor : Nat) (h : Ok P s) :
    Ok P (resumeAt same s cl k c anchor) := by
  unfold resumeAt
  repeat first | with_reducible assumption | intro _ | with_reducible apply ok_modCluster | with_reducible apply ok_noteRan |
    with_reducible apply ok_journal | with_reducible apply ok_resumeTeam | with_reducible apply ok_placementMade |
    with_reducible apply ok_foldl | simp only [ok_mk] | with_reducible apply ok_wf | split

theorem ok_startUnit (s : State) (cls : List (Nat × Cluster)) (h : Ok P s) : Ok P (startUnit s cls) := by
  unfold startUnit
  repeat first | with_reducible assumption | intro _ | with_reducible apply ok_unhaltUnit | with_reducible apply ok_foldl

theorem ok_prepareVat (hw : Closed P) (s : State) (tk : Nat) (h : Ok P s) : Ok P (prepareVat s tk) := by
  unfold prepareVat
  repeat first | with_reducible assumption | intro _ | with_reducible apply ok_clearRind | with_reducible apply ok_setHead |
    with_reducible apply ok_vatWrite | with_reducible apply ok_modVat | with_reducible apply ok_chooseCurd |
    with_reducible apply ok_modLadder | with_reducible apply ok_modGroup | with_reducible apply ok_foldl | dsimp only |
    simp only [ok_mk] | with_reducible apply ok_wf | split

theorem ok_emptyDevice (s : State) (h : Ok P s) : Ok P (emptyDevice s) := by
  unfold emptyDevice
  repeat first | with_reducible assumption | simp only [ok_mk] | with_reducible apply ok_wf

theorem ok_placeRest (hw : Closed P) (sid tk x2 : Nat) (x3 : State) (h : Ok P x3) : OkOpt P (placeRest sid tk x2 x3) := by
  fun_induction placeRest sid tk x2 x3
  all_goals
    repeat first | with_reducible assumption | with_reducible refine ok_mp (by assumption) ?_ | with_reducible apply ok_placeAt |
      with_reducible refine ok_opt_none | with_reducible apply ok_opt_some

theorem ok_checkHead (s : State) (sid tk : Nat) (k : Task) (d : List Word) (h : Ok P s) : OkReady P (checkHead s sid tk k d) := by
  unfold checkHead
  repeat first | with_reducible assumption | intro _ | with_reducible apply ok_hubRequest | with_reducible apply ok_hubNote |
    with_reducible apply ready_onHub | simp only [ok_mk] | with_reducible apply ok_wf | with_reducible apply mk_rok |
    with_reducible apply mk_rwait | with_reducible apply mk_reject | split

theorem ok_afterRanges (s : State) (sid tk : Nat) (r : List Nat × Bool) (next : Ready) (h0 : Ok P s) (h4 : OkReady P (next)) : OkReady P
    (afterRanges s sid tk r next) := by
  unfold afterRanges
  repeat first | with_reducible assumption | with_reducible apply ok_hubRequest | with_reducible apply mk_rwait |
    with_reducible apply mk_reject | split

theorem ok_checkVat (s : State) (sid tk : Nat) (k : Task) (h : Ok P s) : OkReady P (checkVat s sid tk k) := by
  unfold checkVat
  repeat first | with_reducible assumption | intro _ | with_reducible apply ok_hubRequest | with_reducible apply ok_hubNote |
    with_reducible apply ok_afterRanges | with_reducible apply ok_checkHead | with_reducible apply ready_onHub | dsimp only |
    with_reducible apply mk_rwait | with_reducible apply mk_reject | split

theorem ok_checkSaved (s : State) (tk : Nat) (k : Task) (h : Ok P s) : OkReady P (checkSaved s tk k) := by
  unfold checkSaved
  repeat first | with_reducible assumption | intro _ | with_reducible apply ok_hubRequest | with_reducible apply ok_faultCmd |
    with_reducible apply ok_hubNote | with_reducible apply ready_onHub | dsimp only | with_reducible apply mk_rok |
    with_reducible apply mk_rwait | with_reducible apply mk_stop | split

theorem ok_checkBlock (s : State) (sid tk : Nat) (k : Task) (next : Ready) (h : Ok P s) (hn : OkReady P next) :
    OkReady P (checkBlock s sid tk k next) := by
  unfold checkBlock
  repeat first | with_reducible assumption | with_reducible apply ok_hubRequest | with_reducible apply ok_refusedBlock |
    with_reducible apply mk_rwait | with_reducible apply mk_stop | split

theorem ok_checkTask (s : State) (tk : Nat) (k : Task) (h : Ok P s) : OkReady P (checkTask s tk k) := by
  unfold checkTask
  repeat first | with_reducible assumption | intro _ | with_reducible apply ok_checkBlock | with_reducible apply ready_onHub | with_reducible apply ok_checkSaved | with_reducible apply ok_hubRequest |
    with_reducible apply ok_hubNote | with_reducible apply ok_checkVat | dsimp only | simp only [ok_mk] | with_reducible apply ok_wf |
    with_reducible apply mk_rok | with_reducible apply mk_rwait | with_reducible apply mk_reject | split

theorem ok_markRunning (hw : Closed P) (s : State) (k : Task) (h : Ok P s) : Ok P (markRunning s k) := by
  unfold markRunning
  repeat first | with_reducible assumption | with_reducible apply ok_writeLocs | split

theorem ok_checkAllStacks (s : State) (tk : Nat) (k : Task) (h : Ok P s) : Ok P (checkAllStacks s tk k) := by
  unfold checkAllStacks
  repeat first | with_reducible assumption | intro _ | with_reducible apply ok_checkStacks | with_reducible apply ok_foldl

theorem ok_resumeCluster (sid cl : Nat) (k : Task) (c : Cluster) (s : State) (h : Ok P s) : OkOpt P (resumeCluster sid cl k c s) := by
  unfold resumeCluster
  repeat first | with_reducible assumption | intro _ | with_reducible apply ok_resumeAt | with_reducible apply ok_opt_of_map |
    with_reducible refine ok_opt_none | with_reducible apply ok_opt_some | split

theorem ok_resumeUnits (sid : Nat) (k : Task) (x2 : List (Nat × Cluster)) (x3 : State) (h : Ok P x3) : OkOpt P (resumeUnits sid k x2 x3)
    := by
  fun_induction resumeUnits sid k x2 x3
  all_goals
    repeat first | with_reducible assumption | with_reducible refine ok_mp (by assumption) ?_ |
      with_reducible refine ok_get (by assumption) ?_ | with_reducible apply ok_resumeCluster |
      with_reducible refine ok_opt_none | with_reducible apply ok_opt_some

theorem ok_resumeHeld (s : State) (tk : Nat) (h : Ok P s) : Ok P (resumeHeld s tk) := by
  unfold resumeHeld
  repeat first | with_reducible assumption | intro _ | with_reducible apply ok_modGroup | with_reducible apply ok_foldl | dsimp only

theorem ok_resumeLate (s : State) (tk : Nat) (h : Ok P s) : Ok P (resumeLate s tk) := by
  unfold resumeLate
  repeat first | with_reducible assumption | intro _ | with_reducible apply ok_modGroup | with_reducible apply ok_settleAcq |
    with_reducible apply ok_foldl | dsimp only | split

theorem ok_restoreUnit (hw : Closed P) (tk : Nat) (k : Task) (us : List (Nat × Cluster)) (img : List Byte) (s : State) (h : Ok P s) : Ok P
    (restoreUnit tk k us img s) := by
  unfold restoreUnit
  repeat first | with_reducible assumption | intro _ | with_reducible apply ok_checkStacks | with_reducible apply ok_resumeLate |
    with_reducible apply ok_resumeHeld | with_reducible apply ok_startUnit | with_reducible apply ok_applyImage | with_reducible apply ok_foldl

theorem ok_resumeNext (hw : Closed P) (s : State) (sid tk : Nat) (k : Task) (us : List (Nat × Cluster)) (h : Ok P s) : OkOpt P (resumeNext
    s sid tk k us) := by
  unfold resumeNext
  repeat first | with_reducible assumption | intro _ | with_reducible apply ok_restoreUnit | with_reducible apply ok_resumeUnits |
    with_reducible refine ok_opt_none | with_reducible apply ok_opt_map | split

theorem ok_placeLog (hw : Closed P) (r : Replaying) (tk x2 : Nat) (x3 : State) (h : Ok P x3) : OkOpt P (placeLog r tk x2 x3) := by
  fun_induction placeLog r tk x2 x3
  all_goals
    repeat first | with_reducible assumption | with_reducible refine ok_mp (by assumption) ?_ | with_reducible apply ok_placeLogged |
      with_reducible refine ok_opt_none | with_reducible apply ok_opt_some

theorem ok_divergePlaced (s : State) (tk : Nat) (k : Task) (e : Nat × Nat) (h : Ok P s) : Ok P (divergePlaced s tk k e) := by
  unfold divergePlaced
  exact ok_diverge _ _ _ _ _ _ h

theorem ok_placeNext (hw : Closed P) (s : State) (tk : Nat) (k : Task) (h : Ok P s) : OkOpt P (placeNext s tk k) := by
  unfold placeNext
  repeat first | with_reducible assumption | with_reducible apply ok_divergePlaced | intro _ | with_reducible apply ok_resumeNext | with_reducible apply ok_diverge |
    with_reducible apply ok_placeLog | with_reducible apply ok_placeRest | with_reducible apply ok_checkAllStacks |
    with_reducible apply ok_prepareVat | with_reducible apply ok_markRunning | with_reducible apply ok_freezeCluster |
    with_reducible refine ok_get (by assumption) ?_ | with_reducible apply ok_foldl | dsimp only | with_reducible refine ok_opt_none |
    with_reducible apply ok_opt_some | split

theorem ok_noteHeld (s : State) (tk : Nat) (h : Ok P s) : Ok P (noteHeld s tk) := by
  unfold noteHeld
  repeat first | with_reducible assumption | with_reducible apply ok_modLadder

theorem ok_afterPlacing (tk : Nat) (ahead : List Nat) (s : State) (h : Ok P s) : Ok P (afterPlacing tk ahead s) := by
  unfold afterPlacing
  repeat first | with_reducible assumption | intro _ | with_reducible apply ok_modTask | with_reducible apply ok_foldl

theorem ok_tryTasks (hw : Closed P) (x0 x1 : List Nat) (x2 : State) (h : Ok P x2) : Ok P (tryTasks x0 x1 x2) := by
  fun_induction tryTasks x0 x1 x2
  all_goals
    repeat first | with_reducible assumption | with_reducible refine ok_mp (by assumption) ?_ | with_reducible apply ok_checkTask |
      with_reducible apply ok_faultCmd | with_reducible apply ok_noteHeld | with_reducible apply ok_placeNext |
      with_reducible apply ok_afterPlacing | with_reducible refine ok_get (by assumption) ?_ |
      with_reducible refine ready_ok (by assumption) ?_ | with_reducible refine ready_wait (by assumption) ?_ |
      with_reducible refine ready_reject (by assumption) ?_ | with_reducible refine ready_stop (by assumption) ?_ |
      with_reducible refine ok_opt_none | with_reducible apply mk_rwait | split

theorem ok_execPlacementStep (hw : Closed P) (s : State) (h : Ok P s) : OkOut P (execPlacementStep s) := by
  unfold execPlacementStep
  repeat first | with_reducible assumption | with_reducible apply ok_tryTasks | with_reducible apply ok_next | split

/-! Preempt. -/

theorem ok_haltUnit (s : State) (cls : List (Nat × Cluster)) (h : Ok P s) : Ok P (haltUnit s cls) := by
  unfold haltUnit
  repeat first | with_reducible assumption | intro _ | with_reducible apply ok_modGroup | with_reducible apply ok_foldl

theorem ok_execPreemption (cl : Nat) (s : State) (h : Ok P s) : OkOut P (execPreemption cl s) := by
  unfold execPreemption
  repeat first | with_reducible assumption | intro _ | with_reducible apply ok_modCluster | with_reducible apply ok_haltUnit |
    with_reducible apply ok_journalCluster | with_reducible apply ok_foldl | with_reducible apply ok_next | split

theorem ok_execPreemptionAbandon (cl : Nat) (s : State) (h : Ok P s) : OkOut P (execPreemptionAbandon cl s) := by
  unfold execPreemptionAbandon
  repeat first | with_reducible assumption | with_reducible apply ok_journalCluster | with_reducible apply ok_abandon | with_reducible apply ok_next | split

theorem ok_publishOf (hw : Closed P) (gs : List (Nat × Group)) (s : State) (h : Ok P s) : Ok P (publishOf gs s) := by
  unfold publishOf
  repeat first | with_reducible assumption | intro _ | with_reducible apply ok_publishList | with_reducible apply ok_foldl

theorem ok_takeOut (hw : Closed P) (addr bytes : Nat) (s : State) (u : Nat × Cluster) (h : Ok P s) : Ok P (takeOut addr bytes s u) := by
  unfold takeOut
  repeat first | with_reducible assumption | intro _ | with_reducible apply ok_modCluster | with_reducible apply ok_unYield |
    with_reducible apply ok_leaveGrow | with_reducible apply ok_leaveWriters | with_reducible apply ok_leaveWalks |
    with_reducible apply ok_publishOf | with_reducible apply ok_checkGrow | with_reducible apply ok_vatTidy | with_reducible apply ok_foldl | simp only [ok_mk] |
    with_reducible apply ok_wf

theorem ok_saveUnit (hw : Closed P) (s : State) (cl : Nat) (h : Ok P s) : Ok P (saveUnit s cl) := by
  unfold saveUnit
  repeat first | with_reducible assumption | with_reducible apply ok_journalCluster | intro _ | with_reducible apply ok_abandon | with_reducible apply ok_hubRequest |
    with_reducible apply ok_hubNote | with_reducible apply ok_takeOut | with_reducible apply ok_writeLocs |
    with_reducible apply ok_foldl | dsimp only | split

theorem ok_execSaveAreaWrite (hw : Closed P) (cl : Nat) (s : State) (h : Ok P s) : OkOut P (execSaveAreaWrite cl s) := by
  unfold execSaveAreaWrite
  repeat first | with_reducible assumption | with_reducible apply ok_saveUnit | with_reducible apply ok_next | split

/-! Hub. -/

theorem ok_reply (s : State) (m : Master) (ws : List Word) (h : Ok P s) : Ok P (reply s m ws) := by
  unfold reply
  repeat first | with_reducible assumption | simp only [ok_mk] | with_reducible apply ok_wf

theorem ok_claimBy (s : State) (m : Master) (q : Nat) (h : Ok P s) : Ok P (claimBy s m q) := by
  unfold claimBy
  repeat first | with_reducible assumption | with_reducible apply ok_claim | with_reducible apply ok_reply |
    with_reducible refine ok_snd (by assumption) ?_ | split

theorem ok_execQclaim (m : Master) (q : Nat) (s : State) (h : Ok P s) : OkOut P (execQclaim m q s) := by
  unfold execQclaim
  repeat first | with_reducible assumption | with_reducible apply ok_reply | with_reducible apply ok_denied |
    with_reducible apply ok_claimBy | with_reducible apply ok_next | split

theorem ok_execQdoor (m : Master) (v : Word) (s : State) (h : Ok P s) : OkOut P (execQdoor m v s) := by
  unfold execQdoor
  repeat first | with_reducible assumption | with_reducible apply ok_denied | with_reducible apply ok_ring | dsimp only |
    with_reducible apply ok_next | split

theorem ok_withLog (s : State) (q c : Nat) (h : Ok P s) : Ok P (withLog s q c) := by
  unfold withLog
  repeat first | with_reducible assumption | with_reducible apply ok_modQueue | with_reducible apply ok_modCmd | split

theorem ok_execLaunch (q : Nat) (s : State) (h : Ok P s) : OkOut P (execLaunch q s) := by
  unfold execLaunch
  repeat first | with_reducible assumption | intro _ | with_reducible apply ok_startPacket | with_reducible apply ok_newCmd |
    with_reducible apply ok_nextPacket | with_reducible apply ok_newTask | with_reducible apply ok_withLog | dsimp only |
    with_reducible apply ok_next

theorem ok_execCopyPacket (q : Nat) (s : State) (h : Ok P s) : OkOut P (execCopyPacket q s) := by
  unfold execCopyPacket
  repeat first | with_reducible assumption | intro _ | with_reducible apply ok_startPacket | with_reducible apply ok_nextPacket |
    with_reducible apply ok_rejectPacket | with_reducible apply ok_newCmd | with_reducible apply ok_fresh |
    with_reducible apply ok_requestAll | dsimp only | simp only [ok_mk] | with_reducible apply ok_wf | with_reducible apply ok_next |
    split

theorem ok_writePair (hw : Closed P) (ls : List Loc) (v : BitVec 64) (s : State) (h : Ok P s) : Ok P (writePair ls v s) := by
  unfold writePair
  repeat first | with_reducible assumption | with_reducible apply ok_writeLocs

theorem ok_signalDo (hw : Closed P) (s : State) (op : Nat) (a r : List Loc) (v cmp : BitVec 64) (h : Ok P s) : Ok P (signalDo s op a r v
    cmp) := by
  unfold signalDo
  repeat first | with_reducible assumption | with_reducible apply ok_writePair | dsimp only | split

theorem ok_execSignal (hw : Closed P) (q : Nat) (s : State) (h : Ok P s) : OkOut P (execSignal q s) := by
  unfold execSignal
  repeat first | with_reducible assumption | intro _ | with_reducible apply ok_startPacket | with_reducible apply ok_hubNote |
    with_reducible apply ok_nextPacket | with_reducible apply ok_rejectPacket | with_reducible apply ok_hubRequest |
    with_reducible apply ok_newCmd | with_reducible apply ok_okCmd | with_reducible apply ok_signalDo | with_reducible apply ok_onBoth |
    dsimp only | with_reducible apply ok_next | split

theorem ok_execWaitvalue (q : Nat) (s : State) (h : Ok P s) : OkOut P (execWaitvalue q s) := by
  unfold execWaitvalue
  repeat first | with_reducible assumption | intro _ | with_reducible apply ok_startPacket | with_reducible apply ok_newCmd |
    with_reducible apply ok_nextPacket | with_reducible apply ok_modQueue | with_reducible apply ok_rejectPacket |
    with_reducible apply ok_hubNote | with_reducible apply ok_onHub | dsimp only | with_reducible apply ok_next

theorem ok_pollWait (s : State) (q : Nat) (x : Queue) (v : WaitVal) (h : Ok P s) : Ok P (pollWait s q x v) := by
  unfold pollWait
  repeat first | with_reducible assumption | intro _ | with_reducible apply ok_endCmd | with_reducible apply ok_modQueue |
    with_reducible apply ok_hubNote | with_reducible apply ok_hubRequest | with_reducible apply ok_okCmd | with_reducible apply ok_onHub |
    split

theorem ok_execWaitvaluePoll (q : Nat) (s : State) (h : Ok P s) : OkOut P (execWaitvaluePoll q s) := by
  unfold execWaitvaluePoll
  repeat first | with_reducible assumption | with_reducible apply ok_pollWait | with_reducible apply ok_next | split

theorem ok_execInval (q : Nat) (s : State) (h : Ok P s) : OkOut P (execInval q s) := by
  unfold execInval
  repeat first | with_reducible assumption | intro _ | with_reducible apply ok_startPacket | with_reducible apply ok_nextPacket |
    with_reducible apply ok_rejectPacket | with_reducible apply ok_newCmd | with_reducible apply ok_startInval |
    with_reducible apply ok_modCmd | dsimp only | with_reducible apply ok_next | split

theorem ok_configPacket (s : State) (q op : Nat) (k : Queue → List Word → State → State) (h0 : Ok P s) (h3 : ∀ y0 y1 y2, Ok P y2 → Ok P (k
    y0 y1 y2)) : Ok P (configPacket s q op k) := by
  unfold configPacket
  repeat first | with_reducible assumption | intro _ | with_reducible apply h3 | with_reducible apply ok_startPacket | split

theorem ok_configDone (s : State) (q : Nat) (x : Queue) (w : List Word) (k : State → State) (h0 : Ok P s) (h4 : ∀ y0, Ok P y0 → Ok P (k
    y0)) : Ok P (configDone s q x w k) := by
  unfold configDone
  repeat first | with_reducible assumption | with_reducible apply h4 | with_reducible apply ok_newCmd | with_reducible apply ok_nextPacket |
    with_reducible apply ok_okCmd

theorem ok_execConfigCreate (q : Nat) (s : State) (h : Ok P s) : OkOut P (execConfigCreate q s) := by
  unfold execConfigCreate
  repeat first | with_reducible assumption | intro _ | with_reducible apply ok_configPacket | with_reducible apply ok_nextPacket |
    with_reducible apply ok_rejectPacket | with_reducible apply ok_configDone | dsimp only | simp only [ok_mk] |
    with_reducible apply ok_wf | with_reducible apply ok_next | split

theorem ok_execConfigDestroy (q : Nat) (s : State) (h : Ok P s) : OkOut P (execConfigDestroy q s) := by
  unfold execConfigDestroy
  repeat first | with_reducible assumption | intro _ | with_reducible apply ok_configPacket | with_reducible apply ok_nextPacket |
    with_reducible apply ok_rejectPacket | with_reducible apply ok_configDone | with_reducible apply ok_newCmd |
    with_reducible apply ok_modQueue | dsimp only | simp only [ok_mk] | with_reducible apply ok_wf | with_reducible apply ok_next | split

theorem ok_execConfigSkip (q : Nat) (s : State) (h : Ok P s) : OkOut P (execConfigSkip q s) := by
  unfold execConfigSkip
  repeat first | with_reducible assumption | intro _ | with_reducible apply ok_configPacket | with_reducible apply ok_nextPacket |
    with_reducible apply ok_rejectPacket | with_reducible apply ok_hubRequest | with_reducible apply ok_hubNote |
    with_reducible apply ok_configDone | with_reducible apply ok_modQueue | dsimp only | with_reducible apply ok_next | split

/-! Ladders. -/

theorem ok_execSealPoint (hw : Closed P) (t : Nat) (s : State) (h : Ok P s) : OkOut P (execSealPoint t s) := by
  unfold execSealPoint
  repeat first | with_reducible assumption | with_reducible apply ok_sealSequence | with_reducible apply ok_next | split

theorem ok_makeChoice (hw : Closed P) (s : State) (t : Nat) (l : Ladder) (h : Ok P s) : Ok P (makeChoice s t l) := by
  unfold makeChoice
  repeat first | with_reducible assumption | intro _ | with_reducible apply ok_chooseCurd | with_reducible apply ok_releaseTeams |
    with_reducible apply ok_modGroup | with_reducible apply ok_foldl | dsimp only | split

theorem ok_execCurdSlotChoice (hw : Closed P) (t : Nat) (s : State) (h : Ok P s) : OkOut P (execCurdSlotChoice t s) := by
  unfold execCurdSlotChoice
  repeat first | with_reducible assumption | with_reducible apply ok_makeChoice | with_reducible apply ok_next | split

theorem ok_resumeWave (s : State) (t w : Nat) (k : Task) (g : Stagger) (h : Ok P s) : Ok P (resumeWave s t w k g) := by
  unfold resumeWave
  repeat first | with_reducible assumption | with_reducible apply ok_modTask | with_reducible apply ok_releaseSeal |
    with_reducible apply ok_resumeGbar | with_reducible apply ok_checkGbar | dsimp only | split

theorem ok_execStaggerWave (t w : Nat) (s : State) (h : Ok P s) : OkOut P (execStaggerWave t w s) := by
  unfold execStaggerWave
  repeat first | with_reducible assumption | with_reducible apply ok_resumeWave | with_reducible apply ok_next | split

theorem ok_cutGrid (s : State) (t : Nat) (h : Ok P s) : Ok P (cutGrid s t) := by
  unfold cutGrid
  repeat first | with_reducible assumption | with_reducible apply ok_stopWork | with_reducible apply ok_modCmd |
    with_reducible apply ok_modLadder | with_reducible apply ok_modTask | simp only [ok_mk] | with_reducible apply ok_wf

theorem ok_execTimeLimitCut (t : Nat) (s : State) (h : Ok P s) : OkOut P (execTimeLimitCut t s) := by
  unfold execTimeLimitCut
  repeat first | with_reducible assumption | with_reducible apply ok_cutGrid | with_reducible apply ok_next | split

theorem ok_execEnergyLimitCut (t : Nat) (s : State) (h : Ok P s) : OkOut P (execEnergyLimitCut t s) := by
  unfold execEnergyLimitCut
  repeat first | with_reducible assumption | with_reducible apply ok_cutGrid | with_reducible apply ok_next | split

theorem ok_forceBulk (hw : Closed P) (s : State) (b : Nat) (h : Ok P s) : Ok P (forceBulk s b) := by
  unfold forceBulk
  repeat first | with_reducible assumption | intro _ | with_reducible apply ok_deliverCopy | with_reducible apply ok_deliverMulticast |
    with_reducible apply ok_laneEvent | with_reducible apply ok_foldl | split

theorem ok_forceOp (hw : Closed P) (s : State) (gid : Nat) (f : Flight) (h : Ok P s) : Ok P (forceOp s gid f) := by
  unfold forceOp
  repeat first | with_reducible assumption | with_reducible apply ok_forceBulk | with_reducible apply ok_performStore | split

theorem ok_forceGroup (hw : Closed P) (s : State) (gid : Nat) (h : Ok P s) : Ok P (forceGroup s gid) := by
  unfold forceGroup
  repeat first | with_reducible assumption | intro _ | with_reducible apply ok_forceOp | with_reducible apply ok_foldl | split

theorem ok_settleAtomics (hw : Closed P) (s : State) (gid : Nat) (h : Ok P s) : Ok P (settleAtomics s gid) := by
  unfold settleAtomics
  repeat first | with_reducible assumption | intro _ | with_reducible apply ok_performLane | with_reducible apply ok_foldl | split

theorem ok_takeBytes (hw : Closed P) (p : Nat → Bool) (s : State) (new : List Host.Cell) (h : Ok P s) : Ok P (takeBytes p s new) := by
  unfold takeBytes
  repeat first | with_reducible assumption | intro _ | with_reducible apply ok_putByte | with_reducible apply ok_foldl | split

theorem ok_mixBytes (hw : Closed P) (s : State) (new : List Host.Cell) (h : Ok P s) : Ok P (mixBytes s new) := by
  unfold mixBytes
  repeat first | with_reducible assumption | with_reducible apply ok_takeBytes

theorem ok_settleWrites (hw : Closed P) (pub : State → State) (s : State) (gs : List Nat) (h0 : ∀ y0, Ok P y0 → Ok P (pub y0)) (h1 : Ok P
    s) : Ok P (settleWrites pub s gs) := by
  unfold settleWrites
  repeat first | with_reducible assumption | with_reducible apply ok_mixBytes | with_reducible apply ok_takeBytes

theorem ok_dropFlights (gs ts : List Nat) (s : State) (h : Ok P s) : Ok P (dropFlights gs ts s) := by
  unfold dropFlights
  repeat first | with_reducible assumption | intro _ | with_reducible apply ok_dropReqs | with_reducible apply ok_modGroup |
    with_reducible apply ok_abandonSample | with_reducible apply ok_retireTeam | with_reducible apply ok_modTeam |
    with_reducible apply ok_foldl | simp only [ok_mk] | with_reducible apply ok_wf | split

theorem ok_settleGrid (hw : Closed P) (s : State) (t : Nat) (h : Ok P s) : Ok P (settleGrid s t) := by
  unfold settleGrid
  repeat first | with_reducible assumption | intro _ | with_reducible apply ok_publishGrid | with_reducible apply ok_settleWrites |
    with_reducible apply ok_dropFlights | dsimp only | simp only [ok_mk] | with_reducible apply ok_wf

theorem ok_cutVersion (s : State) (c t key : Nat) (fault : Bool) (h : Ok P s) : Ok P (cutVersion s c t key fault) := by
  unfold cutVersion
  repeat first | with_reducible assumption | with_reducible apply ok_takeVersion | split

theorem ok_endCut (hw : Closed P) (s : State) (t : Nat) (k : Task) (l : Ladder) (fault : Bool) (h : Ok P s) : Ok P (endCut s t k l fault)
    := by
  unfold endCut
  repeat first | with_reducible assumption | with_reducible apply ok_cutVersion | with_reducible apply ok_endVat |
    with_reducible apply ok_settleGrid | with_reducible apply ok_modLadder | with_reducible apply ok_modCmd |
    with_reducible apply ok_stopCmd | dsimp only | simp only [ok_mk] | with_reducible apply ok_wf | split

theorem ok_execCutVatEnd (hw : Closed P) (t : Nat) (s : State) (h : Ok P s) : OkOut P (execCutVatEnd t s) := by
  unfold execCutVatEnd
  repeat first | with_reducible assumption | with_reducible apply ok_endCut | with_reducible apply ok_next | split

theorem ok_setVpin (s : State) (i : Nat) (v : Vpin) (h : Ok P s) : Ok P (setVpin s i v) := by
  unfold setVpin
  repeat first | with_reducible assumption | simp only [ok_mk] | with_reducible apply ok_wf

theorem ok_vpinOp (s : State) (i op key : Nat) (v : Vpin) (h : Ok P s) : Ok P (vpinOp s i op key v) := by
  unfold vpinOp
  repeat first | with_reducible assumption | with_reducible apply ok_unpin | with_reducible apply ok_setVpin |
    with_reducible apply ok_vatTidy | with_reducible apply ok_modVat | with_reducible apply ok_pinNewest |
    with_reducible refine ok_get (by assumption) ?_ | dsimp only | split

theorem ok_vpinGo (s : State) (m : Master) (i op : Nat) (h : Ok P s) : Ok P (vpinGo s m i op) := by
  unfold vpinGo
  repeat first | with_reducible assumption | with_reducible apply ok_vpinOp | with_reducible apply ok_setVpin |
    with_reducible apply ok_denied | dsimp only | split

theorem ok_vpinWrite (s : State) (m : Master) (i op : Nat) (h : Ok P s) : Ok P (vpinWrite s m i op) := by
  unfold vpinWrite
  repeat first | with_reducible assumption | intro _ | with_reducible apply ok_barWrite | with_reducible apply ok_vpinGo | split

theorem ok_execVpinRead (m : Master) (i : Nat) (s : State) (h : Ok P s) : OkOut P (execVpinRead m i s) := by
  unfold execVpinRead
  repeat first | with_reducible assumption | with_reducible apply ok_vpinWrite | with_reducible apply ok_next

theorem ok_execVpinPin (m : Master) (i : Nat) (s : State) (h : Ok P s) : OkOut P (execVpinPin m i s) := by
  unfold execVpinPin
  repeat first | with_reducible assumption | with_reducible apply ok_vpinWrite | with_reducible apply ok_next

theorem ok_execVpinUnpin (m : Master) (i : Nat) (s : State) (h : Ok P s) : OkOut P (execVpinUnpin m i s) := by
  unfold execVpinUnpin
  repeat first | with_reducible assumption | with_reducible apply ok_vpinWrite | with_reducible apply ok_next

theorem ok_execVpinClear (m : Master) (i : Nat) (s : State) (h : Ok P s) : OkOut P (execVpinClear m i s) := by
  unfold execVpinClear
  repeat first | with_reducible assumption | with_reducible apply ok_vpinWrite | with_reducible apply ok_next

/-! PowerCtl. -/

theorem ok_setBudgets (s : State) (f : Nat → Nat) (h : Ok P s) : Ok P (setBudgets s f) := by
  unfold setBudgets
  repeat first | with_reducible assumption | intro _ | with_reducible apply ok_modCore | with_reducible apply ok_foldl

theorem ok_addEnergy (s : State) (h : Ok P s) : Ok P (addEnergy s) := by
  unfold addEnergy
  repeat first | with_reducible assumption | dsimp only | simp only [ok_mk] | with_reducible apply ok_wf

theorem ok_execGrantBudgetUpdate (mw : Nat) (s : State) (h : Ok P s) : OkOut P (execGrantBudgetUpdate mw s) := by
  unfold execGrantBudgetUpdate
  repeat first | with_reducible assumption | with_reducible apply ok_addEnergy | with_reducible apply ok_setBudgets | dsimp only |
    simp only [ok_mk] | with_reducible apply ok_wf | with_reducible apply ok_next | split

theorem ok_setCoreSteps (s : State) (h : Ok P s) : Ok P (setCoreSteps s) := by
  unfold setCoreSteps
  repeat first | with_reducible assumption | intro _ | with_reducible apply ok_modCore | with_reducible apply ok_foldl

theorem ok_startInterval (s : State) (now mw : Nat) (h : Ok P s) : Ok P (startInterval s now mw) := by
  unfold startInterval
  repeat first | with_reducible assumption | with_reducible apply ok_setCoreSteps | dsimp only | simp only [ok_mk] |
    with_reducible apply ok_wf

theorem ok_execBoostIntervalStart (mw : Nat) (s : State) (h : Ok P s) : OkOut P (execBoostIntervalStart mw s) := by
  unfold execBoostIntervalStart
  repeat first | with_reducible assumption | with_reducible apply ok_startInterval | with_reducible apply ok_next | split

theorem ok_execClockStepRise (c : Nat) (s : State) (h : Ok P s) : OkOut P (execClockStepRise c s) := by
  unfold execClockStepRise
  repeat first | with_reducible assumption | with_reducible apply ok_modCore | dsimp only | simp only [ok_mk] | with_reducible apply ok_wf |
    with_reducible apply ok_next | split

theorem ok_countBallast (s : State) (h : Ok P s) : Ok P (countBallast s) := by
  unfold countBallast
  repeat first | with_reducible assumption | intro _ | with_reducible apply ok_countRamp | with_reducible apply ok_foldl

theorem ok_checkBallast (s : State) (h : Ok P s) : Ok P (checkBallast s) := by
  unfold checkBallast
  repeat first | with_reducible assumption | intro _ | with_reducible apply ok_modCore | with_reducible apply ok_countBallast |
    with_reducible apply ok_foldl | dsimp only | simp only [ok_mk] | with_reducible apply ok_wf

theorem ok_execBallastCheck (s : State) (h : Ok P s) : OkOut P (execBallastCheck s) := by
  unfold execBallastCheck
  repeat first | with_reducible assumption | with_reducible apply ok_checkBallast | with_reducible apply ok_next | split

theorem ok_execBallastRampEnd (c : Nat) (s : State) (h : Ok P s) : OkOut P (execBallastRampEnd c s) := by
  unfold execBallastRampEnd
  repeat first | with_reducible assumption | with_reducible apply ok_modCore | with_reducible apply ok_countRamp |
    with_reducible apply ok_next | split

theorem ok_execCapMessage (seq : Word) (w : Nat) (s : State) (h : Ok P s) : OkOut P (execCapMessage seq w s) := by
  unfold execCapMessage
  repeat first | with_reducible assumption | dsimp only | simp only [ok_mk] | with_reducible apply ok_wf | with_reducible apply ok_next |
    split

theorem ok_execCapLeaseExpiry (s : State) (h : Ok P s) : OkOut P (execCapLeaseExpiry s) := by
  unfold execCapLeaseExpiry
  repeat first | with_reducible assumption | dsimp only | simp only [ok_mk] | with_reducible apply ok_wf | with_reducible apply ok_next |
    split

theorem ok_execThermalBoostHold (on : Bool) (s : State) (h : Ok P s) : OkOut P (execThermalBoostHold on s) := by
  unfold execThermalBoostHold
  repeat first | with_reducible assumption | dsimp only | simp only [ok_mk] | with_reducible apply ok_wf | with_reducible apply ok_next

theorem ok_holdBudgets (s : State) (h : Ok P s) : Ok P (holdBudgets s) := by
  unfold holdBudgets
  repeat first | with_reducible assumption | with_reducible apply ok_setBudgets | split

theorem ok_execThermalBudgetFloor (on : Bool) (s : State) (h : Ok P s) : OkOut P (execThermalBudgetFloor on s) := by
  unfold execThermalBudgetFloor
  repeat first | with_reducible assumption | with_reducible apply ok_holdBudgets | with_reducible apply ok_setBudgets | dsimp only | simp only [ok_mk] |
    with_reducible apply ok_wf | with_reducible apply ok_next | split

theorem ok_haltAll (hw : Closed P) (s : State) (h : Ok P s) : Ok P (haltAll s) := by
  unfold haltAll
  repeat first | with_reducible assumption | intro _ | with_reducible apply ok_settleWrites | with_reducible apply ok_publishAll |
    with_reducible apply ok_stopWork | with_reducible apply ok_dropFlights | simp only [ok_mk] | with_reducible apply ok_wf

theorem ok_haltHub (s : State) (h : Ok P s) : Ok P (haltHub s) := by
  unfold haltHub
  repeat first | with_reducible assumption | dsimp only | simp only [ok_mk] | with_reducible apply ok_wf

theorem ok_endVats (hw : Closed P) (s : State) (c : Nat) (h : Ok P s) : Ok P (endVats s c) := by
  unfold endVats
  repeat first | with_reducible assumption | intro _ | with_reducible apply ok_modLadder | with_reducible apply ok_modCmd |
    with_reducible apply ok_cutVersion | with_reducible apply ok_endVat | with_reducible apply ok_foldl | split

theorem ok_endOpen (hw : Closed P) (cut : Bool) (s : State) (c : Nat) (h : Ok P s) : Ok P (endOpen cut s c) := by
  unfold endOpen
  repeat first | with_reducible assumption | with_reducible apply ok_endCmd | with_reducible apply ok_endVats |
    with_reducible apply ok_dropTasks | with_reducible apply ok_modCmd | dsimp only | split

theorem ok_endAllOpen (hw : Closed P) (cut : Bool) (s : State) (h : Ok P s) : Ok P (endAllOpen cut s) := by
  unfold endAllOpen
  repeat first | with_reducible assumption | intro _ | with_reducible apply ok_endOpen | with_reducible apply ok_haltHub |
    with_reducible apply ok_foldl

theorem ok_tellMgmt (s : State) (code : Nat) (h : Ok P s) : Ok P (tellMgmt s code) := by
  unfold tellMgmt
  repeat first | with_reducible assumption | simp only [ok_mk] | with_reducible apply ok_wf

theorem ok_execThermalShutdown (hw : Closed P) (s : State) (h : Ok P s) : OkOut P (execThermalShutdown s) := by
  unfold execThermalShutdown
  repeat first | with_reducible assumption | with_reducible apply ok_endAllOpen | with_reducible apply ok_haltAll |
    with_reducible apply ok_tellMgmt | with_reducible apply ok_errorRecord | dsimp only | simp only [ok_mk] | with_reducible apply ok_wf |
    with_reducible apply ok_next | split

/-! Debugger. -/

theorem ok_completeStop (s : State) (cl : Nat) (h : Ok P s) : Ok P (completeStop s cl) := by
  unfold completeStop
  repeat first | with_reducible assumption | intro _ | with_reducible apply ok_modGroup | with_reducible apply ok_modCluster |
    with_reducible apply ok_retireCluster | with_reducible apply ok_answer | with_reducible apply ok_report |
    with_reducible apply ok_foldl | dsimp only | split

theorem ok_execStopComplete (k : Nat) (s : State) (h : Ok P s) : OkOut P (execStopComplete k s) := by
  unfold execStopComplete
  repeat first | with_reducible assumption | with_reducible apply ok_completeStop | with_reducible apply ok_next | split

theorem ok_applyWritten (hw : Closed P) (s : State) (c : Nat × Cluster) (h : Ok P s) : Ok P (applyWritten s c) := by
  unfold applyWritten
  exact ok_foldl h fun x a hx => ok_applyImage hw _ _ _ _ hx

theorem ok_resumeUnit (hw : Closed P) (s : State) (u : List (Nat × Cluster)) (h : Ok P s) : Ok P (resumeUnit s u) := by
  unfold resumeUnit
  repeat first | with_reducible assumption | with_reducible apply ok_applyWritten | intro _ | with_reducible apply ok_applyImage | with_reducible apply ok_modCluster |
    with_reducible apply ok_modGroup | with_reducible apply ok_foldl | split

theorem ok_writeSnap (v : Word) (s : State) (h : Ok P s) : Ok P (writeSnap v s) := by
  unfold writeSnap
  repeat first | with_reducible assumption | with_reducible apply ok_trigger | dsimp only | simp only [ok_mk] | with_reducible apply ok_wf |
    split

theorem ok_execSnaptrigArm (v : Word) (s : State) (h : Ok P s) : OkOut P (execSnaptrigArm v s) := by
  unfold execSnaptrigArm
  repeat first | with_reducible assumption | intro _ | with_reducible apply ok_barWrite | with_reducible apply ok_writeSnap |
    with_reducible apply ok_next

theorem ok_execSnaptrigFire (v : Word) (s : State) (h : Ok P s) : OkOut P (execSnaptrigFire v s) := by
  unfold execSnaptrigFire
  repeat first | with_reducible assumption | intro _ | with_reducible apply ok_barWrite | with_reducible apply ok_writeSnap |
    with_reducible apply ok_next

theorem ok_tagWord (s : State) (c q : Nat) (y : Sampler) (d : List Word) (gid : Nat) (op : Option Nat) (h : Ok P s) : Ok P (tagWord s c q
    y d gid op) := by
  unfold tagWord
  repeat first | with_reducible assumption | with_reducible apply ok_modCore

theorem ok_execSampleTag (c q : Nat) (s : State) (h : Ok P s) : OkOut P (execSampleTag c q s) := by
  unfold execSampleTag
  repeat first | with_reducible assumption | with_reducible apply ok_tagWord | with_reducible apply ok_next | split

theorem ok_writeSample (s : State) (c q : Nat) (y : Sampler) (ws : List Word) (h : Ok P s) : Ok P (writeSample s c q y ws) := by
  unfold writeSample
  repeat first | with_reducible assumption | with_reducible apply ok_modCore | with_reducible apply ok_count | dsimp only |
    simp only [ok_mk] | with_reducible apply ok_wf | split

theorem ok_execSampleRecordWrite (c q : Nat) (s : State) (h : Ok P s) : OkOut P (execSampleRecordWrite c q s) := by
  unfold execSampleRecordWrite
  repeat first | with_reducible assumption | with_reducible apply ok_writeSample | with_reducible apply ok_next | split

theorem ok_noteGates (s : State) (h : Ok P s) : Ok P (noteGates s) := by
  unfold noteGates
  repeat first | with_reducible assumption | dsimp only | simp only [ok_mk] | with_reducible apply ok_wf

theorem ok_execReplayGateTimeout (c : Nat) (s : State) (h : Ok P s) : OkOut P (execReplayGateTimeout c s) := by
  unfold execReplayGateTimeout
  repeat first | with_reducible assumption | with_reducible apply ok_diverge | with_reducible apply ok_next | split

theorem ok_c6Read (r : C6Read) (s : State) (h : Ok P s) : Ok P (c6Read r s) := by
  unfold c6Read
  repeat first | with_reducible assumption | with_reducible apply ok_countRamp | with_reducible apply ok_report |
    with_reducible apply ok_modCore | dsimp only | simp only [ok_mk] | with_reducible apply ok_wf | split

/-! Firmware. -/

theorem ok_setBox (s : State) (n : Nat) (b : Mbox) (h : Ok P s) : Ok P (setBox s n b) := by
  unfold setBox
  repeat first | with_reducible assumption | simp only [ok_mk] | with_reducible apply ok_wf

theorem ok_sendBox (s : State) (m : Master) (n : Nat) (h : Ok P s) : Ok P (sendBox s m n) := by
  unfold sendBox
  repeat first | with_reducible assumption | with_reducible apply ok_setBox | dsimp only | split

theorem ok_boxWrite (s : State) (m : Master) (n off : Nat) (k : State → State) (h0 : Ok P s) (h4 : ∀ y0, Ok P y0 → Ok P (k y0)) : Ok P
    (boxWrite s m n off k) := by
  unfold boxWrite
  repeat first | with_reducible assumption | with_reducible apply ok_barWrite | split

theorem ok_execMboxSend (m : Master) (n : Nat) (s : State) (h : Ok P s) : OkOut P (execMboxSend m n s) := by
  unfold execMboxSend
  repeat first | with_reducible assumption | intro _ | with_reducible apply ok_boxWrite | with_reducible apply ok_sendBox |
    with_reducible apply ok_next

theorem ok_popBox (s : State) (n : Nat) (h : Ok P s) : Ok P (popBox s n) := by
  unfold popBox
  repeat first | with_reducible assumption | with_reducible apply ok_setBox | dsimp only | simp only [ok_mk] | with_reducible apply ok_wf |
    split

theorem ok_execMboxPop (m : Master) (n : Nat) (s : State) (h : Ok P s) : OkOut P (execMboxPop m n s) := by
  unfold execMboxPop
  repeat first | with_reducible assumption | intro _ | with_reducible apply ok_boxWrite | with_reducible apply ok_popBox |
    with_reducible apply ok_next

theorem ok_serve (s : State) (box type : Nat) (other : Bool) (bad : FwReq → Bool) (k : FwReq → State → State) (h0 : Ok P s) (h5 : ∀ y0 y1,
    Ok P y1 → Ok P (k y0 y1)) : Ok P (serve s box type other bad k) := by
  unfold serve
  repeat first | with_reducible assumption | with_reducible apply h5 | with_reducible apply ok_popBox | with_reducible apply ok_answerFrom |
    dsimp only | split

theorem ok_putSpace (hw : Closed P) (s : State) (sid v : Nat) (h : Ok P s) : Ok P (putSpace s sid v) := by
  unfold putSpace
  repeat first | with_reducible assumption | with_reducible apply ok_writeBytes

theorem ok_execSpaceCreate (hw : Closed P) (s : State) (h : Ok P s) : OkOut P (execSpaceCreate s) := by
  unfold execSpaceCreate
  repeat first | with_reducible assumption | intro _ | with_reducible apply ok_serve | with_reducible apply ok_answer |
    with_reducible apply ok_putSpace | dsimp only | simp only [ok_mk] | with_reducible apply ok_wf | with_reducible apply ok_next | split

theorem ok_execSpaceDestroy (hw : Closed P) (s : State) (h : Ok P s) : OkOut P (execSpaceDestroy s) := by
  unfold execSpaceDestroy
  repeat first | with_reducible assumption | intro _ | with_reducible apply ok_serve | with_reducible apply ok_answer |
    with_reducible apply ok_startInval | with_reducible apply ok_putSpace | dsimp only | simp only [ok_mk] | with_reducible apply ok_wf |
    with_reducible apply ok_next | split

theorem ok_execQueue0Init (s : State) (h : Ok P s) : OkOut P (execQueue0Init s) := by
  unfold execQueue0Init
  repeat first | with_reducible assumption | intro _ | with_reducible apply ok_serve | with_reducible apply ok_answer | dsimp only |
    simp only [ok_mk] | with_reducible apply ok_wf | with_reducible apply ok_next | split

theorem ok_putAcc (s : State) (i : Nat) (e : Acc) (h : Ok P s) : Ok P (putAcc s i e) := by
  unfold putAcc
  repeat first | with_reducible assumption | simp only [ok_mk] | with_reducible apply ok_wf

theorem ok_execAccessWrite (s : State) (h : Ok P s) : OkOut P (execAccessWrite s) := by
  unfold execAccessWrite
  repeat first | with_reducible assumption | intro _ | with_reducible apply ok_serve | with_reducible apply ok_answer |
    with_reducible apply ok_putAcc | dsimp only | with_reducible apply ok_next | split

theorem ok_execAssign (s : State) (h : Ok P s) : OkOut P (execAssign s) := by
  unfold execAssign
  repeat first | with_reducible assumption | intro _ | with_reducible apply ok_serve | with_reducible apply ok_answer | dsimp only |
    simp only [ok_mk] | with_reducible apply ok_wf | with_reducible apply ok_next | split

theorem ok_execDebugEnable (s : State) (h : Ok P s) : OkOut P (execDebugEnable s) := by
  unfold execDebugEnable
  repeat first | with_reducible assumption | intro _ | with_reducible apply ok_serve | with_reducible apply ok_answer | dsimp only |
    simp only [ok_mk] | with_reducible apply ok_wf | with_reducible apply ok_next | split

theorem ok_newLog (s : State) (a : LogArea) (h : Ok P s) : Ok P (newLog s a) := by
  unfold newLog
  exact ok_wf h

theorem ok_logRequest (s : State) (type : Nat) (replay : Bool) (r : FwReq) (h : Ok P s) : Ok P (logRequest s type replay r) := by
  unfold logRequest
  repeat first | with_reducible assumption | with_reducible apply ok_answer | with_reducible apply ok_modQueue | with_reducible apply ok_newLog |
    dsimp only | split

theorem ok_execRecord (s : State) (h : Ok P s) : OkOut P (execRecord s) := by
  unfold execRecord
  repeat first | with_reducible assumption | intro _ | with_reducible apply ok_serve | with_reducible apply ok_logRequest |
    with_reducible apply ok_next

theorem ok_execReplay (s : State) (h : Ok P s) : OkOut P (execReplay s) := by
  unfold execReplay
  repeat first | with_reducible assumption | intro _ | with_reducible apply ok_serve | with_reducible apply ok_logRequest |
    with_reducible apply ok_next

theorem ok_unitRequest (s : State) (type : Nat) (r : FwReq) (k : List (Nat × Cluster) → State) (h0 : Ok P s) (h3 : ∀ y0, Ok P (k y0)) : Ok
    P (unitRequest s type r k) := by
  unfold unitRequest
  repeat first | with_reducible assumption | with_reducible apply h3 | with_reducible apply ok_answer | split

theorem ok_execStop (s : State) (h : Ok P s) : OkOut P (execStop s) := by
  unfold execStop
  repeat first | with_reducible assumption | intro _ | with_reducible apply ok_serve | with_reducible apply ok_unitRequest |
    with_reducible apply ok_answer | with_reducible apply ok_modCluster | with_reducible apply ok_haltUnit |
    with_reducible apply ok_foldl | dsimp only | with_reducible apply ok_next | split

theorem ok_execResume (hw : Closed P) (s : State) (h : Ok P s) : OkOut P (execResume s) := by
  unfold execResume
  repeat first | with_reducible assumption | intro _ | with_reducible apply ok_serve | with_reducible apply ok_unitRequest |
    with_reducible apply ok_answer | with_reducible apply ok_retireCluster | with_reducible apply ok_resumeUnit |
    with_reducible apply ok_foldl | with_reducible apply ok_next | split

theorem ok_execFreeze (s : State) (h : Ok P s) : OkOut P (execFreeze s) := by
  unfold execFreeze
  repeat first | with_reducible assumption | intro _ | with_reducible apply ok_serve | with_reducible apply ok_unitRequest |
    with_reducible apply ok_modCluster | with_reducible apply ok_freezeCluster | with_reducible apply ok_answer |
    with_reducible apply ok_foldl | dsimp only | with_reducible apply ok_next | split

theorem ok_readImage (hw : Closed P) (s : State) (u : List (Nat × Cluster)) (r : FwReq) (h : Ok P s) : Ok P (readImage s u r) := by
  unfold readImage
  repeat first | with_reducible assumption | with_reducible apply ok_answer | with_reducible apply ok_writeBytes

theorem ok_execStateRead (hw : Closed P) (s : State) (h : Ok P s) : OkOut P (execStateRead s) := by
  unfold execStateRead
  repeat first | with_reducible assumption | intro _ | with_reducible apply ok_serve | with_reducible apply ok_unitRequest |
    with_reducible apply ok_answer | with_reducible apply ok_readImage | with_reducible apply ok_next | split

theorem ok_writeImage (s : State) (u : List (Nat × Cluster)) (img : List Byte) (h : Ok P s) : Ok P (writeImage s u img) := by
  unfold writeImage
  exact ok_foldl h fun x a hx => ok_modCluster _ _ _ hx

theorem ok_execStateWrite (s : State) (h : Ok P s) : OkOut P (execStateWrite s) := by
  unfold execStateWrite
  repeat first | with_reducible assumption | with_reducible apply ok_writeImage | intro _ | with_reducible apply ok_serve | with_reducible apply ok_unitRequest |
    with_reducible apply ok_answer | with_reducible apply ok_modCluster | with_reducible apply ok_foldl | dsimp only |
    with_reducible apply ok_next | split

theorem ok_execWatch (s : State) (h : Ok P s) : OkOut P (execWatch s) := by
  unfold execWatch
  repeat first | with_reducible assumption | intro _ | with_reducible apply ok_serve | with_reducible apply ok_answer | dsimp only |
    simp only [ok_mk] | with_reducible apply ok_wf | with_reducible apply ok_next | split

theorem ok_setSampling (s : State) (core quad period : Nat) (on : Bool) (h : Ok P s) : Ok P (setSampling s core quad period on) := by
  unfold setSampling
  repeat first | with_reducible assumption | with_reducible apply ok_modCore

theorem ok_execSample (s : State) (h : Ok P s) : OkOut P (execSample s) := by
  unfold execSample
  repeat first | with_reducible assumption | intro _ | with_reducible apply ok_serve | with_reducible apply ok_answer |
    with_reducible apply ok_setSampling | dsimp only | with_reducible apply ok_next

/-! Mtx. -/

theorem ok_modSeq (s : State) (tid : Nat) (f : Seq → Seq) (h : Ok P s) : Ok P (modSeq s tid f) := by
  unfold modSeq
  repeat first | with_reducible assumption | with_reducible apply ok_modTeam

theorem ok_seqFinish (tid : Nat) (pc : Word) (e : SEff) (h : OkSEff P e) : Ok P (seqFinish tid pc e) := by
  cases e <;> simp only [OkSEff] at h <;> unfold seqFinish
  · exact ok_modSeq _ _ _ h
  · exact ok_modSeq _ _ _ h
  · exact h
  · exact ok_seqFault _ _ _ _ _ h
  · exact ok_retireTeam _ _ (ok_seqIdle _ _ h)

theorem ok_seqWord (i : Instr) (s : State) (k : Nat → Team → Seq → SEff) (h1 : Ok P s) (h2 : ∀ y0 y1 y2, OkSEff P (k y0 y1 y2)) : OkOut P
    (seqWord i s k) := by
  unfold seqWord
  repeat first | with_reducible assumption | with_reducible apply h2 | with_reducible apply ok_seqFinish | dsimp only | simp only [ok_mk] |
    with_reducible apply ok_wf | with_reducible apply ok_next | with_reducible apply ok_fault | with_reducible apply seff_fault | split

theorem ok_matrixClock (s : State) (tid : Nat) (t : Team) (w : SeqWrite) (next : Nat) (h : Ok P s) : Ok P (matrixClock s tid t w next) :=
    by
  unfold matrixClock
  repeat first | with_reducible assumption | with_reducible apply ok_modSeq | with_reducible apply ok_coreIssues

theorem ok_stepsWord (i : Instr) (scaled : Bool) (base : BitVec 3) (n : BitVec 2) (a b : BitVec 6) (steps : BitVec 4) (f : BitVec 3) (s :
    State) (h : Ok P s) : OkOut P (stepsWord i scaled base n a b steps f s) := by
  unfold stepsWord
  repeat first | with_reducible assumption | intro _ | with_reducible apply ok_seqWord | with_reducible apply ok_count |
    with_reducible apply ok_matrixClock | with_reducible apply ok_modSeq | dsimp only | with_reducible apply seff_ok |
    with_reducible apply seff_stay | with_reducible apply seff_fault | split

theorem ok_execMma (base : BitVec 3) (n : BitVec 2) (a b : BitVec 6) (steps : BitVec 4) (f : BitVec 3) (s : State) (h : Ok P s) : OkOut P
    (execMma base n a b steps f s) := by
  unfold execMma
  repeat first | with_reducible assumption | with_reducible apply ok_stepsWord

theorem ok_execMmas (base : BitVec 3) (n : BitVec 2) (a b : BitVec 6) (steps : BitVec 4) (f : BitVec 3) (s : State) (h : Ok P s) : OkOut P
    (execMmas base n a b steps f s) := by
  unfold execMmas
  repeat first | with_reducible assumption | with_reducible apply ok_stepsWord

theorem ok_execMzero (base : BitVec 3) (n : BitVec 2) (s : State) (h : Ok P s) : OkOut P (execMzero base n s) := by
  unfold execMzero
  repeat first | with_reducible assumption | intro _ | with_reducible apply ok_seqWord | with_reducible apply ok_matrixClock | dsimp only |
    with_reducible apply seff_ok | with_reducible apply seff_stay | with_reducible apply seff_fault | split

theorem ok_execMcpy (d a : BitVec 3) (s : State) (h : Ok P s) : OkOut P (execMcpy d a s) := by
  unfold execMcpy
  repeat first | with_reducible assumption | intro _ | with_reducible apply ok_seqWord | with_reducible apply ok_matrixClock | dsimp only |
    with_reducible apply seff_ok | with_reducible apply seff_fault | split

theorem ok_execMmap (r : MRole) (g : BitVec 6) (s : State) (h : Ok P s) : OkOut P (execMmap r g s) := by
  unfold execMmap
  repeat first | with_reducible assumption | intro _ | with_reducible apply ok_seqWord | with_reducible apply ok_modSeq |
    with_reducible apply seff_ok | with_reducible apply seff_fault | split

theorem ok_execMbin (n : BitVec 4) (s : State) (h : Ok P s) : OkOut P (execMbin n s) := by
  unfold execMbin
  repeat first | with_reducible assumption | intro _ | with_reducible apply ok_seqWord | with_reducible apply ok_arriveEngine |
    with_reducible apply ok_modSeq | with_reducible apply seff_ok | with_reducible apply seff_stay | split

theorem ok_execMbwait (n : BitVec 4) (s : State) (h : Ok P s) : OkOut P (execMbwait n s) := by
  unfold execMbwait
  repeat first | with_reducible assumption | intro _ | with_reducible apply ok_seqWord | with_reducible apply ok_modSeq | dsimp only |
    with_reducible apply seff_ok | with_reducible apply seff_fault | split

theorem ok_execMend (s : State) (h : Ok P s) : OkOut P (execMend s) := by
  unfold execMend
  repeat first | with_reducible assumption | intro _ | with_reducible apply ok_seqWord | with_reducible apply ok_modGroup |
    with_reducible apply ok_modSeq | dsimp only | with_reducible apply seff_stay | with_reducible apply seff_idle | split

theorem ok_execMloop (k : BitVec 4) (o : BitVec 22) (s : State) (h : Ok P s) : OkOut P (execMloop k o s) := by
  unfold execMloop
  repeat first | with_reducible assumption | intro _ | with_reducible apply ok_seqWord | with_reducible apply ok_modSeq | dsimp only |
    with_reducible apply seff_ok | with_reducible apply seff_jump | split

theorem ok_execMjmp (o : BitVec 22) (s : State) (h : Ok P s) : OkOut P (execMjmp o s) := by
  unfold execMjmp
  repeat first | with_reducible assumption | intro _ | with_reducible apply ok_seqWord | with_reducible apply seff_jump

theorem ok_execMset (d : MDst) (i : BitVec 16) (s : State) (h : Ok P s) : OkOut P (execMset d i s) := by
  unfold execMset
  repeat first | with_reducible assumption | intro _ | with_reducible apply ok_seqWord | with_reducible apply ok_modSeq |
    with_reducible apply seff_ok

theorem ok_execMshare (v : BitVec 4) (s : State) (h : Ok P s) : OkOut P (execMshare v s) := by
  unfold execMshare
  repeat first | with_reducible assumption | intro _ | with_reducible apply ok_seqWord | with_reducible apply ok_modSeq |
    with_reducible apply seff_ok

theorem ok_putCells (x0 : List (Nat × Nat × Nat × Word)) (x1 : State) (h : Ok P x1) : Ok P (putCells x0 x1) := by
  fun_induction putCells x0 x1
  all_goals
    repeat first | with_reducible assumption | with_reducible refine ok_mp (by assumption) ?_ | with_reducible apply ok_modGroup

theorem ok_execMatrixStepWrite (t : Nat) (s : State) (h : Ok P s) : OkOut P (execMatrixStepWrite t s) := by
  unfold execMatrixStepWrite
  repeat first | with_reducible assumption | with_reducible apply ok_retireTeam | with_reducible apply ok_modSeq |
    with_reducible apply ok_putCells | with_reducible apply ok_next | split

theorem ok_execSequencerRunawayStop (t : Nat) (s : State) (h : Ok P s) : OkOut P (execSequencerRunawayStop t s) := by
  unfold execSequencerRunawayStop
  repeat first | with_reducible assumption | with_reducible apply ok_seqFault | with_reducible apply ok_next | split

/-! Trust. -/

theorem ok_execQuicksetTakeover (failed : List Nat) (s : State) (h : Ok P s) : OkOut P (execQuicksetTakeover failed s) := by
  unfold execQuicksetTakeover
  repeat first | with_reducible assumption | dsimp only | simp only [ok_mk] | with_reducible apply ok_wf | with_reducible apply ok_next |
    split

theorem ok_execDeviceFailure (hw : Closed P) (c : Nat) (s : State) (h : Ok P s) : OkOut P (execDeviceFailure c s) := by
  unfold execDeviceFailure
  repeat first | with_reducible assumption | intro _ | with_reducible apply ok_stopCmd | with_reducible apply ok_tellMgmt |
    with_reducible apply ok_endAllOpen | with_reducible apply ok_foldl | dsimp only | simp only [ok_mk] | with_reducible apply ok_wf |
    with_reducible apply ok_next | split

theorem ok_coldState (hw : Closed P) (s : State) (t : Trust) (h : Ok P s) : Ok P (coldState s t) := by
  unfold coldState
  repeat first | with_reducible assumption | dsimp only | simp only [ok_mk] | with_reducible apply ok_drop | with_reducible apply ok_wf

theorem ok_coldReset (hw : Closed P) (s : State) (h : Ok P s) : Ok P (coldReset s) := by
  unfold coldReset
  repeat first | with_reducible assumption | with_reducible apply ok_tellMgmt | with_reducible apply ok_coldState | dsimp only | split

theorem ok_execColdReset (hw : Closed P) (ok : Bool) (s : State) (h : Ok P s) : OkOut P (execColdReset ok s) := by
  unfold execColdReset
  repeat first | with_reducible assumption | with_reducible apply ok_coldReset | with_reducible apply ok_next | split

theorem ok_fillPages (s : State) (sid : Nat) (pages : List Nat) (h : Ok P s) : Ok P (fillPages s sid pages) := by
  unfold fillPages
  repeat first | with_reducible assumption | intro _ | with_reducible apply ok_fillL2 | with_reducible apply ok_foldl | split

theorem ok_recordNow (hw : Closed P) (s : State) (c : Nat) (h : Ok P s) : Ok P (recordNow s c) := by
  unfold recordNow
  repeat first | with_reducible assumption | with_reducible apply ok_closeRecording | with_reducible apply ok_fillPages |
    with_reducible apply ok_writeLocs | with_reducible apply ok_errorRecord | dsimp only | split

theorem ok_endAllNow (hw : Closed P) (s : State) (h : Ok P s) : Ok P (endAllNow s) := by
  unfold endAllNow
  repeat first | with_reducible assumption | intro _ | with_reducible apply ok_endAllOpen | with_reducible apply ok_haltAll |
    with_reducible apply ok_recordNow | with_reducible apply ok_foldl

theorem ok_warmReset (hw : Closed P) (s0 : State) (h : Ok P s0) : Ok P (warmReset s0) := by
  unfold warmReset
  repeat first | with_reducible assumption | with_reducible apply ok_holdBudgets | with_reducible apply ok_endAllNow | dsimp only | simp only [ok_mk] |
    with_reducible apply ok_drop | with_reducible apply ok_wf

theorem ok_execWarmReset (hw : Closed P) (s : State) (h : Ok P s) : OkOut P (execWarmReset s) := by
  unfold execWarmReset
  repeat first | with_reducible assumption | with_reducible apply ok_warmReset | with_reducible apply ok_next | split

theorem ok_takeBundle (s : State) (h : Ok P s) : Ok P (takeBundle s) := by
  unfold takeBundle
  repeat first | with_reducible assumption | dsimp only | simp only [ok_mk] | with_reducible apply ok_wf | split

theorem ok_execFirmwareUpdate (s : State) (h : Ok P s) : OkOut P (execFirmwareUpdate s) := by
  unfold execFirmwareUpdate
  repeat first | with_reducible assumption | with_reducible apply ok_takeBundle | with_reducible apply ok_next

theorem ok_activate (s : State) (h : Ok P s) : Ok P (activate s) := by
  unfold activate
  repeat first | with_reducible assumption | with_reducible apply ok_journal | dsimp only | simp only [ok_mk] | with_reducible apply ok_wf

theorem ok_execFirmwareActivate (s : State) (h : Ok P s) : OkOut P (execFirmwareActivate s) := by
  unfold execFirmwareActivate
  repeat first | with_reducible assumption | with_reducible apply ok_activate | with_reducible apply ok_next | split

theorem ok_endLayout (hw : Closed P) (s : State) (c : Nat) (h : Ok P s) : Ok P (endLayout s c) := by
  unfold endLayout
  repeat first | with_reducible assumption | with_reducible apply ok_endVats | with_reducible apply ok_modCmd |
    with_reducible apply ok_stopCmd | dsimp only | split

theorem ok_execManagementOverride (hw : Closed P) (s : State) (h : Ok P s) : OkOut P (execManagementOverride s) := by
  unfold execManagementOverride
  repeat first | with_reducible assumption | intro _ | with_reducible apply ok_activate | with_reducible apply ok_endLayout |
    with_reducible apply ok_foldl | with_reducible apply ok_next | split

theorem ok_execAttestationRequest (nonce : List Byte) (s : State) (h : Ok P s) : OkOut P (execAttestationRequest nonce s) := by
  unfold execAttestationRequest
  repeat first | with_reducible assumption | with_reducible apply ok_reply | with_reducible apply ok_next | split

theorem ok_execPldmSensorRead (s : State) (h : Ok P s) : OkOut P (execPldmSensorRead s) := by
  unfold execPldmSensorRead
  repeat first | with_reducible assumption | with_reducible apply ok_reply | with_reducible apply ok_next

theorem ok_dropLoads (s : State) (gid addr : Nat) (h : Ok P s) : Ok P (dropLoads s gid addr) := by
  unfold dropLoads
  repeat first | with_reducible assumption | intro _ | with_reducible apply ok_opDone | with_reducible apply ok_foldl | split

theorem ok_consumerFaults (s : State) (addr : Nat) (x1 : Consumer) (h : Ok P s) : Ok P (consumerFaults s addr x1) := by
  unfold consumerFaults
  repeat first | with_reducible assumption | with_reducible apply ok_dropLoads | with_reducible apply ok_faultCmd |
    with_reducible apply ok_dropReqs | with_reducible apply ok_endCmd | with_reducible apply ok_opDone | dsimp only | simp only [ok_mk] |
    with_reducible apply ok_wf | split

theorem ok_uncorrectable (s : State) (src : ErrSource) (who : Consumer) (addr : Nat) (h : Ok P s) : Ok P (uncorrectable s src who addr) :=
    by
  unfold uncorrectable
  repeat first | with_reducible assumption | with_reducible apply ok_consumerFaults | with_reducible apply ok_trigger |
    with_reducible apply ok_errorRecord | dsimp only

theorem ok_execUncorrectableError (src : ErrSource) (who : Consumer) (addr : Nat) (s : State) (h : Ok P s) : OkOut P
    (execUncorrectableError src who addr s) := by
  unfold execUncorrectableError
  repeat first | with_reducible assumption | with_reducible apply ok_uncorrectable | with_reducible apply ok_next

theorem ok_execCorrectedSoftError (src : ErrSource) (s : State) (h : Ok P s) : OkOut P (execCorrectedSoftError src s) := by
  unfold execCorrectedSoftError
  repeat first | with_reducible assumption | dsimp only | simp only [ok_mk] | with_reducible apply ok_wf | with_reducible apply ok_next

theorem ok_execPortRetrainFail (p : Nat) (s : State) (h : Ok P s) : OkOut P (execPortRetrainFail p s) := by
  unfold execPortRetrainFail
  repeat first | with_reducible assumption | dsimp only | simp only [ok_mk] | with_reducible apply ok_wf | with_reducible apply ok_next

/-! Regs. -/

theorem ok_selectAcc (v : Word) (s : State) (h : Ok P s) : Ok P (selectAcc v s) := by
  unfold selectAcc
  repeat first | with_reducible assumption | simp only [ok_mk] | with_reducible apply ok_wf

theorem ok_commitAcc (s : State) (h : Ok P s) : Ok P (commitAcc s) := by
  unfold commitAcc
  repeat first | with_reducible assumption | with_reducible apply ok_putAcc | simp only [ok_mk] | with_reducible apply ok_wf

theorem ok_execAcctab (m : Master) (x1 : Word) (s : State) (h : Ok P s) : OkOut P (execAcctab m x1 s) := by
  unfold execAcctab
  repeat first | with_reducible assumption | intro _ | with_reducible apply ok_barWrite | with_reducible apply ok_commitAcc |
    with_reducible apply ok_next | split

theorem ok_selectRes (v : Word) (s : State) (h : Ok P s) : Ok P (selectRes v s) := by
  unfold selectRes
  repeat first | with_reducible assumption | simp only [ok_mk] | with_reducible apply ok_wf

theorem ok_commitRes (v : Word) (s : State) (h : Ok P s) : Ok P (commitRes v s) := by
  unfold commitRes
  repeat first | with_reducible assumption | with_reducible apply ok_modCore | dsimp only | simp only [ok_mk] | with_reducible apply ok_wf |
    split

theorem ok_execReswin (m : Master) (v : Word) (s : State) (h : Ok P s) : OkOut P (execReswin m v s) := by
  unfold execReswin
  repeat first | with_reducible assumption | intro _ | with_reducible apply ok_barWrite | with_reducible apply ok_commitRes |
    with_reducible apply ok_next | split

theorem ok_writeVpin (m : Master) (i word : Nat) (v : Word) (s : State) (h : Ok P s) : Ok P (writeVpin m i word v s) := by
  unfold writeVpin
  repeat first | with_reducible assumption | with_reducible apply ok_setVpin | with_reducible apply ok_vpinGo | dsimp only | split

theorem ok_freeSlot (die slot : Nat) (s : State) (h : Ok P s) : Ok P (freeSlot die slot s) := by
  unfold freeSlot
  repeat first | with_reducible assumption | with_reducible apply ok_modDie

theorem ok_writeFltbuf (off : Nat) (v : Word) (s : State) (h : Ok P s) : Ok P (writeFltbuf off v s) := by
  unfold writeFltbuf
  repeat first | with_reducible assumption | with_reducible apply ok_freeSlot | split

theorem ok_writeFltstat (die : Nat) (v : Word) (s : State) (h : Ok P s) : Ok P (writeFltstat die v s) := by
  unfold writeFltstat
  repeat first | with_reducible assumption | with_reducible apply ok_modDie

theorem ok_writeInvrange (word : Nat) (v : Word) (s : State) (h : Ok P s) : Ok P (writeInvrange word v s) := by
  unfold writeInvrange
  repeat first | with_reducible assumption | with_reducible apply ok_goInvrange | simp only [ok_mk] | with_reducible apply ok_wf | split

theorem ok_writeMbox (m : Master) (n word : Nat) (v : Word) (s : State) (h : Ok P s) : Ok P (writeMbox m n word v s) := by
  unfold writeMbox
  repeat first | with_reducible assumption | with_reducible apply ok_setBox | with_reducible apply ok_sendBox |
    with_reducible apply ok_popBox | dsimp only | split

theorem ok_writeAcctab (m : Master) (word : Nat) (v : Word) (s : State) (h : Ok P s) : Ok P (writeAcctab m word v s) := by
  unfold writeAcctab
  repeat first | with_reducible assumption | with_reducible apply ok_selectAcc | with_reducible apply ok_commitAcc | simp only [ok_mk] |
    with_reducible apply ok_wf | split

theorem ok_writeReswin (m : Master) (word : Nat) (v : Word) (s : State) (h : Ok P s) : Ok P (writeReswin m word v s) := by
  unfold writeReswin
  repeat first | with_reducible assumption | with_reducible apply ok_selectRes | with_reducible apply ok_commitRes | simp only [ok_mk] |
    with_reducible apply ok_wf | split

theorem ok_writeBlock (m : Master) (off : Nat) (v : Word) (s : State) (h : Ok P s) : Ok P (writeBlock m off v s) := by
  unfold writeBlock
  repeat first | with_reducible assumption | with_reducible apply ok_writeVpin | with_reducible apply ok_writeFltbuf |
    with_reducible apply ok_writeFltstat | with_reducible apply ok_feedPort | with_reducible apply ok_replayDie |
    with_reducible apply ok_writeInvrange | with_reducible apply ok_writeReswin | with_reducible apply ok_writeSnap |
    with_reducible apply ok_writeAcctab | with_reducible apply ok_writeMbox | simp only [ok_mk] | with_reducible apply ok_wf | split

theorem ok_registerWrite (m : Master) (off : Nat) (v : Word) (s : State) (h : Ok P s) : Ok P (registerWrite m off v s) := by
  unfold registerWrite
  repeat first | with_reducible assumption | intro _ | with_reducible apply ok_barWrite | with_reducible apply ok_writeBlock | split

theorem ok_execRegisterWrite (m : Master) (off : Nat) (v : Word) (s : State) (h : Ok P s) : OkOut P (execRegisterWrite m off v s) := by
  unfold execRegisterWrite
  repeat first | with_reducible assumption | with_reducible apply ok_registerWrite | with_reducible apply ok_next

theorem ok_barRead (s : State) (m : Master) (off : Nat) (h : Ok P s) : Ok P (barRead s m off) := by
  unfold barRead
  repeat first | with_reducible assumption | with_reducible apply ok_reply | with_reducible apply ok_denied | split

theorem ok_hdmAccess (hw : Closed P) (f : Nat) (wr : Bool) (a : Nat) (data : List Byte) (s : State) (h : Ok P s) : Ok P (hdmAccess f wr a
    data s) := by
  unfold hdmAccess
  repeat first | with_reducible assumption | with_reducible apply ok_reply | with_reducible apply ok_denied |
    with_reducible apply ok_writeBytes | dsimp only | split

theorem ok_execHdmAccess (hw : Closed P) (f : Nat) (wr : Bool) (addr : Nat) (data : List Byte) (s : State) (h : Ok P s) : OkOut P
    (execHdmAccess f wr addr data s) := by
  unfold execHdmAccess
  repeat first | with_reducible assumption | with_reducible apply ok_hdmAccess | with_reducible apply ok_next | split

theorem ok_peerAtomic (hw : Closed P) (s : State) (p a op : Nat) (v cmp : BitVec 64) (h : Ok P s) : Ok P (peerAtomic s p a op v cmp) := by
  unfold peerAtomic
  repeat first | with_reducible assumption | with_reducible apply ok_reply | with_reducible apply ok_signalDo |
    with_reducible apply ok_denied | dsimp only | split

theorem ok_peerRequest (hw : Closed P) (s : State) (p : Nat) (r : PeerReq) (h : Ok P s) : Ok P (peerRequest s p r) := by
  unfold peerRequest
  repeat first | with_reducible assumption | with_reducible apply ok_reply | with_reducible apply ok_denied |
    with_reducible apply ok_writeBytes | with_reducible apply ok_peerAtomic | with_reducible apply ok_claimBy |
    with_reducible apply ok_ring | with_reducible apply ok_writeVpin | split

theorem ok_execPeerRequest (hw : Closed P) (p : Nat) (r : PeerReq) (s : State) (h : Ok P s) : OkOut P (execPeerRequest p r s) := by
  unfold execPeerRequest
  repeat first | with_reducible assumption | with_reducible apply ok_peerRequest | with_reducible apply ok_next | split

/-! Scalar. -/

theorem ok_srrWord (i : Instr) (d a b : BitVec 9) (f : Word → Word → Word) (s : State) (h : Ok P s) : OkOut P (srrWord i d a b f s) := by
  unfold srrWord
  repeat first | with_reducible assumption | intro _ | with_reducible apply ok_word | with_reducible apply ok_onGroup

theorem ok_sriWord (i : Instr) (d a : BitVec 9) (f : Word → Word) (s : State) (h : Ok P s) : OkOut P (sriWord i d a f s) := by
  unfold sriWord
  repeat first | with_reducible assumption | intro _ | with_reducible apply ok_word | with_reducible apply ok_onGroup

theorem ok_execSadd (d a b : BitVec 9) (s : State) (h : Ok P s) : OkOut P (execSadd d a b s) := by
  unfold execSadd
  repeat first | with_reducible assumption | with_reducible apply ok_srrWord

theorem ok_execSsub (d a b : BitVec 9) (s : State) (h : Ok P s) : OkOut P (execSsub d a b s) := by
  unfold execSsub
  repeat first | with_reducible assumption | with_reducible apply ok_srrWord

theorem ok_execSmul (d a b : BitVec 9) (s : State) (h : Ok P s) : OkOut P (execSmul d a b s) := by
  unfold execSmul
  repeat first | with_reducible assumption | with_reducible apply ok_srrWord

theorem ok_execSmulhiI (d a b : BitVec 9) (s : State) (h : Ok P s) : OkOut P (execSmulhiI d a b s) := by
  unfold execSmulhiI
  repeat first | with_reducible assumption | with_reducible apply ok_srrWord

theorem ok_execSmulhiN (d a b : BitVec 9) (s : State) (h : Ok P s) : OkOut P (execSmulhiN d a b s) := by
  unfold execSmulhiN
  repeat first | with_reducible assumption | with_reducible apply ok_srrWord

theorem ok_execSand (d a b : BitVec 9) (s : State) (h : Ok P s) : OkOut P (execSand d a b s) := by
  unfold execSand
  repeat first | with_reducible assumption | with_reducible apply ok_srrWord

theorem ok_execSor (d a b : BitVec 9) (s : State) (h : Ok P s) : OkOut P (execSor d a b s) := by
  unfold execSor
  repeat first | with_reducible assumption | with_reducible apply ok_srrWord

theorem ok_execSxor (d a b : BitVec 9) (s : State) (h : Ok P s) : OkOut P (execSxor d a b s) := by
  unfold execSxor
  repeat first | with_reducible assumption | with_reducible apply ok_srrWord

theorem ok_execSshl (d a b : BitVec 9) (s : State) (h : Ok P s) : OkOut P (execSshl d a b s) := by
  unfold execSshl
  repeat first | with_reducible assumption | with_reducible apply ok_srrWord

theorem ok_execSshr (d a b : BitVec 9) (s : State) (h : Ok P s) : OkOut P (execSshr d a b s) := by
  unfold execSshr
  repeat first | with_reducible assumption | with_reducible apply ok_srrWord

theorem ok_execSsra (d a b : BitVec 9) (s : State) (h : Ok P s) : OkOut P (execSsra d a b s) := by
  unfold execSsra
  repeat first | with_reducible assumption | with_reducible apply ok_srrWord

theorem ok_execSminI (d a b : BitVec 9) (s : State) (h : Ok P s) : OkOut P (execSminI d a b s) := by
  unfold execSminI
  repeat first | with_reducible assumption | with_reducible apply ok_srrWord

theorem ok_execSmaxI (d a b : BitVec 9) (s : State) (h : Ok P s) : OkOut P (execSmaxI d a b s) := by
  unfold execSmaxI
  repeat first | with_reducible assumption | with_reducible apply ok_srrWord

theorem ok_execSeq (d a b : BitVec 9) (s : State) (h : Ok P s) : OkOut P (execSeq d a b s) := by
  unfold execSeq
  repeat first | with_reducible assumption | with_reducible apply ok_srrWord

theorem ok_execSltI (d a b : BitVec 9) (s : State) (h : Ok P s) : OkOut P (execSltI d a b s) := by
  unfold execSltI
  repeat first | with_reducible assumption | with_reducible apply ok_srrWord

theorem ok_execSltN (d a b : BitVec 9) (s : State) (h : Ok P s) : OkOut P (execSltN d a b s) := by
  unfold execSltN
  repeat first | with_reducible assumption | with_reducible apply ok_srrWord

theorem ok_execSaddi (d a n : BitVec 9) (s : State) (h : Ok P s) : OkOut P (execSaddi d a n s) := by
  unfold execSaddi
  repeat first | with_reducible assumption | with_reducible apply ok_sriWord

theorem ok_execSrsubi (d a n : BitVec 9) (s : State) (h : Ok P s) : OkOut P (execSrsubi d a n s) := by
  unfold execSrsubi
  repeat first | with_reducible assumption | with_reducible apply ok_sriWord

theorem ok_execSmuli (d a n : BitVec 9) (s : State) (h : Ok P s) : OkOut P (execSmuli d a n s) := by
  unfold execSmuli
  repeat first | with_reducible assumption | with_reducible apply ok_sriWord

theorem ok_execSandi (d a n : BitVec 9) (s : State) (h : Ok P s) : OkOut P (execSandi d a n s) := by
  unfold execSandi
  repeat first | with_reducible assumption | with_reducible apply ok_sriWord

theorem ok_execSori (d a n : BitVec 9) (s : State) (h : Ok P s) : OkOut P (execSori d a n s) := by
  unfold execSori
  repeat first | with_reducible assumption | with_reducible apply ok_sriWord

theorem ok_execSxori (d a n : BitVec 9) (s : State) (h : Ok P s) : OkOut P (execSxori d a n s) := by
  unfold execSxori
  repeat first | with_reducible assumption | with_reducible apply ok_sriWord

theorem ok_execSeqi (d a n : BitVec 9) (s : State) (h : Ok P s) : OkOut P (execSeqi d a n s) := by
  unfold execSeqi
  repeat first | with_reducible assumption | with_reducible apply ok_sriWord

theorem ok_execSltiI (d a n : BitVec 9) (s : State) (h : Ok P s) : OkOut P (execSltiI d a n s) := by
  unfold execSltiI
  repeat first | with_reducible assumption | with_reducible apply ok_sriWord

theorem ok_execSltiN (d a n : BitVec 9) (s : State) (h : Ok P s) : OkOut P (execSltiN d a n s) := by
  unfold execSltiN
  repeat first | with_reducible assumption | with_reducible apply ok_sriWord

theorem ok_execSminiI (d a n : BitVec 9) (s : State) (h : Ok P s) : OkOut P (execSminiI d a n s) := by
  unfold execSminiI
  repeat first | with_reducible assumption | with_reducible apply ok_sriWord

theorem ok_execSmaxiI (d a n : BitVec 9) (s : State) (h : Ok P s) : OkOut P (execSmaxiI d a n s) := by
  unfold execSmaxiI
  repeat first | with_reducible assumption | with_reducible apply ok_sriWord

theorem ok_execSshli (d a i : BitVec 9) (s : State) (h : Ok P s) : OkOut P (execSshli d a i s) := by
  unfold execSshli
  repeat first | with_reducible assumption | with_reducible apply ok_sriWord

theorem ok_execSshri (d a i : BitVec 9) (s : State) (h : Ok P s) : OkOut P (execSshri d a i s) := by
  unfold execSshri
  repeat first | with_reducible assumption | with_reducible apply ok_sriWord

theorem ok_execSsrai (d a i : BitVec 9) (s : State) (h : Ok P s) : OkOut P (execSsrai d a i s) := by
  unfold execSsrai
  repeat first | with_reducible assumption | with_reducible apply ok_sriWord

theorem ok_execSbfx (d a : BitVec 9) (pos : BitVec 5) (len : BitVec 4) (s : State) (h : Ok P s) : OkOut P (execSbfx d a pos len s) := by
  unfold execSbfx
  repeat first | with_reducible assumption | with_reducible apply ok_sriWord

/-! Vec. -/

theorem ok_binWord (i : Instr) (p : Option Pfx) (x : Ix) (d a : BitVec 6) (b : VB) (op : RMode → Word → Word → Word × BitVec 5) (s :
    State) (h : Ok P s) : OkOut P (binWord i p x d a b op s) := by
  unfold binWord
  repeat first | with_reducible assumption | with_reducible apply ok_vecWord

theorem ok_unWord (i : Instr) (p : Option Pfx) (x : Ix) (d a : BitVec 6) (op : RMode → Word → Word × BitVec 5) (s : State) (h : Ok P s) :
    OkOut P (unWord i p x d a op s) := by
  unfold unWord
  repeat first | with_reducible assumption | with_reducible apply ok_vecWord

theorem ok_execVadd (p : Option Pfx) (t : VT) (x : Ix) (d a : BitVec 6) (b : VB) (s : State) (h : Ok P s) : OkOut P (execVadd p t x d a b
    s) := by
  unfold execVadd
  repeat first | with_reducible assumption | with_reducible apply ok_binWord

theorem ok_execVsub (p : Option Pfx) (t : VT) (x : Ix) (d a : BitVec 6) (b : VB) (s : State) (h : Ok P s) : OkOut P (execVsub p t x d a b
    s) := by
  unfold execVsub
  repeat first | with_reducible assumption | with_reducible apply ok_binWord

theorem ok_execVmul (p : Option Pfx) (t : VT) (x : Ix) (d a : BitVec 6) (b : VB) (s : State) (h : Ok P s) : OkOut P (execVmul p t x d a b
    s) := by
  unfold execVmul
  repeat first | with_reducible assumption | with_reducible apply ok_binWord

theorem ok_execVfma (p : Option Pfx) (t : VT) (x : Ix) (d a : BitVec 6) (b : VB) (s : State) (h : Ok P s) : OkOut P (execVfma p t x d a b
    s) := by
  unfold execVfma
  repeat first | with_reducible assumption | with_reducible apply ok_vecWord

theorem ok_execVmin (p : Option Pfx) (t : VT) (x : Ix) (d a : BitVec 6) (b : VB) (s : State) (h : Ok P s) : OkOut P (execVmin p t x d a b
    s) := by
  unfold execVmin
  repeat first | with_reducible assumption | with_reducible apply ok_binWord

theorem ok_execVmax (p : Option Pfx) (t : VT) (x : Ix) (d a : BitVec 6) (b : VB) (s : State) (h : Ok P s) : OkOut P (execVmax p t x d a b
    s) := by
  unfold execVmax
  repeat first | with_reducible assumption | with_reducible apply ok_binWord

theorem ok_execVabs (p : Option Pfx) (t : VT) (x : Ix) (d a : BitVec 6) (s : State) (h : Ok P s) : OkOut P (execVabs p t x d a s) := by
  unfold execVabs
  repeat first | with_reducible assumption | with_reducible apply ok_unWord

theorem ok_execVneg (p : Option Pfx) (t : VT) (x : Ix) (d a : BitVec 6) (s : State) (h : Ok P s) : OkOut P (execVneg p t x d a s) := by
  unfold execVneg
  repeat first | with_reducible assumption | with_reducible apply ok_unWord

theorem ok_execVmulhi (p : Option Pfx) (t : VT) (x : Ix) (d a : BitVec 6) (b : VB) (s : State) (h : Ok P s) : OkOut P (execVmulhi p t x d
    a b s) := by
  unfold execVmulhi
  repeat first | with_reducible assumption | with_reducible apply ok_binWord

theorem ok_execVand (p : Option Pfx) (x : Ix) (d a : BitVec 6) (b : VB) (s : State) (h : Ok P s) : OkOut P (execVand p x d a b s) := by
  unfold execVand
  repeat first | with_reducible assumption | with_reducible apply ok_binWord

theorem ok_execVor (p : Option Pfx) (x : Ix) (d a : BitVec 6) (b : VB) (s : State) (h : Ok P s) : OkOut P (execVor p x d a b s) := by
  unfold execVor
  repeat first | with_reducible assumption | with_reducible apply ok_binWord

theorem ok_execVxor (p : Option Pfx) (x : Ix) (d a : BitVec 6) (b : VB) (s : State) (h : Ok P s) : OkOut P (execVxor p x d a b s) := by
  unfold execVxor
  repeat first | with_reducible assumption | with_reducible apply ok_binWord

theorem ok_execVnot (p : Option Pfx) (x : Ix) (d a : BitVec 6) (s : State) (h : Ok P s) : OkOut P (execVnot p x d a s) := by
  unfold execVnot
  repeat first | with_reducible assumption | with_reducible apply ok_unWord

theorem ok_execVshl (p : Option Pfx) (t : VT) (x : Ix) (d a : BitVec 6) (b : VB) (s : State) (h : Ok P s) : OkOut P (execVshl p t x d a b
    s) := by
  unfold execVshl
  repeat first | with_reducible assumption | with_reducible apply ok_binWord

theorem ok_execVshr (p : Option Pfx) (t : VT) (x : Ix) (d a : BitVec 6) (b : VB) (s : State) (h : Ok P s) : OkOut P (execVshr p t x d a b
    s) := by
  unfold execVshr
  repeat first | with_reducible assumption | with_reducible apply ok_binWord

theorem ok_execVsra (p : Option Pfx) (t : VT) (x : Ix) (d a : BitVec 6) (b : VB) (s : State) (h : Ok P s) : OkOut P (execVsra p t x d a b
    s) := by
  unfold execVsra
  repeat first | with_reducible assumption | with_reducible apply ok_binWord

theorem ok_execVpopc (p : Option Pfx) (x : Ix) (d a : BitVec 6) (s : State) (h : Ok P s) : OkOut P (execVpopc p x d a s) := by
  unfold execVpopc
  repeat first | with_reducible assumption | with_reducible apply ok_unWord

theorem ok_execVclz (p : Option Pfx) (x : Ix) (d a : BitVec 6) (s : State) (h : Ok P s) : OkOut P (execVclz p x d a s) := by
  unfold execVclz
  repeat first | with_reducible assumption | with_reducible apply ok_unWord

theorem ok_execVcmp (p : Option Pfx) (t : VT) (c : Cond) (m : BitVec 3) (a : BitVec 6) (b : VB) (s : State) (h : Ok P s) : OkOut P
    (execVcmp p t c m a b s) := by
  unfold execVcmp
  repeat first | with_reducible assumption | with_reducible apply ok_vecWord

theorem ok_execVsel (p : Option Pfx) (m : BitVec 3) (x : Ix) (d a : BitVec 6) (b : VB) (s : State) (h : Ok P s) : OkOut P (execVsel p m x
    d a b s) := by
  unfold execVsel
  repeat first | with_reducible assumption | with_reducible apply ok_vecWord

theorem ok_execVmov (p : Option Pfx) (x : Ix) (d : BitVec 6) (b : VB) (s : State) (h : Ok P s) : OkOut P (execVmov p x d b s) := by
  unfold execVmov
  repeat first | with_reducible assumption | with_reducible apply ok_vecWord

theorem ok_execVidx (p : Option Pfx) (x : Ix) (d : BitVec 6) (s : State) (h : Ok P s) : OkOut P (execVidx p x d s) := by
  unfold execVidx
  repeat first | with_reducible assumption | with_reducible apply ok_vecWord

theorem ok_execVbcast (p : Option Pfx) (w : SubW) (d a : BitVec 6) (lane : BitVec 5) (s : State) (h : Ok P s) : OkOut P (execVbcast p w d
    a lane s) := by
  unfold execVbcast
  repeat first | with_reducible assumption | with_reducible apply ok_vecWord

theorem ok_execVtos (p : Option Pfx) (x : Ix) (d a : BitVec 6) (lane : BitVec 5) (s : State) (h : Ok P s) : OkOut P (execVtos p x d a lane
    s) := by
  unfold execVtos
  repeat first | with_reducible assumption | with_reducible apply ok_vecWord

theorem ok_execVins (p : Option Pfx) (x : Ix) (d a : BitVec 6) (lane : BitVec 5) (s : State) (h : Ok P s) : OkOut P (execVins p x d a lane
    s) := by
  unfold execVins
  repeat first | with_reducible assumption | with_reducible apply ok_vecWord

theorem ok_shuffleWord (i : Instr) (p : Option Pfx) (w : SubW) (d a : BitVec 6) (b : VB) (src : Nat → Nat → Nat → Nat) (s : State) (h : Ok
    P s) : OkOut P (shuffleWord i p w d a b src s) := by
  unfold shuffleWord
  repeat first | with_reducible assumption | with_reducible apply ok_vecWord

theorem ok_execVshfl (p : Option Pfx) (w : SubW) (d a : BitVec 6) (b : VB) (s : State) (h : Ok P s) : OkOut P (execVshfl p w d a b s) :=
    by
  unfold execVshfl
  repeat first | with_reducible assumption | with_reducible apply ok_shuffleWord

theorem ok_execVshflup (p : Option Pfx) (w : SubW) (d a : BitVec 6) (b : VB) (s : State) (h : Ok P s) : OkOut P (execVshflup p w d a b s)
    := by
  unfold execVshflup
  repeat first | with_reducible assumption | with_reducible apply ok_shuffleWord

theorem ok_execVshfldn (p : Option Pfx) (w : SubW) (d a : BitVec 6) (b : VB) (s : State) (h : Ok P s) : OkOut P (execVshfldn p w d a b s)
    := by
  unfold execVshfldn
  repeat first | with_reducible assumption | with_reducible apply ok_shuffleWord

theorem ok_execVshflx (p : Option Pfx) (w : SubW) (d a : BitVec 6) (b : VB) (s : State) (h : Ok P s) : OkOut P (execVshflx p w d a b s) :=
    by
  unfold execVshflx
  repeat first | with_reducible assumption | with_reducible apply ok_shuffleWord

theorem ok_execVvote (p : Option Pfx) (k : VoteKind) (w : SubW) (d a : BitVec 6) (s : State) (h : Ok P s) : OkOut P (execVvote p k w d a
    s) := by
  unfold execVvote
  repeat first | with_reducible assumption | with_reducible apply ok_vecWord

theorem ok_execVred (p : Option Pfx) (op : VRedOp) (t : VT) (w : SubW) (d a : BitVec 6) (s : State) (h : Ok P s) : OkOut P (execVred p op
    t w d a s) := by
  unfold execVred
  repeat first | with_reducible assumption | with_reducible apply ok_vecWord

theorem ok_execVscan (p : Option Pfx) (op : VRedOp) (ex : Bool) (t : VT) (w : SubW) (d a : BitVec 6) (s : State) (h : Ok P s) : OkOut P
    (execVscan p op ex t w d a s) := by
  unfold execVscan
  repeat first | with_reducible assumption | with_reducible apply ok_vecWord

theorem ok_slotWordCheck (i : Instr) (s : State) (ok : Group → Bool) (names : Group → List Int) (k : Frag → Group → Group) (h : Ok P s) :
    OkOut P (slotWordCheck i s ok names k) := by
  unfold slotWordCheck
  repeat first | with_reducible assumption | intro _ | with_reducible apply ok_word | with_reducible apply ok_onGroup |
    with_reducible apply eff_trap | split

theorem ok_execVcvt (p : Option Pfx) (c : CvtCode) (nsat : Bool) (slot : BitVec 3) (x : Ix) (d a : BitVec 6) (s : State) (h : Ok P s) :
    OkOut P (execVcvt p c nsat slot x d a s) := by
  unfold execVcvt
  repeat first | with_reducible assumption | with_reducible apply ok_slotWordCheck

theorem ok_execVqcvt (p : Option Pfx) (slot : BitVec 3) (x : Ix) (d a : BitVec 6) (s : State) (h : Ok P s) : OkOut P (execVqcvt p slot x d
    a s) := by
  unfold execVqcvt
  repeat first | with_reducible assumption | with_reducible apply ok_slotWordCheck

theorem ok_execVpack (p : Option Pfx) (t : VT) (x : Ix) (d a : BitVec 6) (b : VB) (s : State) (h : Ok P s) : OkOut P (execVpack p t x d a
    b s) := by
  unfold execVpack
  repeat first | with_reducible assumption | with_reducible apply ok_binWord

theorem ok_execVunpk (p : Option Pfx) (t : VT) (hi : Bool) (d a : BitVec 6) (s : State) (h : Ok P s) : OkOut P (execVunpk p t hi d a s) :=
    by
  unfold execVunpk
  repeat first | with_reducible assumption | with_reducible apply ok_unWord

theorem ok_execVdot4 (p : Option Pfx) (t : VT) (x : Ix) (d a : BitVec 6) (b : VB) (s : State) (h : Ok P s) : OkOut P (execVdot4 p t x d a
    b s) := by
  unfold execVdot4
  repeat first | with_reducible assumption | with_reducible apply ok_vecWord

theorem ok_execVsfu (p : Option Pfx) (fn : SfuFn) (t : VT) (x : Ix) (d a : BitVec 6) (s : State) (h : Ok P s) : OkOut P (execVsfu p fn t x
    d a s) := by
  unfold execVsfu
  repeat first | with_reducible assumption | intro _ | with_reducible apply ok_word | with_reducible apply ok_launchOp |
    with_reducible apply eff_ok | with_reducible apply eff_wait | with_reducible apply eff_trap | split

/-! Sched. -/

theorem ok_tickCore (s : State) (c : Nat) (h : Ok P s) : Ok P (tickCore s c) := by
  unfold tickCore
  repeat first | with_reducible assumption | with_reducible apply ok_modCore | dsimp only | split

theorem ok_tickTime (s : State) (h : Ok P s) : Ok P (tickTime s) := by
  unfold tickTime
  repeat first | with_reducible assumption | intro _ | with_reducible apply ok_noteGates | with_reducible apply ok_tickCore |
    with_reducible apply ok_foldl | simp only [ok_mk] | with_reducible apply ok_wf

/-! Skid. -/

theorem ok_arriveHeld (s : State) (c : Nat) (i : Instr) (h : Ok P s) : Ok P (arriveHeld s c i) := by
  unfold arriveHeld
  repeat first | with_reducible assumption | with_reducible apply ok_modCore | split

theorem ok_heldEvent (hw : Closed P) (s : State) (i : Instr) (h : Ok P s) : OkOut P (heldEvent s i) := by
  unfold heldEvent
  repeat first | with_reducible assumption | with_reducible apply ok_execLoadComplete | with_reducible apply ok_execCopyDelivery |
    with_reducible apply ok_execMulticastDelivery | with_reducible apply ok_execGatherLaneDelivery | with_reducible apply ok_next | split

theorem ok_deliverHeld (hw : Closed P) (s : State) (i : Instr) (h : Ok P s) : Ok P (deliverHeld s i) := by
  have k : OkOut P (heldEvent { s with tick := s.tick + 1 } i) := ok_heldEvent hw _ _ h
  unfold deliverHeld
  split
  · rename_i t e; rw [e] at k; exact k
  · exact h

theorem ok_emptySkid (hw : Closed P) (c : Nat) (x1 : List Instr) (x2 : State) (h : Ok P x2) : Ok P (emptySkid c x1 x2) := by
  fun_induction emptySkid c x1 x2
  all_goals
    repeat first | with_reducible assumption | with_reducible refine ok_mp (by assumption) ?_ | with_reducible apply ok_deliverHeld |
      with_reducible apply ok_modCore

theorem ok_thawCore (hw : Closed P) (s : State) (c : Nat) (h : Ok P s) : Ok P (thawCore s c) := by
  unfold thawCore
  repeat first | with_reducible assumption | with_reducible apply ok_emptySkid | with_reducible apply ok_modCore | dsimp only | split

theorem ok_settle (hw : Closed P) (s : State) (h : Ok P s) : Ok P (settle s) := by
  unfold settle
  repeat first | with_reducible assumption | intro _ | with_reducible apply ok_foldl | with_reducible apply ok_thawCore |
    with_reducible apply ok_vatTidy | with_reducible apply ok_feedPort | with_reducible apply ok_dropEnded |
    with_reducible apply ok_unwait | dsimp only

/-! What comes next. -/

theorem ok_planAct (s : State) (x1 : Act) (h : Ok P s) : OkPlan P (planAct s x1) := by
  unfold planAct
  repeat first | with_reducible assumption | with_reducible apply ok_arriveHeld | with_reducible apply ok_groupPlan | with_reducible apply ok_seqPlan |
    with_reducible apply ok_partResult | with_reducible apply ok_barRead | with_reducible apply ok_c6Read |
    with_reducible apply ok_parse | with_reducible apply ok_tickTime | simp only [ok_mk] | with_reducible apply ok_wf |
    with_reducible apply plan_idle | with_reducible apply plan_run | split

theorem ok_planFree (s : State) (h : Ok P s) : OkPlan P (planFree s) := by
  unfold planFree
  repeat first | with_reducible assumption | with_reducible apply ok_planAct | split

theorem ok_plan (hw : Closed P) (s : State) (h : Ok P s) : OkPlan P (plan s) := by
  unfold plan
  repeat first | with_reducible assumption | with_reducible apply ok_settle | with_reducible apply ok_planFree |
    with_reducible apply ok_planAct | dsimp only | simp only [ok_mk] | with_reducible apply ok_wf | split

/-! Step. -/

theorem ok_hookState (hw : Closed P) (s : State) (c : Cls) (bs : List Byte) (h : Ok P s) : Ok P (hookState s c bs) := by
  unfold hookState
  repeat first | with_reducible assumption | with_reducible apply ok_writeBytes | with_reducible apply ok_modCore | dsimp only |
    simp only [ok_mk] | with_reducible apply ok_wf

theorem ok_State.withFetchWord (hw : Closed P) (s : State) (nbits w : Nat) (h : Ok P s) : Ok P (State.withFetchWord s nbits w) := by
  unfold State.withFetchWord
  repeat first | with_reducible assumption | with_reducible apply ok_hookState | split

end Sys2Proof.Laws
end

