-- ==== Sys2Proof/Laws/State.lean ====
section
/-! SUPPORT. Laws of the state's named updates: an update changes the one field it names, and every other field reads as
before; then what the changed table holds. -/
set_option Elab.async false
namespace Sys2Proof.Laws
open Sys2Proof.Machine

variable (s : State)

/-! `writeByte` changes `mem` alone. -/

@[simp] theorem writeByte_agenda (l : Loc) (b : Byte) : (writeByte s l b).agenda = s.agenda := rfl
@[simp] theorem writeByte_tick (l : Loc) (b : Byte) : (writeByte s l b).tick = s.tick := rfl
@[simp] theorem writeByte_issue (l : Loc) (b : Byte) : (writeByte s l b).issue = s.issue := rfl
@[simp] theorem writeByte_nextId (l : Loc) (b : Byte) : (writeByte s l b).nextId = s.nextId := rfl
@[simp] theorem writeByte_pubs (l : Loc) (b : Byte) : (writeByte s l b).pubs = s.pubs := rfl
@[simp] theorem writeByte_spHist (l : Loc) (b : Byte) : (writeByte s l b).spHist = s.spHist := rfl
@[simp] theorem writeByte_out (l : Loc) (b : Byte) : (writeByte s l b).out = s.out := rfl
@[simp] theorem writeByte_ns (l : Loc) (b : Byte) : (writeByte s l b).ns = s.ns := rfl
@[simp] theorem writeByte_locks (l : Loc) (b : Byte) : (writeByte s l b).locks = s.locks := rfl
@[simp] theorem writeByte_cores (l : Loc) (b : Byte) : (writeByte s l b).cores = s.cores := rfl
@[simp] theorem writeByte_dies (l : Loc) (b : Byte) : (writeByte s l b).dies = s.dies := rfl
@[simp] theorem writeByte_groups (l : Loc) (b : Byte) : (writeByte s l b).groups = s.groups := rfl
@[simp] theorem writeByte_teams (l : Loc) (b : Byte) : (writeByte s l b).teams = s.teams := rfl
@[simp] theorem writeByte_clusters (l : Loc) (b : Byte) : (writeByte s l b).clusters = s.clusters := rfl
@[simp] theorem writeByte_tasks (l : Loc) (b : Byte) : (writeByte s l b).tasks = s.tasks := rfl
@[simp] theorem writeByte_cmds (l : Loc) (b : Byte) : (writeByte s l b).cmds = s.cmds := rfl
@[simp] theorem writeByte_queues (l : Loc) (b : Byte) : (writeByte s l b).queues = s.queues := rfl
@[simp] theorem writeByte_bulks (l : Loc) (b : Byte) : (writeByte s l b).bulks = s.bulks := rfl
@[simp] theorem writeByte_reds (l : Loc) (b : Byte) : (writeByte s l b).reds = s.reds := rfl
@[simp] theorem writeByte_vats (l : Loc) (b : Byte) : (writeByte s l b).vats = s.vats := rfl
@[simp] theorem writeByte_vpins (l : Loc) (b : Byte) : (writeByte s l b).vpins = s.vpins := rfl
@[simp] theorem writeByte_spaceBase (l : Loc) (b : Byte) : (writeByte s l b).spaceBase = s.spaceBase := rfl
@[simp] theorem writeByte_invSeq (l : Loc) (b : Byte) : (writeByte s l b).invSeq = s.invSeq := rfl
@[simp] theorem writeByte_invDone (l : Loc) (b : Byte) : (writeByte s l b).invDone = s.invDone := rfl
@[simp] theorem writeByte_invs (l : Loc) (b : Byte) : (writeByte s l b).invs = s.invs := rfl
@[simp] theorem writeByte_invrange (l : Loc) (b : Byte) : (writeByte s l b).invrange = s.invrange := rfl
@[simp] theorem writeByte_invrangeSeq (l : Loc) (b : Byte) : (writeByte s l b).invrangeSeq = s.invrangeSeq := rfl
@[simp] theorem writeByte_invrangeErr (l : Loc) (b : Byte) : (writeByte s l b).invrangeErr = s.invrangeErr := rfl
@[simp] theorem writeByte_acc (l : Loc) (b : Byte) : (writeByte s l b).acc = s.acc := rfl
@[simp] theorem writeByte_acctab (l : Loc) (b : Byte) : (writeByte s l b).acctab = s.acctab := rfl
@[simp] theorem writeByte_reswin (l : Loc) (b : Byte) : (writeByte s l b).reswin = s.reswin := rfl
@[simp] theorem writeByte_mbox (l : Loc) (b : Byte) : (writeByte s l b).mbox = s.mbox := rfl
@[simp] theorem writeByte_snap (l : Loc) (b : Byte) : (writeByte s l b).snap = s.snap := rfl
@[simp] theorem writeByte_snapshot (l : Loc) (b : Byte) : (writeByte s l b).snapshot = s.snapshot := rfl
@[simp] theorem writeByte_debug (l : Loc) (b : Byte) : (writeByte s l b).debug = s.debug := rfl
@[simp] theorem writeByte_samples (l : Loc) (b : Byte) : (writeByte s l b).samples = s.samples := rfl
@[simp] theorem writeByte_logOwners (l : Loc) (b : Byte) : (writeByte s l b).logOwners = s.logOwners := rfl
@[simp] theorem writeByte_lastPlace (l : Loc) (b : Byte) : (writeByte s l b).lastPlace = s.lastPlace := rfl
@[simp] theorem writeByte_power (l : Loc) (b : Byte) : (writeByte s l b).power = s.power := rfl
@[simp] theorem writeByte_trust (l : Loc) (b : Byte) : (writeByte s l b).trust = s.trust := rfl

/-! `setCore` changes `cores` alone. -/

@[simp] theorem setCore_agenda (c : Nat) (x : Core) : (setCore s c x).agenda = s.agenda := rfl
@[simp] theorem setCore_tick (c : Nat) (x : Core) : (setCore s c x).tick = s.tick := rfl
@[simp] theorem setCore_issue (c : Nat) (x : Core) : (setCore s c x).issue = s.issue := rfl
@[simp] theorem setCore_nextId (c : Nat) (x : Core) : (setCore s c x).nextId = s.nextId := rfl
@[simp] theorem setCore_pubs (c : Nat) (x : Core) : (setCore s c x).pubs = s.pubs := rfl
@[simp] theorem setCore_spHist (c : Nat) (x : Core) : (setCore s c x).spHist = s.spHist := rfl
@[simp] theorem setCore_out (c : Nat) (x : Core) : (setCore s c x).out = s.out := rfl
@[simp] theorem setCore_ns (c : Nat) (x : Core) : (setCore s c x).ns = s.ns := rfl
@[simp] theorem setCore_mem (c : Nat) (x : Core) : (setCore s c x).mem = s.mem := rfl
@[simp] theorem setCore_locks (c : Nat) (x : Core) : (setCore s c x).locks = s.locks := rfl
@[simp] theorem setCore_dies (c : Nat) (x : Core) : (setCore s c x).dies = s.dies := rfl
@[simp] theorem setCore_groups (c : Nat) (x : Core) : (setCore s c x).groups = s.groups := rfl
@[simp] theorem setCore_teams (c : Nat) (x : Core) : (setCore s c x).teams = s.teams := rfl
@[simp] theorem setCore_clusters (c : Nat) (x : Core) : (setCore s c x).clusters = s.clusters := rfl
@[simp] theorem setCore_tasks (c : Nat) (x : Core) : (setCore s c x).tasks = s.tasks := rfl
@[simp] theorem setCore_cmds (c : Nat) (x : Core) : (setCore s c x).cmds = s.cmds := rfl
@[simp] theorem setCore_queues (c : Nat) (x : Core) : (setCore s c x).queues = s.queues := rfl
@[simp] theorem setCore_bulks (c : Nat) (x : Core) : (setCore s c x).bulks = s.bulks := rfl
@[simp] theorem setCore_reds (c : Nat) (x : Core) : (setCore s c x).reds = s.reds := rfl
@[simp] theorem setCore_vats (c : Nat) (x : Core) : (setCore s c x).vats = s.vats := rfl
@[simp] theorem setCore_vpins (c : Nat) (x : Core) : (setCore s c x).vpins = s.vpins := rfl
@[simp] theorem setCore_spaceBase (c : Nat) (x : Core) : (setCore s c x).spaceBase = s.spaceBase := rfl
@[simp] theorem setCore_invSeq (c : Nat) (x : Core) : (setCore s c x).invSeq = s.invSeq := rfl
@[simp] theorem setCore_invDone (c : Nat) (x : Core) : (setCore s c x).invDone = s.invDone := rfl
@[simp] theorem setCore_invs (c : Nat) (x : Core) : (setCore s c x).invs = s.invs := rfl
@[simp] theorem setCore_invrange (c : Nat) (x : Core) : (setCore s c x).invrange = s.invrange := rfl
@[simp] theorem setCore_invrangeSeq (c : Nat) (x : Core) : (setCore s c x).invrangeSeq = s.invrangeSeq := rfl
@[simp] theorem setCore_invrangeErr (c : Nat) (x : Core) : (setCore s c x).invrangeErr = s.invrangeErr := rfl
@[simp] theorem setCore_acc (c : Nat) (x : Core) : (setCore s c x).acc = s.acc := rfl
@[simp] theorem setCore_acctab (c : Nat) (x : Core) : (setCore s c x).acctab = s.acctab := rfl
@[simp] theorem setCore_reswin (c : Nat) (x : Core) : (setCore s c x).reswin = s.reswin := rfl
@[simp] theorem setCore_mbox (c : Nat) (x : Core) : (setCore s c x).mbox = s.mbox := rfl
@[simp] theorem setCore_snap (c : Nat) (x : Core) : (setCore s c x).snap = s.snap := rfl
@[simp] theorem setCore_snapshot (c : Nat) (x : Core) : (setCore s c x).snapshot = s.snapshot := rfl
@[simp] theorem setCore_debug (c : Nat) (x : Core) : (setCore s c x).debug = s.debug := rfl
@[simp] theorem setCore_samples (c : Nat) (x : Core) : (setCore s c x).samples = s.samples := rfl
@[simp] theorem setCore_logOwners (c : Nat) (x : Core) : (setCore s c x).logOwners = s.logOwners := rfl
@[simp] theorem setCore_lastPlace (c : Nat) (x : Core) : (setCore s c x).lastPlace = s.lastPlace := rfl
@[simp] theorem setCore_power (c : Nat) (x : Core) : (setCore s c x).power = s.power := rfl
@[simp] theorem setCore_trust (c : Nat) (x : Core) : (setCore s c x).trust = s.trust := rfl

/-! `modCore` changes `cores` alone. -/

@[simp] theorem modCore_agenda (c : Nat) (f : Core → Core) : (modCore s c f).agenda = s.agenda := rfl
@[simp] theorem modCore_tick (c : Nat) (f : Core → Core) : (modCore s c f).tick = s.tick := rfl
@[simp] theorem modCore_issue (c : Nat) (f : Core → Core) : (modCore s c f).issue = s.issue := rfl
@[simp] theorem modCore_nextId (c : Nat) (f : Core → Core) : (modCore s c f).nextId = s.nextId := rfl
@[simp] theorem modCore_pubs (c : Nat) (f : Core → Core) : (modCore s c f).pubs = s.pubs := rfl
@[simp] theorem modCore_spHist (c : Nat) (f : Core → Core) : (modCore s c f).spHist = s.spHist := rfl
@[simp] theorem modCore_out (c : Nat) (f : Core → Core) : (modCore s c f).out = s.out := rfl
@[simp] theorem modCore_ns (c : Nat) (f : Core → Core) : (modCore s c f).ns = s.ns := rfl
@[simp] theorem modCore_mem (c : Nat) (f : Core → Core) : (modCore s c f).mem = s.mem := rfl
@[simp] theorem modCore_locks (c : Nat) (f : Core → Core) : (modCore s c f).locks = s.locks := rfl
@[simp] theorem modCore_dies (c : Nat) (f : Core → Core) : (modCore s c f).dies = s.dies := rfl
@[simp] theorem modCore_groups (c : Nat) (f : Core → Core) : (modCore s c f).groups = s.groups := rfl
@[simp] theorem modCore_teams (c : Nat) (f : Core → Core) : (modCore s c f).teams = s.teams := rfl
@[simp] theorem modCore_clusters (c : Nat) (f : Core → Core) : (modCore s c f).clusters = s.clusters := rfl
@[simp] theorem modCore_tasks (c : Nat) (f : Core → Core) : (modCore s c f).tasks = s.tasks := rfl
@[simp] theorem modCore_cmds (c : Nat) (f : Core → Core) : (modCore s c f).cmds = s.cmds := rfl
@[simp] theorem modCore_queues (c : Nat) (f : Core → Core) : (modCore s c f).queues = s.queues := rfl
@[simp] theorem modCore_bulks (c : Nat) (f : Core → Core) : (modCore s c f).bulks = s.bulks := rfl
@[simp] theorem modCore_reds (c : Nat) (f : Core → Core) : (modCore s c f).reds = s.reds := rfl
@[simp] theorem modCore_vats (c : Nat) (f : Core → Core) : (modCore s c f).vats = s.vats := rfl
@[simp] theorem modCore_vpins (c : Nat) (f : Core → Core) : (modCore s c f).vpins = s.vpins := rfl
@[simp] theorem modCore_spaceBase (c : Nat) (f : Core → Core) : (modCore s c f).spaceBase = s.spaceBase := rfl
@[simp] theorem modCore_invSeq (c : Nat) (f : Core → Core) : (modCore s c f).invSeq = s.invSeq := rfl
@[simp] theorem modCore_invDone (c : Nat) (f : Core → Core) : (modCore s c f).invDone = s.invDone := rfl
@[simp] theorem modCore_invs (c : Nat) (f : Core → Core) : (modCore s c f).invs = s.invs := rfl
@[simp] theorem modCore_invrange (c : Nat) (f : Core → Core) : (modCore s c f).invrange = s.invrange := rfl
@[simp] theorem modCore_invrangeSeq (c : Nat) (f : Core → Core) : (modCore s c f).invrangeSeq = s.invrangeSeq := rfl
@[simp] theorem modCore_invrangeErr (c : Nat) (f : Core → Core) : (modCore s c f).invrangeErr = s.invrangeErr := rfl
@[simp] theorem modCore_acc (c : Nat) (f : Core → Core) : (modCore s c f).acc = s.acc := rfl
@[simp] theorem modCore_acctab (c : Nat) (f : Core → Core) : (modCore s c f).acctab = s.acctab := rfl
@[simp] theorem modCore_reswin (c : Nat) (f : Core → Core) : (modCore s c f).reswin = s.reswin := rfl
@[simp] theorem modCore_mbox (c : Nat) (f : Core → Core) : (modCore s c f).mbox = s.mbox := rfl
@[simp] theorem modCore_snap (c : Nat) (f : Core → Core) : (modCore s c f).snap = s.snap := rfl
@[simp] theorem modCore_snapshot (c : Nat) (f : Core → Core) : (modCore s c f).snapshot = s.snapshot := rfl
@[simp] theorem modCore_debug (c : Nat) (f : Core → Core) : (modCore s c f).debug = s.debug := rfl
@[simp] theorem modCore_samples (c : Nat) (f : Core → Core) : (modCore s c f).samples = s.samples := rfl
@[simp] theorem modCore_logOwners (c : Nat) (f : Core → Core) : (modCore s c f).logOwners = s.logOwners := rfl
@[simp] theorem modCore_lastPlace (c : Nat) (f : Core → Core) : (modCore s c f).lastPlace = s.lastPlace := rfl
@[simp] theorem modCore_power (c : Nat) (f : Core → Core) : (modCore s c f).power = s.power := rfl
@[simp] theorem modCore_trust (c : Nat) (f : Core → Core) : (modCore s c f).trust = s.trust := rfl

/-! `count` changes `cores` alone. -/

@[simp] theorem count_agenda (c n k : Nat) : (count s c n k).agenda = s.agenda := rfl
@[simp] theorem count_tick (c n k : Nat) : (count s c n k).tick = s.tick := rfl
@[simp] theorem count_issue (c n k : Nat) : (count s c n k).issue = s.issue := rfl
@[simp] theorem count_nextId (c n k : Nat) : (count s c n k).nextId = s.nextId := rfl
@[simp] theorem count_pubs (c n k : Nat) : (count s c n k).pubs = s.pubs := rfl
@[simp] theorem count_spHist (c n k : Nat) : (count s c n k).spHist = s.spHist := rfl
@[simp] theorem count_out (c n k : Nat) : (count s c n k).out = s.out := rfl
@[simp] theorem count_ns (c n k : Nat) : (count s c n k).ns = s.ns := rfl
@[simp] theorem count_mem (c n k : Nat) : (count s c n k).mem = s.mem := rfl
@[simp] theorem count_locks (c n k : Nat) : (count s c n k).locks = s.locks := rfl
@[simp] theorem count_dies (c n k : Nat) : (count s c n k).dies = s.dies := rfl
@[simp] theorem count_groups (c n k : Nat) : (count s c n k).groups = s.groups := rfl
@[simp] theorem count_teams (c n k : Nat) : (count s c n k).teams = s.teams := rfl
@[simp] theorem count_clusters (c n k : Nat) : (count s c n k).clusters = s.clusters := rfl
@[simp] theorem count_tasks (c n k : Nat) : (count s c n k).tasks = s.tasks := rfl
@[simp] theorem count_cmds (c n k : Nat) : (count s c n k).cmds = s.cmds := rfl
@[simp] theorem count_queues (c n k : Nat) : (count s c n k).queues = s.queues := rfl
@[simp] theorem count_bulks (c n k : Nat) : (count s c n k).bulks = s.bulks := rfl
@[simp] theorem count_reds (c n k : Nat) : (count s c n k).reds = s.reds := rfl
@[simp] theorem count_vats (c n k : Nat) : (count s c n k).vats = s.vats := rfl
@[simp] theorem count_vpins (c n k : Nat) : (count s c n k).vpins = s.vpins := rfl
@[simp] theorem count_spaceBase (c n k : Nat) : (count s c n k).spaceBase = s.spaceBase := rfl
@[simp] theorem count_invSeq (c n k : Nat) : (count s c n k).invSeq = s.invSeq := rfl
@[simp] theorem count_invDone (c n k : Nat) : (count s c n k).invDone = s.invDone := rfl
@[simp] theorem count_invs (c n k : Nat) : (count s c n k).invs = s.invs := rfl
@[simp] theorem count_invrange (c n k : Nat) : (count s c n k).invrange = s.invrange := rfl
@[simp] theorem count_invrangeSeq (c n k : Nat) : (count s c n k).invrangeSeq = s.invrangeSeq := rfl
@[simp] theorem count_invrangeErr (c n k : Nat) : (count s c n k).invrangeErr = s.invrangeErr := rfl
@[simp] theorem count_acc (c n k : Nat) : (count s c n k).acc = s.acc := rfl
@[simp] theorem count_acctab (c n k : Nat) : (count s c n k).acctab = s.acctab := rfl
@[simp] theorem count_reswin (c n k : Nat) : (count s c n k).reswin = s.reswin := rfl
@[simp] theorem count_mbox (c n k : Nat) : (count s c n k).mbox = s.mbox := rfl
@[simp] theorem count_snap (c n k : Nat) : (count s c n k).snap = s.snap := rfl
@[simp] theorem count_snapshot (c n k : Nat) : (count s c n k).snapshot = s.snapshot := rfl
@[simp] theorem count_debug (c n k : Nat) : (count s c n k).debug = s.debug := rfl
@[simp] theorem count_samples (c n k : Nat) : (count s c n k).samples = s.samples := rfl
@[simp] theorem count_logOwners (c n k : Nat) : (count s c n k).logOwners = s.logOwners := rfl
@[simp] theorem count_lastPlace (c n k : Nat) : (count s c n k).lastPlace = s.lastPlace := rfl
@[simp] theorem count_power (c n k : Nat) : (count s c n k).power = s.power := rfl
@[simp] theorem count_trust (c n k : Nat) : (count s c n k).trust = s.trust := rfl

/-! `setDie` changes `dies` alone. -/

@[simp] theorem setDie_agenda (d : Nat) (x : Die) : (setDie s d x).agenda = s.agenda := rfl
@[simp] theorem setDie_tick (d : Nat) (x : Die) : (setDie s d x).tick = s.tick := rfl
@[simp] theorem setDie_issue (d : Nat) (x : Die) : (setDie s d x).issue = s.issue := rfl
@[simp] theorem setDie_nextId (d : Nat) (x : Die) : (setDie s d x).nextId = s.nextId := rfl
@[simp] theorem setDie_pubs (d : Nat) (x : Die) : (setDie s d x).pubs = s.pubs := rfl
@[simp] theorem setDie_spHist (d : Nat) (x : Die) : (setDie s d x).spHist = s.spHist := rfl
@[simp] theorem setDie_out (d : Nat) (x : Die) : (setDie s d x).out = s.out := rfl
@[simp] theorem setDie_ns (d : Nat) (x : Die) : (setDie s d x).ns = s.ns := rfl
@[simp] theorem setDie_mem (d : Nat) (x : Die) : (setDie s d x).mem = s.mem := rfl
@[simp] theorem setDie_locks (d : Nat) (x : Die) : (setDie s d x).locks = s.locks := rfl
@[simp] theorem setDie_cores (d : Nat) (x : Die) : (setDie s d x).cores = s.cores := rfl
@[simp] theorem setDie_groups (d : Nat) (x : Die) : (setDie s d x).groups = s.groups := rfl
@[simp] theorem setDie_teams (d : Nat) (x : Die) : (setDie s d x).teams = s.teams := rfl
@[simp] theorem setDie_clusters (d : Nat) (x : Die) : (setDie s d x).clusters = s.clusters := rfl
@[simp] theorem setDie_tasks (d : Nat) (x : Die) : (setDie s d x).tasks = s.tasks := rfl
@[simp] theorem setDie_cmds (d : Nat) (x : Die) : (setDie s d x).cmds = s.cmds := rfl
@[simp] theorem setDie_queues (d : Nat) (x : Die) : (setDie s d x).queues = s.queues := rfl
@[simp] theorem setDie_bulks (d : Nat) (x : Die) : (setDie s d x).bulks = s.bulks := rfl
@[simp] theorem setDie_reds (d : Nat) (x : Die) : (setDie s d x).reds = s.reds := rfl
@[simp] theorem setDie_vats (d : Nat) (x : Die) : (setDie s d x).vats = s.vats := rfl
@[simp] theorem setDie_vpins (d : Nat) (x : Die) : (setDie s d x).vpins = s.vpins := rfl
@[simp] theorem setDie_spaceBase (d : Nat) (x : Die) : (setDie s d x).spaceBase = s.spaceBase := rfl
@[simp] theorem setDie_invSeq (d : Nat) (x : Die) : (setDie s d x).invSeq = s.invSeq := rfl
@[simp] theorem setDie_invDone (d : Nat) (x : Die) : (setDie s d x).invDone = s.invDone := rfl
@[simp] theorem setDie_invs (d : Nat) (x : Die) : (setDie s d x).invs = s.invs := rfl
@[simp] theorem setDie_invrange (d : Nat) (x : Die) : (setDie s d x).invrange = s.invrange := rfl
@[simp] theorem setDie_invrangeSeq (d : Nat) (x : Die) : (setDie s d x).invrangeSeq = s.invrangeSeq := rfl
@[simp] theorem setDie_invrangeErr (d : Nat) (x : Die) : (setDie s d x).invrangeErr = s.invrangeErr := rfl
@[simp] theorem setDie_acc (d : Nat) (x : Die) : (setDie s d x).acc = s.acc := rfl
@[simp] theorem setDie_acctab (d : Nat) (x : Die) : (setDie s d x).acctab = s.acctab := rfl
@[simp] theorem setDie_reswin (d : Nat) (x : Die) : (setDie s d x).reswin = s.reswin := rfl
@[simp] theorem setDie_mbox (d : Nat) (x : Die) : (setDie s d x).mbox = s.mbox := rfl
@[simp] theorem setDie_snap (d : Nat) (x : Die) : (setDie s d x).snap = s.snap := rfl
@[simp] theorem setDie_snapshot (d : Nat) (x : Die) : (setDie s d x).snapshot = s.snapshot := rfl
@[simp] theorem setDie_debug (d : Nat) (x : Die) : (setDie s d x).debug = s.debug := rfl
@[simp] theorem setDie_samples (d : Nat) (x : Die) : (setDie s d x).samples = s.samples := rfl
@[simp] theorem setDie_logOwners (d : Nat) (x : Die) : (setDie s d x).logOwners = s.logOwners := rfl
@[simp] theorem setDie_lastPlace (d : Nat) (x : Die) : (setDie s d x).lastPlace = s.lastPlace := rfl
@[simp] theorem setDie_power (d : Nat) (x : Die) : (setDie s d x).power = s.power := rfl
@[simp] theorem setDie_trust (d : Nat) (x : Die) : (setDie s d x).trust = s.trust := rfl

/-! `modDie` changes `dies` alone. -/

@[simp] theorem modDie_agenda (d : Nat) (f : Die → Die) : (modDie s d f).agenda = s.agenda := rfl
@[simp] theorem modDie_tick (d : Nat) (f : Die → Die) : (modDie s d f).tick = s.tick := rfl
@[simp] theorem modDie_issue (d : Nat) (f : Die → Die) : (modDie s d f).issue = s.issue := rfl
@[simp] theorem modDie_nextId (d : Nat) (f : Die → Die) : (modDie s d f).nextId = s.nextId := rfl
@[simp] theorem modDie_pubs (d : Nat) (f : Die → Die) : (modDie s d f).pubs = s.pubs := rfl
@[simp] theorem modDie_spHist (d : Nat) (f : Die → Die) : (modDie s d f).spHist = s.spHist := rfl
@[simp] theorem modDie_out (d : Nat) (f : Die → Die) : (modDie s d f).out = s.out := rfl
@[simp] theorem modDie_ns (d : Nat) (f : Die → Die) : (modDie s d f).ns = s.ns := rfl
@[simp] theorem modDie_mem (d : Nat) (f : Die → Die) : (modDie s d f).mem = s.mem := rfl
@[simp] theorem modDie_locks (d : Nat) (f : Die → Die) : (modDie s d f).locks = s.locks := rfl
@[simp] theorem modDie_cores (d : Nat) (f : Die → Die) : (modDie s d f).cores = s.cores := rfl
@[simp] theorem modDie_groups (d : Nat) (f : Die → Die) : (modDie s d f).groups = s.groups := rfl
@[simp] theorem modDie_teams (d : Nat) (f : Die → Die) : (modDie s d f).teams = s.teams := rfl
@[simp] theorem modDie_clusters (d : Nat) (f : Die → Die) : (modDie s d f).clusters = s.clusters := rfl
@[simp] theorem modDie_tasks (d : Nat) (f : Die → Die) : (modDie s d f).tasks = s.tasks := rfl
@[simp] theorem modDie_cmds (d : Nat) (f : Die → Die) : (modDie s d f).cmds = s.cmds := rfl
@[simp] theorem modDie_queues (d : Nat) (f : Die → Die) : (modDie s d f).queues = s.queues := rfl
@[simp] theorem modDie_bulks (d : Nat) (f : Die → Die) : (modDie s d f).bulks = s.bulks := rfl
@[simp] theorem modDie_reds (d : Nat) (f : Die → Die) : (modDie s d f).reds = s.reds := rfl
@[simp] theorem modDie_vats (d : Nat) (f : Die → Die) : (modDie s d f).vats = s.vats := rfl
@[simp] theorem modDie_vpins (d : Nat) (f : Die → Die) : (modDie s d f).vpins = s.vpins := rfl
@[simp] theorem modDie_spaceBase (d : Nat) (f : Die → Die) : (modDie s d f).spaceBase = s.spaceBase := rfl
@[simp] theorem modDie_invSeq (d : Nat) (f : Die → Die) : (modDie s d f).invSeq = s.invSeq := rfl
@[simp] theorem modDie_invDone (d : Nat) (f : Die → Die) : (modDie s d f).invDone = s.invDone := rfl
@[simp] theorem modDie_invs (d : Nat) (f : Die → Die) : (modDie s d f).invs = s.invs := rfl
@[simp] theorem modDie_invrange (d : Nat) (f : Die → Die) : (modDie s d f).invrange = s.invrange := rfl
@[simp] theorem modDie_invrangeSeq (d : Nat) (f : Die → Die) : (modDie s d f).invrangeSeq = s.invrangeSeq := rfl
@[simp] theorem modDie_invrangeErr (d : Nat) (f : Die → Die) : (modDie s d f).invrangeErr = s.invrangeErr := rfl
@[simp] theorem modDie_acc (d : Nat) (f : Die → Die) : (modDie s d f).acc = s.acc := rfl
@[simp] theorem modDie_acctab (d : Nat) (f : Die → Die) : (modDie s d f).acctab = s.acctab := rfl
@[simp] theorem modDie_reswin (d : Nat) (f : Die → Die) : (modDie s d f).reswin = s.reswin := rfl
@[simp] theorem modDie_mbox (d : Nat) (f : Die → Die) : (modDie s d f).mbox = s.mbox := rfl
@[simp] theorem modDie_snap (d : Nat) (f : Die → Die) : (modDie s d f).snap = s.snap := rfl
@[simp] theorem modDie_snapshot (d : Nat) (f : Die → Die) : (modDie s d f).snapshot = s.snapshot := rfl
@[simp] theorem modDie_debug (d : Nat) (f : Die → Die) : (modDie s d f).debug = s.debug := rfl
@[simp] theorem modDie_samples (d : Nat) (f : Die → Die) : (modDie s d f).samples = s.samples := rfl
@[simp] theorem modDie_logOwners (d : Nat) (f : Die → Die) : (modDie s d f).logOwners = s.logOwners := rfl
@[simp] theorem modDie_lastPlace (d : Nat) (f : Die → Die) : (modDie s d f).lastPlace = s.lastPlace := rfl
@[simp] theorem modDie_power (d : Nat) (f : Die → Die) : (modDie s d f).power = s.power := rfl
@[simp] theorem modDie_trust (d : Nat) (f : Die → Die) : (modDie s d f).trust = s.trust := rfl

/-! `pend` changes `cores` alone. -/

@[simp] theorem pend_agenda (c gid a : Nat) (b : Byte) : (pend s c gid a b).agenda = s.agenda := rfl
@[simp] theorem pend_tick (c gid a : Nat) (b : Byte) : (pend s c gid a b).tick = s.tick := rfl
@[simp] theorem pend_issue (c gid a : Nat) (b : Byte) : (pend s c gid a b).issue = s.issue := rfl
@[simp] theorem pend_nextId (c gid a : Nat) (b : Byte) : (pend s c gid a b).nextId = s.nextId := rfl
@[simp] theorem pend_pubs (c gid a : Nat) (b : Byte) : (pend s c gid a b).pubs = s.pubs := rfl
@[simp] theorem pend_spHist (c gid a : Nat) (b : Byte) : (pend s c gid a b).spHist = s.spHist := rfl
@[simp] theorem pend_out (c gid a : Nat) (b : Byte) : (pend s c gid a b).out = s.out := rfl
@[simp] theorem pend_ns (c gid a : Nat) (b : Byte) : (pend s c gid a b).ns = s.ns := rfl
@[simp] theorem pend_mem (c gid a : Nat) (b : Byte) : (pend s c gid a b).mem = s.mem := rfl
@[simp] theorem pend_locks (c gid a : Nat) (b : Byte) : (pend s c gid a b).locks = s.locks := rfl
@[simp] theorem pend_dies (c gid a : Nat) (b : Byte) : (pend s c gid a b).dies = s.dies := rfl
@[simp] theorem pend_groups (c gid a : Nat) (b : Byte) : (pend s c gid a b).groups = s.groups := rfl
@[simp] theorem pend_teams (c gid a : Nat) (b : Byte) : (pend s c gid a b).teams = s.teams := rfl
@[simp] theorem pend_clusters (c gid a : Nat) (b : Byte) : (pend s c gid a b).clusters = s.clusters := rfl
@[simp] theorem pend_tasks (c gid a : Nat) (b : Byte) : (pend s c gid a b).tasks = s.tasks := rfl
@[simp] theorem pend_cmds (c gid a : Nat) (b : Byte) : (pend s c gid a b).cmds = s.cmds := rfl
@[simp] theorem pend_queues (c gid a : Nat) (b : Byte) : (pend s c gid a b).queues = s.queues := rfl
@[simp] theorem pend_bulks (c gid a : Nat) (b : Byte) : (pend s c gid a b).bulks = s.bulks := rfl
@[simp] theorem pend_reds (c gid a : Nat) (b : Byte) : (pend s c gid a b).reds = s.reds := rfl
@[simp] theorem pend_vats (c gid a : Nat) (b : Byte) : (pend s c gid a b).vats = s.vats := rfl
@[simp] theorem pend_vpins (c gid a : Nat) (b : Byte) : (pend s c gid a b).vpins = s.vpins := rfl
@[simp] theorem pend_spaceBase (c gid a : Nat) (b : Byte) : (pend s c gid a b).spaceBase = s.spaceBase := rfl
@[simp] theorem pend_invSeq (c gid a : Nat) (b : Byte) : (pend s c gid a b).invSeq = s.invSeq := rfl
@[simp] theorem pend_invDone (c gid a : Nat) (b : Byte) : (pend s c gid a b).invDone = s.invDone := rfl
@[simp] theorem pend_invs (c gid a : Nat) (b : Byte) : (pend s c gid a b).invs = s.invs := rfl
@[simp] theorem pend_invrange (c gid a : Nat) (b : Byte) : (pend s c gid a b).invrange = s.invrange := rfl
@[simp] theorem pend_invrangeSeq (c gid a : Nat) (b : Byte) : (pend s c gid a b).invrangeSeq = s.invrangeSeq := rfl
@[simp] theorem pend_invrangeErr (c gid a : Nat) (b : Byte) : (pend s c gid a b).invrangeErr = s.invrangeErr := rfl
@[simp] theorem pend_acc (c gid a : Nat) (b : Byte) : (pend s c gid a b).acc = s.acc := rfl
@[simp] theorem pend_acctab (c gid a : Nat) (b : Byte) : (pend s c gid a b).acctab = s.acctab := rfl
@[simp] theorem pend_reswin (c gid a : Nat) (b : Byte) : (pend s c gid a b).reswin = s.reswin := rfl
@[simp] theorem pend_mbox (c gid a : Nat) (b : Byte) : (pend s c gid a b).mbox = s.mbox := rfl
@[simp] theorem pend_snap (c gid a : Nat) (b : Byte) : (pend s c gid a b).snap = s.snap := rfl
@[simp] theorem pend_snapshot (c gid a : Nat) (b : Byte) : (pend s c gid a b).snapshot = s.snapshot := rfl
@[simp] theorem pend_debug (c gid a : Nat) (b : Byte) : (pend s c gid a b).debug = s.debug := rfl
@[simp] theorem pend_samples (c gid a : Nat) (b : Byte) : (pend s c gid a b).samples = s.samples := rfl
@[simp] theorem pend_logOwners (c gid a : Nat) (b : Byte) : (pend s c gid a b).logOwners = s.logOwners := rfl
@[simp] theorem pend_lastPlace (c gid a : Nat) (b : Byte) : (pend s c gid a b).lastPlace = s.lastPlace := rfl
@[simp] theorem pend_power (c gid a : Nat) (b : Byte) : (pend s c gid a b).power = s.power := rfl
@[simp] theorem pend_trust (c gid a : Nat) (b : Byte) : (pend s c gid a b).trust = s.trust := rfl

/-! `modGroup` changes `groups` alone. -/

@[simp] theorem modGroup_agenda (g : Nat) (f : Group → Group) : (modGroup s g f).agenda = s.agenda := by unfold modGroup; split <;> rfl
@[simp] theorem modGroup_tick (g : Nat) (f : Group → Group) : (modGroup s g f).tick = s.tick := by unfold modGroup; split <;> rfl
@[simp] theorem modGroup_issue (g : Nat) (f : Group → Group) : (modGroup s g f).issue = s.issue := by unfold modGroup; split <;> rfl
@[simp] theorem modGroup_nextId (g : Nat) (f : Group → Group) : (modGroup s g f).nextId = s.nextId := by unfold modGroup; split <;> rfl
@[simp] theorem modGroup_pubs (g : Nat) (f : Group → Group) : (modGroup s g f).pubs = s.pubs := by unfold modGroup; split <;> rfl
@[simp] theorem modGroup_spHist (g : Nat) (f : Group → Group) : (modGroup s g f).spHist = s.spHist := by unfold modGroup; split <;> rfl
@[simp] theorem modGroup_out (g : Nat) (f : Group → Group) : (modGroup s g f).out = s.out := by unfold modGroup; split <;> rfl
@[simp] theorem modGroup_ns (g : Nat) (f : Group → Group) : (modGroup s g f).ns = s.ns := by unfold modGroup; split <;> rfl
@[simp] theorem modGroup_mem (g : Nat) (f : Group → Group) : (modGroup s g f).mem = s.mem := by unfold modGroup; split <;> rfl
@[simp] theorem modGroup_locks (g : Nat) (f : Group → Group) : (modGroup s g f).locks = s.locks := by unfold modGroup; split <;> rfl
@[simp] theorem modGroup_cores (g : Nat) (f : Group → Group) : (modGroup s g f).cores = s.cores := by unfold modGroup; split <;> rfl
@[simp] theorem modGroup_dies (g : Nat) (f : Group → Group) : (modGroup s g f).dies = s.dies := by unfold modGroup; split <;> rfl
@[simp] theorem modGroup_teams (g : Nat) (f : Group → Group) : (modGroup s g f).teams = s.teams := by unfold modGroup; split <;> rfl
@[simp] theorem modGroup_clusters (g : Nat) (f : Group → Group) : (modGroup s g f).clusters = s.clusters := by unfold modGroup; split <;> rfl
@[simp] theorem modGroup_tasks (g : Nat) (f : Group → Group) : (modGroup s g f).tasks = s.tasks := by unfold modGroup; split <;> rfl
@[simp] theorem modGroup_cmds (g : Nat) (f : Group → Group) : (modGroup s g f).cmds = s.cmds := by unfold modGroup; split <;> rfl
@[simp] theorem modGroup_queues (g : Nat) (f : Group → Group) : (modGroup s g f).queues = s.queues := by unfold modGroup; split <;> rfl
@[simp] theorem modGroup_bulks (g : Nat) (f : Group → Group) : (modGroup s g f).bulks = s.bulks := by unfold modGroup; split <;> rfl
@[simp] theorem modGroup_reds (g : Nat) (f : Group → Group) : (modGroup s g f).reds = s.reds := by unfold modGroup; split <;> rfl
@[simp] theorem modGroup_vats (g : Nat) (f : Group → Group) : (modGroup s g f).vats = s.vats := by unfold modGroup; split <;> rfl
@[simp] theorem modGroup_vpins (g : Nat) (f : Group → Group) : (modGroup s g f).vpins = s.vpins := by unfold modGroup; split <;> rfl
@[simp] theorem modGroup_spaceBase (g : Nat) (f : Group → Group) : (modGroup s g f).spaceBase = s.spaceBase := by unfold modGroup; split <;> rfl
@[simp] theorem modGroup_invSeq (g : Nat) (f : Group → Group) : (modGroup s g f).invSeq = s.invSeq := by unfold modGroup; split <;> rfl
@[simp] theorem modGroup_invDone (g : Nat) (f : Group → Group) : (modGroup s g f).invDone = s.invDone := by unfold modGroup; split <;> rfl
@[simp] theorem modGroup_invs (g : Nat) (f : Group → Group) : (modGroup s g f).invs = s.invs := by unfold modGroup; split <;> rfl
@[simp] theorem modGroup_invrange (g : Nat) (f : Group → Group) : (modGroup s g f).invrange = s.invrange := by unfold modGroup; split <;> rfl
@[simp] theorem modGroup_invrangeSeq (g : Nat) (f : Group → Group) : (modGroup s g f).invrangeSeq = s.invrangeSeq := by unfold modGroup; split <;> rfl
@[simp] theorem modGroup_invrangeErr (g : Nat) (f : Group → Group) : (modGroup s g f).invrangeErr = s.invrangeErr := by unfold modGroup; split <;> rfl
@[simp] theorem modGroup_acc (g : Nat) (f : Group → Group) : (modGroup s g f).acc = s.acc := by unfold modGroup; split <;> rfl
@[simp] theorem modGroup_acctab (g : Nat) (f : Group → Group) : (modGroup s g f).acctab = s.acctab := by unfold modGroup; split <;> rfl
@[simp] theorem modGroup_reswin (g : Nat) (f : Group → Group) : (modGroup s g f).reswin = s.reswin := by unfold modGroup; split <;> rfl
@[simp] theorem modGroup_mbox (g : Nat) (f : Group → Group) : (modGroup s g f).mbox = s.mbox := by unfold modGroup; split <;> rfl
@[simp] theorem modGroup_snap (g : Nat) (f : Group → Group) : (modGroup s g f).snap = s.snap := by unfold modGroup; split <;> rfl
@[simp] theorem modGroup_snapshot (g : Nat) (f : Group → Group) : (modGroup s g f).snapshot = s.snapshot := by unfold modGroup; split <;> rfl
@[simp] theorem modGroup_debug (g : Nat) (f : Group → Group) : (modGroup s g f).debug = s.debug := by unfold modGroup; split <;> rfl
@[simp] theorem modGroup_samples (g : Nat) (f : Group → Group) : (modGroup s g f).samples = s.samples := by unfold modGroup; split <;> rfl
@[simp] theorem modGroup_logOwners (g : Nat) (f : Group → Group) : (modGroup s g f).logOwners = s.logOwners := by unfold modGroup; split <;> rfl
@[simp] theorem modGroup_lastPlace (g : Nat) (f : Group → Group) : (modGroup s g f).lastPlace = s.lastPlace := by unfold modGroup; split <;> rfl
@[simp] theorem modGroup_power (g : Nat) (f : Group → Group) : (modGroup s g f).power = s.power := by unfold modGroup; split <;> rfl
@[simp] theorem modGroup_trust (g : Nat) (f : Group → Group) : (modGroup s g f).trust = s.trust := by unfold modGroup; split <;> rfl

/-! `modTeam` changes `teams` alone. -/

@[simp] theorem modTeam_agenda (t : Nat) (f : Team → Team) : (modTeam s t f).agenda = s.agenda := by unfold modTeam; split <;> rfl
@[simp] theorem modTeam_tick (t : Nat) (f : Team → Team) : (modTeam s t f).tick = s.tick := by unfold modTeam; split <;> rfl
@[simp] theorem modTeam_issue (t : Nat) (f : Team → Team) : (modTeam s t f).issue = s.issue := by unfold modTeam; split <;> rfl
@[simp] theorem modTeam_nextId (t : Nat) (f : Team → Team) : (modTeam s t f).nextId = s.nextId := by unfold modTeam; split <;> rfl
@[simp] theorem modTeam_pubs (t : Nat) (f : Team → Team) : (modTeam s t f).pubs = s.pubs := by unfold modTeam; split <;> rfl
@[simp] theorem modTeam_spHist (t : Nat) (f : Team → Team) : (modTeam s t f).spHist = s.spHist := by unfold modTeam; split <;> rfl
@[simp] theorem modTeam_out (t : Nat) (f : Team → Team) : (modTeam s t f).out = s.out := by unfold modTeam; split <;> rfl
@[simp] theorem modTeam_ns (t : Nat) (f : Team → Team) : (modTeam s t f).ns = s.ns := by unfold modTeam; split <;> rfl
@[simp] theorem modTeam_mem (t : Nat) (f : Team → Team) : (modTeam s t f).mem = s.mem := by unfold modTeam; split <;> rfl
@[simp] theorem modTeam_locks (t : Nat) (f : Team → Team) : (modTeam s t f).locks = s.locks := by unfold modTeam; split <;> rfl
@[simp] theorem modTeam_cores (t : Nat) (f : Team → Team) : (modTeam s t f).cores = s.cores := by unfold modTeam; split <;> rfl
@[simp] theorem modTeam_dies (t : Nat) (f : Team → Team) : (modTeam s t f).dies = s.dies := by unfold modTeam; split <;> rfl
@[simp] theorem modTeam_groups (t : Nat) (f : Team → Team) : (modTeam s t f).groups = s.groups := by unfold modTeam; split <;> rfl
@[simp] theorem modTeam_clusters (t : Nat) (f : Team → Team) : (modTeam s t f).clusters = s.clusters := by unfold modTeam; split <;> rfl
@[simp] theorem modTeam_tasks (t : Nat) (f : Team → Team) : (modTeam s t f).tasks = s.tasks := by unfold modTeam; split <;> rfl
@[simp] theorem modTeam_cmds (t : Nat) (f : Team → Team) : (modTeam s t f).cmds = s.cmds := by unfold modTeam; split <;> rfl
@[simp] theorem modTeam_queues (t : Nat) (f : Team → Team) : (modTeam s t f).queues = s.queues := by unfold modTeam; split <;> rfl
@[simp] theorem modTeam_bulks (t : Nat) (f : Team → Team) : (modTeam s t f).bulks = s.bulks := by unfold modTeam; split <;> rfl
@[simp] theorem modTeam_reds (t : Nat) (f : Team → Team) : (modTeam s t f).reds = s.reds := by unfold modTeam; split <;> rfl
@[simp] theorem modTeam_vats (t : Nat) (f : Team → Team) : (modTeam s t f).vats = s.vats := by unfold modTeam; split <;> rfl
@[simp] theorem modTeam_vpins (t : Nat) (f : Team → Team) : (modTeam s t f).vpins = s.vpins := by unfold modTeam; split <;> rfl
@[simp] theorem modTeam_spaceBase (t : Nat) (f : Team → Team) : (modTeam s t f).spaceBase = s.spaceBase := by unfold modTeam; split <;> rfl
@[simp] theorem modTeam_invSeq (t : Nat) (f : Team → Team) : (modTeam s t f).invSeq = s.invSeq := by unfold modTeam; split <;> rfl
@[simp] theorem modTeam_invDone (t : Nat) (f : Team → Team) : (modTeam s t f).invDone = s.invDone := by unfold modTeam; split <;> rfl
@[simp] theorem modTeam_invs (t : Nat) (f : Team → Team) : (modTeam s t f).invs = s.invs := by unfold modTeam; split <;> rfl
@[simp] theorem modTeam_invrange (t : Nat) (f : Team → Team) : (modTeam s t f).invrange = s.invrange := by unfold modTeam; split <;> rfl
@[simp] theorem modTeam_invrangeSeq (t : Nat) (f : Team → Team) : (modTeam s t f).invrangeSeq = s.invrangeSeq := by unfold modTeam; split <;> rfl
@[simp] theorem modTeam_invrangeErr (t : Nat) (f : Team → Team) : (modTeam s t f).invrangeErr = s.invrangeErr := by unfold modTeam; split <;> rfl
@[simp] theorem modTeam_acc (t : Nat) (f : Team → Team) : (modTeam s t f).acc = s.acc := by unfold modTeam; split <;> rfl
@[simp] theorem modTeam_acctab (t : Nat) (f : Team → Team) : (modTeam s t f).acctab = s.acctab := by unfold modTeam; split <;> rfl
@[simp] theorem modTeam_reswin (t : Nat) (f : Team → Team) : (modTeam s t f).reswin = s.reswin := by unfold modTeam; split <;> rfl
@[simp] theorem modTeam_mbox (t : Nat) (f : Team → Team) : (modTeam s t f).mbox = s.mbox := by unfold modTeam; split <;> rfl
@[simp] theorem modTeam_snap (t : Nat) (f : Team → Team) : (modTeam s t f).snap = s.snap := by unfold modTeam; split <;> rfl
@[simp] theorem modTeam_snapshot (t : Nat) (f : Team → Team) : (modTeam s t f).snapshot = s.snapshot := by unfold modTeam; split <;> rfl
@[simp] theorem modTeam_debug (t : Nat) (f : Team → Team) : (modTeam s t f).debug = s.debug := by unfold modTeam; split <;> rfl
@[simp] theorem modTeam_samples (t : Nat) (f : Team → Team) : (modTeam s t f).samples = s.samples := by unfold modTeam; split <;> rfl
@[simp] theorem modTeam_logOwners (t : Nat) (f : Team → Team) : (modTeam s t f).logOwners = s.logOwners := by unfold modTeam; split <;> rfl
@[simp] theorem modTeam_lastPlace (t : Nat) (f : Team → Team) : (modTeam s t f).lastPlace = s.lastPlace := by unfold modTeam; split <;> rfl
@[simp] theorem modTeam_power (t : Nat) (f : Team → Team) : (modTeam s t f).power = s.power := by unfold modTeam; split <;> rfl
@[simp] theorem modTeam_trust (t : Nat) (f : Team → Team) : (modTeam s t f).trust = s.trust := by unfold modTeam; split <;> rfl

/-! `modCluster` changes `clusters` alone. -/

@[simp] theorem modCluster_agenda (c : Nat) (f : Cluster → Cluster) : (modCluster s c f).agenda = s.agenda := by unfold modCluster; split <;> rfl
@[simp] theorem modCluster_tick (c : Nat) (f : Cluster → Cluster) : (modCluster s c f).tick = s.tick := by unfold modCluster; split <;> rfl
@[simp] theorem modCluster_issue (c : Nat) (f : Cluster → Cluster) : (modCluster s c f).issue = s.issue := by unfold modCluster; split <;> rfl
@[simp] theorem modCluster_nextId (c : Nat) (f : Cluster → Cluster) : (modCluster s c f).nextId = s.nextId := by unfold modCluster; split <;> rfl
@[simp] theorem modCluster_pubs (c : Nat) (f : Cluster → Cluster) : (modCluster s c f).pubs = s.pubs := by unfold modCluster; split <;> rfl
@[simp] theorem modCluster_spHist (c : Nat) (f : Cluster → Cluster) : (modCluster s c f).spHist = s.spHist := by unfold modCluster; split <;> rfl
@[simp] theorem modCluster_out (c : Nat) (f : Cluster → Cluster) : (modCluster s c f).out = s.out := by unfold modCluster; split <;> rfl
@[simp] theorem modCluster_ns (c : Nat) (f : Cluster → Cluster) : (modCluster s c f).ns = s.ns := by unfold modCluster; split <;> rfl
@[simp] theorem modCluster_mem (c : Nat) (f : Cluster → Cluster) : (modCluster s c f).mem = s.mem := by unfold modCluster; split <;> rfl
@[simp] theorem modCluster_locks (c : Nat) (f : Cluster → Cluster) : (modCluster s c f).locks = s.locks := by unfold modCluster; split <;> rfl
@[simp] theorem modCluster_cores (c : Nat) (f : Cluster → Cluster) : (modCluster s c f).cores = s.cores := by unfold modCluster; split <;> rfl
@[simp] theorem modCluster_dies (c : Nat) (f : Cluster → Cluster) : (modCluster s c f).dies = s.dies := by unfold modCluster; split <;> rfl
@[simp] theorem modCluster_groups (c : Nat) (f : Cluster → Cluster) : (modCluster s c f).groups = s.groups := by unfold modCluster; split <;> rfl
@[simp] theorem modCluster_teams (c : Nat) (f : Cluster → Cluster) : (modCluster s c f).teams = s.teams := by unfold modCluster; split <;> rfl
@[simp] theorem modCluster_tasks (c : Nat) (f : Cluster → Cluster) : (modCluster s c f).tasks = s.tasks := by unfold modCluster; split <;> rfl
@[simp] theorem modCluster_cmds (c : Nat) (f : Cluster → Cluster) : (modCluster s c f).cmds = s.cmds := by unfold modCluster; split <;> rfl
@[simp] theorem modCluster_queues (c : Nat) (f : Cluster → Cluster) : (modCluster s c f).queues = s.queues := by unfold modCluster; split <;> rfl
@[simp] theorem modCluster_bulks (c : Nat) (f : Cluster → Cluster) : (modCluster s c f).bulks = s.bulks := by unfold modCluster; split <;> rfl
@[simp] theorem modCluster_reds (c : Nat) (f : Cluster → Cluster) : (modCluster s c f).reds = s.reds := by unfold modCluster; split <;> rfl
@[simp] theorem modCluster_vats (c : Nat) (f : Cluster → Cluster) : (modCluster s c f).vats = s.vats := by unfold modCluster; split <;> rfl
@[simp] theorem modCluster_vpins (c : Nat) (f : Cluster → Cluster) : (modCluster s c f).vpins = s.vpins := by unfold modCluster; split <;> rfl
@[simp] theorem modCluster_spaceBase (c : Nat) (f : Cluster → Cluster) : (modCluster s c f).spaceBase = s.spaceBase := by unfold modCluster; split <;> rfl
@[simp] theorem modCluster_invSeq (c : Nat) (f : Cluster → Cluster) : (modCluster s c f).invSeq = s.invSeq := by unfold modCluster; split <;> rfl
@[simp] theorem modCluster_invDone (c : Nat) (f : Cluster → Cluster) : (modCluster s c f).invDone = s.invDone := by unfold modCluster; split <;> rfl
@[simp] theorem modCluster_invs (c : Nat) (f : Cluster → Cluster) : (modCluster s c f).invs = s.invs := by unfold modCluster; split <;> rfl
@[simp] theorem modCluster_invrange (c : Nat) (f : Cluster → Cluster) : (modCluster s c f).invrange = s.invrange := by unfold modCluster; split <;> rfl
@[simp] theorem modCluster_invrangeSeq (c : Nat) (f : Cluster → Cluster) : (modCluster s c f).invrangeSeq = s.invrangeSeq := by unfold modCluster; split <;> rfl
@[simp] theorem modCluster_invrangeErr (c : Nat) (f : Cluster → Cluster) : (modCluster s c f).invrangeErr = s.invrangeErr := by unfold modCluster; split <;> rfl
@[simp] theorem modCluster_acc (c : Nat) (f : Cluster → Cluster) : (modCluster s c f).acc = s.acc := by unfold modCluster; split <;> rfl
@[simp] theorem modCluster_acctab (c : Nat) (f : Cluster → Cluster) : (modCluster s c f).acctab = s.acctab := by unfold modCluster; split <;> rfl
@[simp] theorem modCluster_reswin (c : Nat) (f : Cluster → Cluster) : (modCluster s c f).reswin = s.reswin := by unfold modCluster; split <;> rfl
@[simp] theorem modCluster_mbox (c : Nat) (f : Cluster → Cluster) : (modCluster s c f).mbox = s.mbox := by unfold modCluster; split <;> rfl
@[simp] theorem modCluster_snap (c : Nat) (f : Cluster → Cluster) : (modCluster s c f).snap = s.snap := by unfold modCluster; split <;> rfl
@[simp] theorem modCluster_snapshot (c : Nat) (f : Cluster → Cluster) : (modCluster s c f).snapshot = s.snapshot := by unfold modCluster; split <;> rfl
@[simp] theorem modCluster_debug (c : Nat) (f : Cluster → Cluster) : (modCluster s c f).debug = s.debug := by unfold modCluster; split <;> rfl
@[simp] theorem modCluster_samples (c : Nat) (f : Cluster → Cluster) : (modCluster s c f).samples = s.samples := by unfold modCluster; split <;> rfl
@[simp] theorem modCluster_logOwners (c : Nat) (f : Cluster → Cluster) : (modCluster s c f).logOwners = s.logOwners := by unfold modCluster; split <;> rfl
@[simp] theorem modCluster_lastPlace (c : Nat) (f : Cluster → Cluster) : (modCluster s c f).lastPlace = s.lastPlace := by unfold modCluster; split <;> rfl
@[simp] theorem modCluster_power (c : Nat) (f : Cluster → Cluster) : (modCluster s c f).power = s.power := by unfold modCluster; split <;> rfl
@[simp] theorem modCluster_trust (c : Nat) (f : Cluster → Cluster) : (modCluster s c f).trust = s.trust := by unfold modCluster; split <;> rfl

/-! `modTask` changes `tasks` alone. -/

@[simp] theorem modTask_agenda (t : Nat) (f : Task → Task) : (modTask s t f).agenda = s.agenda := by unfold modTask; split <;> rfl
@[simp] theorem modTask_tick (t : Nat) (f : Task → Task) : (modTask s t f).tick = s.tick := by unfold modTask; split <;> rfl
@[simp] theorem modTask_issue (t : Nat) (f : Task → Task) : (modTask s t f).issue = s.issue := by unfold modTask; split <;> rfl
@[simp] theorem modTask_nextId (t : Nat) (f : Task → Task) : (modTask s t f).nextId = s.nextId := by unfold modTask; split <;> rfl
@[simp] theorem modTask_pubs (t : Nat) (f : Task → Task) : (modTask s t f).pubs = s.pubs := by unfold modTask; split <;> rfl
@[simp] theorem modTask_spHist (t : Nat) (f : Task → Task) : (modTask s t f).spHist = s.spHist := by unfold modTask; split <;> rfl
@[simp] theorem modTask_out (t : Nat) (f : Task → Task) : (modTask s t f).out = s.out := by unfold modTask; split <;> rfl
@[simp] theorem modTask_ns (t : Nat) (f : Task → Task) : (modTask s t f).ns = s.ns := by unfold modTask; split <;> rfl
@[simp] theorem modTask_mem (t : Nat) (f : Task → Task) : (modTask s t f).mem = s.mem := by unfold modTask; split <;> rfl
@[simp] theorem modTask_locks (t : Nat) (f : Task → Task) : (modTask s t f).locks = s.locks := by unfold modTask; split <;> rfl
@[simp] theorem modTask_cores (t : Nat) (f : Task → Task) : (modTask s t f).cores = s.cores := by unfold modTask; split <;> rfl
@[simp] theorem modTask_dies (t : Nat) (f : Task → Task) : (modTask s t f).dies = s.dies := by unfold modTask; split <;> rfl
@[simp] theorem modTask_groups (t : Nat) (f : Task → Task) : (modTask s t f).groups = s.groups := by unfold modTask; split <;> rfl
@[simp] theorem modTask_teams (t : Nat) (f : Task → Task) : (modTask s t f).teams = s.teams := by unfold modTask; split <;> rfl
@[simp] theorem modTask_clusters (t : Nat) (f : Task → Task) : (modTask s t f).clusters = s.clusters := by unfold modTask; split <;> rfl
@[simp] theorem modTask_cmds (t : Nat) (f : Task → Task) : (modTask s t f).cmds = s.cmds := by unfold modTask; split <;> rfl
@[simp] theorem modTask_queues (t : Nat) (f : Task → Task) : (modTask s t f).queues = s.queues := by unfold modTask; split <;> rfl
@[simp] theorem modTask_bulks (t : Nat) (f : Task → Task) : (modTask s t f).bulks = s.bulks := by unfold modTask; split <;> rfl
@[simp] theorem modTask_reds (t : Nat) (f : Task → Task) : (modTask s t f).reds = s.reds := by unfold modTask; split <;> rfl
@[simp] theorem modTask_vats (t : Nat) (f : Task → Task) : (modTask s t f).vats = s.vats := by unfold modTask; split <;> rfl
@[simp] theorem modTask_vpins (t : Nat) (f : Task → Task) : (modTask s t f).vpins = s.vpins := by unfold modTask; split <;> rfl
@[simp] theorem modTask_spaceBase (t : Nat) (f : Task → Task) : (modTask s t f).spaceBase = s.spaceBase := by unfold modTask; split <;> rfl
@[simp] theorem modTask_invSeq (t : Nat) (f : Task → Task) : (modTask s t f).invSeq = s.invSeq := by unfold modTask; split <;> rfl
@[simp] theorem modTask_invDone (t : Nat) (f : Task → Task) : (modTask s t f).invDone = s.invDone := by unfold modTask; split <;> rfl
@[simp] theorem modTask_invs (t : Nat) (f : Task → Task) : (modTask s t f).invs = s.invs := by unfold modTask; split <;> rfl
@[simp] theorem modTask_invrange (t : Nat) (f : Task → Task) : (modTask s t f).invrange = s.invrange := by unfold modTask; split <;> rfl
@[simp] theorem modTask_invrangeSeq (t : Nat) (f : Task → Task) : (modTask s t f).invrangeSeq = s.invrangeSeq := by unfold modTask; split <;> rfl
@[simp] theorem modTask_invrangeErr (t : Nat) (f : Task → Task) : (modTask s t f).invrangeErr = s.invrangeErr := by unfold modTask; split <;> rfl
@[simp] theorem modTask_acc (t : Nat) (f : Task → Task) : (modTask s t f).acc = s.acc := by unfold modTask; split <;> rfl
@[simp] theorem modTask_acctab (t : Nat) (f : Task → Task) : (modTask s t f).acctab = s.acctab := by unfold modTask; split <;> rfl
@[simp] theorem modTask_reswin (t : Nat) (f : Task → Task) : (modTask s t f).reswin = s.reswin := by unfold modTask; split <;> rfl
@[simp] theorem modTask_mbox (t : Nat) (f : Task → Task) : (modTask s t f).mbox = s.mbox := by unfold modTask; split <;> rfl
@[simp] theorem modTask_snap (t : Nat) (f : Task → Task) : (modTask s t f).snap = s.snap := by unfold modTask; split <;> rfl
@[simp] theorem modTask_snapshot (t : Nat) (f : Task → Task) : (modTask s t f).snapshot = s.snapshot := by unfold modTask; split <;> rfl
@[simp] theorem modTask_debug (t : Nat) (f : Task → Task) : (modTask s t f).debug = s.debug := by unfold modTask; split <;> rfl
@[simp] theorem modTask_samples (t : Nat) (f : Task → Task) : (modTask s t f).samples = s.samples := by unfold modTask; split <;> rfl
@[simp] theorem modTask_logOwners (t : Nat) (f : Task → Task) : (modTask s t f).logOwners = s.logOwners := by unfold modTask; split <;> rfl
@[simp] theorem modTask_lastPlace (t : Nat) (f : Task → Task) : (modTask s t f).lastPlace = s.lastPlace := by unfold modTask; split <;> rfl
@[simp] theorem modTask_power (t : Nat) (f : Task → Task) : (modTask s t f).power = s.power := by unfold modTask; split <;> rfl
@[simp] theorem modTask_trust (t : Nat) (f : Task → Task) : (modTask s t f).trust = s.trust := by unfold modTask; split <;> rfl

/-! `modCmd` changes `cmds` alone. -/

@[simp] theorem modCmd_agenda (c : Nat) (f : Command → Command) : (modCmd s c f).agenda = s.agenda := by unfold modCmd; split <;> rfl
@[simp] theorem modCmd_tick (c : Nat) (f : Command → Command) : (modCmd s c f).tick = s.tick := by unfold modCmd; split <;> rfl
@[simp] theorem modCmd_issue (c : Nat) (f : Command → Command) : (modCmd s c f).issue = s.issue := by unfold modCmd; split <;> rfl
@[simp] theorem modCmd_nextId (c : Nat) (f : Command → Command) : (modCmd s c f).nextId = s.nextId := by unfold modCmd; split <;> rfl
@[simp] theorem modCmd_pubs (c : Nat) (f : Command → Command) : (modCmd s c f).pubs = s.pubs := by unfold modCmd; split <;> rfl
@[simp] theorem modCmd_spHist (c : Nat) (f : Command → Command) : (modCmd s c f).spHist = s.spHist := by unfold modCmd; split <;> rfl
@[simp] theorem modCmd_out (c : Nat) (f : Command → Command) : (modCmd s c f).out = s.out := by unfold modCmd; split <;> rfl
@[simp] theorem modCmd_ns (c : Nat) (f : Command → Command) : (modCmd s c f).ns = s.ns := by unfold modCmd; split <;> rfl
@[simp] theorem modCmd_mem (c : Nat) (f : Command → Command) : (modCmd s c f).mem = s.mem := by unfold modCmd; split <;> rfl
@[simp] theorem modCmd_locks (c : Nat) (f : Command → Command) : (modCmd s c f).locks = s.locks := by unfold modCmd; split <;> rfl
@[simp] theorem modCmd_cores (c : Nat) (f : Command → Command) : (modCmd s c f).cores = s.cores := by unfold modCmd; split <;> rfl
@[simp] theorem modCmd_dies (c : Nat) (f : Command → Command) : (modCmd s c f).dies = s.dies := by unfold modCmd; split <;> rfl
@[simp] theorem modCmd_groups (c : Nat) (f : Command → Command) : (modCmd s c f).groups = s.groups := by unfold modCmd; split <;> rfl
@[simp] theorem modCmd_teams (c : Nat) (f : Command → Command) : (modCmd s c f).teams = s.teams := by unfold modCmd; split <;> rfl
@[simp] theorem modCmd_clusters (c : Nat) (f : Command → Command) : (modCmd s c f).clusters = s.clusters := by unfold modCmd; split <;> rfl
@[simp] theorem modCmd_tasks (c : Nat) (f : Command → Command) : (modCmd s c f).tasks = s.tasks := by unfold modCmd; split <;> rfl
@[simp] theorem modCmd_queues (c : Nat) (f : Command → Command) : (modCmd s c f).queues = s.queues := by unfold modCmd; split <;> rfl
@[simp] theorem modCmd_bulks (c : Nat) (f : Command → Command) : (modCmd s c f).bulks = s.bulks := by unfold modCmd; split <;> rfl
@[simp] theorem modCmd_reds (c : Nat) (f : Command → Command) : (modCmd s c f).reds = s.reds := by unfold modCmd; split <;> rfl
@[simp] theorem modCmd_vats (c : Nat) (f : Command → Command) : (modCmd s c f).vats = s.vats := by unfold modCmd; split <;> rfl
@[simp] theorem modCmd_vpins (c : Nat) (f : Command → Command) : (modCmd s c f).vpins = s.vpins := by unfold modCmd; split <;> rfl
@[simp] theorem modCmd_spaceBase (c : Nat) (f : Command → Command) : (modCmd s c f).spaceBase = s.spaceBase := by unfold modCmd; split <;> rfl
@[simp] theorem modCmd_invSeq (c : Nat) (f : Command → Command) : (modCmd s c f).invSeq = s.invSeq := by unfold modCmd; split <;> rfl
@[simp] theorem modCmd_invDone (c : Nat) (f : Command → Command) : (modCmd s c f).invDone = s.invDone := by unfold modCmd; split <;> rfl
@[simp] theorem modCmd_invs (c : Nat) (f : Command → Command) : (modCmd s c f).invs = s.invs := by unfold modCmd; split <;> rfl
@[simp] theorem modCmd_invrange (c : Nat) (f : Command → Command) : (modCmd s c f).invrange = s.invrange := by unfold modCmd; split <;> rfl
@[simp] theorem modCmd_invrangeSeq (c : Nat) (f : Command → Command) : (modCmd s c f).invrangeSeq = s.invrangeSeq := by unfold modCmd; split <;> rfl
@[simp] theorem modCmd_invrangeErr (c : Nat) (f : Command → Command) : (modCmd s c f).invrangeErr = s.invrangeErr := by unfold modCmd; split <;> rfl
@[simp] theorem modCmd_acc (c : Nat) (f : Command → Command) : (modCmd s c f).acc = s.acc := by unfold modCmd; split <;> rfl
@[simp] theorem modCmd_acctab (c : Nat) (f : Command → Command) : (modCmd s c f).acctab = s.acctab := by unfold modCmd; split <;> rfl
@[simp] theorem modCmd_reswin (c : Nat) (f : Command → Command) : (modCmd s c f).reswin = s.reswin := by unfold modCmd; split <;> rfl
@[simp] theorem modCmd_mbox (c : Nat) (f : Command → Command) : (modCmd s c f).mbox = s.mbox := by unfold modCmd; split <;> rfl
@[simp] theorem modCmd_snap (c : Nat) (f : Command → Command) : (modCmd s c f).snap = s.snap := by unfold modCmd; split <;> rfl
@[simp] theorem modCmd_snapshot (c : Nat) (f : Command → Command) : (modCmd s c f).snapshot = s.snapshot := by unfold modCmd; split <;> rfl
@[simp] theorem modCmd_debug (c : Nat) (f : Command → Command) : (modCmd s c f).debug = s.debug := by unfold modCmd; split <;> rfl
@[simp] theorem modCmd_samples (c : Nat) (f : Command → Command) : (modCmd s c f).samples = s.samples := by unfold modCmd; split <;> rfl
@[simp] theorem modCmd_logOwners (c : Nat) (f : Command → Command) : (modCmd s c f).logOwners = s.logOwners := by unfold modCmd; split <;> rfl
@[simp] theorem modCmd_lastPlace (c : Nat) (f : Command → Command) : (modCmd s c f).lastPlace = s.lastPlace := by unfold modCmd; split <;> rfl
@[simp] theorem modCmd_power (c : Nat) (f : Command → Command) : (modCmd s c f).power = s.power := by unfold modCmd; split <;> rfl
@[simp] theorem modCmd_trust (c : Nat) (f : Command → Command) : (modCmd s c f).trust = s.trust := by unfold modCmd; split <;> rfl

/-! `modQueue` changes `queues` alone. -/

@[simp] theorem modQueue_agenda (q : Nat) (f : Queue → Queue) : (modQueue s q f).agenda = s.agenda := by unfold modQueue; split <;> rfl
@[simp] theorem modQueue_tick (q : Nat) (f : Queue → Queue) : (modQueue s q f).tick = s.tick := by unfold modQueue; split <;> rfl
@[simp] theorem modQueue_issue (q : Nat) (f : Queue → Queue) : (modQueue s q f).issue = s.issue := by unfold modQueue; split <;> rfl
@[simp] theorem modQueue_nextId (q : Nat) (f : Queue → Queue) : (modQueue s q f).nextId = s.nextId := by unfold modQueue; split <;> rfl
@[simp] theorem modQueue_pubs (q : Nat) (f : Queue → Queue) : (modQueue s q f).pubs = s.pubs := by unfold modQueue; split <;> rfl
@[simp] theorem modQueue_spHist (q : Nat) (f : Queue → Queue) : (modQueue s q f).spHist = s.spHist := by unfold modQueue; split <;> rfl
@[simp] theorem modQueue_out (q : Nat) (f : Queue → Queue) : (modQueue s q f).out = s.out := by unfold modQueue; split <;> rfl
@[simp] theorem modQueue_ns (q : Nat) (f : Queue → Queue) : (modQueue s q f).ns = s.ns := by unfold modQueue; split <;> rfl
@[simp] theorem modQueue_mem (q : Nat) (f : Queue → Queue) : (modQueue s q f).mem = s.mem := by unfold modQueue; split <;> rfl
@[simp] theorem modQueue_locks (q : Nat) (f : Queue → Queue) : (modQueue s q f).locks = s.locks := by unfold modQueue; split <;> rfl
@[simp] theorem modQueue_cores (q : Nat) (f : Queue → Queue) : (modQueue s q f).cores = s.cores := by unfold modQueue; split <;> rfl
@[simp] theorem modQueue_dies (q : Nat) (f : Queue → Queue) : (modQueue s q f).dies = s.dies := by unfold modQueue; split <;> rfl
@[simp] theorem modQueue_groups (q : Nat) (f : Queue → Queue) : (modQueue s q f).groups = s.groups := by unfold modQueue; split <;> rfl
@[simp] theorem modQueue_teams (q : Nat) (f : Queue → Queue) : (modQueue s q f).teams = s.teams := by unfold modQueue; split <;> rfl
@[simp] theorem modQueue_clusters (q : Nat) (f : Queue → Queue) : (modQueue s q f).clusters = s.clusters := by unfold modQueue; split <;> rfl
@[simp] theorem modQueue_tasks (q : Nat) (f : Queue → Queue) : (modQueue s q f).tasks = s.tasks := by unfold modQueue; split <;> rfl
@[simp] theorem modQueue_cmds (q : Nat) (f : Queue → Queue) : (modQueue s q f).cmds = s.cmds := by unfold modQueue; split <;> rfl
@[simp] theorem modQueue_bulks (q : Nat) (f : Queue → Queue) : (modQueue s q f).bulks = s.bulks := by unfold modQueue; split <;> rfl
@[simp] theorem modQueue_reds (q : Nat) (f : Queue → Queue) : (modQueue s q f).reds = s.reds := by unfold modQueue; split <;> rfl
@[simp] theorem modQueue_vats (q : Nat) (f : Queue → Queue) : (modQueue s q f).vats = s.vats := by unfold modQueue; split <;> rfl
@[simp] theorem modQueue_vpins (q : Nat) (f : Queue → Queue) : (modQueue s q f).vpins = s.vpins := by unfold modQueue; split <;> rfl
@[simp] theorem modQueue_spaceBase (q : Nat) (f : Queue → Queue) : (modQueue s q f).spaceBase = s.spaceBase := by unfold modQueue; split <;> rfl
@[simp] theorem modQueue_invSeq (q : Nat) (f : Queue → Queue) : (modQueue s q f).invSeq = s.invSeq := by unfold modQueue; split <;> rfl
@[simp] theorem modQueue_invDone (q : Nat) (f : Queue → Queue) : (modQueue s q f).invDone = s.invDone := by unfold modQueue; split <;> rfl
@[simp] theorem modQueue_invs (q : Nat) (f : Queue → Queue) : (modQueue s q f).invs = s.invs := by unfold modQueue; split <;> rfl
@[simp] theorem modQueue_invrange (q : Nat) (f : Queue → Queue) : (modQueue s q f).invrange = s.invrange := by unfold modQueue; split <;> rfl
@[simp] theorem modQueue_invrangeSeq (q : Nat) (f : Queue → Queue) : (modQueue s q f).invrangeSeq = s.invrangeSeq := by unfold modQueue; split <;> rfl
@[simp] theorem modQueue_invrangeErr (q : Nat) (f : Queue → Queue) : (modQueue s q f).invrangeErr = s.invrangeErr := by unfold modQueue; split <;> rfl
@[simp] theorem modQueue_acc (q : Nat) (f : Queue → Queue) : (modQueue s q f).acc = s.acc := by unfold modQueue; split <;> rfl
@[simp] theorem modQueue_acctab (q : Nat) (f : Queue → Queue) : (modQueue s q f).acctab = s.acctab := by unfold modQueue; split <;> rfl
@[simp] theorem modQueue_reswin (q : Nat) (f : Queue → Queue) : (modQueue s q f).reswin = s.reswin := by unfold modQueue; split <;> rfl
@[simp] theorem modQueue_mbox (q : Nat) (f : Queue → Queue) : (modQueue s q f).mbox = s.mbox := by unfold modQueue; split <;> rfl
@[simp] theorem modQueue_snap (q : Nat) (f : Queue → Queue) : (modQueue s q f).snap = s.snap := by unfold modQueue; split <;> rfl
@[simp] theorem modQueue_snapshot (q : Nat) (f : Queue → Queue) : (modQueue s q f).snapshot = s.snapshot := by unfold modQueue; split <;> rfl
@[simp] theorem modQueue_debug (q : Nat) (f : Queue → Queue) : (modQueue s q f).debug = s.debug := by unfold modQueue; split <;> rfl
@[simp] theorem modQueue_samples (q : Nat) (f : Queue → Queue) : (modQueue s q f).samples = s.samples := by unfold modQueue; split <;> rfl
@[simp] theorem modQueue_logOwners (q : Nat) (f : Queue → Queue) : (modQueue s q f).logOwners = s.logOwners := by unfold modQueue; split <;> rfl
@[simp] theorem modQueue_lastPlace (q : Nat) (f : Queue → Queue) : (modQueue s q f).lastPlace = s.lastPlace := by unfold modQueue; split <;> rfl
@[simp] theorem modQueue_power (q : Nat) (f : Queue → Queue) : (modQueue s q f).power = s.power := by unfold modQueue; split <;> rfl
@[simp] theorem modQueue_trust (q : Nat) (f : Queue → Queue) : (modQueue s q f).trust = s.trust := by unfold modQueue; split <;> rfl

/-! `modBulk` changes `bulks` alone. -/

@[simp] theorem modBulk_agenda (b : Nat) (f : Bulk → Bulk) : (modBulk s b f).agenda = s.agenda := by unfold modBulk; split <;> rfl
@[simp] theorem modBulk_tick (b : Nat) (f : Bulk → Bulk) : (modBulk s b f).tick = s.tick := by unfold modBulk; split <;> rfl
@[simp] theorem modBulk_issue (b : Nat) (f : Bulk → Bulk) : (modBulk s b f).issue = s.issue := by unfold modBulk; split <;> rfl
@[simp] theorem modBulk_nextId (b : Nat) (f : Bulk → Bulk) : (modBulk s b f).nextId = s.nextId := by unfold modBulk; split <;> rfl
@[simp] theorem modBulk_pubs (b : Nat) (f : Bulk → Bulk) : (modBulk s b f).pubs = s.pubs := by unfold modBulk; split <;> rfl
@[simp] theorem modBulk_spHist (b : Nat) (f : Bulk → Bulk) : (modBulk s b f).spHist = s.spHist := by unfold modBulk; split <;> rfl
@[simp] theorem modBulk_out (b : Nat) (f : Bulk → Bulk) : (modBulk s b f).out = s.out := by unfold modBulk; split <;> rfl
@[simp] theorem modBulk_ns (b : Nat) (f : Bulk → Bulk) : (modBulk s b f).ns = s.ns := by unfold modBulk; split <;> rfl
@[simp] theorem modBulk_mem (b : Nat) (f : Bulk → Bulk) : (modBulk s b f).mem = s.mem := by unfold modBulk; split <;> rfl
@[simp] theorem modBulk_locks (b : Nat) (f : Bulk → Bulk) : (modBulk s b f).locks = s.locks := by unfold modBulk; split <;> rfl
@[simp] theorem modBulk_cores (b : Nat) (f : Bulk → Bulk) : (modBulk s b f).cores = s.cores := by unfold modBulk; split <;> rfl
@[simp] theorem modBulk_dies (b : Nat) (f : Bulk → Bulk) : (modBulk s b f).dies = s.dies := by unfold modBulk; split <;> rfl
@[simp] theorem modBulk_groups (b : Nat) (f : Bulk → Bulk) : (modBulk s b f).groups = s.groups := by unfold modBulk; split <;> rfl
@[simp] theorem modBulk_teams (b : Nat) (f : Bulk → Bulk) : (modBulk s b f).teams = s.teams := by unfold modBulk; split <;> rfl
@[simp] theorem modBulk_clusters (b : Nat) (f : Bulk → Bulk) : (modBulk s b f).clusters = s.clusters := by unfold modBulk; split <;> rfl
@[simp] theorem modBulk_tasks (b : Nat) (f : Bulk → Bulk) : (modBulk s b f).tasks = s.tasks := by unfold modBulk; split <;> rfl
@[simp] theorem modBulk_cmds (b : Nat) (f : Bulk → Bulk) : (modBulk s b f).cmds = s.cmds := by unfold modBulk; split <;> rfl
@[simp] theorem modBulk_queues (b : Nat) (f : Bulk → Bulk) : (modBulk s b f).queues = s.queues := by unfold modBulk; split <;> rfl
@[simp] theorem modBulk_reds (b : Nat) (f : Bulk → Bulk) : (modBulk s b f).reds = s.reds := by unfold modBulk; split <;> rfl
@[simp] theorem modBulk_vats (b : Nat) (f : Bulk → Bulk) : (modBulk s b f).vats = s.vats := by unfold modBulk; split <;> rfl
@[simp] theorem modBulk_vpins (b : Nat) (f : Bulk → Bulk) : (modBulk s b f).vpins = s.vpins := by unfold modBulk; split <;> rfl
@[simp] theorem modBulk_spaceBase (b : Nat) (f : Bulk → Bulk) : (modBulk s b f).spaceBase = s.spaceBase := by unfold modBulk; split <;> rfl
@[simp] theorem modBulk_invSeq (b : Nat) (f : Bulk → Bulk) : (modBulk s b f).invSeq = s.invSeq := by unfold modBulk; split <;> rfl
@[simp] theorem modBulk_invDone (b : Nat) (f : Bulk → Bulk) : (modBulk s b f).invDone = s.invDone := by unfold modBulk; split <;> rfl
@[simp] theorem modBulk_invs (b : Nat) (f : Bulk → Bulk) : (modBulk s b f).invs = s.invs := by unfold modBulk; split <;> rfl
@[simp] theorem modBulk_invrange (b : Nat) (f : Bulk → Bulk) : (modBulk s b f).invrange = s.invrange := by unfold modBulk; split <;> rfl
@[simp] theorem modBulk_invrangeSeq (b : Nat) (f : Bulk → Bulk) : (modBulk s b f).invrangeSeq = s.invrangeSeq := by unfold modBulk; split <;> rfl
@[simp] theorem modBulk_invrangeErr (b : Nat) (f : Bulk → Bulk) : (modBulk s b f).invrangeErr = s.invrangeErr := by unfold modBulk; split <;> rfl
@[simp] theorem modBulk_acc (b : Nat) (f : Bulk → Bulk) : (modBulk s b f).acc = s.acc := by unfold modBulk; split <;> rfl
@[simp] theorem modBulk_acctab (b : Nat) (f : Bulk → Bulk) : (modBulk s b f).acctab = s.acctab := by unfold modBulk; split <;> rfl
@[simp] theorem modBulk_reswin (b : Nat) (f : Bulk → Bulk) : (modBulk s b f).reswin = s.reswin := by unfold modBulk; split <;> rfl
@[simp] theorem modBulk_mbox (b : Nat) (f : Bulk → Bulk) : (modBulk s b f).mbox = s.mbox := by unfold modBulk; split <;> rfl
@[simp] theorem modBulk_snap (b : Nat) (f : Bulk → Bulk) : (modBulk s b f).snap = s.snap := by unfold modBulk; split <;> rfl
@[simp] theorem modBulk_snapshot (b : Nat) (f : Bulk → Bulk) : (modBulk s b f).snapshot = s.snapshot := by unfold modBulk; split <;> rfl
@[simp] theorem modBulk_debug (b : Nat) (f : Bulk → Bulk) : (modBulk s b f).debug = s.debug := by unfold modBulk; split <;> rfl
@[simp] theorem modBulk_samples (b : Nat) (f : Bulk → Bulk) : (modBulk s b f).samples = s.samples := by unfold modBulk; split <;> rfl
@[simp] theorem modBulk_logOwners (b : Nat) (f : Bulk → Bulk) : (modBulk s b f).logOwners = s.logOwners := by unfold modBulk; split <;> rfl
@[simp] theorem modBulk_lastPlace (b : Nat) (f : Bulk → Bulk) : (modBulk s b f).lastPlace = s.lastPlace := by unfold modBulk; split <;> rfl
@[simp] theorem modBulk_power (b : Nat) (f : Bulk → Bulk) : (modBulk s b f).power = s.power := by unfold modBulk; split <;> rfl
@[simp] theorem modBulk_trust (b : Nat) (f : Bulk → Bulk) : (modBulk s b f).trust = s.trust := by unfold modBulk; split <;> rfl

/-! Tables after an update. -/

@[simp] theorem coreOf_setCore_self (c : Nat) (x : Core) : coreOf (setCore s c x) c = x := by simp [coreOf, setCore]
@[simp] theorem coreOf_setCore_other {c d : Nat} (x : Core) (h : d ≠ c) : coreOf (setCore s c x) d = coreOf s d := by
  simp [coreOf, setCore, h]
@[simp] theorem coreOf_modCore_self (c : Nat) (f : Core → Core) : coreOf (modCore s c f) c = f (coreOf s c) := by simp [modCore]
@[simp] theorem coreOf_modCore_other {c d : Nat} (f : Core → Core) (h : d ≠ c) : coreOf (modCore s c f) d = coreOf s d := by
  simp [modCore, h]
@[simp] theorem dieOf_setDie_self (d : Nat) (x : Die) : dieOf (setDie s d x) d = x := by simp [dieOf, setDie]
@[simp] theorem dieOf_setDie_other {d e : Nat} (x : Die) (h : e ≠ d) : dieOf (setDie s d x) e = dieOf s e := by
  simp [dieOf, setDie, h]
@[simp] theorem dieOf_modDie_self (d : Nat) (f : Die → Die) : dieOf (modDie s d f) d = f (dieOf s d) := by simp [modDie]
@[simp] theorem dieOf_modDie_other {d e : Nat} (f : Die → Die) (h : e ≠ d) : dieOf (modDie s d f) e = dieOf s e := by
  simp [modDie, h]
@[simp] theorem coreOf_modGroup (g : Nat) (f : Group → Group) (c : Nat) : coreOf (modGroup s g f) c = coreOf s c := by simp [coreOf]
@[simp] theorem dieOf_modGroup (g : Nat) (f : Group → Group) (d : Nat) : dieOf (modGroup s g f) d = dieOf s d := by simp [dieOf]

@[simp] theorem find_modGroup_self (g : Nat) (f : Group → Group) : kvFind (modGroup s g f).groups g = (kvFind s.groups g).map f := by
  unfold modGroup; split <;> simp [*]
@[simp] theorem find_modGroup_other {g j : Nat} (f : Group → Group) (h : j ≠ g) : kvFind (modGroup s g f).groups j = kvFind s.groups j := by
  unfold modGroup; split <;> simp [h]
@[simp] theorem find_modTeam_self (t : Nat) (f : Team → Team) : kvFind (modTeam s t f).teams t = (kvFind s.teams t).map f := by
  unfold modTeam; split <;> simp [*]
@[simp] theorem find_modTeam_other {t j : Nat} (f : Team → Team) (h : j ≠ t) : kvFind (modTeam s t f).teams j = kvFind s.teams j := by
  unfold modTeam; split <;> simp [h]
@[simp] theorem find_modCluster_self (c : Nat) (f : Cluster → Cluster) : kvFind (modCluster s c f).clusters c = (kvFind s.clusters c).map f := by
  unfold modCluster; split <;> simp [*]
@[simp] theorem find_modCluster_other {c j : Nat} (f : Cluster → Cluster) (h : j ≠ c) : kvFind (modCluster s c f).clusters j = kvFind s.clusters j := by
  unfold modCluster; split <;> simp [h]
@[simp] theorem find_modTask_self (t : Nat) (f : Task → Task) : kvFind (modTask s t f).tasks t = (kvFind s.tasks t).map f := by
  unfold modTask; split <;> simp [*]
@[simp] theorem find_modTask_other {t j : Nat} (f : Task → Task) (h : j ≠ t) : kvFind (modTask s t f).tasks j = kvFind s.tasks j := by
  unfold modTask; split <;> simp [h]
@[simp] theorem find_modCmd_self (c : Nat) (f : Command → Command) : kvFind (modCmd s c f).cmds c = (kvFind s.cmds c).map f := by
  unfold modCmd; split <;> simp [*]
@[simp] theorem find_modCmd_other {c j : Nat} (f : Command → Command) (h : j ≠ c) : kvFind (modCmd s c f).cmds j = kvFind s.cmds j := by
  unfold modCmd; split <;> simp [h]
@[simp] theorem find_modQueue_self (q : Nat) (f : Queue → Queue) : kvFind (modQueue s q f).queues q = (kvFind s.queues q).map f := by
  unfold modQueue; split <;> simp [*]
@[simp] theorem find_modQueue_other {q j : Nat} (f : Queue → Queue) (h : j ≠ q) : kvFind (modQueue s q f).queues j = kvFind s.queues j := by
  unfold modQueue; split <;> simp [h]
@[simp] theorem find_modBulk_self (b : Nat) (f : Bulk → Bulk) : kvFind (modBulk s b f).bulks b = (kvFind s.bulks b).map f := by
  unfold modBulk; split <;> simp [*]
@[simp] theorem find_modBulk_other {b j : Nat} (f : Bulk → Bulk) (h : j ≠ b) : kvFind (modBulk s b f).bulks j = kvFind s.bulks j := by
  unfold modBulk; split <;> simp [h]

end Sys2Proof.Laws
end

