-- ==== Sys2Proof/Laws/Word.lean ====
section
/-! SUPPORT. Laws of words: what every word does besides its own effect, said once for each way a word can end. -/
set_option Elab.async false
namespace Sys2Proof.Laws
open Sys2Proof.Machine

/-! Frames. -/

theorem frame_refl (s : State) (gid : Nat) : WordFrame s s gid := ⟨rfl, fun _ => rfl, fun _ _ => rfl⟩

theorem frame_trans {s t u : State} {gid : Nat} (h : WordFrame s t gid) (k : WordFrame t u gid) : WordFrame s u gid :=
  ⟨k.rest.trans h.rest, fun n => (k.cores n).trans (h.cores n), fun x hx => (k.groups x hx).trans (h.groups x hx)⟩

theorem follows_refl (s : State) (gid : Nat) : Follows s s gid := ⟨frame_refl s gid, fun g h => ⟨g, h, rfl⟩⟩

theorem follows_trans {s t u : State} {gid : Nat} (h : Follows s t gid) (k : Follows t u gid) : Follows s u gid := by
  refine ⟨frame_trans h.frame k.frame, fun g hg => ?_⟩
  obtain ⟨g1, h1, e1⟩ := h.group g hg
  obtain ⟨g2, h2, e2⟩ := k.group g1 h1
  exact ⟨g2, h2, e2.trans e1⟩

/-- A change of one group is framed. -/
theorem frame_modGroup (s : State) (gid : Nat) (k : Group → Group) : WordFrame s (modGroup s gid k) gid := by
  refine ⟨?_, fun n => by simp, fun x hx => by simp [hx]⟩
  unfold modGroup; split <;> rfl

/-- A change of one group that keeps what a group keeps. -/
theorem follows_modGroup (s : State) (gid : Nat) (k : Group → Group) (h : ∀ g, (k g).kept = g.kept) : Follows s (modGroup s gid k) gid :=
  ⟨frame_modGroup s gid k, fun g hg => ⟨k g, by simp [hg], h g⟩⟩

/-- A change of one core that keeps what a core keeps. -/
theorem follows_modCore (s : State) (n gid : Nat) (k : Core → Core) (h : ∀ c, (k c).kept = c.kept) : Follows s (modCore s n k) gid := by
  refine ⟨⟨rfl, fun m => ?_, fun _ _ => rfl⟩, fun g hg => ⟨g, hg, rfl⟩⟩
  by_cases e : m = n
  · subst e; simp [h]
  · simp [e]

theorem follows_count (s : State) (n a b gid : Nat) : Follows s (count s n a b) gid := follows_modCore s n gid _ fun _ => rfl

/-! Fragments move; the group keeps the rest. -/

@[simp] theorem kept_reach (n : Nat) : ∀ (f : Frag) (g : Group), (reach n f g).kept = g.kept := by
  induction n with
  | zero => intro f g; rfl
  | succ n ih =>
    intro f g
    simp only [reach]
    split
    · rfl
    · split
      · split <;> first | rfl | (rw [ih]; rfl)
      · rfl

@[simp] theorem kept_modFrag (g : Group) (fid : Nat) (k : Frag → Frag) : (modFrag g fid k).kept = g.kept := rfl

@[simp] theorem kept_arriveAt (g : Group) (fid : Nat) (pc : Word) (l : Bool) : (arriveAt g fid pc l).kept = g.kept := by
  unfold arriveAt; split
  · rfl
  · rw [kept_reach]; rfl

@[simp] theorem kept_advance (g : Group) (fid w : Nat) : (advance g fid w).kept = g.kept := by
  unfold advance; split
  · rfl
  · dsimp only; split
    · split
      · rfl
      · exact kept_arriveAt _ _ _ _
    · rfl

/-- A fragment found by its name, after it alone was changed without changing its lanes. -/
theorem find_modFrag {g : Group} {fid : Nat} {f : Frag} (k : Frag → Frag) (h : findFrag g fid = some f) (hk : ∀ x, (k x).lanes = x.lanes) :
    findFrag (modFrag g fid k) fid = some (k f) := by
  unfold findFrag modFrag at *
  simp only
  generalize g.frags = l at h
  induction l with
  | nil => simp at h
  | cons a r ih =>
    simp only [List.map_cons, List.find?_cons] at h ⊢
    by_cases e : fidOf a.lanes = fid
    · simp [e] at h; subst h; simp [e, hk]
    · have e2 : (fidOf a.lanes == fid) = false := by simp [e]
      simp only [e, e2, if_false] at h ⊢
      exact ih h

theorem issueOf_group {s : State} {c : Ctx} (h : issueOf s = some c) : kvFind s.groups c.gid = some c.g ∧ findFrag c.g c.fid = some c.f := by
  unfold issueOf at h
  split at h
  · split at h
    · simp at h
    · rename_i hg
      split at h
      · simp at h
      · rename_i hf; simp at h; subst h; exact ⟨hg, hf⟩
  · simp at h

/-! Bookkeeping. -/

@[simp] theorem kept_atMarker (sw : Bool) (pc : Word) (g : Group) : (atMarker sw pc g).kept = g.kept := by
  unfold atMarker; split
  · split <;> rfl
  · rfl
@[simp] theorem frags_atMarker (sw : Bool) (pc : Word) (g : Group) : (atMarker sw pc g).frags = g.frags := by
  unfold atMarker; split
  · split <;> rfl
  · rfl
@[simp] theorem splits_atMarker (sw : Bool) (pc : Word) (g : Group) : (atMarker sw pc g).splits = g.splits := by
  unfold atMarker; split
  · split <;> rfl
  · rfl

theorem follows_countRamp (s : State) (n gid : Nat) : Follows s (countRamp s n) gid := by
  unfold countRamp; split
  · exact follows_trans (follows_count s n 11 _ gid) (follows_modCore _ n gid _ fun _ => rfl)
  · exact follows_refl _ _
@[simp] theorem countRamp_groups (s : State) (n : Nat) : (countRamp s n).groups = s.groups := by unfold countRamp; split <;> rfl

theorem follows_coreIssues (s : State) (n gid : Nat) : Follows s (coreIssues s n) gid :=
  follows_trans (follows_countRamp s n gid) (follows_modCore _ n gid _ fun _ => rfl)
@[simp] theorem coreIssues_groups (s : State) (n : Nat) : (coreIssues s n).groups = s.groups := countRamp_groups s n

theorem follows_unissue {s t : State} {gid : Nat} (h : Follows s t gid) : Follows s { t with issue := .none } gid :=
  ⟨⟨h.frame.rest, h.frame.cores, h.frame.groups⟩, h.group⟩

theorem follows_issued (s : State) (c : Ctx) : Follows s (issued s c) c.gid :=
  follows_unissue (follows_trans (follows_trans (follows_modGroup s c.gid _ fun g => kept_atMarker c.sw c.f.pc { g with rot := c.fid })
    (follows_count _ _ 1 1 c.gid)) (follows_coreIssues _ _ c.gid))

theorem follows_agenda {s t : State} {gid : Nat} (as : List Act) (h : Follows s t gid) : Follows s { t with agenda := as } gid :=
  ⟨⟨h.frame.rest, h.frame.cores, h.frame.groups⟩, h.group⟩

theorem follows_samp (s : State) (n gid : Nat) (k : Kv Sampler → Kv Sampler) :
    Follows s (modCore s n fun x => { x with samp := k x.samp }) gid := follows_modCore s n gid _ fun _ => rfl

theorem follows_sampled (i : Instr) (c : Ctx) (s : State) (gid : Nat) : Follows s (sampled i c s) gid := by
  unfold sampled
  dsimp only
  split
  · exact follows_refl _ _
  · split
    · exact follows_refl _ _
    · split
      · exact follows_agenda _ (follows_samp s _ gid fun y => kvPut y _ _)
      · exact follows_samp s _ gid fun y => kvPut y _ _

@[simp] theorem find_issued (s : State) (c : Ctx) : kvFind (issued s c).groups c.gid =
    (kvFind s.groups c.gid).map fun g => atMarker c.sw c.f.pc { g with rot := c.fid } := by
  simp [issued]

@[simp] theorem sampled_groups (i : Instr) (c : Ctx) (s : State) : (sampled i c s).groups = s.groups := by
  unfold sampled; dsimp only
  split
  · rfl
  · split
    · rfl
    · split <;> rfl

/-- The effect, then the fragment goes on. -/
theorem follows_ok (i : Instr) (c : Ctx) (s : State) : Follows s (endWord i c (.ok s)) c.gid :=
  follows_trans (follows_trans (follows_modGroup s c.gid _ fun g => kept_advance g c.fid c.words) (follows_issued _ c)) (follows_sampled i c _ _)

theorem follows_jump (i : Instr) (c : Ctx) (s : State) (pc : Word) : Follows s (endWord i c (.jump s pc)) c.gid :=
  follows_trans (follows_trans (follows_modGroup s c.gid _ fun g => kept_arriveAt g c.fid pc true) (follows_issued _ c)) (follows_sampled i c _ _)

theorem follows_setPark (s : State) (gid fid : Nat) (p : Park) : Follows s (setPark s gid fid p) gid :=
  follows_modGroup s gid _ fun _ => rfl

/-- Where a word that parks leaves its fragment: after the word. -/
def afterWord (c : Ctx) (g : Group) : Group :=
  modFrag g c.fid fun f => { f with
    pc := f.pc + BitVec.ofNat 32 (4 * c.words), passed := []
    cl := match f.cl with
      | some (k, left) => some (k, left - c.words)
      | none => none }

theorem endWord_park (i : Instr) (c : Ctx) (s : State) (p : Park) :
    endWord i c (.park s p) = sampled i c (issued (setPark (modGroup s c.gid (afterWord c)) c.gid c.fid p) c) := by
  simp only [endWord, issues, finish, if_true]; rfl

theorem follows_park (i : Instr) (c : Ctx) (s : State) (p : Park) : Follows s (endWord i c (.park s p)) c.gid := by
  rw [endWord_park]
  exact follows_trans (follows_trans (follows_trans (follows_modGroup s c.gid (afterWord c) fun _ => rfl) (follows_setPark _ c.gid c.fid p))
    (follows_issued _ c)) (follows_sampled i c _ _)

theorem follows_gone (i : Instr) (c : Ctx) (s : State) : Follows s (endWord i c (.gone s)) c.gid :=
  follows_trans (follows_issued _ c) (follows_sampled i c _ _)

theorem findFrag_frags {g h : Group} {fid : Nat} (e : g.frags = h.frags) : findFrag g fid = findFrag h fid := by simp [findFrag, e]

/-- In the middle of a clause the fragment stands at the next word. -/
theorem goesOn_ok (i : Instr) {c : Ctx} {s : State} {g : Group} (hg : kvFind s.groups c.gid = some g) (hf : findFrag g c.fid = some c.f) :
    GoesOn c (endWord i c (.ok s)) := by
  intro k left hcl hlt
  refine ⟨atMarker c.sw c.f.pc { advance g c.fid c.words with rot := c.fid }, ?_, (findFrag_frags (frags_atMarker _ _ _)).trans ?_⟩
  · simp [endWord, issues, finish, hg]
  · change findFrag (advance g c.fid c.words) c.fid = _
    have : advance g c.fid c.words = modFrag g c.fid fun f => { f with
        pc := c.f.pc + BitVec.ofNat 32 (4 * c.words), cl := some (k, left - c.words), park := .run, passed := [] } := by
      simp [advance, hf, hcl, hlt]
    rw [this]
    exact find_modFrag _ hf fun _ => rfl

/-! What a word that ends in one of these ways does, from its own meaning. -/

section
variable {i : Instr} {s : State} {c : Ctx} {body : Ctx → Eff}

theorem word_next (hx : exec i s = word i s body) (hc : issueOf s = some c) (hw : wfErr i = none) : exec i s = .next (endWord i c (body c)) := by
  rw [hx]; simp [word, hc, hw]

theorem completes_ok {s1 : State} (hx : exec i s = word i s body) (hc : issueOf s = some c) (hw : wfErr i = none) (hb : body c = .ok s1)
    {g : Group} (hg : kvFind s1.groups c.gid = some g) (hf : g.frags = c.g.frags) : Completes i s c s1 :=
  ⟨_, by rw [word_next hx hc hw, hb], follows_ok i c s1, goesOn_ok i hg ((findFrag_frags hf).trans (issueOf_group hc).2)⟩

theorem changes_ok {k : Group → Group} (hx : exec i s = word i s body) (hc : issueOf s = some c) (hw : wfErr i = none)
    (hb : body c = onGroup s c k) (hf : (k c.g).frags = c.g.frags) : Changes i s c k :=
  completes_ok hx hc hw hb (g := k c.g) (by simp [(issueOf_group hc).1]) hf

/-- The same for a change that agrees on the issuing group. -/
theorem changes_as {k k2 : Group → Group} (hx : exec i s = word i s body) (hc : issueOf s = some c) (hw : wfErr i = none)
    (hb : body c = onGroup s c k) (hf : (k c.g).frags = c.g.frags) (he : k2 c.g = k c.g) : Changes i s c k2 := by
  have : modGroup s c.gid k2 = modGroup s c.gid k := by simp [modGroup, (issueOf_group hc).1, he]
  unfold Changes
  rw [this]
  exact changes_ok hx hc hw hb hf

theorem jumps_ok {s1 : State} {pc : Word} (hx : exec i s = word i s body) (hc : issueOf s = some c) (hw : wfErr i = none)
    (hb : body c = .jump s1 pc) {g : Group} (hg : kvFind s1.groups c.gid = some g) (hf : g.frags = c.g.frags) (hs : g.splits = c.g.splits) :
    JumpsTo i s c s1 pc := by
  refine ⟨_, by rw [word_next hx hc hw, hb], follows_jump i c s1 pc, fun he => ?_⟩
  have hf2 : findFrag g c.fid = some c.f := (findFrag_frags hf).trans (issueOf_group hc).2
  refine ⟨atMarker c.sw c.f.pc { arriveAt g c.fid pc true with rot := c.fid },
    { c.f with pc := pc, cl := none, landed := true, park := .run, passed := [] }, ?_, ?_, rfl, rfl, rfl⟩
  · simp [endWord, issues, finish, hg]
  · simp [arriveAt, hf2, reach, hs, he, innermost]

theorem parks_ok {s1 : State} {p : Park} (hx : exec i s = word i s body) (hc : issueOf s = some c) (hw : wfErr i = none)
    (hb : body c = .park s1 p) {g : Group} (hg : kvFind s1.groups c.gid = some g) (hf : g.frags = c.g.frags) : Parks i s c s1 p := by
  refine ⟨_, by rw [word_next hx hc hw, hb], follows_park i c s1 p, ?_⟩
  have hf2 : findFrag g c.fid = some c.f := (findFrag_frags hf).trans (issueOf_group hc).2
  have hf3 : findFrag (afterWord c g) c.fid = some { c.f with
      pc := c.f.pc + BitVec.ofNat 32 (4 * c.words), passed := []
      cl := match c.f.cl with
        | some (k, left) => some (k, left - c.words)
        | none => none } := find_modFrag _ hf2 fun _ => rfl
  rw [endWord_park]
  simp only [sampled_groups, find_issued, setPark, find_modGroup_self, hg, Option.map_some]
  refine ⟨_, _, rfl, (findFrag_frags (frags_atMarker _ _ _)).trans (find_modFrag _ hf3 fun _ => rfl), rfl, rfl⟩

theorem traps_ok {s1 : State} {t : Cause} {n : Nat} (hx : exec i s = word i s body) (hc : issueOf s = some c) (hw : wfErr i = none)
    (hb : body c = .trap s1 t n) : Traps i s c s1 t n := by
  unfold Traps; rw [word_next hx hc hw, hb]; simp [endWord, issues, finish]

theorem waits_ok {s1 : State} {p : Park} (hx : exec i s = word i s body) (hc : issueOf s = some c) (hw : wfErr i = none)
    (hb : body c = .wait s1 p) : Waits i s c s1 p := by
  unfold Waits; rw [word_next hx hc hw, hb]; simp [endWord, issues, finish]

end

end Sys2Proof.Laws
end

