-- ==== Sys2Proof/Laws/Vec.lean ====
section
/-! SUPPORT. Laws of registers and of the vector frame: what is read after a write, what a VEC word does to its group. -/
set_option Elab.async false
namespace Sys2Proof.Laws
open Sys2Proof.Machine

/-! Registers. -/

theorem getS_setS (g : Group) (r q : Nat) (v : Word) : getS (setS g r v) q = if q = r then v else getS g q := by
  simp only [getS, setS]; exact get_set 0 g.s q r v
theorem getM_setM (g : Group) (n q : Nat) (v : Mask) : getM (setM g n v) q = if q = 0 then allLanes else if q = n then v else getM g q := by
  unfold getM setM
  by_cases hq : q = 0
  · simp [hq]
  · by_cases hn : n = 0
    · subst hn; simp [hq]
    · simp only [hq, hn, if_false]; exact get_set 0 g.m q n v
theorem getPos_setPos (g : Group) {p q l k : Nat} (hl : l < 32) (hk : k < 32) (v : Word) :
    getPos (setPos g p l v) q k = if q = p ∧ k = l then v else getPos g q k := by
  simp only [getPos, setPos]
  rw [get_set]
  by_cases h : q = p ∧ k = l
  · simp [h.1, h.2]
  · rw [if_neg h, if_neg (fun e => h (by omega))]
@[simp] theorem wb_setPos (g : Group) (p l : Nat) (v : Word) : (setPos g p l v).wb = g.wb := rfl
@[simp] theorem setPos_rest (g h : Group) (p l : Nat) (v : Word) : { setPos h p l v with v := g.v, fx := g.fx } = { h with v := g.v, fx := g.fx } := rfl

/-! Lists of lanes. -/

theorem mem_lanesOf {m : Mask} {l : Nat} : l ∈ lanesOf m ↔ l < 32 ∧ m.getLsbD l = true := by simp [lanesOf]

/-- A lane of a register after a list of lanes of it was written. -/
theorem getPos_setLanes (d : Nat) (ps : List (Nat × Word)) : ∀ (g : Group) (q k : Nat), k < 32 → (∀ x ∈ ps, x.1 < 32) →
    ((∀ x ∈ ps, x.1 = k → q ≠ g.wb + d) → getPos (setLanes d ps g) q k = getPos g q k) ∧
    (∀ w, (∀ x ∈ ps, x.1 = k → x.2 = w) → (∃ x ∈ ps, x.1 = k) → getPos (setLanes d ps g) (g.wb + d) k = w) := by
  induction ps with
  | nil => intro g q k _ _; exact ⟨fun _ => rfl, fun w _ h => by simp at h⟩
  | cons a r ih =>
    obtain ⟨l, v⟩ := a
    intro g q k hk hx
    have hl : l < 32 := hx (l, v) (by simp)
    have hr : ∀ x ∈ r, x.1 < 32 := fun x h => hx x (by simp [h])
    have e : setLanes d ((l, v) :: r) g = setLanes d r (setPos g (g.wb + d) l v) := rfl
    obtain ⟨h1, h2⟩ := ih (setPos g (g.wb + d) l v) q k hk hr
    rw [e]
    refine ⟨fun hn => ?_, fun w hw he => ?_⟩
    · rw [h1 (fun x h hxk => hn x (by simp [h]) hxk), getPos_setPos g hl hk]
      rw [if_neg]; rintro ⟨e1, e2⟩; exact hn (l, v) (by simp) e2.symm e1
    · by_cases hin : ∃ x ∈ r, x.1 = k
      · exact h2 w (fun x h hxk => hw x (by simp [h]) hxk) hin
      · have hlk : l = k := by
          obtain ⟨x, hxm, hxk⟩ := he
          rcases List.mem_cons.1 hxm with h | h
          · simpa [h] using hxk
          · exact absurd ⟨x, h, hxk⟩ hin
        obtain ⟨h1, -⟩ := ih (setPos g (g.wb + d) l v) (g.wb + d) k hk hr
        rw [h1 (fun x h hxk => absurd ⟨x, h, hxk⟩ hin), getPos_setPos g hl hk, if_pos ⟨rfl, hlk.symm⟩]
        exact hw (l, v) (by simp) hlk

@[simp] theorem setLanes_wb (d : Nat) (ps : List (Nat × Word)) : ∀ g, (setLanes d ps g).wb = g.wb := by
  induction ps with
  | nil => intro g; rfl
  | cons a r ih => intro g; exact ih _
@[simp] theorem setLanes_fx (d : Nat) (ps : List (Nat × Word)) : ∀ g, (setLanes d ps g).fx = g.fx := by
  induction ps with
  | nil => intro g; rfl
  | cons a r ih => intro g; exact ih _
theorem setLanes_rest (g : Group) (d : Nat) (ps : List (Nat × Word)) : ∀ h,
    { setLanes d ps h with v := g.v, fx := g.fx } = { h with v := g.v, fx := g.fx } := by
  induction ps with
  | nil => intro h; rfl
  | cons a r ih => intro h; exact ih _

theorem frame_rest (f : Frag) (p : Option Pfx) (d : Int) (op : Nat → Word × BitVec 5) (g : Group) :
    { frame f p d op g with v := g.v, fx := g.fx } = g := by
  have := setLanes_rest g d.toNat ((zeroLanes g f p).map fun l => (l, 0))
    (setLanes d.toNat (((lanesOf (execLanes g f p)).map fun l => (l, op l)).map fun r => (r.1, r.2.1)) g)
  exact this.trans (setLanes_rest g d.toNat _ g)
theorem frame_frags (f : Frag) (p : Option Pfx) (d : Int) (op : Nat → Word × BitVec 5) (g : Group) : (frame f p d op g).frags = g.frags := by
  have := congrArg Group.frags (frame_rest f p d op g)
  exact this
theorem frame_wb (f : Frag) (p : Option Pfx) (d : Int) (op : Nat → Word × BitVec 5) (g : Group) : (frame f p d op g).wb = g.wb := by
  show (setLanes _ _ (setLanes _ _ g)).wb = g.wb
  simp

theorem mem_zeroLanes {g : Group} {f : Frag} {p : Option Pfx} {l : Nat} : l ∈ zeroLanes g f p ↔ zeroed g f p l := by
  unfold zeroLanes zeroed
  by_cases h : zeroing p = true
  · rw [if_pos h, mem_lanesOf]
    constructor
    · rintro ⟨h1, h2⟩; simp at h2; exact ⟨h1, h2.1, h2.2.2, h⟩
    · rintro ⟨h1, h2, h3, -⟩; exact ⟨h1, by rw [BitVec.getLsbD_and, h2, BitVec.getLsbD_not, h3]; simp [h1]⟩
  · simp [h]

/-- What the frame does (R371). -/
theorem frame_result (f : Frag) (p : Option Pfx) (d : Int) (op : Nat → Word × BitVec 5) (g : Group) : LaneResult f p d op g (frame f p d op g) := by
  have key : ∀ q k, k < 32 → getPos (frame f p d op g) q k =
      getPos (setLanes d.toNat ((zeroLanes g f p).map fun l => (l, 0))
        (setLanes d.toNat (((lanesOf (execLanes g f p)).map fun l => (l, op l)).map fun r => (r.1, r.2.1)) g)) q k := fun _ _ _ => rfl
  have hz : ∀ x ∈ (zeroLanes g f p).map fun l => (l, (0 : Word)), x.1 < 32 := by
    intro x hx; obtain ⟨l, hl, rfl⟩ := List.mem_map.1 hx; exact (mem_zeroLanes.1 hl).1
  have ha : ∀ x ∈ ((lanesOf (execLanes g f p)).map fun l => (l, op l)).map fun r => (r.1, r.2.1), x.1 < 32 := by
    intro x hx; simp only [List.map_map, List.mem_map, Function.comp] at hx; obtain ⟨l, hl, rfl⟩ := hx; exact (mem_lanesOf.1 hl).1
  refine ⟨fun l hl he => ?_, fun l hl => ?_, fun q l hl hn => ?_, ?_, ?_⟩
  · show getPos (frame f p d op g) ((frame f p d op g).wb + d.toNat) l = _
    rw [frame_wb, key _ _ hl, (getPos_setLanes _ _ _ _ l hl hz).1]
    · refine (getPos_setLanes _ _ g 0 l hl ha).2 _ (fun x hx hxl => ?_) ⟨(l, (op l).1), ?_, rfl⟩
      · simp only [List.map_map, List.mem_map, Function.comp] at hx; obtain ⟨j, hj, rfl⟩ := hx
        simp only at hxl; subst hxl; rfl
      · simp only [List.map_map, List.mem_map, Function.comp]; exact ⟨l, mem_lanesOf.2 ⟨hl, he⟩, rfl⟩
    · intro x hx hxl
      obtain ⟨j, hj, rfl⟩ := List.mem_map.1 hx
      simp only at hxl; subst hxl
      exact absurd (mem_zeroLanes.1 hj).2.2.1 (by simp [he])
  · show getPos (frame f p d op g) ((frame f p d op g).wb + d.toNat) l = _
    rw [frame_wb, key _ _ hl.1]
    have := (getPos_setLanes d.toNat ((zeroLanes g f p).map fun l => (l, (0 : Word)))
      (setLanes d.toNat (((lanesOf (execLanes g f p)).map fun l => (l, op l)).map fun r => (r.1, r.2.1)) g) 0 l hl.1 hz).2 0
      (fun x hx _ => by obtain ⟨j, -, rfl⟩ := List.mem_map.1 hx; rfl) ⟨(l, 0), List.mem_map.2 ⟨l, mem_zeroLanes.2 hl, rfl⟩, rfl⟩
    rwa [setLanes_wb] at this
  · rw [key _ _ hl, (getPos_setLanes _ _ _ _ l hl hz).1, (getPos_setLanes _ _ _ _ l hl ha).1]
    · intro x hx hxl e
      simp only [List.map_map, List.mem_map, Function.comp] at hx; obtain ⟨j, hj, rfl⟩ := hx
      simp only at hxl; subst hxl
      exact hn ⟨e, .inl (mem_lanesOf.1 hj).2⟩
    · intro x hx hxl e
      obtain ⟨j, hj, rfl⟩ := List.mem_map.1 hx
      simp only at hxl; subst hxl
      rw [setLanes_wb] at e
      exact hn ⟨e, .inr (mem_zeroLanes.1 hj)⟩
  · simp only [frame, List.foldl_map]
  · exact frame_rest f p d op g

/-- Names within bounds pass the checks. -/
theorem nameCheck_ok {g : Group} {ns : List Int} (h : NamesOk g ns) : nameCheck g ns = none := by
  unfold nameCheck
  rw [if_neg, if_neg]
  · simp only [Bool.and_eq_true, List.any_eq_true, decide_eq_true_eq, not_and, not_exists]
    intro hm j hj h32
    exact absurd ((h j hj).2.2 hm) (by omega)
  · simp only [List.any_eq_true, decide_eq_true_eq, not_exists, not_and]
    intro j hj
    have := h j hj
    omega

/-- A VEC word within the frame, from its meaning. -/
theorem laneChanges_ok {i : Instr} {s : State} {c : Ctx} {p : Option Pfx} {d : Int} {val : Nat → Word × BitVec 5} {ns : Group → List Int}
    {k : Frag → Group → Group} (hx : exec i s = Machine.vecWord i s ns k) (hc : Issues i s c) (hn : NamesOk c.g (ns c.g))
    (hk : k c.f c.g = frame c.f p d val c.g) : LaneChanges i s c p d val := by
  refine ⟨k c.f, changes_ok (body := fun c => match nameCheck c.g (ns c.g) with
    | some t => .trap s t 0
    | none => onGroup s c (k c.f)) hx hc.1 hc.2 (by simp [nameCheck_ok hn]) ?_, ?_⟩
  · rw [hk]; exact frame_frags _ _ _ _ _
  · rw [hk]; exact frame_result _ _ _ _ _

/-- Lane values may be given in another form. -/
theorem laneChanges_as {i : Instr} {s : State} {c : Ctx} {p : Option Pfx} {d : Int} {v w : Nat → Word × BitVec 5}
    (h : LaneChanges i s c p d v) (e : ∀ l, w l = v l) : LaneChanges i s c p d w := by
  have : w = v := funext e
  rwa [this]

/-- A word of two sources within the frame. -/
theorem binWord_ok {i : Instr} {s : State} {c : Ctx} {p : Option Pfx} {x : Ix} {d a : BitVec 6} {b : VB}
    {op : RMode → Word → Word → Word × BitVec 5} (hx : exec i s = binWord i p x d a b op s) (hc : Issues i s c)
    (hn : NamesOk c.g ([vname c.g d (ixVd x), vname c.g a (ixVa x)] ++ vbNames b)) :
    LaneChanges i s c p (vname c.g d (ixVd x))
      (fun l => op (roundingMode c.g p) (getN c.g (vname c.g a (ixVa x)) l) (getVB c.g b l)) :=
  laneChanges_ok (ns := fun g => [vname g d (ixVd x), vname g a (ixVa x)] ++ vbNames b)
    (k := fun f g => frame f p (vname g d (ixVd x)) (fun l => op (roundingMode g p) (getN g (vname g a (ixVa x)) l) (getVB g b l)) g)
    hx hc hn rfl

/-- A word of one source within the frame. -/
theorem unWord_ok {i : Instr} {s : State} {c : Ctx} {p : Option Pfx} {x : Ix} {d a : BitVec 6} {op : RMode → Word → Word × BitVec 5}
    (hx : exec i s = unWord i p x d a op s) (hc : Issues i s c) (hn : NamesOk c.g [vname c.g d (ixVd x), vname c.g a (ixVa x)]) :
    LaneChanges i s c p (vname c.g d (ixVd x)) (fun l => op (roundingMode c.g p) (getN c.g (vname c.g a (ixVa x)) l)) :=
  laneChanges_ok (ns := fun g => [vname g d (ixVd x), vname g a (ixVa x)])
    (k := fun f g => frame f p (vname g d (ixVd x)) (fun l => op (roundingMode g p) (getN g (vname g a (ixVa x)) l)) g) hx hc hn rfl

/-- Fewer names than were checked. -/
theorem namesOk_sub {g : Group} {ns ms : List Int} (h : NamesOk g ns) (hs : ∀ j ∈ ms, j ∈ ns) : NamesOk g ms := fun j hj => h j (hs j hj)

end Sys2Proof.Laws
end

