-- ==== Sys2Proof/Tests/Slice0.lean ====
section
/-! SUPPORT. Tests: words from the spec's encodings, a witness for the premises of each statement, one ill-formed term per
check, and single steps whose results come from the spec's own tables and rules. -/
set_option Elab.async false
namespace Sys2Proof.Tests
open Sys2Proof Sys2Proof.Machine

/-! Decoding. -/

/-- Each word, of a class, gives an instruction without a switch marker, and with bit 31 set the same one with it. -/
def decodesAll (c : Cls) (ws : List (Nat × Instr)) : Bool :=
  ws.all fun x => decodeWords c 15 (BitVec.ofNat 32 x.1) 0 matches .ok ⟨_, false, 1⟩ &&
    (decodeWords c 15 (BitVec.ofNat 32 x.1) 0).toOption.map (·.instr) == some x.2 &&
    (decodeWords c 15 (BitVec.ofNat 32 (x.1 + 2 ^ 31)) 0).toOption.map (fun d => (d.instr, d.s)) == some (x.2, true)
/-- Words of class SRR, put together from the fields of 03 Table 3-2. -/
theorem test_decode_srr_1 : decodesAll .srr [
    (0x04B023FF, .sadd 300 17 511), (0x0CB023FF, .ssub 300 17 511), (0x14B023FF, .smul 300 17 511), (0x1CB023FF, .smulhiI 300 17 511),
    (0x24B023FF, .smulhiN 300 17 511), (0x2CB023FF, .sand 300 17 511), (0x34B023FF, .sor 300 17 511), (0x3CB023FF, .sxor 300 17 511),
    (0x44B023FF, .sshl 300 17 511), (0x4CB023FF, .sshr 300 17 511), (0x54B023FF, .ssra 300 17 511), (0x5CB023FF, .sminI 300 17 511),
    (0x64B023FF, .smaxI 300 17 511)] = true := by decide
/-- Words of class SRR, put together from the fields of 03 Table 3-2. -/
theorem test_decode_srr_2 : decodesAll .srr [
    (0x6CB023FF, .seq 300 17 511), (0x74B023FF, .sltI 300 17 511), (0x7CB023FF, .sltN 300 17 511)] = true := by decide
/-- Words of class SRI, put together from the fields of 03 Table 3-2. -/
theorem test_decode_sri_1 : decodesAll .sri [
    (0x00160980, .saddi 5 260 384), (0x08160980, .srsubi 5 260 384), (0x10160980, .smuli 5 260 384), (0x18160980, .sandi 5 260 384),
    (0x20160980, .sori 5 260 384), (0x28160980, .sxori 5 260 384), (0x48160980, .seqi 5 260 384), (0x50160980, .sltiI 5 260 384),
    (0x58160980, .sltiN 5 260 384), (0x60160980, .sminiI 5 260 384), (0x68160980, .smaxiI 5 260 384), (0x3016081F, .sshli 5 260 31),
    (0x3816081F, .sshri 5 260 31)] = true := by decide
/-- Words of class SRI, put together from the fields of 03 Table 3-2. -/
theorem test_decode_sri_2 : decodesAll .sri [
    (0x4016081F, .ssrai 5 260 31), (0x701C051E, .sbfx 7 2 17 14)] = true := by decide
/-- Words of class CTL, put together from the fields of 03 Table 3-3. -/
theorem test_decode_ctl_1 : decodesAll .ctl [
    (0x00000000, .nop), (0x14000000, .ret), (0x18000000, .join), (0x1A000000, .exit), (0x28000000, .fork), (0x2A000000, .rdzv), (0x2C000000, .yield),
    (0x0301ABCD, .movi 257 0xABCD), (0x0501ABCD, .movhi 257 0xABCD), (0x0701012C, .mov 257 300), (0x09000012, .rds 256 .codeva),
    (0x0B2C001A, .wrs .fpm 300), (0x0DABCDEF, .br 0x1ABCDEF)] = true := by decide
/-- Words of class CTL, put together from the fields of 03 Table 3-3. -/
theorem test_decode_ctl_2 : decodesAll .ctl [
    (0x0F2CFFFE, .bz 300 0xFFFE), (0x112C0003, .bnz 300 3), (0x137FFFFF, .call 5 0x3FFFFF), (0x17BFF955, .split 6 0x7FF 0x155),
    (0x1D2C0003, .waitc .gth 300), (0x1E00000D, .barinit 13), (0x2200000D, .barin 13), (0x2400000D, .barwait 13), (0x2600000D, .barsync 13),
    (0x212C002D, .barexp .eng 13 300), (0x2F2C000E, .grow 300 14), (0x30000009, .shrink 9), (0x332C8001, .setix 300 0x8001)] = true := by decide
/-- Words of class VEC, put together from the fields of 03 Table 3-5. -/
theorem test_decode_vec_1 : decodesAll .vec [
    (0x00852B7A, .vadd none .n16x2 .vd 33 18 (.sc 45)), (0x01852B76, .vsub none .i16x2 .vd 33 18 (.sc 45)),
    (0x02852B66, .vmul none .f16x2 .vd 33 18 (.sc 45)), (0x03852B6A, .vfma none .bf16x2 .vd 33 18 (.sc 45)),
    (0x04852B72, .vmin none .n32 .vd 33 18 (.sc 45)), (0x05852B62, .vmax none .f32 .vd 33 18 (.sc 45)),
    (0x0C852B7E, .vshl none .b32 .vd 33 18 (.sc 45)), (0x0D852B6E, .vshr none .i32 .vd 33 18 (.sc 45)),
    (0x0E852B76, .vsra none .i16x2 .vd 33 18 (.sc 45)), (0x0F852B72, .vmulhi none .n32 .vd 33 18 (.sc 45)),
    (0x21852B72, .vdot4 none .n32 .vd 33 18 (.sc 45)), (0x24852B6A, .vpack none .bf16x2 .vd 33 18 (.sc 45)),
    (0x06852017, .vabs none .i16x2 .both 33 18)] = true := by decide
/-- Words of class VEC, put together from the fields of 03 Table 3-5. -/
theorem test_decode_vec_2 : decodesAll .vec [
    (0x07852007, .vneg none .f16x2 .both 33 18), (0x08852B5D, .vand none .va 33 18 (.reg 45)), (0x09852B5D, .vor none .va 33 18 (.reg 45)),
    (0x0A852B5D, .vxor none .va 33 18 (.reg 45)), (0x0B85201C, .vnot none .none 33 18), (0x10152B7B, .vcmp none .n16x2 .le 5 18 (.sc 45)),
    (0x11852B76, .vsel none 5 .vd 33 18 (.sc 45)), (0x12840B7E, .vmov none .vd 33 (.sc 45)), (0x1385279E, .vbcast none .w8 33 18 30),
    (0x1484000E, .vidx none .vd 33), (0x15852A1A, .vcvt none .f32f8 true 6 .vd 33 18), (0x1685201A, .vqcvt none 6 .vd 33 18),
    (0x17852046, .vsfu none .rsq .f16x2 .vd 33 18)] = true := by decide
/-- Words of class VEC, put together from the fields of 03 Table 3-5. -/
theorem test_decode_vec_3 : decodesAll .vec [
    (0x18852B7F, .vshfl none .w4 33 18 (.sc 45)), (0x19852B7F, .vshflup none .w4 33 18 (.sc 45)), (0x1A852B7F, .vshfldn none .w4 33 18 (.sc 45)),
    (0x1B852B7F, .vshflx none .w4 33 18 (.sc 45)), (0x1C85205F, .vvote none .ballot .w16 33 18), (0x1D852092, .vred none .max .n32 .w8 33 18),
    (0x1E85235F, .vscan none .xor true .b32 .w4 33 18), (0x1F85201E, .vpopc none .vd 33 18), (0x2085201E, .vclz none .vd 33 18),
    (0x2285279D, .vtos none .va 33 18 30), (0x2385279E, .vins none .vd 33 18 30), (0x25852019, .vunpk none .n16x2 true 33 18)] = true := by decide
/-- Words of class MEM, put together from the fields of 03 R54. -/
theorem test_decode_mem : decodesAll .mem [
    (0x0249609D, .lds .b128 36 300 (.imm 29)), (0x0639611D, .sts .b8 35 300 (.vec 29)), (0x0A296260, .ldp .b64 34 300 .ix),
    (0x0E39633B, .stp .b16 35 300 (.wrap 6 3)), (0x12052CFD, .sld true .b64 258 300 29), (0x16052CFD, .sst true .b64 258 300 29),
    (0x1A396698, .atom .cas .spSys true 35 300), (0x1E052C52, .atoms .and .shTeam false 258 300), (0x22052C9D, .ldacq .spClus 258 300 29),
    (0x26052C9D, .strel .spClus 258 300 29)] = true := by decide
/-- Words of class MTX, put together from the fields of 03 R56. -/
theorem test_decode_mtx : decodesAll .mtx [
    (0x02F529B8, .mma 5 3 42 20 13 6), (0x06F529B8, .mmas 5 3 42 20 13 6), (0x0AE00000, .mzero 5 3), (0x0CB50000, .mmap (.acc 5) 42),
    (0x13400000, .mbin 13), (0x17400000, .mbwait 13), (0x1B7FFFF0, .mloop 13 0x3FFFF0), (0x1C3FFFF0, .mjmp 0x3FFFF0), (0x20000000, .mend),
    (0x2740ABCD, .mset (.k 13) 0xABCD), (0x2B400000, .mshare 13), (0x2EA00000, .mcpy 5 2)] = true := by decide
/-- Words of class ASY, put together from the fields of 03 R57. -/
theorem test_decode_asy : decodesAll .asy [
    (0x0251EC00, .cpy true true 296 (some 13)), (0x06516E04, .cpymc true 296 258 (some 13)), (0x0A500202, .cpyred false 296 257 none),
    (0x0E516C00, .gathPark 296 (some 13)), (0x0E506E02, .gathTol 296 257 (some 13)), (0x12510000, .scat true 296 none), (0x16040000, .resadd 258),
    (0x1A040000, .resdel 258), (0x22040000, .enq 258), (0x26040000, .qpost 258), (0x1E040202, .resq 257 258)] = true := by decide
/-- Words of class SYS, put together from the fields of 03 R58. -/
theorem test_decode_sys_1 : decodesAll .sys [
    (0x00000000, .modeM), (0x30000000, .snap), (0x34000000, .gbar), (0x040000D0, .modeV 13), (0x0A030208, .seal true 257 258),
    (0x0E030200, .vpin 257 258), (0x12050100, .vunpin 258 257), (0x16030200, .vwait 257 258), (0x18000001, .phacq .team), (0x1C000004, .phrel .sys),
    (0x20000003, .fence .dev), (0x240000A5, .trap 0xA5), (0x280000A5, .brk 0xA5)] = true := by decide
/-- Words of class SYS, put together from the fields of 03 R58. -/
theorem test_decode_sys_2 : decodesAll .sys [
    (0x2E040000, .tagset 258), (0x3A050100, .invrg 258 257)] = true := by decide

/-! Small states. -/

/-- One group, number 0 on core 0, all lanes in one fragment in the middle of a clause, its team's sequencer idle; it issues. -/
def lone : State := { hookState State.reset .ctl [] with agenda := [], issue := .frag 0 0 false 1 }
/-- The same with its group changed. -/
def withGroup (k : Group → Group) : State := modGroup lone 0 k
def withTeam (k : Team → Team) (s : State) : State := modTeam s 0 k
def withTask (k : Task → Task) (s : State) : State := modTask s 0 k
def withCmd (k : Command → Command) (s : State) : State := modCmd s 0 k
def withCore (k : Core → Core) (s : State) : State := modCore s 0 k
/-- Its sequencer has started and issues a word of an MTX clause. -/
def busySeq : Seq := { idleSeq with busy := true, cl := some (.mtx, 15) }
def withSeq (k : Seq → Seq) : State := { withTeam (fun t => { t with seq := some (k busySeq) }) lone with issue := .seq 0 false }
/-- An access entry that lets space 0 at all of die 0's scratchpad. -/
def spAll : Acc := { base := 0, limit := 0x6000000, mtype := 0, mid := 0, tkind := 0, r := true, w := true, x := true, valid := true }
def withSp (s : State) : State := { s with acc := [(0, spAll)] }
/-- A ladder whose head stands at HBM 0x10000. -/
def lad : Ladder :=
  { desc := List.replicate 16 0, key := locKey (.hbm 0x10000), pass := 0, q := 0xFFFFFFFF, l := false, someSeal := false, counter := 0,
    curd := some 0, choosing := false, ended := false, energy := 0, cutting := none, releasing := false, wants := false }
def withLadder (l : Ladder) (s : State) : State := withTask (fun k => { k with ladder := some l }) s
/-- An operation in flight. -/
def flying (id : Nat) (p : Path) (op : FOp) : Flight := { id := id, path := p, op := op, done := false }
def withOps (fs : List Flight) : State := withGroup fun g => { g with flight := fs }
/-- A counter that is full. -/
def full (p : Path) : State := withOps ((List.range 63).map fun i => flying i p (.sfu 0 [] 0))

/-- A fragment issues in this state, and its context has a property. -/
def seen (s : State) (p : Ctx → Bool) : Bool :=
  match issueOf s with
  | some c => p c
  | none => false
/-- The instruction answers a next state that has a property. -/
def after (i : Instr) (s : State) (p : State → Bool) : Bool :=
  match exec i s with
  | .next t => p t
  | _ => false
/-- Group 0 after it. -/
def groupAfter (i : Instr) (s : State) (p : Group → Bool) : Bool := after i s fun t => ((kvFind t.groups 0).map p).getD false
/-- What the command's end says after it. -/
def endAfter (i : Instr) (s : State) (n : Nat) : Bool := after i s fun t => ((kvFind t.cmds 0).bind (·.ending)).map (·.status) == some n

/-! Witnesses: states and operands that meet the premises of the statements, clause by clause. -/

theorem witness_a_word_issues : seen lone (fun c => c.gid == 0 && c.fid == 0 && c.f.lanes == 0xFFFFFFFF && c.g.alloc == 32) = true := by decide
theorem witness_shift_and_field_bounds : Instr.WellFormed (.sshli 0 0 31) ∧ ¬Instr.WellFormed (.sshli 0 0 32) ∧ Instr.WellFormed (.sbfx 0 0 17 14) ∧
    ¬Instr.WellFormed (.sbfx 0 0 18 14) := by decide
theorem witness_special_registers : (seen lone fun c => decide ((taskOf lone c.g).ladder = none)) = true ∧
    (seen (withLadder lad lone) fun c => ((taskOf (withLadder lad lone) c.g).ladder.map (·.curd)) == some (some 0)) = true := by decide
theorem witness_branch_taken_and_not : (seen (withGroup fun g => setS g 1 5) fun c => getS c.g 1 != 0 && getS c.g 2 == 0) = true := by decide
theorem witness_call_and_ret :
    (seen (withGroup fun g => { g with matrix := true }) fun c => c.g.matrix) = true ∧
    (seen (withGroup fun g => { g with dead := 1 }) fun c => decide (~~~c.g.dead ≠ c.f.lanes)) = true ∧
    (seen (withGroup fun g => { g with alloc := 256 }) fun c => decide (c.g.matrix = false ∧ ~~~c.g.dead = c.f.lanes ∧
      c.g.wb + 8 * 7 + window c.g ≤ c.g.lo + c.g.alloc ∧ c.g.link.length < 16 ∧ c.g.regTop ≤ c.g.linkBot ∧ c.g.link = [] ∧
      c.g.spillSize ≤ c.g.linkBot)) = true ∧
    (seen (withGroup fun g => { g with wb := 8, link := [(64, 1)] }) fun c => decide (c.g.link = [(64, 1)] ∧ c.g.lo ≤ c.g.wb - 8)) = true := by decide
/-- Outside matrix mode, 32 registers, a spill stack of 2 KiB at SP 0x1000 that is free. -/
def spilling (k : Group → Group) : State := withGroup fun g => k { g with spillBase := 0x1000, spillSize := 2048, linkBot := 2048 }
theorem witness_spill_and_fill :
    (seen (spilling id) fun c => decide (c.g.matrix = false ∧ ~~~c.g.dead = c.f.lanes ∧ c.g.lo + c.g.alloc < c.g.wb + 8 * 1 + window c.g ∧
      c.g.regTop + 1024 * 1 ≤ c.g.linkBot ∧ c.g.linkBot < c.g.regTop + 1024 * 7)) = true ∧
    (seen (spilling fun g => { g with link := List.replicate 16 (64, 1) }) fun c => decide (16 ≤ c.g.link.length ∧ c.g.link.getLast? = some (64, 1) ∧
      c.g.regTop + 1024 * 1 + 8 ≤ c.g.linkBot)) = true ∧
    (seen (spilling fun g => { g with link := [(64, 1)], wb := 8, lo := 8, regTop := 1024 }) fun c => decide (c.g.link = [(64, 1)] ∧ 8 * 1 ≤ c.g.wb ∧
      8 * ((c.g.lo - (c.g.wb - 8) + 7) / 8) ≤ c.g.lo ∧ 1024 * ((c.g.lo - (c.g.wb - 8) + 7) / 8) ≤ c.g.regTop)) = true ∧
    (seen (spilling fun g => { g with linkBot := 2040 }) fun c => decide (c.g.link = [] ∧ c.g.linkBot < c.g.spillSize ∧
      (wordOf (peekSp lone 0 (c.g.spillBase + c.g.linkBot + 4)) 0 0 0).toNat % 8 = 0)) = true := by decide
theorem witness_prefixes_and_strays :
    (let s := { hookState State.reset .vec (bytesOfWords [0x7F563C00, 0x03184140]) with agenda := [] }
     match fetchWord s 0 hookTask 0 0 (fetchReq (.grp 0) 4 0 0 0 0), fetchWord s 0 hookTask 0 4 (fetchReq (.grp 0) 4 0 0 0 4) with
      | .word a _, .word b _ => decide (a = 0x7F563C00 ∧ isPrefix a = true ∧ prefixBad 2 a = false ∧ prefixBad 1 a = true ∧ b = 0x03184140)
      | _, _ => false) = true ∧ prefixBad 15 0x7F563C01 = true ∧ strays { busySeq with jumped := true } 0xB2400000 = true ∧ strays busySeq 0xB2400000 = false ∧
    strays { busySeq with jumped := true } 0xB2A00000 = false ∧ (dueEvent (settle { lone with tick := 1 })).isNone = true := by decide +kernel
theorem witness_split_and_join :
    (seen lone fun c => decide (c.f.lanes &&& getM c.g 1 = 0 ∧ c.f.lanes &&& ~~~getM c.g 0 = 0 ∧ c.f.lanes &&& getM c.g 0 ≠ 0 ∧
      innermost c.f.lanes c.g.splits = none)) = true ∧
    (seen (withGroup fun g => setM g 1 0xFFFF) fun c => decide (c.f.lanes &&& getM c.g 1 ≠ 0 ∧ c.f.lanes &&& ~~~getM c.g 1 ≠ 0 ∧ c.g.splits = [] ∧
      (∀ x ∈ c.g.frags, x = c.f ∨ x.lanes &&& c.f.lanes = 0) ∧ c.f.cl = some (.ctl, 15) ∧ c.words < 15)) = true ∧
    (seen (withGroup fun g => { g with splits := [.entry 0xFFFFFFFF 0 64 none] }) fun c => decide (0 ||| c.f.lanes = 0xFFFFFFFF)) = true ∧
    (seen (modGroup lone 0 fun g => { g with splits := [.entry 0xFFFFFFFF 0 64 none], frags := [newFrag 0xFFFF 0 (some (.ctl, 15)) false none] })
      fun c => decide (0 ||| c.f.lanes ≠ 0xFFFFFFFF ∧ 0xFFFFFFFF &&& c.f.lanes ≠ 0)) = true := by decide
theorem witness_exit :
    (seen lone fun c => decide (c.g.matrix = false ∧ dueAt lone c.g = .nothing ∧ digested lone c.g = false)) = true ∧
    (let s := withGroup fun g => { g with fx := 1, fxen := 1 }
     seen s fun c => decide (pendingSeq s c.g = none ∧ c.g.fx &&& c.g.fxen ≠ 0)) = true ∧
    (kvFind lone.teams 0).bind (·.seq) = some idleSeq := by decide
theorem witness_barriers :
    (let s := withGroup fun g => setS (setS (setS g 1 2048) 2 (2 ^ 24)) 3 15
     seen s fun c => decide (dueAt s c.g = .nothing ∧ (getS c.g 1).toNat = 2048 ∧ (getS c.g 2).toNat = 2 ^ 24 ∧ (getS c.g 3).toNat = 15 ∧
      counter c.g .ld = 0 ∧ counter c.g .st = 0 ∧ digested s c.g = false)) = true ∧
    (let s := withGroup fun g => { g with fx := 1, fxen := 1 }
     seen s fun c => decide (pendingSeq s c.g = none ∧ c.g.fx &&& c.g.fxen ≠ 0 ∧ counter c.g .ld = 0 ∧ counter c.g .st = 0)) = true ∧
    (seen (withGroup fun g => setS (setS (setS g 1 2049) 2 (2 ^ 24 + 1)) 3 16) fun c => decide (2048 < (getS c.g 1).toNat ∧
      2 ^ 24 < (getS c.g 2).toNat ∧ 15 < (getS c.g 3).toNat)) = true := by decide
theorem witness_barwait_phases :
    (let s := withTeam (fun t => { t with bars := [(3, { noBar with expl := 32, phase := true })] }) (withGroup fun g => { g with apv := 8 })
     seen s fun c => decide (dueAt s c.g = .nothing ∧ c.g.apv.getLsbD 3 = true ∧ (barOf (teamOf s c.g) 3).phase ≠ c.g.ap.getLsbD 3 ∧
       c.g.apv.getLsbD 4 = false)) = true ∧
    (seen (withGroup fun g => { g with apv := 8 }) fun c => decide (c.g.apv.getLsbD 3 = true ∧
      (barOf (teamOf lone c.g) 3).phase = c.g.ap.getLsbD 3)) = true ∧
    (seen lone fun c => decide (let b := barOf (teamOf lone c.g) 3
      0 < b.expl ∧ b.expl < 4096 ∧ b.expb = 0 ∧ b.expe = 0 ∧ b.arrl + laneCount c.f.lanes = b.expl ∧ c.g.frags.any (waitsOn 3) = false ∧
      counter c.g .ld = 0 ∧ counter c.g .st = 0)) = true := by decide
theorem witness_barwait_loading :
    (let s := withTeam (fun t => { t with bars := [(3, { noBar with expl := 32, phase := true })] })
       (withGroup fun g => { g with apv := 8, flight := [flying 1 .ld (.sfu 0 [] 0)] })
     seen s fun c => decide (dueAt s c.g = .nothing ∧ c.g.apv.getLsbD 3 = true ∧ (barOf (teamOf s c.g) 3).phase ≠ c.g.ap.getLsbD 3 ∧
       counter c.g .ld ≠ 0)) = true := by decide
theorem witness_waitc : (seen (withOps [flying 1 .ld (.sfu 0 [] 0)]) fun c => decide ((getS c.g 1).toNat < counter c.g .ld ∧
    counter c.g .st ≤ (getS c.g 1).toNat)) = true := by decide
theorem witness_fork_and_rdzv :
    (seen (withGroup fun g => { g with idx := 1 }) fun c => decide (c.g.idx ≠ 0)) = true ∧
    (let s := withTeam (fun t => { t with seq := some busySeq }) lone
     seen s fun c => decide (pendingSeq s c.g = none ∧ (teamOf s c.g).seq = some busySeq ∧ busySeq.busy = true)) = true ∧
    (seen lone fun c => decide (c.g.idx = 0 ∧ pendingSeq lone c.g = none ∧ (teamOf lone c.g).seq = some idleSeq ∧ idleSeq.busy = false)) = true ∧
    (let s := withTeam (fun t => { t with seq := some { idleSeq with writes := [{ cells := [], flags := 1 }] } }) lone
     seen s fun c => decide (((teamOf s c.g).seq.map fun q => (q.busy, q.writes.length)) = some (false, 1))) = true := by
  decide
theorem witness_yield_grow_shrink :
    readyInactive lone 0 = [] ∧
    readyInactive { lone with groups := lone.groups ++ [(1, { hookGroup .ctl with active := false })] } 0 = [1] ∧
    (seen lone fun c => decide (256 < c.g.alloc + 16 * 15 ∧ c.g.alloc + 16 * 14 ≤ 256 ∧ Instr.WellFormed (.grow 0 14))) = true ∧
    (seen lone fun c => decide (c.g.matrix = false ∧ c.g.alloc < 16 * 1 + 32)) = true ∧
    (seen (withGroup fun g => { g with alloc := 48 }) fun c => decide (16 * 1 + 32 ≤ c.g.alloc ∧ counter c.g .ld = 0 ∧ counter c.g .sfu = 0 ∧
      c.g.wb + min 64 32 ≤ c.g.lo + 32 ∧ c.g.regTop ≤ c.g.linkBot)) = true ∧
    (seen (modGroup (withOps [flying 1 .ld (.sfu 0 [] 0)]) 0 fun g => { g with alloc := 48 }) fun c => decide (counter c.g .ld ≠ 0)) = true := by
  decide

/-- A group with two loads' worth of values: lane l of v0 holds l, of v1 the constant 3; s1 = 0x100, s2 = 7. -/
def filled : State := withGroup fun g =>
  setS (setS (setM ((List.range 32).foldl (fun h l => setV (setV h 0 l (BitVec.ofNat 32 l)) 1 l 3) g) 1 0xF) 1 0x100) 2 7
/-- A masked word of four lanes, the others zeroed. -/
def masked : Option Pfx := some { mask := 1, z := true, rnd := none, vc := none }

theorem witness_vector_words :
    (seen filled fun c => decide (NamesOk c.g ([vname c.g 2 (ixVd .none), vname c.g 0 (ixVa .none)] ++ vbNames (.reg 1)) ∧
      NamesOk c.g ([vname c.g 31 (ixVd .none)] ++ vbNames (.sc 63)) ∧ execLanes c.g c.f masked = 0xF ∧ zeroed c.g c.f masked 4)) = true ∧
    Instr.WellFormed (.vadd masked .n16x2 .none 2 0 (.reg 1)) ∧ Instr.WellFormed (.vabs none .i16x2 .none 2 0) ∧
    Instr.WellFormed (.vand masked .none 2 0 (.reg 1)) ∧ Instr.WellFormed (.vtos none .none 2 0 31) ∧ Instr.WellFormed (.vbcast none .w8 2 0 31) ∧
    typeFmt .f32 = some fp32 ∧ typeFmt .f16x2 = some fp16 ∧ typeFmt .bf16x2 = some bf16 ∧
    Instr.WellFormed (.vfma (some { mask := 0, z := false, rnd := some .rz, vc := some 3 }) .f32 .none 2 0 (.reg 1)) := by decide
theorem witness_rounding_quantum : (-3 : Int) < 0 := by decide
theorem witness_compare_shuffle_reduce :
    (seen filled fun c => decide (NamesOk c.g ([(0 : Int)] ++ vbNames (.reg 1)))) = true ∧
    Instr.WellFormed (.vcmp masked .i32 .lt 7 0 (.reg 1)) ∧ Instr.WellFormed (.vcmp none .f16x2 .le 0 0 (.reg 1)) ∧
    Instr.WellFormed (.vshfl none .w4 2 0 (.reg 1)) ∧ Instr.WellFormed (.vvote none .ballot .w32 2 0) ∧
    Instr.WellFormed (.vred none .xor .b32 .w16 2 0) ∧ Instr.WellFormed (.vscan none .max true .n32 .w8 2 0) := by decide
/-- Slot 0 of the launch record says FP8, slot 1 E2M1 with block scales, slot 2 nothing. -/
def slots : State := withTask (fun k => { k with lr := k.lr ++ List.replicate (24 - k.lr.length) 0 ++ [0x11, 0x13, 0] }) lone
theorem witness_conversions :
    (seen slots fun c => decide (slotF8 (lrWord (taskOf slots c.g) 24) = some e4m3 ∧ slotF8 (lrWord (taskOf slots c.g) 26) = none ∧
      slotElem (lrWord (taskOf slots c.g) 25) = some .e2m1 ∧ slotScaled (lrWord (taskOf slots c.g) 25) = true ∧
      slotElem (lrWord (taskOf slots c.g) 24) ≠ some .e2m1)) = true ∧
    Instr.WellFormed (.vcvt none .f32f8 true 7 .none 2 0) ∧ Instr.WellFormed (.vqcvt none 1 .none 2 0) ∧ Instr.WellFormed (.vpack none .f16x2 .none 2 0 (.reg 1)) ∧
    Instr.WellFormed (.vunpk none .n16x2 true 2 0) ∧ Instr.WellFormed (.vdot4 none .n32 .none 2 0 (.reg 1)) ∧
    (seen (full .sfu) fun c => decide (63 ≤ counter c.g .sfu)) = true ∧ Instr.WellFormed (.vsfu none .rcp .f32 .none 2 0) := by decide
/-- The scratchpad's window and team memory for direct accesses. -/
def reach : State := withSp (withTeam (fun t => { t with sh := 4096, shPages := [[0]] }) filled)
/-- A ladder task whose write set holds nothing of the scratchpad. -/
def sealed_ : State := withLadder lad reach
theorem witness_checks :
    (seen reach fun c => decide (directCheck reach c.g .sh [.read] 4 4 [2] = some .align ∧ directCheck reach c.g .sh [.read] 4 4 [4096] = some .bounds ∧
      directCheck reach c.g .sp [.write] 4 4 [0x6000000] = some .bounds ∧ directCheck reach c.g .sh [.write] 16 16 [4080] = none ∧
      directCheck reach c.g .sp [.read, .write] 4 4 [0x5FFFFFC] = none)) = true ∧
    (let s := { reach with acc := [(0, { spAll with w := false })] }
     seen s fun c => decide (directCheck s c.g .sp [.write] 4 4 [0] = some .perm)) = true ∧
    (seen sealed_ fun c => decide (directCheck sealed_ c.g .sp [.write] 4 4 [0] = some .writeset)) = true := by decide
theorem witness_loads_and_stores :
    (seen (full .ld) fun c => decide (63 ≤ counter c.g .ld)) = true ∧ (seen (full .st) fun c => decide (63 ≤ counter c.g .st)) = true ∧
    (seen reach fun c => decide (NamesOk c.g (accessNames .b32 2 (.imm 0)) ∧ wrapOk c.g (.imm 0) 4 = true ∧ wrapOk c.g (.wrap 0 0) 4 = false ∧
      (∀ a ∈ laneAddrs c (.imm 0) 1 .b32, a.2 % 4 = 0))) = true ∧
    (seen reach fun c => decide (directCheck reach c.g .sh [.read] 4 4 ((laneAddrs c (.imm 31) 1 .b32).map (·.2)) = none ∧
      directCheck reach c.g .sh [.read] 4 4 ((laneAddrs c (.vec 0) 2 .b32).map (·.2)) = some .align)) = true ∧
    (seen reach fun c => decide (counter c.g .ld < 63 ∧ counter c.g .st < 63 ∧ (debugOf reach (sidOf reach c.g)).enabled = false)) = true := by decide
theorem may_access_reach (c : Ctx) (h : issueOf reach = some c) (p : Path) (hp : p ≠ .sfu) :
    MayAccess reach c p .sp [.read, .write] 4 4 [0x100] := by
  cases h
  exact ⟨by cases p <;> decide, by decide, by decide⟩
theorem witness_releases_and_gates :
    (let s := modGroup reach 0 fun g => { g with flight := [flying 1 .st (.sfu 0 [] 0)] }
     seen s fun c => decide (pendingPaths c.g (relPaths (ssScope .spDev)) = true)) = true ∧
    (seen reach fun c => decide (pendingPaths c.g (relPaths (ssScope .spDev)) = false ∧ ssScope .shGrp = .grp ∧ ssScope .spSys ≠ .grp)) = true ∧
    Instr.WellFormed (.ldacq .spDev 2 1 0) ∧ Instr.WellFormed (.strel .shGrp 2 1 0) ∧ Instr.WellFormed (.sld true .b64 2 1 31) ∧
    Instr.WellFormed (.atom .cas .spSys true 61 1) ∧ ¬Instr.WellFormed (.atom .cas .spSys true 62 1) ∧ Instr.WellFormed (.atoms .add .shTeam false 511 1) := by
  decide

/-- Scalars from s16 on hold these words; the scratchpad is reachable. -/
def holding (ws : List Word) (s : State) : State := modGroup s 0 fun g => (List.range ws.length).foldl (fun h i => setS h (16 + i) (ws.getD i 0)) g
/-- A main-memory VA whose page is in the TLB, and one that is not. -/
def near : Word := 0x1000
def far : Word := 0x80000000
/-- Groups 0 to 63 of the team lend their registers: group q + 4n is on quadrant q. -/
def lent (n : Nat) (s : State) : State :=
  let gid (i : Nat) := 16 * (i % 4) + i / 4
  { s with
    teams := (withTeam (fun t => { t with groups := (List.range n).map gid }) s).teams
    groups := (List.range n).foldl (fun m i => kvPut m (gid i) { hookGroup .ctl with idx := i, matrix := true, alloc := 64 }) s.groups }
/-- Four groups are bound: slot 0 of each quadrant, and A and B holders. -/
def bound : Seq := { busySeq with acc := [(0, 0), (8, 1), (16, 2), (24, 3)], ahold := [(0, 0), (1, 1), (2, 2), (3, 3)], bhold := [(0, 0), (1, 1), (2, 2), (3, 3)] }
def lending : State := lent 4 (withSeq fun _ => bound)
def seqOf (s : State) (p : Team → Seq → Bool) : Bool := ((kvFind s.teams 0).bind fun t => t.seq.map (p t)).getD false

theorem witness_sequencer_words :
    seqOf (withSeq id) (fun t q => q.busy && q.writes == [] && q.run == none && decide (q.flags &&& teamEnabled (withSeq id) 0 t = 0) &&
      decide (t.groups.length ≤ 1) && decide ((barOf t 3).phase = q.sap.getLsbD 3)) = true ∧
    seqOf (withSeq fun q => { q with writes := [{ cells := [], flags := 0 }], sap := 8 }) (fun t q => q.writes != [] && (barOf t 3).phase != q.sap.getLsbD 3) = true ∧
    seqOf (withSeq fun q => { q with k := [(2, 1)] }) (fun _ q => kvGet 0 q.k 2 - 1 == 0) = true ∧
    (let s := modGroup (withSeq fun q => { q with flags := 1 }) 0 fun g => { g with fxen := 1 }
     seqOf s fun t q => q.run == none && decide (q.flags &&& teamEnabled s 0 t ≠ 0)) = true ∧
    (teamGroup (withSeq id) 0 (gidOf (hookTeam .ctl) 0)).map (·.exiting) = some false := by decide
theorem witness_matrix_steps :
    slotElem 0x11 ≠ none ∧ slotElem 0 = none ∧
    seqOf lending (fun t q => stepCheck lending 0 t q 0 1 0 0 == none && slotsBound lending 0 t q [0] && !slotsBound lending 0 t q [0, 1] &&
      stepCheck lending 0 t q 1 1 0 0 == some .mode) = true ∧
    (let s := lent 8 (withSeq fun _ => { bound with acc := bound.acc ++ [(1, 4), (9, 5), (17, 6), (25, 7)] })
     seqOf s fun t q => slotsBound s 0 t q [0, 1] && slotsBound s 0 t q [1, 1]) = true ∧
    Instr.WellFormed (.mma 0 1 0 0 15 7) ∧ Instr.WellFormed (.mmas 0 1 0 0 0 0) ∧ Instr.WellFormed (.mzero 0 1) ∧ Instr.WellFormed (.mcpy 0 0) := by decide

def SP : Word := 0x4000000
def SH : Word := 0x8000000
/-- Copies, 64 bytes: main memory to the scratchpad, scratchpad to SH, a misaligned one, one past SH. -/
def copyIn : State := holding [near, 0, 0x200, SP, 64, 64, 64, 0, 1, 0] reach
def copyMiss : State := holding [far, 0, 0x200, SP, 64, 64, 64, 0] reach
def copyOdd : State := holding [near + 2, 0, 0x200, SP, 64, 64, 64, 0] reach
def copyPast : State := holding [0x200, SP, 4096, SH, 64, 64, 64, 0] reach
/-- A copy to scale memories: its record at VA 0x1000 names one row of one block at VA 0x2000. -/
def copyScale : State :=
  writeBytes (holding [near, 0, 0, 0xC000000, 0, 0, 0, 0] reach) (fun i => .hbm (0x1000 + i)) (bytesOfWords [0x2000, 0, 0x10001, 0, 0, 0, 0, 0])
/-- A bulk command. -/
def aBulk : Bulk := {
  kind := .cpy, gid := 0, fl := 0, cmd := 0, core := 0, team := 0,
  sid := 0, rel := false, res := false, bar := none, desc := [], scale := [], x := 0, todo := [], fetched := [], lanes := [], after := [], late := false, checked := true }
def engineFullState : State := { copyIn with bulks := (List.range 64).map fun i => (i, aBulk) }

/-- The checks of a row copy pass, but for pages. -/
def copyPasses (s : State) (c : Ctx) : Bool :=
  let k := copyD (descOf c.g 16)
  decide (counter c.g .cpy < 63 ∧ engineLoad s 0 < 64 ∧ codeOf k.dst ≠ 3 ∧ copyMisaligned k = false ∧ copyOut s c.g k false = false) &&
    !rowsDenied s c.g (codeOf k.src) .read k.srcRows k.xb && !rowsDenied s c.g (codeOf k.dst) .write k.dstRows k.xb

theorem witness_copies_row :
    (seen copyIn fun c => copyPasses copyIn c && decide (
      let k := copyD (descOf c.g 16)
      let a := lookSide copyIn 0 0 (codeOf k.src) .read (keyOf k.src) k.srcRows k.xb
      a.1.perm = false ∧ a.1.tag = none ∧ a.1.miss = [] ∧ rowsForbidden a.2 c.g (codeOf k.dst) k.dstRows k.xb = false)) = true ∧
    (seen copyMiss fun c => copyPasses copyMiss c && decide (
      let k := copyD (descOf c.g 16)
      (lookSide copyMiss 0 0 (codeOf k.src) .read (keyOf k.src) k.srcRows k.xb).1.miss = [0x8000])) = true ∧
    (let s := withLadder lad copyIn
     seen s fun c => copyPasses s c && decide (let k := copyD (descOf c.g 16)
       rowsForbidden s c.g (codeOf k.dst) k.dstRows k.xb = true)) = true ∧
    (let s := withCore (fun x => { x with l1 := [{ hookTlb with pte := 0x1A }] }) copyIn
     seen s fun c => copyPasses s c && decide (let k := copyD (descOf c.g 16)
       (lookSide s 0 0 (codeOf k.src) .read (keyOf k.src) k.srcRows k.xb).1.perm = true)) = true := by decide
theorem witness_copies_refused :
    (seen copyOdd fun c => copyMisaligned (copyD (descOf c.g 16))) = true ∧
    (seen copyPast fun c => !copyMisaligned (copyD (descOf c.g 16)) && copyOut copyPast c.g (copyD (descOf c.g 16)) false) = true ∧
    (seen (full .cpy) fun c => decide (63 ≤ counter c.g .cpy)) = true ∧
    (seen engineFullState fun c => decide (counter c.g .cpy < 63 ∧ 64 ≤ engineLoad engineFullState 0)) = true := by decide
theorem witness_scale_copy : (seen copyScale fun c => decide (
    let ws := descOf c.g 16
    let k := copyD ws
    let r := lookRecord copyScale 0 0 k
    let w := wordsOf ((List.range 32).map fun i => ((r.1.at (vaOf k.src + i)).map (readByte r.2)).getD 0)
    let e := lookElements r.2 0 0 false (scaleD w)
    codeOf k.dst = 3 ∧ codeOf k.src = 0 ∧ addrOk false k.src = true ∧ addrOk false k.dst = true ∧ copyMisaligned k = false ∧ ws.drop 4 = [0, 0, 0, 0] ∧
      r.1.miss = [] ∧ r.1.perm = false ∧ r.1.tag = none ∧ r.1.reach r.2 = .yes ∧ watchHits r.2 0 0 [.read] [(vaOf k.src, 32)] = [] ∧ scaleOk w = true ∧ (∀ y ∈ (scaleD w).ranges, y.1 + y.2 ≤ 2 ^ 55) ∧
      e.1.perm = false ∧ e.1.tag = none)) = true := by
  decide +kernel
theorem witness_multicast :
    (seen copyIn fun c => decide (
      let k := copyD (descOf c.g 16)
      let slices (n : Nat) : List Int := k.dstRows.map fun y => y + (sliceBase n : Int)
      getPair c.g 24 = 1 ∧ getPair c.g 26 = 0 ∧ rowsOut copyIn c.g 1 (slices 0) k.xb = false ∧ rowsDenied copyIn c.g 1 .write (slices 0) k.xb = false ∧
      rowsForbidden copyIn c.g 1 (slices 0) k.xb = false ∧ codeOf k.src ≤ 1 ∧ codeOf k.dst = 1 ∧ addrOk false k.src = true ∧ addrOk false k.dst = true ∧
      0 < k.xb ∧ k.bytes ≤ 2 ^ 24 ∧ rowsOut copyIn c.g (codeOf k.src) k.srcRows k.xb = false ∧ (∀ y ∈ k.dstRows, 0 ≤ y ∧ y + k.xb ≤ 0x1800000))) = true ∧
    (seen copyIn fun c => decide ((clusterOf copyIn c.g).cores = [0])) = true := by decide
theorem witness_reduction : (let s := holding [0x200, SP, 0x400, SP, 64, 64, 64, 0, 2 ^ 12 + 5] reach
    seen s fun c => decide (
      let k := copyD (descOf c.g 16)
      let v := (getS c.g 24).toNat
      copyMisaligned k = false ∧ codeOf k.src = 1 ∧ codeOf k.dst = 1 ∧ homeOf (vaOf k.dst) ∈ (clusterOf s c.g).cores ∧
      addrOk (spanning (teamOf s c.g)) k.src = true ∧ addrOk false k.dst = true ∧ 0 < k.xb ∧ k.bytes ≤ 2 ^ 24 ∧
      rowsOut s c.g (codeOf k.src) k.srcRows k.xb = false ∧ rowsOut s c.g 1 k.dstRows k.xb = false ∧ v < 2 ^ 19 ∧ 1 ≤ v / 2 ^ 12 ∧ v / 2 ^ 12 ≤ 64 ∧
      rowsDenied s c.g (codeOf k.src) .read k.srcRows k.xb = false ∧ rowsDenied s c.g 1 .write k.dstRows k.xb = false ∧
      rowsForbidden s c.g 1 k.dstRows k.xb = false)) = true := by decide

/-- Four lanes of a gather or scatter: rows of 16 bytes at SH 0, VAs in v4 and v5, lane 1's page not in the TLB. -/
def lanesIn (hi : Word) : State :=
  modGroup (holding [0, SH, 16, 4, 16, 3, 0, 0] reach) 0 fun g => setV (setV (setV g 4 0 near) 4 1 near) 5 1 hi
theorem witness_gathers :
    (seen (lanesIn 0) fun c => decide (
      let s := lanesIn 0
      let ws := descOf c.g 16
      let r := lookLanes 0 0 .read (rowBytes ws) (movesOf c ws) s
      let w := lookLanes 0 0 .write (rowBytes ws) (movesOf c ws) s
      movesOf c ws ≠ [] ∧ laneChecks s c ws .write = none ∧ laneChecks s c ws .read = none ∧ (∀ e ∈ r.1, e.2.perm = false ∧ e.2.tag = none ∧ e.2.miss = []) ∧
      (∀ e ∈ w.1, e.2.perm = false ∧ e.2.tag = none) ∧ rowsAtForbidden c ws r.2 = false ∧
      rowsForbidden w.2 c.g 0 ((movesOf c ws).map fun m => ((vaOf m.va.toNat : Nat) : Int)) (rowBytes ws) = false)) = true ∧
    (seen (lanesIn 1) fun c => decide (
      let ws := descOf c.g 16
      let r := lookLanes 0 0 .read (rowBytes ws) (movesOf c ws) (lanesIn 1)
      r.1.map (fun e => e.2.miss.isEmpty) = [true, false] ∧ (∀ e ∈ r.1, e.2.perm = false ∧ e.2.tag = none))) = true ∧
    (seen (holding [0, SH, 16, 4, 16, 0, 0, 0] reach) fun c => decide (movesOf c (descOf c.g 16) = [] ∧
      laneChecks (holding [0, SH, 16, 4, 16, 0, 0, 0] reach) c (descOf c.g 16) .write = none)) = true ∧
    (seen (holding [0, SH, 18, 4, 16, 3, 0, 0] reach) fun c => decide (laneChecks reach c (descOf c.g 16) .write = some .align ∧
      laneChecks reach c (descOf c.g 16) .read = some .align)) = true ∧
    (seen (full .gth) fun c => decide (63 ≤ counter c.g .gth)) = true := by decide

/-- A range of 256 bytes at VA 0x1000 and a copy of it at SP 0x200. -/
def resident : State := holding [near, 0, 1, 0x200] reach
theorem witness_residency :
    (seen resident fun c => decide (
      let va := (getPair c.g 16).toNat
      let n := (getS c.g 18).toNat
      let a := (getS c.g 19).toNat
      va % 256 = 0 ∧ va < 2 ^ 55 ∧ 0 < n ∧ n ≤ 65536 ∧ a % 256 = 0 ∧ inWindow resident 0 a (256 * n) = true ∧
      homeOf a = homeOf (a + 256 * n - 1) ∧ spGrants resident 0 a (256 * n) .read = true ∧ (coreOf resident (homeOf a)).res = [] ∧ sidOf resident c.g = 0)) = true ∧
    (seen (holding [0x1080, 0, 1, 0x200] reach) fun c => decide ((getPair c.g 16).toNat % 256 ≠ 0 ∧ (getPair c.g 16).toNat % 4 = 0)) = true ∧
    (([(3, ⟨0, 0x1000, 1, 0x200⟩)] : Kv Res).find? fun z => z.2.sid == 0 && z.2.va == 0x1000) = some (3, ⟨0, 0x1000, 1, 0x200⟩) := by decide
theorem find_listed (l : List Nat) (f : Nat → Res) (i : Nat) (h : i ∈ l) : kvFind (l.map fun j => (j, f j)) i = some (f i) := by
  induction l with
  | nil => cases h
  | cons a r ih =>
    by_cases e : i = a
    · simp [kvFind, e]
    · simp only [List.mem_cons, e, false_or] at h
      simpa [kvFind, e] using ih h
/-- A table of 1024 entries has no free index. -/
theorem witness_residency_full (i : Nat) (h : i < 1024) : kvFind ((List.range 1024).map fun j => (j, (⟨0, 256 * j, 1, 0⟩ : Res))) i ≠ none := by
  rw [find_listed _ (fun j => ⟨0, 256 * j, 1, 0⟩) _ (by simpa using h)]
  exact nofun

/-- Queue 1: four slots in the scratchpad at 0x1000. -/
def aQueue : Queue := {
  ring := 0x400000000001000, logn := 2, prio := 0, sid := 0, priv := false, saveVA := 0, saveBytes := 0, widx := 0, ridx := 0, door := false, held := none,
  opened := [], wait := none, destroying := none, log := none }
def withQueue (q : Queue) (s : State) : State := { s with queues := [(1, q)], acc := [(0, spAll), (1, { spAll with tkind := 2, limit := 4096 })] }
/-- A control block at SP 0x400; a packet image at SP 0x400 for queue 1. -/
def block : State := holding [0x400, SP] reach
def post : State := holding [1, 0, 0x400, 0] (withQueue aQueue reach)
set_option maxRecDepth 4000 in
theorem witness_enq :
    (seen block fun c => decide (
      let v := (getPair c.g 16).toNat
      pendingPaths c.g (relPaths .sys) = false ∧ vaOf v % 128 = 0 ∧ mainOrSp v = true ∧ codeOf v = 1 ∧ inWindow block 0 (vaOf v) 128 = true ∧
      (cmdOf block c.g).spawn < 2 ^ 24 - 1 ∧ sidOf block c.g = 0)) = true ∧
    (match hubAt block 0 .read 0x400000000000400 128, hubAt block 0 .write 0x400000000000400 128 with
      | .at_ ls, .at_ ls2 => ls == ls2 && ls.length == 128 && !tcbBad (wordsOf (readLocs block ls))
      | _, _ => false) = true := by decide
set_option maxRecDepth 4000 in
theorem witness_enq_refused :
    (let s := writeBytes block (fun i => .sp (0x400 + i)) (bytesOf 0x00100001)
     match hubAt s 0 .read 0x400000000000400 128 with
      | .at_ ls => tcbBad (wordsOf (readLocs s ls))
      | _ => false) = true ∧
    (seen (holding [0x440, SP] reach) fun c => decide (vaOf (getPair c.g 16).toNat % 128 ≠ 0)) = true ∧
    (seen (holding [0x400, SH] reach) fun c => decide (vaOf (getPair c.g 16).toNat % 128 = 0 ∧ mainOrSp (getPair c.g 16).toNat = false)) = true ∧
    (seen (withOps [flying 1 .cpy (.sfu 0 [] 0)]) fun c => pendingPaths c.g (relPaths .sys)) = true ∧
    (let s := withCmd (fun c => { c with spawn := 2 ^ 24 - 1 }) block
     seen s fun c => decide (2 ^ 24 - 1 ≤ (cmdOf s c.g).spawn ∧ pendingPaths c.g (relPaths .sys) = false)) = true := by decide
theorem witness_qpost :
    (seen post fun c => decide (
      let a := (getS c.g 18).toNat
      pendingPaths c.g (relPaths .sys) = false ∧ a % 64 = 0 ∧ (getS c.g 16).toNat < 2 ^ 17 ∧ getS c.g 17 = 0 ∧ inWindow post 0 a 64 = true ∧
      spGrants post 0 a 64 .read = true ∧ admitted post (.ctx 0) 2 1 1 .write = true)) = true ∧
    (match hubAt post 0 .write (slotAddr aQueue 0) 64 with
      | .at_ ls => ls.length == 64
      | _ => false) = true ∧ (claim post 1).1 = some 0 ∧
    (claim (withQueue { aQueue with widx := 4 } reach) 1).1 = none ∧ (claim (withQueue { aQueue with destroying := some 0 } reach) 1).1 = none ∧
    (claim { withQueue aQueue reach with power := { reach.power with shutdown := true } } 1).1 = none ∧
    (seen post fun c => admitted post (.ctx 0) 0 (getS c.g 18).toNat 64 .read) = true ∧ kvFind reach.queues 1 = none ∧
    (seen (holding [1, 0, 0x400, 0] reach) fun c => decide (admitted reach (.ctx 0) 2 1 1 .write = false ∧ getS c.g 17 = 0)) = true ∧
    (seen (holding [1, 1, 0x400, 0] reach) fun c => decide (getS c.g 17 ≠ 0)) = true ∧
    (seen (holding [1, 0, 0x420, 0] reach) fun c => decide ((getS c.g 18).toNat % 64 ≠ 0)) = true := by decide

/-- A group that can lend its registers, and one that has. -/
def lender (m : Bool) : State := withGroup fun g => { g with alloc := 64, matrix := m }
theorem witness_modes :
    (seen (lender false) fun c => decide (c.g.matrix = false ∧ (teamOf (lender false) c.g).seq ≠ none ∧ c.f.lanes = 0xFFFFFFFF ∧ 64 ≤ c.g.alloc ∧
      counter c.g .ld = 0 ∧ counter c.g .sfu = 0)) = true ∧
    (seen (lender true) fun c => decide (c.g.matrix = true ∧ c.f.lanes = ~~~c.g.dead ∧ counter c.g .ld = 0 ∧ counter c.g .st = 0 ∧
      dueAt (lender true) c.g = .nothing ∧ digested (lender true) c.g = false)) = true ∧
    (seen (withGroup fun g => { g with alloc := 48 }) fun c => decide (c.g.alloc < 64)) = true ∧
    (seen (full .sfu) fun c => decide (counter c.g .sfu ≠ 0)) = true ∧ (seen (full .st) fun c => decide (counter c.g .st ≠ 0)) = true := by decide
/-- The lent group arrives at barrier 3, which its team expects some lanes of. -/
def arriving (l : Nat) : State := withTeam (fun t => { t with bars := [(3, { noBar with expl := l })] }) (lender true)
theorem witness_mode_arrivals :
    ([(32, true), (64, false), (0, true)].all fun e => seen (arriving e.1) fun c => decide (c.g.matrix = true ∧ c.f.lanes = ~~~c.g.dead ∧
      counter c.g .ld = 0 ∧ counter c.g .st = 0 ∧ dueAt (arriving e.1) c.g = .nothing ∧ digested (arriving e.1) c.g = false ∧
      (∀ f ∈ c.g.frags, waitsOn 3 f = false) ∧ kvFind (arriving e.1).teams c.g.team = some (teamOf (arriving e.1) c.g) ∧
      (let b := barOf (teamOf (arriving e.1) c.g) 3
       ((barCheck { b with arrl := min 4095 (b.arrl + laneCount c.f.lanes) }).2.phase != b.phase) = e.2))) = true ∧
    (let s := modGroup (lender true) 0 fun g => { g with fx := 1, fxen := 1 }
     seen s fun c => decide (pendingSeq s c.g = none ∧ c.g.fx &&& c.g.fxen ≠ 0 ∧ c.f.lanes = ~~~c.g.dead)) = true ∧
    (kvFind (lender true).groups 0).bind (fun g => findFrag g 0) ≠ none := by decide

/-- A vat head at SP 0x800, with or without an image of quality 5 published. -/
def headIn (w0 q : Word) (s : State) : State := writeBytes (holding [0x800, SP, 5, 1] s) (fun i => .sp (0x800 + i)) (bytesOfWords [w0, 1, q])
def pinned (n : Nat) (s : State) : State := { s with vats := [(locKey (.sp 0x800), { noVat with pins := [(1, n)] })] }
theorem witness_seal :
    (let s := withLadder lad filled
     seen s fun c => decide ((taskOf s c.g).ladder = some lad ∧ lad.ended = false ∧ pendingPaths c.g [.ld, .st, .cpy, .gth] = false ∧
       dueAt s c.g = .nothing ∧ digested s c.g = false)) = true ∧
    (let s := withLadder { lad with ended := true } lone
     seen s fun c => ((taskOf s c.g).ladder.map (·.ended)) == some true) = true ∧
    (let s := withLadder lad (full .gth)
     seen s fun c => pendingPaths c.g [.ld, .st, .cpy, .gth]) = true := by decide
set_option maxRecDepth 4000 in
theorem witness_heads :
    (seen (headIn 0x5EA1 5 reach) fun c =>
      let s := headIn 0x5EA1 5 reach
      match headAt s c (getPair c.g 16).toNat with
      | .at_ key s1 => decide (key = locKey (.sp 0x800) ∧ counter c.g .ld < 63 ∧ pinCount s1 key 1 = 0 ∧ vatRoom s1 = true ∧ headEnded s1 key = false ∧
          headMagic s1 key = true ∧ newSeq s1 key ≠ 0 ∧ (getS c.g 18).toNat ≤ (newQual s1 key).toNat)
      | _ => false) = true ∧
    (let s := pinned 1 (headIn 0x105EA1 4 reach)
     decide (pinCount s (locKey (.sp 0x800)) 1 ≠ 0 ∧ headEnded s (locKey (.sp 0x800)) = true)) = true ∧
    (let s := headIn 0x5EA1 4 reach
     decide (headEnded s (locKey (.sp 0x800)) = false ∧ (newQual s (locKey (.sp 0x800))).toNat < 5)) = true ∧
    (let s := { headIn 0x5EA1 4 reach with vats := (List.range 256).map fun i => (i, noVat) }
     vatRoom s = false) ∧
    (seen (holding [0x810, SP] reach) fun c => match headAt reach c (getPair c.g 16).toNat with
      | .bad x => x == .bounds
      | _ => false) = true := by decide

theorem witness_phases :
    (seen lone fun c => decide ((∀ p ∈ [Path.ld, .st, .cpy, .gth], counter c.g p = 0) ∧ dueAt lone c.g = .nothing)) = true ∧
    (let s := withGroup fun g => { g with fx := 2, fxen := 2 }
     seen s fun c => decide (pendingSeq s c.g = none ∧ c.g.fx &&& c.g.fxen ≠ 0 ∧ counter c.g .ld = 0)) = true ∧
    (seen (full .ld) fun c => decide (counter c.g .ld ≠ 0)) = true ∧
    (let s := withCore (fun x => { x with pend := [(0x200, { val := 7, writers := [0], loaded := false, task := 0 })] }) reach
     decide ((kvFind (coreOf s 0).pend 0x200).map (·.val) = some 7 ∧ kvFind (coreOf s 0).pend 0x201 = none ∧ ∀ x ∈ (coreOf s 0).pend, x.1 < 2 ^ 31)) = true ∧
    locKey (.hbm 0) < 2 ^ 44 ∧ 2 ^ 45 ≤ locKey (.host 0) ∧
    (let s := withCore (fun x => { x with pend := [(0x200, { val := 7, writers := [0], loaded := true, task := 0 })] }) reach
     (kvFind (coreOf s 0).pend 0x200).map (fun e => (e.writers, e.loaded)) = some ([0], true) ∧ (kvFind s.groups 0).isSome = true ∧
       (∀ x ∈ s.spHist, x.2.2 ≤ s.pubs) ∧ homeOf 0x200 = 0) := by decide

/-- Its task has a trap handler at code address 0x400. -/
def handled : State := withTask (fun k => { k with lr := k.lr.set 10 0x400 }) lone
def debugging (s : State) : State := { s with debug := [(0, { enabled := true, watch := [], hist := [], tagRec := none })] }
theorem witness_traps :
    (seen handled fun c => decide (handlerOf (taskOf handled c.g) = some 0x400 ∧ c.f.lanes ≠ 0 ∧ c.f.lanes &&& c.g.dead = 0)) = true ∧
    (seen lone fun c => decide (handlerOf (taskOf lone c.g) = none ∧ ((kvFind lone.cmds (taskOf lone c.g).cmd).map (·.ending)) = some none ∧
      (debugOf lone (sidOf lone c.g)).enabled = false)) = true ∧
    (seen (debugging lone) fun c => decide ((debugOf (debugging lone) (sidOf (debugging lone) c.g)).enabled = true ∧ c.f.passed.contains 8 = false)) = true ∧
    (let s := debugging (modGroup lone 0 fun g => modFrag g 0 fun f => { f with passed := [8] })
     seen s fun c => c.f.passed.contains 8) = true := by decide
/-- Pages of main memory that keep tags. -/
def tagged : State := withCore (fun x => { x with l1 := [{ hookTlb with pte := BitVec.ofNat 64 (0x101F) }] }) (holding [near, 0x30000000, 2] reach)
theorem witness_system_words :
    (seen tagged fun c => decide (
      let v := (getPair c.g 16).toNat
      let r := lockPages 0 0 (pagesOf (vaOf v) 64) ({ miss := [], bad := false, pages := [] }, tagged)
      counter c.g .st < 63 ∧ vaOf v % 32 = 0 ∧ v / 2 ^ 55 % 32 = 0 ∧ (getS c.g 18).toNat = 2 ∧ r.1.bad = false ∧ r.1.miss = [] ∧ mayWriteVa r.2 c.g (vaOf v) 64 = true)) = true ∧
    (lockPages 0 0 [0] ({ miss := [], bad := false, pages := [] }, reach)).1.bad = true ∧
    (lockPages 0 0 [0x8000] ({ miss := [], bad := false, pages := [] }, reach)).1.miss = [0x8000] ∧
    (seen (holding [near + 16, 0, 2] reach) fun c => decide (vaOf (getPair c.g 16).toNat % 32 ≠ 0)) = true ∧
    (seen (holding [near, 0, 0] reach) fun c => decide ((getS c.g 18).toNat % 2 ^ 17 = 0)) = true ∧
    (seen lone fun c => decide (coopOf (taskOf lone c.g) = false)) = true ∧
    (let s := withTask (fun k => { k with lr := k.lr.set 5 0x04000001 }) lone
     seen s fun c => decide (coopOf (taskOf s c.g) = true ∧ dueAt s c.g = .nothing ∧ digested s c.g = false ∧ pendingPaths c.g [.ld, .st, .cpy, .gth] = false)) = true := by
  decide
/-- The grid is cooperative; the group arrives at its barrier, alone or with another that has not. -/
def cooperative (s : State) : State := withTask (fun k => { k with lr := k.lr.set 5 0x04000001 }) s
theorem witness_grid_barrier :
    (seen (cooperative lone) fun c =>
      let v := endWord .gbar c (gbarEff (cooperative lone) c)
      decide (c.f.lanes ≠ 0 ∧ ((groupsOfTask v 0).all fun e => e.2.exiting || (~~~e.2.dead &&& ~~~e.2.gbarred == 0)) = true ∧
        (kvFind v.tasks 0).isSome = true ∧ v.power.stagW = 4 ∧ (clusterOf v c.g).idx / 4 = 0)) = true ∧
    (let s := cooperative { lone with groups := lone.groups ++ [(1, hookGroup .ctl)] }
     seen s fun c => !((groupsOfTask (endWord .gbar c (gbarEff s c)) 0).all fun e => e.2.exiting || (~~~e.2.dead &&& ~~~e.2.gbarred == 0))) = true ∧
    (let s := cooperative (full .st)
     seen s fun c => coopOf (taskOf s c.g) && pendingPaths c.g [.ld, .st, .cpy, .gth]) = true ∧
    (let s := modGroup tagged 0 fun g => setS g 18 65537
     seen s fun c => decide (65536 < (getS c.g 18).toNat)) = true ∧
    (let s := withLadder lad tagged
     seen s fun c => decide (
      let r := lockPages 0 0 (pagesOf 0x1000 64) ({ miss := [], bad := false, pages := [] }, s)
      r.1.bad = false ∧ mayWriteVa r.2 c.g 0x1000 64 = false)) = true := by decide +kernel
theorem witness_invalidations :
    (seen (holding [0, 0, 0x10000, 0, 4095] lone) fun c => decide (
      let start := (getPair c.g 16).toNat
      let stop := (getPair c.g 18).toNat
      (cmdOf lone c.g).priv = true ∧ lone.invs.length < 16 ∧ start % 2 ^ 16 = 0 ∧ stop % 2 ^ 16 = 0 ∧ start < stop ∧ stop ≤ 2 ^ 55 ∧ stop / 2 ^ 55 = 0 ∧
      (getS c.g 20).toNat < 2 ^ 12)) = true ∧
    (seen (holding [0, 0, 0, 0, 0] lone) fun c => decide (¬ (getPair c.g 16).toNat < (getPair c.g 18).toNat)) = true ∧
    (let s := withCmd (fun c => { c with priv := false }) lone
     seen s fun c => !(cmdOf s c.g).priv) = true ∧
    ((List.range 16).map fun i => ({ n := BitVec.ofNat 32 i, sid := 0, start := 0, stop := 0, performed := false, waits := [], ops := [] } : Inval)).length = 16 := by decide

theorem witness_headers :
    isHeader 0xB2400000 = true ∧ (decodeHeader 0xB2400000).toOption.map (·.cls) = some .ctl ∧ (match decodeHeader 0xB0400000 with | .error e => e == .countZero | .ok _ => false) = true ∧
    (decodeHeader 0xB2A00000).toOption.map (·.cls) = some .mtx ∧
    (decodeHeader 0xB2009800).toOption.map (·.wb) = some (some 3) ∧ (decodeHeader 0xB2018000).toOption.map (fun h => (h.waitp, h.wb)) = some (1, some 0) ∧
    (decodeHeader 0xB2000401).toOption.map (fun h => (h.stop, h.ord)) = some (true, 1) ∧
    (seen lone fun c => decide ((clusterOf lone c.g).stop = .none ∧ (clusterOf lone c.g).pre = .none)) = true ∧
    (let s := { lone with clusters := [(0, { noCluster with cores := [0], teams := [0], pre := .asked })] }
     seen s fun c => decide ((clusterOf s c.g).pre = .asked)) = true ∧
    seqOf (withSeq id) (fun t q => q.run == none && decide ((barOf t 3).phase = q.sap.getLsbD 3)) = true ∧
    seqOf (withSeq fun q => { q with sap := 8 }) (fun t q => decide ((barOf t 3).phase ≠ q.sap.getLsbD 3)) = true := by decide
/-- A header's barrier wait ends at once, its loads done or not, or goes on. -/
theorem witness_header_waits :
    ([(true, []), (true, [flying 1 .ld (.sfu 0 [] 0)]), (false, [])].all fun e =>
      let s := withTeam (fun t => { t with bars := [(3, { noBar with expl := 32, phase := e.1 })] }) (withGroup fun g => { g with apv := 8, flight := e.2 })
      seen s fun c => decide ((barWaitNow (barOf (teamOf s c.g) 3) 3 c.g).1 = e.1 ∧ (∀ x ∈ c.g.frags, acqOf x = none) ∧
        decide (counter c.g .ld = 0) = e.2.isEmpty ∧ (clusterOf s c.g).stop = .none ∧ (clusterOf s c.g).pre = .none)) = true ∧
    (let s := { lone with clusters := [(0, { noCluster with cores := [0], teams := [0], stop := .asked 5 16 false })] }
     seen s fun c => decide ((clusterOf s c.g).stop ≠ .none)) = true := by decide

/-! Witnesses for the events. -/

/-- Group 0 has one operation in flight; an issued word is not wanted. -/
def inFlight (p : Path) (op : FOp) : State := { modGroup reach 0 (fun g => { g with flight := [flying 7 p op] }) with issue := .none }
def opCan (s : State) (p : FOp → Bool) : Bool := match findOp s 0 7 with
  | some (g, f) => opFree s g f && !digested s g && p f.op
  | none => false
theorem witness_completions :
    opCan (inFlight .ld (.sload false .b32 [(4, 8), (5, 12)])) (fun _ => true) = true ∧ opCan (inFlight .ld (.sload true .b32 [(4, 0x100)])) (fun _ => true) = true ∧
    opCan (inFlight .ld (.vload true .b32 4 [(0, 0x100), (127, 0x11C)])) (fun op => match op with
      | .vload _ _ _ as => decide ((as.map (·.1)).Nodup)
      | _ => false) = true ∧
    opCan (inFlight .ld (.acq .spDev 3 0x100)) (fun _ => true) = true ∧ opCan (inFlight .ld (.resq 3 0x1000 4)) (fun _ => true) = true ∧
    opCan (inFlight .ld (.pin 4 0 9)) (fun _ => true) = true ∧ opCan (inFlight .ld (.atomic .add .shTeam true false 4 [] [(0, 5)] [] 0)) (fun _ => true) = true ∧
    opCan (inFlight .ld (.atomic .add .shTeam true true 4 [] [(0, 5), (31, 6)] [] 0)) (fun _ => true) = true ∧
    opCan (inFlight .sfu (.sfu 4 [(0, 5)] 1)) (fun _ => true) = true := by decide
theorem witness_performances :
    opCan (inFlight .st (.store false [(0, 1), (0, 2)])) (fun _ => true) = true ∧ opCan (inFlight .st (.store true [(0x100, 1)])) (fun _ => true) = true ∧
    opCan (inFlight .st (.rel .shTeam 8 5)) (fun _ => true) = true ∧
    opCan (inFlight .st (.locks 0x1000 2 3 [(0, 0x5000)])) (fun _ => true) = true ∧
    locksKnown 0x1000 2 [(0, 0x5000)] = true ∧ locksKnown 0xFFE0 2 [(0, 0x5000)] = false ∧ lockPlaces 0x1000 2 [(0, 0x50000)] = [0x2880, 0x2881] ∧
    opCan (inFlight .st (.atomic .cas .spDev false true 4 [(3, 0x100, 1, 2), (5, 0x104, 1, 2)] [] [] 0)) (fun op => match op with
      | .atomic _ _ _ _ _ ls _ _ _ => laneDue ls 3 == some (0x100, 1, 2)
      | _ => false) = true ∧ coreFrozen reach 0 = false ∧ coreFrozen reach (homeOf 0x100) = false := by decide
/-- A part of a load that comes after one at its address takes what that one read (18 R336); a cut abandons a `tagset` (12 R241); an atomic of a
consumer that would read the failing word is not performed, another one is (11 R215, 16 R302). -/
theorem test_parts_and_abandoned_operations :
    (let s := modGroup (inFlight .ld (.sload false .b32 [(5, 8)])) 0 fun g => { g with flight := g.flight.map fun f => { f with reads := [(8, 77)] } }
     match exec (.loadComplete 0 7) s with
      | .next t => ((kvFind t.groups 0).map fun g => getS g 5) == some 77
      | _ => false) = true ∧
    (let l : Ladder := { lad with cutting := some false }
     let s := withLadder l (inFlight .st (.locks 0x1000 2 3 [(0, 0x5000)]))
     opCan s (fun _ => true) && decide ((kvFind s.tasks 0).bind (·.ladder) = some l) && !storeReady s 0 7) = true ∧
    (let s := inFlight .ld (.atomic .add .shTeam true false 4 [(0, 8, 1, 0)] [] [] 0)
     let ended (a : Nat) := (kvFind (dropLoads s 0 a).groups 0).map fun g => g.flight.all (·.done)
     ended 8 = some true ∧ ended 12 = some false ∧ (∀ d ∈ [0, 1, 2, 3], reqsOf (dieOf s d) = []) ∧
       ((kvFind s.groups 0).map fun g => decide ((g.flight.map (·.id)).Nodup)) = some true) := by decide

/-- The reply of a load that comes while its core is frozen is held, and comes at the thaw, before a step (15 R273). -/
theorem test_skid_buffer :
    (let s := inFlight .ld (.sload true .b32 [(4, sliceBase 1)])
     let z := { s with clusters := s.clusters.map fun c => (c.1, { c.2 with frozen := true }) }
     let h := arriveHeld z 0 (.loadComplete 0 7)
     heldBack z 0 (.loadComplete 0 7) && decide ((coreOf h 0).skid = [.loadComplete 0 7]) && decide ((coreOf (settle h) 0).skid.length = 1) &&
       let t := settle { h with clusters := s.clusters }
       decide ((coreOf t 0).skid = []) && ((kvFind t.groups 0).map fun g => g.flight.length) == some 0) = true := by decide

/-- The command of group 0 in a bulk engine. -/
def inEngine (x : Bulk) : State := { inFlight .cpy (.bulk 0) with bulks := [(0, { x with fl := 7 })] }
def rowsIn : List Word := [0x200, SP, 0x400, SP, 1500, 0, 0, 0]
def oneCopy : Bulk := { aBulk with desc := rowsIn, todo := [(0, 0, 2)] }
theorem witness_copy_delivery :
    (let s := inEngine oneCopy
     decide ((debugOf s 0).enabled = false ∧ relDone s oneCopy = true ∧ hasPiece oneCopy 0 1 = true ∧ dropPiece 0 1 oneCopy.todo = [(0, 0, 1)]) &&
       match pieceOf oneCopy 1 with
       | (src, dst, n) => n == 476 && (match findBytes s oneCopy .read src.1 src.2.1 src.2.2 4, pieceDst s oneCopy 1 dst 4 with
         | .at_ a, .at_ b => (a ++ b).all fun l => !locFrozen s l
         | _, _ => false)) = true := by decide
theorem witness_scale_delivery :
    (let x := { aBulk with desc := [near, 0, 0, 0xC000000, 0, 0, 0, 0], scale := [0x2000, 0, 0x10001, 0, 0, 0x20000, 0, 0], todo := [(0, 0, 2)] }
     let s := inEngine x
     decide (x.scale ≠ [] ∧ hasPiece x 0 1 = true ∧ relDone s x = true) &&
       match pieceOf x 1 with
       | (src, dst, n) => n == 1 && (match findBytes s x .read src.1 src.2.1 src.2.2 n, pieceDst s x 1 dst n with
         | .at_ a, .at_ b => a.map locKey == [locKey (.hbm 0x2001)] && b.map locKey == [locKey (.sm 0 0 1)] && (a ++ b).all fun l => !locFrozen s l
         | _, _ => false)) = true := by decide
theorem witness_multicast_delivery :
    (let x := { oneCopy with kind := .cpymc, todo := [(0, 1, 2), (1, 1, 2)], desc := [0x200, SP, 0x400, SP, 16, 0, 0, 0] }
     decide (hasPiece x 0 1 = true ∧ teamOnCore (inEngine x) x 0 = some 0 ∧ teamOnCore (inEngine x) x 1 = none ∧ kvFind x.fetched 1 = none)) = true := by decide
theorem witness_lane_delivery :
    (let x := { aBulk with kind := .gath, desc := [0, SH, 16, 4, 16, 3, 0, 0], lanes := [{ lane := 0, va := 0x1000, tr := none }], todo := [(0, 0, 1)] }
     let s := inEngine x
     decide (hasPiece x 0 0 = true ∧ (x.lanes.find? fun m => m.lane == 0).isSome = true) &&
       (match laneBytesAt s x { lane := 0, va := 0x1000, tr := none } .read 16 with
         | .at_ ls => ls.length == 16
         | _ => false) && (locBytes s x 0 16).all fun l => !locFrozen s l) = true := by decide
theorem witness_peer_refused :
    (let x := { aBulk with desc := [near, 0, 0x400, SP, 16, 0, 0, 0], todo := [(0, 0, 1)] }
     let s := modCore (inEngine x) 0 fun c => { c with l1 := [{ hookTlb with pte := 0x3F }] }
     usesPeer { s with trust := { s.trust with peers := [(0, 1)] } } x) = true := by decide
theorem witness_contribution :
    (let x := { aBulk with kind := .cpyred, desc := [0x200, SP, 0x400, SP, 4, 0, 0, 0], x := 0x1005, todo := [(0, 0, 1)] }
     decide (hasPiece x 0 0 = true ∧ x.x.toNat / 4096 % 128 = 1 ∧ kvFind (inEngine x).reds 5 = none) &&
       (rowBytesOf (copyD x.desc) (copyD x.desc).srcRows).all fun a => !locFrozen (inEngine x) (.sp a) && !sourceHeld (inEngine x) x (.sp a)) = true ∧
    ((kvFind (withLadder { lad with cutting := some false } lone).tasks 0).bind (·.ladder)).map (fun l => l.cutting != none) = some true ∧
    (kvFind lone.clusters 0).map (·.task) = some 0 := by decide
/-- Contributions where the switch of core 0 holds 256 entries, and where its buffer holds 64 as well; one that is not the last; one that does
not match. -/
def combining (n : Nat) : Red :=
  { dst := [], count := 2, got := [], bar := none, core := 0, cluster := 0, cmd := 0, task := 0, switches := [0], buffered := decide (n < 64) }
def contributing (n : Nat) : Bulk :=
  { aBulk with kind := .cpyred, desc := [0x200, SP, 0x400, SP, 4, 0, 0, 0], x := BitVec.ofNat 64 (4096 * n + 5), todo := [(0, 0, 1)] }
set_option maxRecDepth 4000 in
theorem witness_contributions_wait :
    (let rs (b : Bool) := (List.range 256).map fun i => (4096 + i, { combining i with buffered := b && decide (i < 64) })
     ([true, false].all fun b => ((rs b).filter fun e => e.2.switches.contains 0).length == 256 &&
       ((rs b).filter fun e => e.2.buffered && e.2.core == 0).length == (if b then 64 else 0))) = true ∧
    (contributing 2).x.toNat / 4096 % 128 = 2 ∧ redShape (contributing 2).desc ≠ [] ∧
    (rowBytesOf (copyD (contributing 2).desc) (copyD (contributing 2).desc).srcRows).length = 4 := by decide +kernel

theorem witness_sequencer_events :
    teamFrozen (withSeq id) 0 = false ∧
    seqOf (withSeq fun q => { q with writes := [{ cells := [(0, 32, 31, 5)], flags := 1 }] }) (fun _ q => q.busy && q.writes != []) = true ∧
    seqOf (withSeq fun q => { q with run := some 65536 }) (fun _ q => q.busy && q.run == some 65536) = true := by decide
/-- Group 0 waits in `grow` for one granule. -/
def growing : State := modCore (withGroup fun g => { g with park := .grow 3 1 0 }) 0 fun c => { c with growQ := [(0, [0])] }
theorem witness_grants_and_entries :
    (growQueue growing 0 = [0] ∧ ((kvFind growing.groups 0).bind growOf) = some (3, 1, 0) ∧ 1 ≤ freeGran growing 0) ∧
    (let s := withGroup fun g => { g with active := false }
     nextActive s 0 = some 0 ∧ activeCount (leaveParked s 0) 0 < 8) := by decide
theorem witness_group_release :
    (let s := withGroup fun g => { g with exiting := true, frags := [] }
     (kvFind s.groups 0).map (fun g => (g.exiting, counter g .ld, counter g .cpy)) = some (true, 0, 0) ∧ s.dies = [] ∧
       ((kvFind s.teams 0).bind (·.seq)).map (fun q => (q.busy, q.writes)) = some (false, [])) := by decide

/-- A control block at SP 0x400 with one predecessor left, enqueued. -/
def waiting (pred state : Word) : State := writeBytes reach (fun i => .sp (0x400 + i)) (bytesOfWords [pred, state])
set_option maxRecDepth 4000 in
theorem witness_control_blocks :
    (match blockAt (waiting 1 1) 0 0x400000000000400 with
      | .at_ _ ws => decide ((ws.getD 0 0).toNat % 2 ^ 16 = 1 ∧ (ws.getD 1 0).toNat % 8 = 1)
      | _ => false) = true ∧
    (match blockAt (waiting 0x10000 1) 0 0x400000000000400 with
      | .at_ _ ws => decide ((ws.getD 0 0).toNat % 2 ^ 16 = 0 ∧ (successors (waiting 0x10000 1) 0 ws).1.length = 1 ∧ (successors (waiting 0x10000 1) 0 ws).2.isNone = true)
      | _ => false) = true := by decide
theorem witness_task_and_command_ends :
    (let s := withTask (fun k => { k with gone := 1, queued := false }) lone
     (kvFind s.tasks 0).map (fun k => decide (k.queued = false ∧ k.dead = false ∧ k.lr ≠ [] ∧ clusterCount k ≤ k.gone ∧ k.tcb = none)) = some true ∧
       waitsFor s 1 (.succ 0) = false) ∧
    (let s := withCmd (fun c => { c with spawn := 0, cr := 0x1000 }) lone
     waitsFor s 1 (.record 0) = false ∧ (kvFind s.cmds 0).map (fun c => decide (c.launch = true ∧ c.spawn = 0 ∧ c.recd = none)) = some true) ∧
    (match hubAt (withCmd (fun c => { c with cr := 0x400000000000400 }) reach) 0 .write 0x400000000000400 32 with
      | .at_ ls => ls.length == 32
      | _ => false) = true ∧
    (match hubAt reach 0 .write 0x800000000000400 32 with
      | .refused => true
      | _ => false) = true ∧
    (match hubAt reach 0 .write 0x3000000000 32 with
      | .miss ps => ps != []
      | _ => false) = true ∧
    (kvFind (withCmd (fun c => { c with ran := [0] }) lone).cmds 0).map (·.ran) = some [0] := by decide

/-- One waiting task and nothing placed. -/
def oneTask (k : Task) : State := { State.reset with tasks := [(0, { k with queued := true })], cmds := [(0, { noCmd with launch := true, spawn := 1 })] }
theorem witness_placement :
    scanOrder (oneTask hookTask) = [0] ∧ scanOrder (oneTask { hookTask with urgent := true }) = [0] ∧ waitsFor (oneTask hookTask) 1 (.task 0) = false ∧
    (match checkTask (oneTask { hookTask with nextCl := 0 }) 0 { hookTask with nextCl := 0, queued := true } with
      | .ok s1 =>
          (placeNext (noteHeld s1 0) 0 { hookTask with nextCl := 0, queued := true }).isSome
      | _ => false) = true ∧
    (match checkTask (oneTask { hookTask with lraddr := 2 ^ 58, lr := [] }) 0 { hookTask with lraddr := 2 ^ 58, lr := [], queued := true } with
      | .reject _ _ => true
      | _ => false) = true := by decide +kernel
/-- Its cluster is asked to leave, and group 0 stands at a header; the queue has a save pool. -/
def asked : State := { modGroup lone 0 (fun g => modFrag g 0 fun f => { f with cl := none, park := .safe, halted := true }) with
  clusters := [(0, { noCluster with cores := [0], teams := [0], pre := .asked })], queues := [(0, { aQueue with saveVA := 0x10000, saveBytes := 2 ^ 20 })] }
theorem witness_preemption :
    (kvFind lone.clusters 0).map (fun c => decide (c.pre = .none)) = some true ∧ (unitOf asked 0).length = 1 ∧ saveReady asked 0 = true := by decide
set_option maxRecDepth 10000 in
theorem witness_save_area :
    (let s := { asked with queues := [(0, { aQueue with saveVA := 0x400000000001000, saveBytes := 2 ^ 20 })], acc := [(0, spAll)] }
     let n := (unitImage s hookTask (unitOf s 0)).length
     saveReady s 0 && (findArea { aQueue with saveVA := 0x400000000001000, saveBytes := 2 ^ 20 } (savedAreas s 0) n) == some 0x400000000001000 &&
       match hubAt s 0 .write 0x400000000001000 n with
       | .at_ ls => ls.length == n
       | _ => false) = true := by decide +kernel

/-- Queue 1 (or 0) with a packet copied out, in a part that runs. -/
def holds (q : Nat) (priv : Bool) (w : List Word) : State :=
  { withQueue aQueue reach with queues := [(q, { aQueue with held := some (w ++ List.replicate (16 - w.length) 0), priv := priv })] }
def causeOf (q : Nat) (priv : Bool) (w : List Word) : Option Nat :=
  pktCause q { aQueue with priv := priv } (w ++ List.replicate (16 - w.length) 0)
theorem witness_queues :
    (let s := holds 1 false [1, 1, 0, 0, 0x1000]
     (kvFind s.queues 1).map (fun x => decide (x.wait = none ∧ x.opened = [] ∧ x.held ≠ none)) = some true ∧ waitsFor s 1 (.ring 1) = false ∧
       s.power.shutdown = false ∧ s.trust.deviceFailed = false) ∧
    causeOf 1 false [1, 1, 0, 0, 0x1000] = none ∧ causeOf 1 false [1, 1, 0, 0, 0x1010] = some 0x21 ∧ causeOf 1 false [1, 1, 0, 0, 0, 0, 1] = some 0x20 ∧
    causeOf 1 false [6, 1, 0, 0, 1, 9] = some 0x26 ∧ causeOf 1 false [5] = some 0x26 ∧ causeOf 1 false [7] = some 0x20 ∧
    packetCopyBad (copyD [near, 0, 0x200, SP, 64, 0, 0, 0]) = false ∧ packetCopyBad (copyD [near, 0, near, 0, 64, 0, 0, 0]) = true ∧
    packetSpRefused State.reset 0 1 .write [0x200] 64 = true ∧ packetSpRefused reach 0 1 .write [0x200] 64 = false ∧ causeOf 1 false [2] = none := by decide
theorem witness_claims :
    barSees (.host 3) 0x7FF8 8 = true ∧ barSees (.host 3) 0x8100 8 = true ∧ barSees (.ctx 0) 8 8 = false ∧ barSees (.host 0) 0x8000 4 = true ∧
    admitted { lone with acc := [(0, { spAll with mtype := 1, tkind := 2, limit := 4096 })] } (.host 0) 2 4095 1 .write = true ∧
    admitted lone (.host 0) 2 1 1 .write = false ∧ linked lone (.host 0) = true ∧
    linked { lone with trust := { lone.trust with halted := true } } (.host 0) = false ∧ linked lone (.fw 5) = true ∧ ((4 : Word) - 0).toNat = 2 ^ aQueue.logn := by decide
set_option maxRecDepth 4000 in
theorem witness_packets :
    causeOf 1 false [3, 1, 0, 0, 0x200, SP, 5, 0, 1] = none ∧ causeOf 1 false [4, 1, 0, 0, 0x200, SP] = none ∧
    causeOf 1 true [5, 1, 0, 0, 0, 0, 0x10000] = none ∧ causeOf 0 true [6, 1, 0, 0, 0, 9, 0, 0, 6] = none ∧ causeOf 0 true [6, 1, 0, 0, 1, 9] = none ∧
    causeOf 0 true [6, 1, 0, 0, 2, 9] = none ∧
    (match hubAt reach 0 .write 0x400000000000200 8, hubAt reach 0 .read 0x400000000000200 8 with
      | .at_ a, .at_ _ => decide (peerOfAll a = none)
      | _, _ => false) = true ∧
    (match hubAt State.reset 0 .write 0x400000000000200 8, hubAt State.reset 0 .read 0x400000000000200 8 with
      | .refused, .refused => true
      | _, _ => false) = true ∧
    (match hubAt reach 0 .read (slotAddr aQueue 0) 64 with
      | .at_ ls => (wordsOf (readLocs reach ls)).getD 1 0 != 1
      | _ => false) = true ∧
    waitsFor reach 1 (.poll 1) = false := by decide

/-- A ladder of three slots over HBM 0x10000; its vat runs task 0. -/
def climbing (l : Ladder) (s : State) : State := { withLadder l s with vats := [(l.key, { noVat with running := some 0 })] }
def three : Ladder := { lad with desc := lad.desc.set 5 3 }
/-- Every lane of group 0 stands at a seal. -/
def sealing (s : State) : State := modGroup s 0 fun g => { g with sealed := 0xFFFFFFFF, frags := [{ newFrag 0xFFFFFFFF 4 none false none with park := .seal 4 }] }
theorem witness_seal_points :
    sealDue (sealing (climbing { three with someSeal := true } lone)) 0 = true ∧ sealDue (sealing (climbing { three with someSeal := true, l := true } lone)) 0 = true ∧
    curdChoice lone three = some 0 ∧ runsOn (climbing three lone) 0 three = true ∧
    (let g : Stagger := { start := 0, w := 4, t := 200, bySeal := true, done := [] }
     0 < waveCount hookTask g ∧ g.start + 0 * g.t ≤ 0) ∧
    pairNat (three.desc.set 6 1) 6 ≠ 0 ∧ ((three.desc.set 8 1).getD 8 0).toNat * 1000 ≤ 1000 := by decide
theorem witness_cuts_and_handovers :
    (let s := climbing { three with cutting := some false } lone
     runsOn s 0 { three with cutting := some false } = true ∧ ((kvFind s.tasks 0).bind (·.ladder)).map (fun l => (l.cutting, l.ended)) = some (some false, false)) ∧
    runsOn (withLadder { three with cutting := some true } lone) 0 three = false ∧
    (let s := withCmd (fun c => { c with ending := some { status := 2, cause := 0, tpc := 0, ggid := 0 } }) (climbing { three with cutting := some true } lone)
     ((kvFind s.cmds 0).bind (·.ending)).map (·.status) = some 2) ∧
    ([0, 1].all fun n =>
      let s := modGroup (sealing (climbing { three with someSeal := true } lone)) 0 fun g => { g with
        flight := (List.range n).map fun i => flying i .ld (.sfu 0 [] 0) }
      (kvFind s.groups 0).map (fun g => (g.frags.length, counter g .ld)) == some (1, n) && sealDue s 0) = true ∧
    (let s := withTask (fun k => { k with stagger := some { start := 0, w := 1, t := 200, bySeal := false, done := [] } }) lone
     (kvFind s.tasks 0).map (fun k => decide (k.dead = false ∧ 0 < waveCount k { start := 0, w := 1, t := 200, bySeal := false, done := [] })) = some true) ∧
    curdChoice (climbing { three with choosing := true, curd := none } lone) { three with choosing := true, curd := none } ≠ none := by decide
theorem witness_pins_refused :
    (let s := { reach with acc := [(1, { spAll with mtype := 1, mid := 2, tkind := 3 })], vpins := [(2, { noVpin with head := 0x400000000000800 })] }
     barAdmits s (.host 2) 0x8108 4 .write = true ∧ linked s (.host 2) = true ∧ admitted s (.host 2) 0 0x800 64 .read = false) ∧
    linked { lone with trust := { lone.trust with halted := true } } (.host 2) = false ∧
    pinCount (pinned 1 reach) (locKey (.sp 0x800)) 0 = 0 ∧
    (let s := { reach with vats := (List.range 256).map fun i => (i, noVat) }
     vatRoom s = false ∧ kvFind s.vats (locKey (.sp 0x800)) = none) := by decide +kernel
theorem witness_pins :
    headMagic (headIn 0x5EA1 5 reach) (locKey (.sp 0x800)) = true ∧ newSeq (headIn 0x5EA1 5 reach) (locKey (.sp 0x800)) ≠ 0 ∧ vatRoom reach = true ∧
    headMagic reach (locKey (.sp 0x800)) = false ∧ pinCount (pinned 65535 reach) (locKey (.sp 0x800)) 1 = 65535 ∧
    (let s := { reach with acc := [(0, { spAll with mtype := 1, mid := 2 }), (1, { spAll with mtype := 1, mid := 2, tkind := 3 })],
                           vpins := [(2, { noVpin with head := 0x400000000000800 })] }
     barAdmits s (.host 2) 0x8108 4 .write = true ∧ admitted s (.host 2) 0 0x800 64 .read = true ∧ (vpinOf s 2).head = 0x400000000000800 ∧
       mainOrSp 0x400000000000800 = true ∧ spRange 0x800 64 = true) ∧ vaOf 0x400000000000810 % 1024 ≠ 0 ∧ barAdmits lone (.host 2) 0x8108 4 .write = false := by decide

/-- A die with one miss, walking or not; level-4 table entries at the space base of space 0. -/
def aReq : Req := { sid := 0, page := 5, kind := .read, who := .grp 0, eng := 0, gid := 0, core := 0, pc := 0 }
def aMiss (walking : Bool) : Miss := { sid := 0, page := 5, reqs := [aReq], count := 1, gid := 0, eng := 0, kind := 1, walking := walking, stuck := false }
def missing (walking : Bool) (s : State) : State := modDie s 1 fun d => { d with miss := [aMiss walking] }
def based (s : State) : State := { s with spaceBase := 0x40000000 }
theorem witness_walks :
    (walkers (dieOf (missing false lone) 1) = 0 ∧ ((dieOf (missing true lone) 1).miss.head?.map (·.walking)) = some true) ∧
    (match (walk (based lone) 1 0 5).1 with
      | .invalid _ => true
      | _ => false) = true ∧
    (match (walk (writeBytes (based lone) (fun i => .hbm (0x40000000 + i)) [1, 0, 1]) 1 0 5).1 with
      | .malformed => false
      | _ => true) = true ∧
    (match (walk (writeBytes (based lone) (fun i => .hbm (0x40000000 + i)) [3]) 1 0 5).1 with
      | .malformed => true
      | _ => false) = true := by decide
theorem witness_walk_to_leaf :
    (let s0 := writeBytes (based lone) (fun i => .hbm (0x40000000 + i)) (leBytes 8 0x50000001)
     let s1 := writeBytes s0 (fun i => .hbm (0x50000000 + i)) (leBytes 8 0x60000001)
     let s2 := writeBytes s1 (fun i => .hbm (0x60000000 + i)) (leBytes 8 0x70000001)
     let s := writeBytes s2 (fun i => .hbm (0x70000000 + 8 * 5 + i)) (leBytes 8 0x8000001F)
     match (walk s 1 0 5).1 with
      | .leaf t => decide (t.page ≤ 5 ∧ 5 < t.page + t.pages)
      | _ => false) = true := by decide
theorem witness_invalidation_events :
    (let v : Inval := { n := 1, sid := 0, start := 0, stop := 0x10000, performed := false, waits := [], ops := [] }
     let s := { lone with invs := [v], invSeq := 1 }
     (s.invs.find? fun x => x.n.toNat == 1 && !x.performed) = some v ∧ nextSeq s.invDone = v.n ∧ s.invSeq = v.n) ∧
    barAdmits { lone with acc := [(0, { spAll with mtype := 1, tkind := 3 })] } (.host 0) 0x11110 4 .write = true ∧ barAdmits lone (.host 0) 0x11110 4 .write = false ∧
    (dieOf (missing true lone) 1).port = [] ∧ ((missing true lone).dies.map fun d => d.2.miss.map fun m => (m.reqs.map (·.who), m.eng, m.gid)) = [[([.grp 0], 0, 0)]] ∧
    rangeFormed [0, 0, 0x10000, 0, 0, 0, 0x1000, 0] = true ∧ rangeFormed [0, 0, 0, 0, 0, 0, 0x1000, 0] = false := by decide
/-- What an invalidation waits for: a lane of a tolerant gather, a pin, a `tagset`; a `vwait` that it sends back to its word. -/
theorem witness_invalidation_waits :
    (let v : Inval := { n := 1, sid := 0, start := 0, stop := 0x10000, performed := true, waits := [(0, 0)], ops := [(0, 7)] }
     let x := { aBulk with kind := .gath, desc := [0, SH, 16, 4, 16, 3, 0, 0], lanes := [{ lane := 0, va := 0x1000, tr := some [] }], todo := [(0, 0, 1)] }
     let s := inEngine x
     hasPiece x 0 0 = true ∧ (findOp s 0 7).isSome = true ∧ codeOf 0x1000 = 0 ∧ vaOf 0x1000 < v.stop ∧ v.start < vaOf 0x1000 + rowBytes x.desc) ∧
    (match findOp (inFlight .ld (.pin 4 0x1000 9)) 0 7 with
      | some (_, f) => !f.done && vaOf 0x1000 < 0x10000
      | none => false) = true ∧
    (match findOp (inFlight .st (.locks 0x1000 2 3 [(0, 0x5000)])) 0 7 with
      | some (_, f) => !f.done
      | none => false) = true ∧
    (let s := modGroup lone 0 fun g => modFrag g 0 fun f => { f with park := .vwait 5 9 0x1000 }
     (kvFind s.groups 0).map (fun g => g.frags.map (·.park)) = some [.vwait 5 9 0x1000] ∧ sidOf s (hookGroup .ctl) = 0) := by decide
theorem witness_power_intervals :
    (let s := { lone with power := { lone.power with nextInt := some 0, meas := [1000000, 1000003] } }
     s.power.nextInt = some 0 ∧ 0 ≤ s.ns ∧ (s.power.meas.sum + s.power.meas.length - 1) / s.power.meas.length = 1000002) ∧ lone.power.meas = [] ∧
    (let r : Ramp := { start := 0, rate := 8, dur := 40, counted := 3 }
     let s := { withCore (fun c => { c with ramp := some r }) lone with ns := 40000 }
     (coreOf s 0).ramp = some r ∧ r.start + r.dur * 1000 ≤ s.ns ∧ s.power.nextBal ≤ s.ns) ∧
    (let s := withTask (fun k => { k with lr := (List.replicate 24 0).set 22 0x10000 }) lone
     (s.tasks.map fun k => decide (k.2.lr ≠ []) && k.2.lr.length == 24) = [true]) := by decide
theorem witness_power :
    lone.power.nextUs ≤ 1000 ∧ lone.ns < lone.power.nextUs ∧ askOrder lone = [] ∧
    askOrder { lone with clusters := [(0, { noCluster with cores := [0], teams := [0], cls := 1 })] } = [(0, { noCluster with cores := [0], teams := [0], cls := 1 })] ∧
    (coreOf (withCore (fun c => { c with rise := some (2, 500) }) lone) 0).rise = some (2, 500) ∧ lone.power.nextBal ≤ 1000 ∧
    (1 : Word).toNat < 2 ^ 31 ∧ lone.power.capSeen = false ∧ lone.power.shutdown = false := by decide
theorem witness_stops :
    (let s := { asked with clusters := [(0, { noCluster with cores := [0], teams := [0], stop := .asked 5 16 false })] }
     stopReady s 0 = true ∧ (stopUnit s 0).length = 1) := by decide
/-- Each kind of number, a product that is none of the special ones, a code below a format's NaNs, and lists of 32 for the quantisation: all zero,
one infinite, one that no code of its scale is. -/
theorem witness_numbers :
    decodeF fp32 0x7F800001 = .nan true ∧ decodeF fp32 0x7FC00000 = .nan false ∧ decodeF fp16 0xFC00 = .inf true ∧ decodeF bf16 0x8000 = .fin true 0 (-133) ∧
    decodeF e5m2 1 = .fin false 1 (-16) ∧ decodeF e4m3 0xFF = .nan false ∧ decodeF e4m3 0x7E = .fin false 14 5 ∧
    quantise (List.replicate 32 0) = (List.replicate 32 0, 0) ∧
    (quantise (0x7F800000 :: List.replicate 31 0)).2 = 1 ∧ (quantise (0x3F8CCCCD :: List.replicate 31 0)).2 = 16 := by decide +kernel
/-- SHAKE256 of the empty message, as FIPS 202 gives it, byte 0 lowest. -/
theorem test_shake256_of_nothing : shake256 [] =
    0xBEC4B7B3AC2E294086B49A47491C82FCF692B5679D0105CB00F2C0D8DDC45DD72F76D56E64270CB5821BB862EA52CD3F24EB3E74EB3F3B23138DA80B2BDDB946#512 := by
  decide +kernel
/-- A chunk with a reserved bit set is rejected (00 R4); a gather's lane keeps its places only where all its pages hit (17 R327). -/
theorem test_chunks_and_kept_lanes :
    (let s (w : Word) := (bytesOfWords [w, 1, 0x100001]).zipIdx.foldl (fun z b => writeByte z (.hbm (0x10000 + b.2)) b.1) lone
     (chunksAt (s 0) 0x10000 2048).length = 1 ∧ (chunksAt (s 0x10000) 0x10000 2048).length = 0) ∧
    (let m : LaneMove := { lane := 0, va := 0x1000, tr := none }
     let look (miss : List Nat) : Look := { miss := miss, perm := false, tag := none, found := [] }
     (keepRow [0, 0, 16, 4, 16, 3, 0, 0] (m, look [])).tr.isSome = true ∧ (keepRow [0, 0, 16, 4, 16, 3, 0, 0] (m, look [1])).tr = none) := by decide +kernel
/-- A group that a switch marker parks stands at that word (15 R269); LEN 0 turns a watchpoint off (Table 15-2); chunks of a log by commands
(15 R284); MIDs of Table 16-5; reserved bits of an access entry; what RESWIN shows of an image without V (11 R223). -/
theorem test_reports_windows_and_logs :
    (let g : Group := { hookGroup .ctl with marked := true, parkPc := 32, flight := [flying 1 .ld (.sfu 0 [] 0)] }
     groupReport (5, g) = [[5, 32, 0]]) ∧
    watchTouches { base := 0x1002, len := 0, rd := true, wr := true } 0 [.read] [(0x1000, 8)] = false ∧
    (let c (i k : Nat) : Chunk := { at_ := 0, w0 := BitVec.ofNat 32 i, w1 := BitVec.ofNat 32 k, entries := [1] }
     (partsOf [c 0 3, c 0 2, c 1 3, c 0 3, c 0 2]).map (·.length) = [3, 2]) ∧
    midBad { noAcc with mtype := 4, mid := 8 } = false ∧ midBad { noAcc with mtype := 4, mid := 9 } = true ∧
    accBits 5 0xFFFFFFFF = 0x1FFFFF ∧ accBits 7 5 = 0 ∧
    (let s := commitRes 0x300 { lone with reswin := [(0, 7), (1, 0x400), (3, 0x20005)] }
     resShown (coreOf s 0) 7 = [0x400, 0, 0x20005, 0x300] ∧ kvFind (coreOf s 0).res 7 = none) := by decide
theorem witness_debug_events :
    (let y : Sampler := { period := 8, count := 0, hit := some ([0, 0, 0, 0, 0, 0, 0, 0], 0, none), sample := none, fl := none }
     (kvFind (coreOf (withCore (fun c => { c with samp := [(0, y)] }) lone) 0).samp 0) = some y) ∧
    barAdmits { lone with acc := [(0, { spAll with mtype := 1, tkind := 3 })] } (.host 0) 0x13100 4 .write = true ∧
    (let r : Replaying := { banks := [(bankKey (bankOf (.sp 0x100)), [0x100001])], places := [], digests := [], gates := [(0, 7, bankKey (bankOf (.sp 0x100)), 0)], diverged := none }
     let s := { inFlight .st (.rel .spDev 0x100 1) with cores := [(0, { Core.reset with clk := 2 ^ 20 })], cmds := [(0, { noCmd with launch := true, repl := some r })] }
     gateTimedOut s 0 = some (0, 0x100001)) ∧
    senderOf (.host 3) = some 19 ∧ senderOf (.ctx 0) = none := by decide
/-- A trigger that another of the same control clock comes before; a full ring; full mailboxes; a reply that waits. -/
theorem witness_triggers_and_boxes :
    (let s := { lone with snap := { lone.snap with latched := true, eninsn := true, enerr := true, src := 1, ggid := 5, firedNs := lone.ns } }
     s.snap.firedNs = s.ns ∧ s.snap.latched = true ∧ (trigger s 3 0).snap.src = 3 ∧ (trigger s 1 4).snap.ggid = 4 ∧ (trigger s 1 6).snap.missed = true) ∧
    ({ lone with snapshot := some (snapshotOf lone) }.snapshot).isSome = true ∧
    (let y : Sampler := { period := 8, count := 0, hit := none, sample := some [0, 0, 0, 0, 0, 0, 0, 0], fl := none }
     (kvFind (coreOf (withCore (fun c => { c with samp := [(0, y)] }) lone) 0).samp 0).bind (·.sample) ≠ none) ∧
    ({ lone with samples := List.replicate 64 [] }.samples).length = 64 ∧
    (let s := setBox lone 9 { noBox with msgs := List.replicate 8 [] }
     (boxAt s 9).msgs.length = 8 ∧ senderOf (.fw 3) = some 3) ∧
    (let s := { lone with acc := [(0, { spAll with mtype := 1, tkind := 3 })], trust := { lone.trust with waiting := [(9, [])] } }
     barAdmits s (.host 0) (0x15000 + 128 * 9 + 96) 4 .write = true ∧ linked s (.host 0) = true ∧ s.trust.waiting = [] ++ (9, []) :: []) := by decide

/-- A message to a firmware mailbox, its sender's replies going to mailbox 9. -/
def mail (box : Nat) (sender : Nat) (type : Nat) (args : List Word) (s : State) : State :=
  setBox { s with trust := { s.trust with booted := true, assign := [(9, sender)], owner := [(7, sender)] } } box
    { noBox with msgs := [BitVec.ofNat 32 (type + 256 * sender) :: 0x55 :: (args ++ List.replicate (6 - args.length) 0)] }
def reqOfMail (args : List Word) : FwReq := { sender := 16, tag := 0x55, args := args ++ List.replicate (6 - args.length) 0 }
theorem witness_firmware :
    (let s := mail 2 16 1 [0, 0x10000] lone
     s.trust.booted = true ∧ (boxAt s 2).msgs.length = 1 ∧ boxOf s 16 = some 9 ∧ boxOf s 17 = none ∧ (boxAt s 9).msgs.length < 8 ∧
       kvFind s.trust.owner 7 = some 16 ∧ kvFind s.trust.owner 1 = none ∧ (∀ q ∈ s.queues, q.2.sid ≠ 7) ∧ s.invs.length < 16 ∧ s.trust.queue0 = false) ∧
    createBad (reqOfMail [0, 0x10000]) = false ∧ createBad (reqOfMail [4096]) = true ∧ spare (reqOfMail [7]) 1 = false ∧ spare (reqOfMail [7, 1]) 1 = true ∧
    queue0Bad (reqOfMail [0x6000]) = false ∧ queue0Bad (reqOfMail [0x5000]) = true ∧ (accOf [0, 0, 0, 0, 0, 0, 0, 0]).mtype = 0 ∧
    logBad lone (reqOfMail [0x1001, 0, 0, 2048]) = false ∧ logBad lone (reqOfMail [0x1001, 4]) = true ∧ bufferBad lone (reqOfMail [0, 0, 0, 64]) = false ∧
    watchBad (reqOfMail [7, 0x1000, 0, 4, 3]) = false ∧ watchBad (reqOfMail [7, 0, 0, 0, 4]) = true ∧
    sampleBad (reqOfMail [0x80100]) = false ∧ sampleBad (reqOfMail [0x70100]) = true ∧ sampleBad (reqOfMail [0x150100]) = true := by decide
theorem witness_units :
    (debugUnit lone 0 false).length = 1 ∧ (debugUnit asked 0 true).length = 1 ∧ (lone.clusters.all fun e => e.2.images == []) = true ∧ ((debugUnit asked 0 true).map (·.1)).Nodup ∧
    (debugUnit { lone with clusters := [(0, { noCluster with cores := [0], teams := [0], stop := .stopped })] } 0 false).map (·.2.stop) = [.stopped] := by decide
theorem witness_firmware_waits :
    (let s := mail 2 16 1 [0, 0x10000] { lone with trust := { lone.trust with destroys := [(1, 16, 0, 7)] } }
     s.trust.destroys ≠ []) ∧ (mail 2 16 1 [0, 0x10000] lone).trust.destroys = [] ∧
    (let s := mail 6 16 200 [] lone
     ((boxAt s 6).msgs.map fun m => (m.headD 0).toNat % 256) = [200]) ∧
    (let s := { lone with clusters := [(0, { noCluster with cores := [0], teams := [0], frozen := true })] }
     (debugUnit s 0 false).map (fun e => (e.1, e.2.frozen, decide (e.2.pre = .none))) = [(0, true, true)]) := by decide
/-- A command is saved whose layout a pending bundle does not list. -/
def savedState : State :=
  { lone with clusters := [(0, { noCluster with cores := [], teams := [0], pre := .saved 0x10000 64 })], trust := { lone.trust with pending := true } }
theorem witness_resets_and_overrides :
    savedCmds savedState = [0] ∧ 1 ∉ savedState.trust.pendLayouts ∧ (kvFind savedState.cmds 0).map (·.ending) = some none ∧
    (let s := { lone with trust := { lone.trust with booted := true }, power := { lone.power with shutdown := true } }
     s.trust.booted = true ∧ s.power.shutdown = true) ∧
    (let s := withCmd (fun c => { c with cr := 0x400000000000400 }) { reach with trust := { reach.trust with booted := true } }
     let w := endAllOpen false (haltAll s)
     s.power.shutdown = false ∧ s.cmds.map (·.1) = [0] ∧ (kvFind w.cmds 0).isSome = true ∧
       (match hubAt (fillPages w 0 (pagesOf 0x400000000000400 32)) 0 .write 0x400000000000400 32 with
        | .at_ ls => ls.length == 32
        | _ => false) = true) ∧
    kvFind (inEngine oneCopy).bulks 0 ≠ none ∧
    (let s := withQueue { aQueue with wait := some { cmd := 0, words := [], next := 0 } } lone
     (s.queues.map fun q => q.2.wait.map (·.cmd)) = [some 0]) := by decide +kernel
theorem witness_trust :
    State.reset.trust.standbyUsed = false ∧ (∀ c ∈ [0, 1], c < 2) ∧ State.reset.trust.deviceFailed = false ∧ State.reset.cmds = [] ∧ State.reset.cores = [] ∧
    State.reset.trust.booted = false ∧ savedCmds State.reset = [] ∧ (List.replicate 32 (0 : Byte)).length = 32 ∧
    (kvFind lone.cmds 0).map (·.ending) = some none := by decide
theorem witness_windows :
    (let e : Res := { sid := 0, va := 0x1000, len := 1, sp := 0x200 }
     resBad reach 0 e = false ∧ resBad reach 0 { e with va := 0x1080 } = true) ∧
    barAdmits lone (.fw 5) 0x14020 4 .read = true ∧
    (let s := { lone with acc := [(0, { spAll with mtype := 1, tkind := 3 })] }
     linked s (.host 0) = true ∧ barAdmits s (.host 0) 0x11000 4 .read = true ∧ barAdmits lone (.host 0) 0x11000 4 .read = false ∧
       barSees (.host 0) 0x11000 4 = true ∧ (kvFind (dieOf s 1).flt 0).isNone = true) ∧
    (let r : FltRec := { page := 5, sid := 0, kind := 1, closed := false, count := 1, first := 0, eng := 0, level := 3, seq := 1 }
     (kvFind (dieOf (modDie lone 1 fun d => { d with flt := [(0, r)] }) 1).flt 0).isSome = true) := by decide
theorem witness_outside :
    barAdmits lone (.fw 5) 0x14020 4 .write = true ∧ barAdmits lone (.host 0) 0x14020 4 .write = false ∧ barSees (.host 1) 0x14020 4 = false ∧
    barAdmits { lone with acc := [(0, { spAll with mtype := 4, mid := 3, tkind := 3 })] } (.fw 3) 0x13010 4 .write = true ∧
    admitted { lone with acc := [(0, { spAll with mtype := 1, mid := 15, tkind := 1 })] } (.host 15) 1 0x100 8 .write = true ∧
    15 < 16 ∧ 0xBFFFFFFFF8 + 8 ≤ lone.trust.hdm ∧ admitted { lone with acc := [(0, { spAll with mtype := 3, mid := 31, tkind := 1 })] } (.peer 31) 1 0x100 8 .read = true ∧
    0x100 + 8 ≤ Config.hbmEnd ∧ admitted { lone with acc := [(0, { spAll with mtype := 3, mid := 0, tkind := 2 })] } (.peer 0) 2 1 1 .write = true := by decide

/-! WellFormed: one ill-formed term for each check. -/

theorem test_wf_types_and_prefixes :
    wfErr (.vadd none .b32 .none 2 0 (.reg 1)) = some .typeNotPermitted ∧ wfErr (.vmov none .va 2 (.reg 1)) = some .ixNotUsed ∧
    wfErr (.vnot (some { mask := 0, z := true, rnd := none, vc := none }) .none 2 0) = some .zWithoutMask ∧
    wfErr (.vadd (some { mask := 0, z := false, rnd := none, vc := some 3 }) .f32 .none 2 0 (.reg 1)) = some .noFourthOperand ∧
    wfErr (.vadd (some { mask := 0, z := false, rnd := some .rz, vc := none }) .i32 .none 2 0 (.reg 1)) = some .noRounding ∧
    wfErr (.vcvt none .f32i32 true 0 .none 2 0) = some .convField := by decide
theorem test_wf_scalars :
    wfErr (.ssrai 0 0 32) = some .shiftRange ∧ wfErr (.sbfx 0 0 31 1) = some .fieldRange ∧ wfErr (.grow 0 15) = some .granuleCount ∧
    wfErr (.rds 3 .curd) = some .oddPair ∧ wfErr (.wrs .lane 0) = some .readOnly := by decide
theorem test_wf_memory_and_matrix :
    wfErr (.lds .b128 2 0 (.imm 0)) = some .blockAlign ∧ wfErr (.atom .cas .shGrp true 62 0) = some .blockRange ∧
    wfErr (.sld false .b128 0 0 0) = some .scalarWidth ∧ wfErr (.mzero 6 3) = some .tileRange ∧ wfErr (.mma 0 1 1 0 0 0) = some .oddBase ∧
    wfErr (.mshare 0) = some .shareZero ∧ wfErr (.cpy false false 4 none) = some .descAlign ∧ wfErr (.qpost 510) = some .descRange := by decide

/-! One step each. -/

def sAt (n : Nat) (v : Word) (g : Group) : Bool := getS g n == v
def vAt (n l : Nat) (v : Word) (g : Group) : Bool := getV g n l == v
/-- Group 0 with two scalars and, in every lane of v0 and v1, two words. -/
def two (a b : Word) : State := withGroup fun g => setS (setS ((List.range 32).foldl (fun h l => setV (setV h 0 l a) 1 l b) g) 1 a) 2 b

/-- 2^32 - 1 + 2 wraps to 1; 1 - 2 to 2^32 - 1 (18 Table 18-22). -/
theorem test_sadd_ssub_wrap : groupAfter (.sadd 3 1 2) (two 0xFFFFFFFF 2) (sAt 3 1) = true ∧ groupAfter (.ssub 3 1 2) (two 1 2) (sAt 3 0xFFFFFFFF) = true := by
  decide
/-- The high half of (-1) · (-1) signed is 0, unsigned FFFFFFFEH; a shift takes its count modulo 32. -/
theorem test_products_and_shifts :
    groupAfter (.smulhiI 3 1 2) (two 0xFFFFFFFF 0xFFFFFFFF) (sAt 3 0) = true ∧ groupAfter (.smulhiN 3 1 2) (two 0xFFFFFFFF 0xFFFFFFFF) (sAt 3 0xFFFFFFFE) = true ∧
    groupAfter (.ssra 3 1 2) (two 0x80000000 36) (sAt 3 0xF8000000) = true ∧ groupAfter (.sshr 3 1 2) (two 0x80000000 31) (sAt 3 1) = true := by decide
/-- A field read, an immediate reversed subtraction from a negative one, the half moves, a destination that is also a source. -/
theorem test_immediates_and_moves :
    groupAfter (.sbfx 3 1 8 3) (two 0x12345678 0) (sAt 3 6) = true ∧ groupAfter (.srsubi 1 1 0x1FF) (two 5 0) (sAt 1 0xFFFFFFFA) = true ∧
    groupAfter (.movhi 1 0xABCD) (two 0x12345678 0) (sAt 1 0xABCD5678) = true ∧ groupAfter (.setix 1 0xFFF8) (two 8 0) (fun g => g.ix == 0) = true := by decide
/-- Elements wrap alone; an unsigned and a signed minimum differ; other lanes of a masked word keep their value. -/
theorem test_vector_integers :
    groupAfter (.vadd none .i16x2 .none 2 0 (.reg 1)) (two 0x0001FFFF 0x00010001) (vAt 2 31 0x00020000) = true ∧
    groupAfter (.vmin none .n32 .none 2 0 (.reg 1)) (two 0xFFFFFFFF 1) (vAt 2 0 1) = true ∧
    groupAfter (.vmin none .i32 .none 2 0 (.reg 1)) (two 0xFFFFFFFF 1) (vAt 2 0 0xFFFFFFFF) = true := by decide +kernel
theorem test_vector_mask : groupAfter (.vand masked .none 0 0 (.reg 1)) filled (fun g => vAt 0 3 3 g && vAt 0 5 0 g) = true ∧
    groupAfter (.vand (some { mask := 1, z := false, rnd := none, vc := none }) .none 0 0 (.reg 1)) filled (fun g => vAt 0 2 2 g && vAt 0 5 5 g) = true := by decide +kernel
/-- 1.5 · 2 + 1.5 is 4.5; 1.0 + 2^-24 is a tie, which goes to even, raises inexact, and goes up toward plus infinity (07). -/
theorem test_vector_floats :
    groupAfter (.vfma (some { mask := 0, z := false, rnd := none, vc := some 0 }) .f32 .none 2 0 (.reg 1)) (two 0x3FC00000 0x40000000) (vAt 2 7 0x40900000) = true ∧
    groupAfter (.vadd none .f32 .none 2 0 (.reg 1)) (two 0x3F800000 0x33800000) (fun g => vAt 2 0 0x3F800000 g && g.fx == 16) = true ∧
    groupAfter (.vadd (some { mask := 0, z := false, rnd := some .rup, vc := none }) .f32 .none 2 0 (.reg 1)) (two 0x3F800000 0x33800000) (vAt 2 0 0x3F800001) = true := by decide +kernel
/-- A compare writes its mask in the active lanes; a sum over the 32 lanes of 0 to 31 is 496; a lane goes to a scalar. -/
theorem test_vector_lanes :
    groupAfter (.vcmp none .n32 .lt 2 0 (.reg 1)) filled (fun g => getM g 2 == 7) = true ∧
    groupAfter (.vred none .add .n32 .w32 2 0) filled (vAt 2 9 496) = true ∧ groupAfter (.vtos none .none 4 0 17) filled (sAt 4 17) = true := by decide +kernel
/-- A trap without a handler ends the command with ERROR and cause 15 (04 Table 4-5, 11 R210); with one it goes there. -/
theorem test_trap : endAfter (.trap 5) lone 6 = true ∧
    groupAfter (.trap 5) handled (fun g => g.tcause == 0x50F && g.tpc == 0 && g.frags.map (·.pc) == [0x400]) = true := by decide +kernel
/-- `exit` of all lanes: the group is exiting and no fragment is left. -/
theorem test_exit : groupAfter .exit lone (fun g => g.exiting && g.frags == []) = true := by decide +kernel
/-- A branch that is taken stands at a header three words on; one not taken goes to the next word of its clause. -/
theorem test_branch : groupAfter (.bz 2 (BitVec.ofInt 16 3)) (two 5 0) (fun g => g.frags.map (fun f => (f.pc, f.cl)) == [(12, none)]) = true ∧
    groupAfter (.bz 1 (BitVec.ofInt 16 3)) (two 5 0) (fun g => g.frags.map (fun f => (f.pc, f.cl)) == [(4, some (.ctl, 14))]) = true := by decide
/-- A direct store is checked, then in flight with its bytes, lane by lane; past SH it traps BOUNDS, cause 6. -/
theorem test_store : groupAfter (.sst false .b32 2 1 0) reach (fun g => counter g .st == 1) = true ∧ endAfter (.sst false .b32 2 1 31) (withTeam (fun t => { t with sh := 64 }) reach) 6 = true := by
  decide

/-! Steps. -/

/-- Group 0 after a step from reset with this word. -/
def stepped (w : Nat) (p : Group → Bool) : Bool := match step (State.reset.withFetchWord 32 w) with
  | .next t => ((kvFind t.groups 0).map p).getD false
  | _ => false
/-- `movi s1, 1` as the first instruction. -/
theorem test_step_word : stepped 0x02010001 (fun g => sAt 1 1 g && g.frags.map (·.pc) == [4]) = true := by decide +kernel
theorem test_step_is_a_decoded_word :
    (match fetchWord (State.reset.withFetchWord 32 0x02010001) 0 hookTask 0 0 (fetchReq (.grp 0) 4 0 0 0 0) with
      | .word w _ => w == 0x02010001
      | _ => false) = true ∧ decodeTableWord 32 0x02010001 = some (.movi 1 1) := by decide
/-- `mset k2, 5` at a sequencer's turn. -/
theorem test_step_sequencer : (match step (State.reset.withFetchWord 32 ((encode false (.mset (.k 2) 5)).headD 0).toNat) with
    | .next t => ((kvFind t.teams 0).bind (·.seq)).map (fun q => (kvGet 0 q.k 2, q.pc)) == some (5, 4)
    | _ => false) = true := by decide +kernel
theorem test_step_event : (match step { State.reset with agenda := [.ev (.thermalBoostHold true)] } with
    | .next t => t.power.hold && t.agenda == []
    | _ => false) = true := by decide
/-- Reset memory has its canonical form, and a write of the default leaves it so. -/
theorem test_memory_form : State.reset.memOk ∧ (writeByte State.reset (.hbm 5) 7).memOk ∧ (writeByte (writeByte State.reset (.hbm 5) 7) (.hbm 5) 0).mem = [] := by decide
/-- A step from a state whose memory has its form; an instruction that writes no memory. -/
theorem witness_memory : (State.reset.withFetchWord 32 0x02010001).memOk ∧ (match step (State.reset.withFetchWord 32 0x02010001) with
    | .next _ => true
    | _ => false) = true ∧ Instr.mayWrite .nop = false ∧ after .nop lone (fun _ => true) = true := by decide

end Sys2Proof.Tests
end

/-! The SRR and SRI words: their op codes as a table, their values in arithmetic, and the two statements about them
(03 R46, R47, 18 R358 Table 18-22). -/
namespace Sys2Proof.Laws.Scalar
open Sys2Proof.Machine

/-! Decoding outside class VEC, where no word is a prefix. -/

theorem decodeWords_ok {c : Cls} {left : Nat} {w w2 : Word} {i : Instr} (hc : c ≠ .vec) (hd : decClass c none w = .ok i)
    (hw : wfErr i = none) : decodeWords c left w w2 = .ok ⟨i, w.getLsbD 31, 1⟩ := by
  simp only [decodeWords, hc, false_and, if_false, hd, limits_ok hw]

/-- A word outside the table of its class is refused. -/
theorem decodeWords_unassigned {c : Cls} {left : Nat} {w w2 : Word} {e : DecErr} (hc : c ≠ .vec) (hd : decClass c none w = .error e) :
    decodeWords c left w w2 = .error e := by
  simp only [decodeWords, hc, false_and, if_false, hd, limits]

/-- A word whose instruction breaks a static limit is refused. -/
theorem decodeWords_limit {c : Cls} {left : Nat} {w w2 : Word} {i : Instr} (hc : c ≠ .vec) (hd : decClass c none w = .ok i)
    (hw : wfErr i ≠ none) : ∃ e, decodeWords c left w w2 = .error e := by
  obtain ⟨e, he⟩ := Option.ne_none_iff_exists'.mp hw
  exact ⟨.limit e, by simp only [decodeWords, hc, false_and, if_false, hd, limits, he]⟩

/-- One static check decides. -/
theorem wfErr_of_one_check {i : Instr} {p : Prop} [Decidable p] {e : WfErr} (h : checks i = [(decide p, e)]) : wfErr i = none ↔ p := by
  simp [wfErr, h, firstErr]

theorem encode_of_body {i : Instr} {c : Cls} {b : BitVec 31} (he : encBody i = some (c, b)) (hp : pfxOf i = none) (s : Bool) :
    encode s i = [bit1 s ++ b] := by
  simp only [encode, he, hp]

/-- A word is its switch marker, its op and its three fields (02 R30). -/
theorem scalar_fields (w : Word) : bit1 (w.getLsbD 31) ++ (fld w 27 4 ++ fld w 18 9 ++ fld w 9 9 ++ fld w 0 9) = w := by
  have marker : bit1 (w.getLsbD 31) = fld w 31 1 := by
    ext i hi
    obtain rfl : i = 0 := by omega
    simp [bit1]
  rw [marker, BitVec.extractLsb'_append_extractLsb'_eq_extractLsb' (by rfl), BitVec.extractLsb'_append_extractLsb'_eq_extractLsb' (by rfl),
    BitVec.extractLsb'_append_extractLsb'_eq_extractLsb' (by rfl), BitVec.extractLsb'_append_extractLsb'_eq_extractLsb' (by rfl)]
  exact BitVec.extractLsb'_eq_self

/-! The op codes of Table 3-2. -/

/-- The SRR words by op code. -/
def srrOps (d a b : BitVec 9) : List Instr :=
  [.sadd d a b, .ssub d a b, .smul d a b, .smulhiI d a b, .smulhiN d a b, .sand d a b, .sor d a b, .sxor d a b, .sshl d a b,
    .sshr d a b, .ssra d a b, .sminI d a b, .smaxI d a b, .seq d a b, .sltI d a b, .sltN d a b]

/-- The SRI words by op code; op 15 is none. -/
def sriOps (d a i : BitVec 9) (pos : BitVec 5) (len : BitVec 4) : List Instr :=
  [.saddi d a i, .srsubi d a i, .smuli d a i, .sandi d a i, .sori d a i, .sxori d a i, .sshli d a i, .sshri d a i, .ssrai d a i,
    .seqi d a i, .sltiI d a i, .sltiN d a i, .sminiI d a i, .smaxiI d a i, .sbfx d a pos len]

/-- Every op code has its SRR word: decoder, encoder and static limits agree on it. -/
theorem srr_op (w : Word) : ∃ i, (srrOps (fld w 18 9) (fld w 9 9) (fld w 0 9))[(fld w 27 4).toNat]? = some i ∧ decSrr w = .ok i ∧
    wfErr i = none ∧ pfxOf i = none ∧ encBody i = some (.srr, fld w 27 4 ++ fld w 18 9 ++ fld w 9 9 ++ fld w 0 9) := by
  unfold decSrr
  generalize fld w 27 4 = op
  obtain ⟨⟨k, hk⟩⟩ := op
  match k, hk with
  | 0, _ | 1, _ | 2, _ | 3, _ | 4, _ | 5, _ | 6, _ | 7, _ | 8, _ | 9, _ | 10, _ | 11, _ | 12, _ | 13, _ | 14, _ | 15, _ =>
    exact ⟨_, rfl, rfl, rfl, rfl, rfl⟩
  | n + 16, hk => exact absurd hk (by omega)

/-- Every SRR word decodes, and the encoder gives it back. -/
theorem srr_word_decodes (w : Word) : ∃ i, decodeWords .srr 1 w 0 = .ok ⟨i, w.getLsbD 31, 1⟩ ∧ encode (w.getLsbD 31) i = [w] ∧
    (srrOps (fld w 18 9) (fld w 9 9) (fld w 0 9))[(fld w 27 4).toNat]? = some i := by
  obtain ⟨i, hop, hdec, hwf, hpfx, hbody⟩ := srr_op w
  exact ⟨i, decodeWords_ok (by decide) hdec hwf, by rw [encode_of_body hbody hpfx, scalar_fields], hop⟩

/-- The SRI decoder reads the table, and refuses the op code it does not list. -/
theorem decSri_eq (w : Word) : decSri w =
    (sriOps (fld w 18 9) (fld w 9 9) (fld w 0 9) (fld w 4 5) (fld w 0 4))[(fld w 27 4).toNat]?.elim (.error .unassigned) .ok := by
  unfold decSri
  generalize (fld w 27 4).toNat = op
  match op with
  | 0 | 1 | 2 | 3 | 4 | 5 | 6 | 7 | 8 | 9 | 10 | 11 | 12 | 13 | 14 => rfl
  | n + 15 => rfl

/-- The ILLEGAL encodings of SRI words: op 15, a shift past 31, an `sbfx` past bit 31 (03 R47). -/
def SriIllegal (op : Nat) (i : BitVec 9) : Prop :=
  op = 15 ∨ (op = 6 ∨ op = 7 ∨ op = 8) ∧ 31 < i.toNat ∨ op = 14 ∧ 32 < i.toNat / 16 + i.toNat % 16 + 1

/-- The static limits refuse the illegal encodings among the op codes of the table and no others. -/
theorem sri_limits {d a i : BitVec 9} {pos : BitVec 5} {len : BitVec 4} {op : Nat} {x : Instr} (h : (sriOps d a i pos len)[op]? = some x)
    (hpos : pos.toNat = i.toNat / 16) (hlen : len.toNat = i.toNat % 16) : wfErr x = none ↔ ¬SriIllegal op i := by
  unfold SriIllegal
  match op, h with
  | 6, rfl | 7, rfl | 8, rfl => rw [wfErr_of_one_check (p := i.toNat ≤ 31) rfl]; omega
  | 14, rfl => rw [wfErr_of_one_check (p := pos.toNat + len.toNat + 1 ≤ 32) rfl]; omega
  | 0, rfl | 1, rfl | 2, rfl | 3, rfl | 4, rfl | 5, rfl | 9, rfl | 10, rfl | 11, rfl | 12, rfl | 13, rfl => exact iff_of_true rfl (by omega)

/-- The fields of `sbfx` split its immediate. -/
theorem sbfx_pos (w : Word) : (fld w 4 5).toNat = (fld w 0 9).toNat / 16 := by
  simp only [fld, BitVec.extractLsb'_toNat, Nat.shiftRight_eq_div_pow]
  omega
theorem sbfx_len (w : Word) : (fld w 0 4).toNat = (fld w 0 9).toNat % 16 := by
  simp only [fld, BitVec.extractLsb'_toNat, Nat.shiftRight_eq_div_pow]
  omega

/-- An SRI word is refused where it is illegal, and is else the word of its op code. -/
theorem sri_word_decodes (w : Word) :
    (SriIllegal (fld w 27 4).toNat (fld w 0 9) → ∃ e, decodeWords .sri 1 w 0 = .error e) ∧
    (¬SriIllegal (fld w 27 4).toNat (fld w 0 9) → ∃ x, decodeWords .sri 1 w 0 = .ok ⟨x, w.getLsbD 31, 1⟩ ∧
      (sriOps (fld w 18 9) (fld w 9 9) (fld w 0 9) (fld w 4 5) (fld w 0 4))[(fld w 27 4).toNat]? = some x) := by
  cases h : (sriOps (fld w 18 9) (fld w 9 9) (fld w 0 9) (fld w 4 5) (fld w 0 4))[(fld w 27 4).toNat]? with
  | none =>
    have hd : decClass .sri none w = .error .unassigned := by rw [decClass, decSri_eq, h, Option.elim]
    have unlisted : 15 ≤ (fld w 27 4).toNat := List.getElem?_eq_none_iff.mp h
    have op15 : (fld w 27 4).toNat = 15 := by omega
    exact ⟨fun _ => ⟨_, decodeWords_unassigned (by decide) hd⟩, fun legal => absurd (.inl op15) legal⟩
  | some x =>
    have hd : decClass .sri none w = .ok x := by rw [decClass, decSri_eq, h, Option.elim]
    have hl : wfErr x = none ↔ ¬SriIllegal (fld w 27 4).toNat (fld w 0 9) := sri_limits h (sbfx_pos w) (sbfx_len w)
    exact ⟨fun ill => decodeWords_limit (by decide) hd fun hw => hl.mp hw ill,
      fun legal => ⟨x, decodeWords_ok (by decide) hd (hl.mpr legal), rfl⟩⟩

/-! Values. -/

theorem shiftCount_eq (b : Word) : shiftCount b = b.toNat % 32 := by simp [shiftCount]

theorem mulHighI_eq (a b : Word) : mulHighI a b = BitVec.ofInt 32 (a.toInt * b.toInt / 2 ^ 32) := by
  have hp : a.signExtend 64 * b.signExtend 64 = BitVec.ofInt 64 (a.toInt * b.toInt) := (BitVec.ofInt_mul ..).symm
  rw [mulHighI, hp]
  apply BitVec.eq_of_toNat_eq
  generalize a.toInt * b.toInt = z
  simp only [BitVec.extractLsb'_toNat, BitVec.toNat_ofInt, Nat.shiftRight_eq_div_pow]
  omega

theorem mulHighN_eq (a b : Word) : mulHighN a b = BitVec.ofNat 32 (a.toNat * b.toNat / 2 ^ 32) := by
  have hp : a.setWidth 64 * b.setWidth 64 = BitVec.ofNat 64 (a.toNat * b.toNat) := by
    rw [BitVec.ofNat_mul, BitVec.ofNat_toNat, BitVec.ofNat_toNat]
  rw [mulHighN, hp]
  apply BitVec.eq_of_toNat_eq
  generalize a.toNat * b.toNat = n
  simp only [BitVec.extractLsb'_toNat, BitVec.toNat_ofNat, Nat.shiftRight_eq_div_pow]
  omega

theorem truth_beq (a b : Word) : truth (a == b) = if a = b then 1 else 0 := by simp [truth]
theorem truth_slt (a b : Word) : truth (a.slt b) = if a.toInt < b.toInt then 1 else 0 := by simp [truth, BitVec.slt]
theorem truth_ult (a b : Word) : truth (a.ult b) = if a.toNat < b.toNat then 1 else 0 := by simp [truth, BitVec.ult]

/-- Where the strict and the weak comparison differ, the operands are the same word. -/
theorem choose_slt (a b x y : Word) (h : a = b → x = y) : (if a.slt b then x else y) = if a.toInt ≤ b.toInt then x else y := by
  simp only [BitVec.slt, decide_eq_true_eq]
  split
  · rw [if_pos (by omega)]
  · split
    · exact (h (BitVec.eq_of_toInt_eq (by omega))).symm
    · rfl

/-- The field of `len + 1` bits from bit `pos`. -/
theorem sbfx_value (x : Word) (pos : BitVec 5) (len : BitVec 4) :
    (x >>> pos.toNat) &&& BitVec.ofNat 32 (2 ^ (len.toNat + 1) - 1) = BitVec.ofNat 32 (x.toNat / 2 ^ pos.toNat % 2 ^ (len.toNat + 1)) := by
  have hl : 2 ^ (len.toNat + 1) ≤ 2 ^ 16 := Nat.pow_le_pow_right (by decide) len.isLt
  have hm : x.toNat / 2 ^ pos.toNat < 2 ^ 32 := Nat.lt_of_le_of_lt (Nat.div_le_self ..) x.isLt
  apply BitVec.eq_of_toNat_eq
  rw [BitVec.toNat_and, BitVec.toNat_ushiftRight, BitVec.toNat_ofNat, BitVec.toNat_ofNat, Nat.shiftRight_eq_div_pow,
    Nat.mod_eq_of_lt (by omega), Nat.and_two_pow_sub_one_eq_mod, Nat.mod_eq_of_lt (Nat.lt_of_le_of_lt (Nat.mod_le ..) hm)]

/-! What the words do. -/

section
variable {i : Instr} {s : State} {c : Ctx} {d a b : BitVec 9} {v : Word}

theorem srr_changes (f : Word → Word → Word) (hx : exec i s = srrWord i d a b f s) (hc : issueOf s = some c) (hw : wfErr i = none)
    (hv : f (getS c.g a.toNat) (getS c.g b.toNat) = v) : Changes i s c fun g => setS g d.toNat v :=
  changes_as hx hc hw rfl rfl (by rw [hv])

theorem sri_changes (f : Word → Word) (hx : exec i s = sriWord i d a f s) (hc : issueOf s = some c) (hw : wfErr i = none)
    (hv : f (getS c.g a.toNat) = v) : Changes i s c fun g => setS g d.toNat v :=
  changes_as hx hc hw rfl rfl (by rw [hv])

/-- A group word that breaks a static limit traps ILLEGAL (03 R43 step 1). -/
theorem word_traps_illegal {body : Ctx → Eff} (hx : exec i s = word i s body) (hc : issueOf s = some c) (hw : wfErr i ≠ none) :
    Traps i s c s .illegal 0 := by
  unfold Traps
  rw [hx]
  simp [word, hc, hw, endWord, issues, finish]

end

/-! The statements. -/

/-- Settles O7: the op codes are a table that decoder and encoder read alike, and each word is `srrWord` of its operation. -/
theorem srrWordsDecodeAndWriteTheirResult : Obligations.SrrWordsDecodeAndWriteTheirResult := by
  refine ⟨srr_word_decodes, ?_⟩
  intro s c d a b hc x y n gives
  have hn : shiftCount y = n := shiftCount_eq y
  exact ⟨srr_changes (· + ·) rfl hc rfl rfl, srr_changes (· - ·) rfl hc rfl rfl, srr_changes (· * ·) rfl hc rfl rfl,
    srr_changes mulHighI rfl hc rfl (mulHighI_eq x y), srr_changes mulHighN rfl hc rfl (mulHighN_eq x y),
    srr_changes (· &&& ·) rfl hc rfl rfl, srr_changes (· ||| ·) rfl hc rfl rfl, srr_changes (· ^^^ ·) rfl hc rfl rfl,
    srr_changes (fun x y => x <<< shiftCount y) rfl hc rfl (congrArg (x <<< ·) hn),
    srr_changes (fun x y => x >>> shiftCount y) rfl hc rfl (congrArg (x >>> ·) hn),
    srr_changes (fun x y => x.sshiftRight (shiftCount y)) rfl hc rfl (congrArg x.sshiftRight hn),
    srr_changes (fun x y => if x.slt y then x else y) rfl hc rfl (choose_slt x y x y id),
    srr_changes (fun x y => if x.slt y then y else x) rfl hc rfl (choose_slt x y y x Eq.symm),
    srr_changes (fun x y => truth (x == y)) rfl hc rfl (truth_beq x y),
    srr_changes (fun x y => truth (x.slt y)) rfl hc rfl (truth_slt x y),
    srr_changes (fun x y => truth (x.ult y)) rfl hc rfl (truth_ult x y)⟩

/-- Settles O8: the op codes are a table with static limits, and each word within them is `sriWord` of its operation. -/
theorem sriWordsWriteTheirResult : Obligations.SriWordsWriteTheirResult := by
  refine ⟨sri_word_decodes, ?_⟩
  intro s c d a i hc x y gives
  have shift_ok {w : Instr} (hw : checks w = [(decide (i.toNat ≤ 31), .shiftRange)]) : wfErr w = none ↔ i.toNat ≤ 31 :=
    wfErr_of_one_check hw
  have shift_bad {w : Instr} (h : 31 < i.toNat) (hw : checks w = [(decide (i.toNat ≤ 31), .shiftRange)]) : wfErr w ≠ none :=
    mt (shift_ok hw).mp (Nat.not_le_of_lt h)
  have field_ok (pos : BitVec 5) (len : BitVec 4) : wfErr (.sbfx d a pos len) = none ↔ pos.toNat + len.toNat + 1 ≤ 32 :=
    wfErr_of_one_check rfl
  exact ⟨sri_changes (· + imm9 i) rfl hc rfl rfl, sri_changes (imm9 i - ·) rfl hc rfl rfl, sri_changes (· * imm9 i) rfl hc rfl rfl,
    sri_changes (· &&& imm9 i) rfl hc rfl rfl, sri_changes (· ||| imm9 i) rfl hc rfl rfl, sri_changes (· ^^^ imm9 i) rfl hc rfl rfl,
    sri_changes (fun x => truth (x == imm9 i)) rfl hc rfl (truth_beq x y),
    sri_changes (fun x => truth (x.slt (imm9 i))) rfl hc rfl (truth_slt x y),
    sri_changes (fun x => truth (x.ult (imm9 i))) rfl hc rfl (truth_ult x y),
    sri_changes (fun x => if x.slt (imm9 i) then x else imm9 i) rfl hc rfl (choose_slt x y x y id),
    sri_changes (fun x => if x.slt (imm9 i) then imm9 i else x) rfl hc rfl (choose_slt x y y x Eq.symm),
    fun h => ⟨sri_changes (· <<< i.toNat) rfl hc ((shift_ok rfl).mpr h) rfl, sri_changes (· >>> i.toNat) rfl hc ((shift_ok rfl).mpr h) rfl,
      sri_changes (·.sshiftRight i.toNat) rfl hc ((shift_ok rfl).mpr h) rfl⟩,
    fun h => ⟨word_traps_illegal rfl hc (shift_bad h rfl), word_traps_illegal rfl hc (shift_bad h rfl),
      word_traps_illegal rfl hc (shift_bad h rfl)⟩,
    fun pos len => ⟨fun h => sri_changes (fun x => (x >>> pos.toNat) &&& BitVec.ofNat 32 (2 ^ (len.toNat + 1) - 1)) rfl hc
        ((field_ok pos len).mpr h) (sbfx_value x pos len),
      fun h => word_traps_illegal rfl hc (mt (field_ok pos len).mp (Nat.not_le_of_lt h))⟩⟩

end Sys2Proof.Laws.Scalar

/-! The word `wrs`: its illegal encodings and its writes (03 R48, R49, 19 R390 Table 19-23). -/
namespace Sys2Proof.Laws.SpecialWrite
open Sys2Proof.Machine Sys2Proof.Laws.Scalar

/-- The registers that Table 3-4 does not mark RO. -/
theorem writable_iff_mem (r : SReg) : r.writable = true ↔ r ∈ [.fx, .fxen, .fpm, .ix, .cpystat] := by
  cases r <;> decide

/-- The one static limit of `wrs`. -/
theorem wfErr_wrs_iff {r : SReg} {a : BitVec 9} : wfErr (.wrs r a) = none ↔ r.writable = true :=
  wfErr_of_one_check (e := .readOnly) (by simp [checks])

/-! Decoding. -/

section
variable {left : Nat} {w w2 : Word} (op : (fld w 25 6).toNat = 5)
include op

theorem decClass_wrs : decClass .ctl none w = need (fld w 10 6 == 0) .reservedBit
    (code (SReg.ofCode (fld w 0 10)) fun r => .ok (.wrs r (fld w 16 9))) := by
  simp only [decClass, decCtl, op]

theorem wrs_reserved_bits_refused (reserved : fld w 10 6 ≠ 0) : ∃ e, decodeWords .ctl left w w2 = .error e := by
  have hd : decClass .ctl none w = .error .reservedBit := by rw [decClass_wrs op, beq_false_of_ne reserved]; rfl
  exact ⟨_, decodeWords_unassigned (by decide) hd⟩

theorem wrs_unassigned_number_refused (clear : fld w 10 6 = 0) (unassigned : SReg.ofCode (fld w 0 10) = none) :
    ∃ e, decodeWords .ctl left w w2 = .error e := by
  have hd : decClass .ctl none w = .error .illegalCode := by rw [decClass_wrs op, clear, unassigned]; rfl
  exact ⟨_, decodeWords_unassigned (by decide) hd⟩

/-- `wrs` of a read-only register is a word of the table, which the static limit refuses. -/
theorem wrs_read_only_refused {r : SReg} (clear : fld w 10 6 = 0) (number : SReg.ofCode (fld w 0 10) = some r)
    (ro : ¬r.writable = true) : ∃ e, decodeWords .ctl left w w2 = .error e := by
  have hd : decClass .ctl none w = .ok (.wrs r (fld w 16 9)) := by rw [decClass_wrs op, clear, number]; rfl
  exact decodeWords_limit (by decide) hd (mt wfErr_wrs_iff.mp ro)

end

/-! Writing. -/

@[simp] theorem writeSpecial_frags (r : SReg) (v : Word) (g : Group) : (writeSpecial r v g).frags = g.frags := by
  cases r <;> rfl

/-- `wrs` of a register that may be written changes its group by `writeSpecial` of the value at issue, and nothing else. -/
theorem wrs_changes {r : SReg} {s : State} {c : Ctx} {a : BitVec 9} (hc : issueOf s = some c) (hw : r.writable = true) :
    Changes (.wrs r a) s c (writeSpecial r (getS c.g a.toNat)) :=
  changes_as rfl hc (wfErr_wrs_iff.mpr hw) rfl (writeSpecial_frags ..) rfl

/-! The statement. -/

/-- Settles O10: each of the three illegal encodings stops at its own check of the decoder, set reserved bits first, and each
writable register's row of Table 19-23 is `writeSpecial` of it. -/
theorem specialRegistersWrite : Obligations.SpecialRegistersWrite := by
  refine ⟨?_, fun s c a hc => ?_⟩
  · intro left w op illegal
    by_cases clear : fld w 10 6 = 0
    · obtain reserved | unassigned | ⟨r, number, ro⟩ := illegal
      · exact absurd clear reserved
      · exact wrs_unassigned_number_refused op clear unassigned
      · exact wrs_read_only_refused op clear number (mt (writable_iff_mem r).mp ro)
    · exact wrs_reserved_bits_refused op clear
  · exact ⟨wrs_changes (r := .fx) hc rfl, wrs_changes (r := .fxen) hc rfl, wrs_changes (r := .fpm) hc rfl,
      wrs_changes (r := .ix) hc rfl, wrs_changes (r := .cpystat) hc rfl⟩

end Sys2Proof.Laws.SpecialWrite
